-- ==== Sys2Proof/Word.lean ====
section
/-! DEFINITION. The word types: bytes, double words and the 64-bit words that registers, linear addresses and 64-bit
paging-structure entries are held in. A physical address is a natural number, "written in the
pseudocode as a natural number below 2^PAW" (R9). -/

namespace Sys2Proof

/-- One byte of physical memory (R32). -/
abbrev Byte := BitVec 8

/-- A 32-bit value: CPUID function numbers and results (R60), page-fault error codes (R108). -/
abbrev Dword := BitVec 32

/-- A 64-bit value: a register, a linear address (32 significant bits outside IA-32e mode), a paging-structure entry (a
32-bit entry is zero-extended). -/
abbrev Word := BitVec 64

end Sys2Proof
end

