-- ==== Sys2Proof/Config.lean ====
section
/-! DEFINITION. What an implementation fixes (the parameters P1 to P16 of R7) and the values the spec leaves open
(R10, R334). -/

namespace Sys2Proof

/-- The paging modes of R6, paging being on. Paging off is `none` where a mode is optional. -/
inductive PagingMode where
  /-- 32-bit paging without PAE. -/
  | mode32
  /-- 32-bit paging with PAE. -/
  | modePAE
  /-- IA-32e-mode paging. -/
  | modeIA32e
  deriving DecidableEq, Repr, Inhabited

/-- The kinds of access a TLB serves (P5, R29). -/
inductive Serves where
  /-- Instruction fetches only. -/
  | fetch
  /-- Reads and writes only. -/
  | data
  /-- Every access. -/
  | both
  deriving DecidableEq, Repr, Inhabited

/-- P13: what a change of the paging mode, of CR4.PSE or of IA32_EFER.NXE does to cached entries (R313). -/
inductive ModeChange where
  /-- Entries stay, tagged with their mode. -/
  | retain
  /-- Every entry is removed. -/
  | flush
  deriving DecidableEq, Repr, Inhabited

/-- P16, MEMORY_MODEL: the consistency model of ordinary loads and stores, a parameter the spec only constrains (R73, D22). The
steps of this machine are sequentially consistent, which is one of the orders either value allows (entry 17). -/
inductive MemoryModel where
  /-- One order of all accesses, which every agent sees. -/
  | sequential
  /-- Any weaker order that meets R73 and R74. -/
  | weaker
  deriving DecidableEq, Repr, Inhabited

/-- The parameters of R7. Every value of this record is a configuration the spec allows: the constraints
32 ≤ PAW ≤ 52 and HAS_PSE36 → PAW ≥ 36 are built into `Config.paw` and `Config.pse36` (entry 8). -/
structure Config where
  /-- P1, PAW less 32. -/
  pawOver32 : Fin 21
  /-- P2. -/
  hasIntel64 : Bool
  /-- P3. -/
  hasXd : Bool
  /-- P4 as enumerated; it counts only when PAW ≥ 36 (`Config.pse36`). -/
  hasPse36 : Bool
  /-- P5: the TLBs the processor implements, each by the kinds of access it serves. -/
  tlbs : List Serves
  /-- P6. -/
  hasPml4Cache : Bool
  /-- P7. -/
  hasPdpCache : Bool
  /-- P8. -/
  hasPdeCache : Bool
  /-- P9. -/
  fractureLarge : Bool
  /-- P10: "The model keeps the parameter and defaults it to false" (R7). -/
  altInvlpg : Bool := false
  /-- P11: the logical processors besides the first, each by the number of the physical processor it belongs to; the first
  belongs to physical processor 0, so NLP is one more than their number (entry 22). -/
  otherProcessors : List Nat
  /-- P13. -/
  modeChange : ModeChange
  /-- P14. -/
  pdptrLoadWithPagingOff : Bool
  /-- P15. -/
  pdptrCheckNotPresent : Bool
  /-- P16, HAS_READ_SIDE_EFFECT: the regions (first address, size) whose reads have side effects (R67, R70). -/
  readSideEffect : List (Nat × Nat)
  /-- P16, IS_RAM: the regions (first address, size) that are not ordinary memory (R70; entry 30). -/
  notRam : List (Nat × Nat)
  /-- P16. -/
  memoryModel : MemoryModel
  deriving DecidableEq, Repr, Inhabited

/-- P1: the physical-address width in bits. -/
def Config.paw (cfg : Config) : Nat := 32 + cfg.pawOver32.val

/-- P4: 4-MByte pages translate to 36-bit physical addresses; requires PAW ≥ 36 (R309, I39). -/
def Config.pse36 (cfg : Config) : Bool := cfg.hasPse36 && decide (36 ≤ cfg.paw)

/-- Whether an address lies in one of the regions (first address, size). -/
def inRegions (regions : List (Nat × Nat)) (pa : Nat) : Bool :=
  regions.any fun r => decide (r.1 ≤ pa) && decide (pa < r.1 + r.2)

/-- P16, IS_RAM(pa): whether the address holds ordinary memory (R70). No rule of the spec reads it (entry 30). -/
def Config.isRam (cfg : Config) (pa : Nat) : Bool := !inRegions cfg.notRam pa

/-- P16, HAS_READ_SIDE_EFFECT(pa) (R67, R70). -/
def Config.hasReadSideEffect (cfg : Config) (pa : Nat) : Bool := inRegions cfg.readSideEffect pa

/-- One resolution of the choices the spec leaves free (R10 `choose` and `may`). A step reads at most the fields its own
rules name; every value of every field is a behaviour the processor may show (entry 7). -/
structure Choice where
  /-- R133: which of the available alternatives T, C, R starts a translation (taken modulo their number). -/
  alternative : Nat
  /-- R177: which of the alternatives C, R makes the translation again when a TLB entry cannot complete a write. -/
  again : Nat
  /-- R136: true for (i), set the accessed bit of an upper entry; false for (ii), leave it 0. -/
  setAccessed : Bool
  /-- R196: whether a paging-structure-cache entry is created. -/
  cachePsc : Bool
  /-- R172, R264: whether a TLB entry is created from the leaf entry, and the kinds of access its TLB serves. -/
  cacheTlb : Option Serves
  /-- R267: the ordinary entries created from a large page: the 4-KByte piece (modulo their number) and its TLB. -/
  fractures : List (Nat × Serves)
  /-- R229, R230: the TLB entries removed besides the required ones, one bit for each remaining entry. -/
  dropTlb : Nat
  /-- R229, R230: the same for the PML4 cache. -/
  dropPml4 : Nat
  /-- R229, R230: the same for the PDP cache. -/
  dropPdp : Nat
  /-- R229, R230: the same for the PDE cache. -/
  dropPde : Nat
  /-- R230: the speculative walks the eviction agent drops, one bit each. -/
  dropWalks : Nat
  /-- R65, R330: which of the remaining pages of an access is translated next (modulo their number). -/
  page : Nat
  /-- R65, R267: whether an ordinary TLB entry derived from a large page, used for the first byte of the access in that page,
  translates the whole large page, or its own 4-KByte page alone, where the paging structures now map neither (entry 15). -/
  wholePage : Bool
  /-- R299, D5: which of the remaining entries a PDPTR load reads next (modulo their number). -/
  pdpte : Nat
  /-- R65, I33: the bytes a partly faulting store leaves where it had already written, 8 bits each. -/
  torn : Nat
  /-- R150: whether a speculative translation that succeeds is followed by a physical read. -/
  specRead : Bool
  deriving DecidableEq, Repr, Inhabited

/-- The four result registers of CPUID (R334). -/
inductive CpuidReg where
  | eax | ebx | ecx | edx
  deriving DecidableEq, Repr

/-- The parameters an implementation fixes: no value of it is known (R7; entry 8). -/
opaque Config.implementation : Config

/-- The configuration of the machine that `State.reset` resets: the implementation's, with the alternative INVLPG behaviour off,
its default (R2, R7 P10; entry 8). -/
def Config.atReset : Config := { Config.implementation with altInvlpg := false }

/-- The n-th free choice a run makes beyond those its state lists: nothing is known of it (R10; entry 7). -/
opaque Config.freeChoice : Nat → Choice

/-- The bits of a CPUID result that the spec does not define, by function and register: "the model returns an unspecified
value for it" (R334, I34; entry 12). -/
opaque Config.cpuidFree : Dword → CpuidReg → Dword

end Sys2Proof
end

