-- ==== Sys2Proof/Syntax.lean ====
section
/-! DEFINITION. The instructions: one constructor for each row of spec/opcode_table.json, with the operands its bytes
name (R109). -/

namespace Sys2Proof

/-- The general registers ModRM and SIB name, in the order of their numbers 0 to 7 (PRESUMED, entry 1). -/
inductive Reg where
  | rax | rcx | rdx | rbx | rsp | rbp | rsi | rdi
  deriving DecidableEq, Repr, Inhabited

/-- The displacement of a memory operand with a base register. -/
inductive Disp where
  /-- ModRM.mod = 00. -/
  | none
  /-- ModRM.mod = 01. -/
  | disp8 (d : BitVec 8)
  /-- ModRM.mod = 10. -/
  | disp32 (d : Dword)
  deriving DecidableEq, Repr, Inhabited

/-- The memory forms of ModRM (mod ≠ 11) with SIB and displacement (PRESUMED, entry 4). -/
inductive MemOperand where
  /-- ModRM.rm names the base register. -/
  | base (r : Reg) (d : Disp)
  /-- mod = 00, rm = 101: a 32-bit displacement alone; relative to the next instruction in IA-32e mode. -/
  | disp (d : Dword)
  /-- rm = 100: SIB with a base register; no index when SIB.index = 100. -/
  | sib (scale : BitVec 2) (index : Option Reg) (r : Reg) (d : Disp)
  /-- rm = 100, mod = 00, SIB.base = 101: SIB without a base register. -/
  | sibDisp (scale : BitVec 2) (index : Option Reg) (d : Dword)
  deriving DecidableEq, Repr, Inhabited

/-- The instructions of spec/opcode_table.json. -/
inductive Instr where
  /-- INVLPG m (R220). -/
  | invlpg (m : MemOperand)
  /-- MOV CR0, r (R305). -/
  | movCr0 (r : Reg)
  /-- MOV CR3, r (R222). -/
  | movCr3 (r : Reg)
  /-- MOV CR4, r (R224). -/
  | movCr4 (r : Reg)
  /-- WRMSR, with ECX = C0000080H the write of IA32_EFER (R331). -/
  | wrmsr
  /-- CPUID (R334). -/
  | cpuid
  /-- HLT (R336). -/
  | hlt
  deriving DecidableEq, Repr, Inhabited

/-- Why the decoder rejects a sequence of bytes. -/
inductive DecodeError where
  /-- The bytes end before the instruction does. -/
  | truncated
  /-- The first byte, or the byte after 0F, belongs to no row of the table: the general instruction set is out of scope (R5). -/
  | notInTable (opcode : Byte)
  /-- 0F 01 with ModRM.reg ≠ 7: another instruction, no row of the table. -/
  | notInvlpg (modrm : Byte)
  /-- 0F 01 /7 with ModRM.mod = 11: "ModRM.mod != 11B" (R109). -/
  | invlpgRegisterForm (modrm : Byte)
  /-- 0F 22 naming a control register other than CR0, CR3 and CR4: no row of the table. -/
  | otherControlRegister (modrm : Byte)
  deriving DecidableEq, Repr

end Sys2Proof
end

