-- ==== Sys2Proof/WellFormed.lean ====
section
/-! DEFINITION. The checks on instruction terms: a well-formed term is one that some bytes decode to. -/

namespace Sys2Proof

/-- A base register with no displacement cannot be RBP: ModRM (or SIB) 101 with mod = 00 means a displacement instead. -/
def Disp.allows : Disp → Reg → Bool
  | .none, r => r != .rbp
  | _, _ => true

/-- An index register cannot be RSP (SIB.index = 100 means no index); without an index the scale is written 0. -/
def indexOk (scale : BitVec 2) : Option Reg → Bool
  | .none => scale == 0
  | some r => r != .rsp

/-- The checks on a memory operand. -/
def MemOperand.wf : MemOperand → Bool
  | .base r d => r != .rsp && d.allows r
  | .disp _ => true
  | .sib scale index r d => indexOk scale index && d.allows r
  | .sibDisp scale index _ => indexOk scale index

/-- The checks on an instruction. -/
def Instr.wf : Instr → Bool
  | .invlpg m => m.wf
  | .movCr0 _ => true
  | .movCr3 _ => true
  | .movCr4 _ => true
  | .wrmsr => true
  | .cpuid => true
  | .hlt => true

end Sys2Proof
end

