-- ==== Sys2Proof/Decode.lean ====
section
/-! DEFINITION. The decoder, total on any bytes and rejecting by name, and the encoder, both from the encodings of R109
and spec/opcode_table.json; the reading of the table's words. -/

namespace Sys2Proof

/-- The register with a number (PRESUMED, entry 1). -/
def Reg.ofNum (n : BitVec 3) : Reg :=
  match n.toNat with
  | 0 => .rax
  | 1 => .rcx
  | 2 => .rdx
  | 3 => .rbx
  | 4 => .rsp
  | 5 => .rbp
  | 6 => .rsi
  | _ => .rdi

/-- The number of a register. -/
def Reg.num : Reg → BitVec 3
  | .rax => 0
  | .rcx => 1
  | .rdx => 2
  | .rbx => 3
  | .rsp => 4
  | .rbp => 5
  | .rsi => 6
  | .rdi => 7

/-- ModRM.mod, and SIB.scale: bits 7:6. -/
def modField (b : Byte) : BitVec 2 := b.extractLsb' 6 2

/-- ModRM.reg, and SIB.index: bits 5:3. -/
def regField (b : Byte) : BitVec 3 := b.extractLsb' 3 3

/-- ModRM.rm, and SIB.base: bits 2:0. -/
def rmField (b : Byte) : BitVec 3 := b.extractLsb' 0 3

/-- Takes a 32-bit displacement, little-endian, from the bytes. -/
def takeDisp32 : List Byte → Except DecodeError (Dword × List Byte)
  | b0 :: b1 :: b2 :: b3 :: rest => .ok (b3 ++ b2 ++ b1 ++ b0, rest)
  | _ => .error .truncated

/-- Takes the displacement that ModRM.mod calls for. -/
def takeDisp (mod : BitVec 2) (bs : List Byte) : Except DecodeError (Disp × List Byte) :=
  if mod = 0 then .ok (.none, bs)
  else if mod = 1 then
    match bs with
    | b :: rest => .ok (.disp8 b, rest)
    | [] => .error .truncated
  else
    match takeDisp32 bs with
    | .ok (d, rest) => .ok (.disp32 d, rest)
    | .error e => .error e

/-- The index register of a SIB byte: 100 means none. -/
def sibIndex (b : Byte) : Option Reg :=
  if regField b = 4 then none else some (Reg.ofNum (regField b))

/-- The scale of a SIB byte; it means nothing without an index and then reads 0. -/
def sibScale (b : Byte) : BitVec 2 :=
  if regField b = 4 then 0 else modField b

/-- Decodes the operand after a ModRM byte of memory form (mod ≠ 11). -/
def decodeMem (modrm : Byte) (bs : List Byte) : Except DecodeError (MemOperand × List Byte) :=
  if rmField modrm = 4 then
    match bs with
    | [] => .error .truncated
    | s :: bs' =>
      if rmField s = 5 ∧ modField modrm = 0 then
        match takeDisp32 bs' with
        | .ok (d, rest) => .ok (.sibDisp (sibScale s) (sibIndex s) d, rest)
        | .error e => .error e
      else
        match takeDisp (modField modrm) bs' with
        | .ok (d, rest) => .ok (.sib (sibScale s) (sibIndex s) (Reg.ofNum (rmField s)) d, rest)
        | .error e => .error e
  else if rmField modrm = 5 ∧ modField modrm = 0 then
    match takeDisp32 bs with
    | .ok (d, rest) => .ok (.disp d, rest)
    | .error e => .error e
  else
    match takeDisp (modField modrm) bs with
    | .ok (d, rest) => .ok (.base (Reg.ofNum (rmField modrm)) d, rest)
    | .error e => .error e

/-- 0F 01 /7, memory form (R109): INVLPG. -/
def decodeInvlpg (modrm : Byte) (bs : List Byte) : Except DecodeError (Instr × List Byte) :=
  if regField modrm ≠ 7 then .error (.notInvlpg modrm)
  else if modField modrm = 3 then .error (.invlpgRegisterForm modrm)
  else
    match decodeMem modrm bs with
    | .ok (m, rest) => .ok (.invlpg m, rest)
    | .error e => .error e

/-- 0F 22 /r (R109): ModRM.reg selects the control register, ModRM.mod is ignored. -/
def decodeMovCr (modrm : Byte) (bs : List Byte) : Except DecodeError (Instr × List Byte) :=
  let r := Reg.ofNum (rmField modrm)
  if regField modrm = 0 then .ok (.movCr0 r, bs)
  else if regField modrm = 3 then .ok (.movCr3 r, bs)
  else if regField modrm = 4 then .ok (.movCr4 r, bs)
  else .error (.otherControlRegister modrm)

/-- The rows whose first byte is 0F. -/
def decodeTwoByte (op : Byte) (bs : List Byte) : Except DecodeError (Instr × List Byte) :=
  if op = 0x30 then .ok (.wrmsr, bs)
  else if op = 0xA2 then .ok (.cpuid, bs)
  else if op = 0x01 then
    match bs with
    | m :: rest => decodeInvlpg m rest
    | [] => .error .truncated
  else if op = 0x22 then
    match bs with
    | m :: rest => decodeMovCr m rest
    | [] => .error .truncated
  else .error (.notInTable op)

/-- Decodes the instruction at the start of some bytes, in instruction-stream order; answers it and the bytes after it. -/
def decode : List Byte → Except DecodeError (Instr × List Byte)
  | [] => .error .truncated
  | op :: bs =>
    if op = 0xF4 then .ok (.hlt, bs)
    else if op = 0x0F then
      match bs with
      | [] => .error .truncated
      | op' :: rest => decodeTwoByte op' rest
    else .error (.notInTable op)

/-- A ModRM or SIB byte from its fields. -/
def packFields (mod : BitVec 2) (reg rm : BitVec 3) : Byte := mod ++ reg ++ rm

/-- The bytes of a 32-bit displacement, little-endian. -/
def encodeDisp32 (d : Dword) : List Byte :=
  [d.extractLsb' 0 8, d.extractLsb' 8 8, d.extractLsb' 16 8, d.extractLsb' 24 8]

/-- ModRM.mod for a displacement. -/
def Disp.mod : Disp → BitVec 2
  | .none => 0
  | .disp8 _ => 1
  | .disp32 _ => 2

/-- The bytes of a displacement. -/
def Disp.encode : Disp → List Byte
  | .none => []
  | .disp8 d => [d]
  | .disp32 d => encodeDisp32 d

/-- SIB.index for an index register. -/
def indexField : Option Reg → BitVec 3
  | .none => 4
  | some r => r.num

/-- The ModRM byte (with ModRM.reg = `reg`), SIB and displacement of a memory operand. -/
def encodeMem (reg : BitVec 3) : MemOperand → List Byte
  | .base r d => packFields d.mod reg r.num :: d.encode
  | .disp d => packFields 0 reg 5 :: encodeDisp32 d
  | .sib scale index r d => packFields d.mod reg 4 :: packFields scale (indexField index) r.num :: d.encode
  | .sibDisp scale index d => packFields 0 reg 4 :: packFields scale (indexField index) 5 :: encodeDisp32 d

/-- The bytes of an instruction, in instruction-stream order (R109); the ignored ModRM.mod of MOV to CRn is written 11. -/
def encode : Instr → List Byte
  | .invlpg m => 0x0F :: 0x01 :: encodeMem 7 m
  | .movCr0 r => [0x0F, 0x22, packFields 3 0 r.num]
  | .movCr3 r => [0x0F, 0x22, packFields 3 3 r.num]
  | .movCr4 r => [0x0F, 0x22, packFields 3 4 r.num]
  | .wrmsr => [0x0F, 0x30]
  | .cpuid => [0x0F, 0xA2]
  | .hlt => [0xF4]

/-- How many bytes a displacement takes. -/
def Disp.length : Disp → Nat
  | .none => 0
  | .disp8 _ => 1
  | .disp32 _ => 4

/-- How many bytes an instruction takes (R109). -/
def Instr.length : Instr → Nat
  | .invlpg (.base _ d) => 3 + d.length
  | .invlpg (.disp _) => 7
  | .invlpg (.sib _ _ _ d) => 4 + d.length
  | .invlpg (.sibDisp _ _ _) => 8
  | .movCr0 _ => 3
  | .movCr3 _ => 3
  | .movCr4 _ => 3
  | .wrmsr => 2
  | .cpuid => 2
  | .hlt => 1

/-- The longest instruction of the table in bytes: INVLPG with SIB and a 32-bit displacement. -/
def maxLength : Nat := 8

/-- The bytes of a table word, first byte most significant, as spec/opcode_table.json numbers its bits ("match and mask are
over the first three bytes in instruction-stream order, first byte most significant"). -/
def bytesFirstHigh (w : Nat) : Nat → List Byte
  | 0 => []
  | n + 1 => BitVec.ofNat 8 (w >>> (8 * n)) :: bytesFirstHigh w n

/-- The bytes of a word whose first byte is least significant. -/
def bytesFirstLow (w : Nat) : Nat → List Byte
  | 0 => []
  | n + 1 => BitVec.ofNat 8 w :: bytesFirstLow (w >>> 8) n

/-- Bytes followed by zeros up to the longest instruction. -/
def padBytes (bs : List Byte) : List Byte := bs ++ List.replicate (maxLength - bs.length) 0

/-- Whether some bytes decode. -/
def decodes (bs : List Byte) : Bool :=
  match decode bs with
  | .ok _ => true
  | .error _ => false

/-- The bytes, as memory holds them, of an instruction of `nbits` bits whose bits are `w`: the numbering of the table, and
for a word that names no row under it, the numbering with the first byte least significant. No word of a row is
ambiguous (entry 19). -/
def tableBytes (nbits w : Nat) : List Byte :=
  let high := padBytes (bytesFirstHigh w (nbits / 8))
  if decodes high then high else padBytes (bytesFirstLow w (nbits / 8))

/-- The instruction the decoder reads from an instruction whose bits are `w`, numbered as the opcode table numbers them. -/
def decodeTableWord (nbits w : Nat) : Option Instr :=
  match decode (tableBytes nbits w) with
  | .ok (i, _) => some i
  | .error _ => none

end Sys2Proof
end

