-- ==== Sys2Proof/Machine/State.lean ====
section
/-! DEFINITION. The state of the machine (R20): one physical memory, the logical processors with their registers and hidden
state, and the model's own fields (what the agents do next); its value after reset; the reasons a step can stop. -/

namespace Sys2Proof.Machine

/-- The kind of an access (R10, `acc.kind`). -/
inductive AccessKind where
  | read | write | fetch
  deriving DecidableEq, Repr, Inhabited

/-- The access descriptor (R10): `user` is CPL = 3 when the access is made, `spec` marks a speculative access. -/
structure Acc where
  kind : AccessKind
  user : Bool
  spec : Bool
  deriving DecidableEq, Repr, Inhabited

/-- The rights of a translation: the AND of R/W, the AND of U/S, the OR of XD over the entries used (R139). -/
structure Rights where
  rw : Bool
  us : Bool
  xd : Bool
  deriving DecidableEq, Repr, Inhabited

/-- Whether a TLB entry is keyed by a page number or by a large-page number (R29). -/
inductive PageSize where
  | ordinary | large
  deriving DecidableEq, Repr, Inhabited

/-- A TLB entry (R29). -/
structure TlbEntry where
  /-- The paging mode at creation (D13). -/
  mode : PagingMode
  size : PageSize
  /-- The page number, or the large-page number. -/
  key : Nat
  /-- The physical address of the frame, shifted right by the offset width. -/
  frame : Nat
  rights : Rights
  /-- The dirty bit of the leaf entry at creation. -/
  dirty : Bool
  global : Bool
  /-- An ordinary translation derived from a large page (P9). -/
  fromLarge : Bool
  /-- The kinds of access the TLB that holds the entry serves. -/
  serves : Serves
  deriving DecidableEq, Repr, Inhabited

/-- A paging-structure-cache entry (R30). -/
structure PscEntry where
  /-- The paging mode at creation (D13). -/
  mode : PagingMode
  key : Nat
  /-- The physical address of the next paging structure. -/
  addr : Nat
  rights : Rights
  deriving DecidableEq, Repr, Inhabited

/-- The levels of the paging structures, by the entry they hold (R31: levels 4, 3, 2, 1). -/
inductive Level where
  | pml4e | pdpe | pde | pte
  deriving DecidableEq, Repr, Inhabited

/-- A walk in progress (R31). -/
structure Walk where
  la : Word
  acc : Acc
  /-- The paging mode when the walk started. -/
  mode : PagingMode
  /-- The level of the next entry to read. -/
  level : Level
  /-- The physical address of the structure that holds that entry. -/
  base : Nat
  rights : Rights
  /-- Every entry passed so far had its accessed bit 1 when the walk left it (D7). -/
  allA : Bool
  deriving DecidableEq, Repr, Inhabited

/-- The part of an access that lies in one 4-KByte piece of the linear-address space (R65): its first linear address, its offset
in the access, its length. The pieces of one large page are translated together (entry 15). -/
structure Piece where
  la : Word
  off : Nat
  len : Nat
  deriving DecidableEq, Repr, Inhabited

/-- Where a software access stands (R330). -/
inductive Phase where
  /-- The next page is to be chosen and its translation begun. -/
  | choosing
  /-- The translation of one page is walking; this walk is the non-speculative member of WALKS (R31). -/
  | walking (p : Piece) (w : Walk)
  /-- The bytes of `p` are translated, not yet accessed: "the translation and the physical access are not one event" (R148). -/
  | translated (p : Piece) (pa : Nat)
  deriving DecidableEq, Repr, Inhabited

/-- A software access in progress (R330): a `Load`, `Store` or `Fetch` of the enclosing instruction set, or the step's own
fetch of the next instruction. -/
structure Access where
  kind : AccessKind
  /-- CPL = 3 when the access was made (R26). -/
  user : Bool
  /-- The step's fetch of the instruction at `rip`. -/
  instruction : Bool
  /-- The linear address of its first byte. -/
  la : Word
  /-- A write: the bytes to write. Else: the bytes read so far. -/
  bytes : List Byte
  /-- The pieces whose translation is not yet begun. -/
  todo : List Piece
  /-- The pieces translated with the one of the phase, being in the same page, each with its physical address (R65). -/
  covered : List (Piece × Nat)
  /-- The linear addresses of the pieces with which a page of the access was translated so far (R65, R330). -/
  parts : List Word
  /-- The physical addresses and lengths already written (R65). -/
  done : List (Nat × Nat)
  phase : Phase
  deriving DecidableEq, Repr, Inhabited

/-- An exception as it is reported to the enclosing model (R358). -/
inductive Exception where
  /-- #PF for a linear address, with its error code (R350). -/
  | pageFault (la : Word) (ec : Dword)
  /-- #GP with its error code, 0 (R356). -/
  | generalProtection (ec : Dword)
  deriving DecidableEq, Repr, Inhabited

/-- The general registers (PRESUMED, entry 1). -/
structure Gprs where
  rax : Word
  rcx : Word
  rdx : Word
  rbx : Word
  rsp : Word
  rbp : Word
  rsi : Word
  rdi : Word
  deriving DecidableEq, Repr, Inhabited

/-- The four PDPTR registers (R28). -/
structure Pdptrs where
  p0 : Word
  p1 : Word
  p2 : Word
  p3 : Word
  deriving DecidableEq, Repr, Inhabited

/-- A MOV to a control register, with its operand (R222, R224, R305). -/
inductive ControlWrite where
  | cr0 (v : Word)
  | cr3 (v : Word)
  | cr4 (v : Word)
  deriving DecidableEq, Repr, Inhabited

/-- A load of the PDPTR registers in progress: "four separate reads inside one operation" (R299, D5). -/
structure PdptrLoad where
  /-- The instruction that loads them and completes when all four are read. -/
  write : ControlWrite
  /-- The entries not yet read, by number. -/
  todo : List Nat
  /-- The entries read so far. -/
  entries : Pdptrs
  deriving DecidableEq, Repr, Inhabited

/-- A logical processor (R20). -/
structure LP where
  /-- The number of the physical processor it belongs to (R7 P11, R376): no step changes it (entry 22). -/
  physical : Nat
  /-- R21. -/
  cr0 : Word
  /-- R22. -/
  cr2 : Word
  /-- R23. -/
  cr3 : Word
  /-- R24. -/
  cr4 : Word
  /-- IA32_EFER, R25. -/
  efer : Word
  /-- R26. -/
  cpl : BitVec 2
  /-- R28. -/
  pdptr : Pdptrs
  /-- R29, a finite set held as a list without repeats. -/
  tlb : List TlbEntry
  /-- R30. -/
  pml4c : List PscEntry
  /-- R30. -/
  pdpc : List PscEntry
  /-- R30. -/
  pdec : List PscEntry
  /-- R31: the speculative walks in progress, one record for each translation, so that two equal records may stand in the list
  (DESIGN CHOICE, entry 33). -/
  walks : List Walk
  /-- The software access in progress; its walk is the non-speculative member of WALKS (R31, R330). -/
  access : Option Access
  /-- The PDPTR load in progress, of a MOV to a control register that has begun and not ended (R299, D5). -/
  loading : Option PdptrLoad
  /-- R336: software issues no further operation until it is woken. -/
  halted : Bool
  /-- The general registers (entry 1). -/
  gpr : Gprs
  /-- The linear address of the next instruction (the model's own, entry 1). -/
  rip : Word
  /-- The exception reported and not yet taken over by the enclosing model (the model's own, entry 9). -/
  exc : Option Exception
  /-- The bytes the last completed `Load` or `Fetch` returned (the model's own, entry 9). -/
  result : List Byte
  deriving DecidableEq, Repr, Inhabited

/-- What moves next: an agent of R13 or the enclosing model (entry 7). -/
inductive Input where
  /-- The acting logical processor's software takes its next step. -/
  | software
  /-- `Load(lp, la, n)` (R330). -/
  | load (la : Word) (n : Nat)
  /-- `Store(lp, la, n, v)` (R330), the bytes of `v` in memory order. -/
  | store (la : Word) (bytes : List Byte)
  /-- `Fetch(lp, la, n)` (R330). -/
  | fetch (la : Word) (n : Nat)
  /-- `SpecAccess(lp, kind, la)`, `kind` being fetch or read (R150). -/
  | specAccess (fetch : Bool) (la : Word)
  /-- The walker advances the n-th speculative walk (R136). -/
  | walkStep (n : Nat)
  /-- `Evict` (R230). -/
  | evict
  /-- `PhysStore` (R333): another writer of memory. -/
  | physStore (pa : Nat) (bytes : List Byte)
  /-- The n-th other logical processor is the one that acts from now on (R13, R371). -/
  | schedule (n : Nat)
  /-- The enclosing model wakes the halted logical processor (R336). -/
  | wake
  /-- The enclosing model has taken over the reported exception, or transfers control: execution goes on at `rip` with
  this CPL (R358, R26). -/
  | resume (rip : Word) (cpl : BitVec 2)
  /-- The enclosing instruction set writes a general register. -/
  | setReg (r : Reg) (v : Word)
  deriving DecidableEq, Repr, Inhabited

/-- Physical memory: the listed bytes, addresses strictly rising, no listed byte 0; an unlisted byte reads 0 (R32; entry 6). -/
abbrev Memory := List Host.Cell

/-- The state of the machine. -/
structure State where
  /-- The parameters of R7: no step changes them. -/
  cfg : Config
  /-- R32. -/
  mem : Memory
  /-- The logical processor that acts. -/
  lp : LP
  /-- The other logical processors (R20, R376). -/
  others : List LP
  /-- What moves next (entry 7). -/
  inputs : List Input
  /-- The next resolutions of free choices; when the list is empty, `Config.freeChoice drawn` (entry 7). -/
  choices : List Choice
  /-- How many free choices `Config.freeChoice` has supplied. -/
  drawn : Nat
  /-- The physical addresses with read side effects that accesses have read, last first (R67; entry 24). -/
  sideEffects : List Nat
  deriving DecidableEq, Repr, Inhabited

/-- Why a step stops with a fault. -/
inductive Fault where
  /-- Raised by a `PhysStore` to an address at or above 2^PAW, which does not exist (R32). Safe: the machine has no such
  byte, and nothing is claimed of the store. -/
  | physicalAddressAbsent (pa : Nat)
  deriving DecidableEq, Repr

/-- Why a step has no meaning. -/
inductive Refusal where
  /-- Raised by `exec` for an instruction without a meaning. Safe: nothing is claimed of it. No arm raises it. -/
  | notModelled (mnemonic : String)
  /-- Raised by an access, an instruction fetch or INVLPG at a non-canonical linear address in IA-32e mode: "the model refuses
  such an access (gives it no meaning)" (R131, D20). Safe: nothing is claimed of it. -/
  | nonCanonical (la : Word)
  /-- Raised by the step when the bytes at `rip` are no row of the opcode table: the general instruction set is out of scope
  (R5). Safe: nothing is claimed of it. -/
  | notAnInstruction (e : DecodeError)
  deriving DecidableEq, Repr

/-- A logical processor after reset (R37, R390; entries 2, 5). -/
def LP.reset : LP where
  physical := 0
  cr0 := 0x60000010
  cr2 := 0
  cr3 := 0
  cr4 := 0
  efer := 0
  cpl := 0
  pdptr := ⟨0, 0, 0, 0⟩
  tlb := []
  pml4c := []
  pdpc := []
  pdec := []
  walks := []
  access := none
  loading := none
  halted := false
  gpr := ⟨0, 0, 0x600, 0, 0, 0, 0, 0⟩
  rip := 0xFFFFFFF0
  exc := none
  result := []

/-- The machine after reset: every logical processor in the reset state (R376), each in its physical processor; nothing listed in
memory, no input waiting, the implementation's own parameters (entries 6, 7, 8, 22). -/
def State.reset : State where
  cfg := Config.atReset
  mem := []
  lp := LP.reset
  others := Config.atReset.otherProcessors.map fun n => { LP.reset with physical := n }
  inputs := []
  choices := []
  drawn := 0
  sideEffects := []

end Sys2Proof.Machine
end

