-- ==== Sys2Proof/Machine/Bits.lean ====
section
/-! DEFINITION. Fields of words and concatenation of fields (R8), and finite sets held as lists without repeats. -/

namespace Sys2Proof.Machine

/-- `v[hi:lo]`, an unsigned value (R8); 0 for an empty range. -/
def field (v : Word) (hi lo : Nat) : Nat := (v.toNat >>> lo) % 2 ^ (hi + 1 - lo)

/-- `v[i]` (R8). -/
def bit (v : Word) (i : Nat) : Bool := v.getLsbD i

/-- `hi ++ lo`, `lo` being `width` bits wide (R8). -/
def cat (hi width lo : Nat) : Nat := hi * 2 ^ width + lo

/-- `v` with bit `i` set to `b`. -/
def putBit (v : Word) (i : Nat) (b : Bool) : Word :=
  if b then v ||| (1 : Word) <<< i else v &&& ~~~((1 : Word) <<< i)

/-- Adds an element to a finite set. -/
def addTo {α : Type} [DecidableEq α] (x : α) (l : List α) : List α := if x ∈ l then l else x :: l

/-- Removes the elements a mask names, one bit for each: the form of `may{remove any of these}` (R229). -/
def thin {α : Type} (mask : Nat) : List α → List α
  | [] => []
  | x :: xs => if mask.testBit 0 then thin (mask / 2) xs else x :: thin (mask / 2) xs

/-- The `n`-th element modulo the length; `d` of an empty list: the form of `choose x in S` (R10). -/
def pick {α : Type} (d : α) (l : List α) (n : Nat) : α := l.getD (n % l.length) d

end Sys2Proof.Machine
end

