-- ==== Sys2Proof/Machine/Formats.lean ====
section
/-! DEFINITION. The formats the hardware decodes (R90): the fields of a linear address and the keys of the caches (R91),
the fields of a paging-structure entry (R92 to R103), reserved bits (R104), the assembly of addresses (R106, R107). -/

namespace Sys2Proof.Machine

/-- `Canonical(la)`: bits 63:48 all equal bit 47 (R131). -/
def canonical (la : Word) : Bool := la == (la.setWidth 48).signExtend 64

/-- The index into the paging structure of a level (R91). -/
def indexOf (m : PagingMode) (l : Level) (la : Word) : Nat :=
  match l with
  | .pml4e => field la 47 39
  | .pdpe => field la 38 30
  | .pde => if m = .mode32 then field la 31 22 else field la 29 21
  | .pte => if m = .mode32 then field la 21 12 else field la 20 12

/-- The width of the offset in a large page: 4-MByte pages in Mode32, else 2-MByte pages (R9). -/
def largeBits (m : PagingMode) : Nat := if m = .mode32 then 22 else 21

/-- The page number of a linear address, the key of an ordinary TLB entry (R91). -/
def pageNumber (m : PagingMode) (la : Word) : Nat :=
  if m = .modeIA32e then field la 47 12 else field la 31 12

/-- The large-page number of a linear address, the key of a large-page TLB entry and of the PDE cache (R91). -/
def largePageNumber (m : PagingMode) (la : Word) : Nat :=
  match m with
  | .modeIA32e => field la 47 21
  | .modePAE => field la 31 21
  | .mode32 => field la 31 22

/-- The large-page number that holds an ordinary key (43_invalidation.md, `lpnOfKey`). -/
def largeOfKey (m : PagingMode) (key : Nat) : Nat := key >>> (largeBits m - 12)

/-- The key of the paging-structure cache that holds entries of a level (R91, R195); PTEs are not cached. -/
def pscKey (m : PagingMode) (l : Level) (la : Word) : Nat :=
  match l with
  | .pml4e => field la 47 39
  | .pdpe => field la 47 30
  | .pde => largePageNumber m la
  | .pte => pageNumber m la

/-- The size of a paging-structure entry in bytes (R66). -/
def entryBytes (m : PagingMode) : Nat := if m = .mode32 then 4 else 8

/-- The width of the address fields of a mode: 32 bits in Mode32, else PAW (R93, R102). -/
def addrWidth (cfg : Config) (m : PagingMode) : Nat := if m = .mode32 then 32 else cfg.paw

/-- The physical address of the entry of index `idx` in the structure at `base`: `base[PAW-1:12] ++ idx ++ 000`, in
Mode32 `base[31:12] ++ idx ++ 00` (R106, R136, R307). -/
def entryAddr (cfg : Config) (m : PagingMode) (base : Nat) (idx : Nat) : Nat :=
  cat ((base >>> 12) % 2 ^ (addrWidth cfg m - 12)) 12 (idx * entryBytes m)

/-- The page frame in a PTE, or the next structure in an upper entry, shifted right by 12 (R93, R107). -/
def frameField (cfg : Config) (m : PagingMode) (e : Word) : Nat := field e (addrWidth cfg m - 1) 12

/-- `Addr(e)`: the physical address of the next paging structure (R93, R102). -/
def nextBase (cfg : Config) (m : PagingMode) (e : Word) : Nat := cat (frameField cfg m e) 12 0

/-- The large-page frame number in a PDE with PS = 1 (R98, R107, R309). -/
def largeFrame (cfg : Config) (m : PagingMode) (e : Word) : Nat :=
  if m = .mode32 then
    if cfg.pse36 then cat (field e 16 13) 10 (field e 31 22) else field e 31 22
  else field e (cfg.paw - 1) 21

/-- The physical address in a 4-KByte page (R106). -/
def pageAddr (frame : Nat) (la : Word) : Nat := cat frame 12 (field la 11 0)

/-- The physical address in a large page (R106, R309). -/
def largeAddr (m : PagingMode) (frame : Nat) (la : Word) : Nat :=
  cat frame (largeBits m) (field la (largeBits m - 1) 0)

/-- The 4-KByte piece of a large page that a linear address lies in: `la[20:12]`, in Mode32 `la[21:12]` (R267, R309). -/
def pieceOf (m : PagingMode) (la : Word) : Nat := field la (largeBits m - 1) 12

/-- The root of the paging structures of ModeIA32e and Mode32 (R23, D14). -/
def rootBase (cfg : Config) (m : PagingMode) (cr3 : Word) : Nat := nextBase cfg m cr3

/-- The page-directory-pointer table of ModePAE: `CR3[31:5] ++ 00000` (R23, D14). -/
def pdptBase (cr3 : Word) : Nat := cat (field cr3 31 5) 5 0

/-- The page-directory base in a PDPTR (R100). -/
def pdptrBase (cfg : Config) (r : Word) : Nat := nextBase cfg .modePAE r

/-- Whether a bit of `v[hi:lo]` is 1; no bit of an empty range is. -/
def anyBit (v : Word) (hi lo : Nat) : Bool := field v hi lo != 0

/-- `Rsvd(ModePAE, PDPTR, x)`: bits 63:PAW, 8:5, 2:1 (R100, R104). -/
def reservedPdptr (cfg : Config) (x : Word) : Bool :=
  anyBit x 63 cfg.paw || anyBit x 8 5 || anyBit x 2 1

/-- Whether a PDE maps a large page: PS = 1, in Mode32 only with CR4.PSE = 1 (R260, R311). -/
def isLargePde (pse : Bool) (m : PagingMode) (l : Level) (e : Word) : Bool :=
  l == .pde && bit e 7 && (m != .mode32 || pse)

/-- Whether an entry ends a walk: a PTE or a PDE that maps a large page (R136, R261). -/
def isLeaf (pse : Bool) (m : PagingMode) (l : Level) (e : Word) : Bool :=
  l == .pte || isLargePde pse m l e

/-- `Rsvd(mode, kind, e)` for the entries a walk reads: whether a checked reserved bit is 1 (R104). -/
def reserved (cfg : Config) (nxe pse : Bool) (m : PagingMode) (l : Level) (e : Word) : Bool :=
  let large := isLargePde pse m l e
  match m with
  | .mode32 => large && bit e 21
  | .modePAE => anyBit e 62 cfg.paw || (!nxe && bit e 63) || (large && anyBit e 20 13)
  | .modeIA32e => anyBit e 51 cfg.paw || (!nxe && bit e 63) || (large && anyBit e 20 13)

/-- The level below. -/
def Level.below : Level → Level
  | .pml4e => .pdpe
  | .pdpe => .pde
  | .pde => .pte
  | .pte => .pte

end Sys2Proof.Machine
end

