-- ==== Sys2Proof/Machine/Flags.lean ====
section
/-! DEFINITION. The status bits of this hardware (R36): present, rights, accessed and dirty bits of a paging-structure entry
(R92), what a walk accumulates from them and sets in them, and the page-fault error code (R108, R351). -/

namespace Sys2Proof.Machine

/-- Bit 0 (R92). -/
def present (e : Word) : Bool := bit e 0

/-- Bit 5 (R92). -/
def accessed (e : Word) : Bool := bit e 5

/-- Bit 6, in a PTE and in a PDE with PS = 1 (R92, R262). -/
def dirtyBit (e : Word) : Bool := bit e 6

/-- Bit 8, in a PTE and in a PDE with PS = 1 (R92, R272). -/
def globalBit (e : Word) : Bool := bit e 8

/-- The rights a walk starts with from the root (R135). -/
def Rights.all : Rights := ⟨true, true, false⟩

/-- The rights of a walk after one more entry: AND of R/W and of U/S, OR of XD, which counts only with NXE = 1 and does not
exist in Mode32 (R139, R308). -/
def Rights.andEntry (nxe : Bool) (m : PagingMode) (r : Rights) (e : Word) : Rights where
  rw := r.rw && bit e 1
  us := r.us && bit e 2
  xd := r.xd || (nxe && m != .mode32 && bit e 63)

/-- The mask of the accessed bit. -/
def accessedMask : Nat := 2 ^ 5

/-- What the last step of a walk sets in the leaf entry: accessed, and dirty for a write (R136, R144, R145). -/
def leafMask (k : AccessKind) : Nat := if k = .write then 2 ^ 6 + 2 ^ 5 else 2 ^ 5

/-- The page-fault error code (R351): P, R/W, U/S, RSVD, I/D at bits 0 to 4, the rest 0. -/
def errorCode (nxe : Bool) (acc : Acc) (p rsvd : Bool) : Dword :=
  BitVec.ofNat 32 (p.toNat + 2 * (acc.kind == .write).toNat + 4 * acc.user.toNat + 8 * rsvd.toNat
    + 16 * (acc.kind == .fetch && nxe).toNat)

end Sys2Proof.Machine
end

