-- ==== Sys2Proof/Machine/Ops.lean ====
section
/-! DEFINITION. The named operations: physical memory (R62, R63, R66), the control registers and the paging mode (R6, R21 to
R27), free choices (R10), invalidation (R220 to R234), taking an exception (R350 to R358) and going on after it. -/

namespace Sys2Proof.Machine

/-! ## Physical memory -/

/-- The byte at an address: an unlisted byte reads 0 (entry 6). -/
def Memory.read : Memory → Nat → Byte
  | [], _ => 0
  | (k, b) :: rest, a => if k = a then b else Memory.read rest a

/-- Lists a byte in its place; addresses stay strictly rising. -/
def Memory.place (a : Nat) (b : Byte) : Memory → Memory
  | [] => [(a, b)]
  | (k, c) :: rest => if a < k then (a, b) :: (k, c) :: rest else (k, c) :: Memory.place a b rest

/-- Writes one byte, keeping the canonical form: a byte 0 is unlisted. -/
def Memory.write (m : Memory) (a : Nat) (b : Byte) : Memory :=
  let rest := m.filter (fun c => c.1 != a)
  if b = 0 then rest else Memory.place a b rest

/-- `PhysRead(pa, n)`: little-endian (R62, R63). -/
def Memory.readLe (m : Memory) (pa : Nat) : Nat → Nat
  | 0 => 0
  | n + 1 => (m.read pa).toNat + 256 * Memory.readLe m (pa + 1) n

/-- `PhysWrite(pa, n, v)`: little-endian (R62, R63). -/
def Memory.writeLe (m : Memory) (pa : Nat) : Nat → Nat → Memory
  | 0, _ => m
  | n + 1, v => Memory.writeLe (m.write pa (BitVec.ofNat 8 v)) (pa + 1) n (v / 256)

/-- A paging-structure entry of `n` bytes, zero-extended (R66). -/
def Memory.readEntry (m : Memory) (pa : Nat) (n : Nat) : Word := BitVec.ofNat 64 (m.readLe pa n)

/-- `PhysSetBits(pa, n, mask)`: one indivisible event (R66). -/
def Memory.setBits (m : Memory) (pa : Nat) (n mask : Nat) : Memory := m.writeLe pa n (m.readLe pa n ||| mask)

/-- The bytes from an address on. -/
def Memory.readBytes (m : Memory) (pa : Nat) : Nat → List Byte
  | 0 => []
  | n + 1 => m.read pa :: Memory.readBytes m (pa + 1) n

/-- Writes bytes from an address on. -/
def Memory.writeBytes (m : Memory) (pa : Nat) : List Byte → Memory
  | [] => m
  | b :: bs => Memory.writeBytes (m.write pa b) (pa + 1) bs

/-- The canonical form: addresses strictly rising, no listed byte 0. -/
def Memory.wf : Memory → Bool
  | [] => true
  | [(_, b)] => b != 0
  | (k, b) :: (k', b') :: rest => b != 0 && decide (k < k') && Memory.wf ((k', b') :: rest)

/-! ## Control registers and the paging mode -/

/-- CR0.PG, bit 31 (R21). -/
def LP.pg (lp : LP) : Bool := bit lp.cr0 31

/-- CR0.WP, bit 16 (R21). -/
def LP.wp (lp : LP) : Bool := bit lp.cr0 16

/-- CR4.PSE, bit 4 (R24). -/
def LP.pse (lp : LP) : Bool := bit lp.cr4 4

/-- CR4.PAE, bit 5 (R24). -/
def LP.pae (lp : LP) : Bool := bit lp.cr4 5

/-- CR4.PGE, bit 7 (R24). -/
def LP.pge (lp : LP) : Bool := bit lp.cr4 7

/-- IA32_EFER.SCE, bit 0 (R25). -/
def LP.sce (lp : LP) : Bool := bit lp.efer 0

/-- IA32_EFER.LME, bit 8 (R25). -/
def LP.lme (lp : LP) : Bool := bit lp.efer 8

/-- IA32_EFER.LMA, bit 10 (R25). -/
def LP.lma (lp : LP) : Bool := bit lp.efer 10

/-- IA32_EFER.NXE, bit 11 (R25). -/
def LP.nxe (lp : LP) : Bool := bit lp.efer 11

/-- CPL = 3 (R26). -/
def LP.user (lp : LP) : Bool := lp.cpl == 3

/-- The paging mode the control registers give, or with CR0.PG = 0 the one they would give with PG = 1 (R6, R220; entry 27). -/
def LP.pagingMode (lp : LP) : PagingMode :=
  if (if lp.pg then lp.lma else lp.lme && lp.pae) then .modeIA32e
  else if lp.pae then .modePAE
  else .mode32

/-- `Mode(lp)` (R6); `none` is ModeOff. -/
def LP.mode (lp : LP) : Option PagingMode := if lp.pg then some lp.pagingMode else none

/-- Whether the mode is ModeIA32e: linear addresses then have 64 bits, else 32 (R60). -/
def LP.inIA32e (lp : LP) : Bool := lp.mode == some .modeIA32e

/-- A linear address as the current mode has it: 32 bits outside IA-32e mode (R60, entry 18). -/
def LP.linear (lp : LP) (la : Word) : Word := if lp.inIA32e then la else (la.setWidth 32).setWidth 64

/-- Whether the machine refuses a linear address (R131). -/
def LP.refuses (lp : LP) (la : Word) : Bool := lp.inIA32e && !canonical la

/-- The PDPTR register a linear address selects (R291, R296). -/
def Pdptrs.get (p : Pdptrs) (i : Nat) : Word :=
  match i with
  | 0 => p.p0
  | 1 => p.p1
  | 2 => p.p2
  | _ => p.p3

/-- `p` with the register of that number replaced. -/
def Pdptrs.set (p : Pdptrs) (i : Nat) (v : Word) : Pdptrs :=
  match i with
  | 0 => { p with p0 := v }
  | 1 => { p with p1 := v }
  | 2 => { p with p2 := v }
  | _ => { p with p3 := v }

/-! ## Free choices -/

/-- The next resolution of the free choices of a step (entry 7). -/
def State.choice (s : State) : Choice :=
  match s.choices with
  | c :: _ => c
  | [] => Config.freeChoice s.drawn

/-- The state once that choice is made. -/
def State.tick (s : State) : State :=
  match s.choices with
  | _ :: cs => { s with choices := cs }
  | [] => { s with drawn := s.drawn + 1 }

/-! ## Invalidation -/

/-- Membership in `TLBForPage(lp, m, la)` (43_invalidation.md): the entries INVLPG must remove (R220, R268). -/
def TlbEntry.forPage (m : PagingMode) (la : Word) (e : TlbEntry) : Bool :=
  e.mode == m &&
    match e.size with
    | .ordinary => if e.fromLarge then largeOfKey m e.key == largePageNumber m la else e.key == pageNumber m la
    | .large => e.key == largePageNumber m la

/-- The TLB entries a page fault must remove (R226). -/
def TlbEntry.forFault (m : PagingMode) (la : Word) (e : TlbEntry) : Bool :=
  e.mode == m &&
    match e.size with
    | .ordinary => e.key == pageNumber m la
    | .large => e.key == largePageNumber m la

/-- Whether an entry of the cache of a level is used for a linear address (R134). -/
def PscEntry.matches (m : PagingMode) (l : Level) (la : Word) (c : PscEntry) : Bool :=
  c.mode == m && c.key == pscKey m l la

/-- `may{remove any entries}` (R229). -/
def LP.dropSome (c : Choice) (lp : LP) : LP :=
  { lp with
    tlb := thin c.dropTlb lp.tlb, pml4c := thin c.dropPml4 lp.pml4c
    pdpc := thin c.dropPdp lp.pdpc, pdec := thin c.dropPde lp.pdec }

/-- Every entry of the TLB and of the three caches removed. -/
def LP.flush (lp : LP) : LP := { lp with tlb := [], pml4c := [], pdpc := [], pdec := [] }

/-- Every entry of the three paging-structure caches removed. -/
def LP.flushPsc (lp : LP) : LP := { lp with pml4c := [], pdpc := [], pdec := [] }

/-- `lp.WALKS := {}` (R233). -/
def LP.dropWalks (lp : LP) : LP := { lp with walks := [] }

/-- The entries `PSCFor(lp, m, la)` removed (43_invalidation.md); only ModeIA32e has entries in the PML4 and PDP caches (R195). -/
def LP.removePscFor (m : PagingMode) (la : Word) (lp : LP) : LP :=
  { lp with
    pml4c := lp.pml4c.filter (fun c => !c.matches m .pml4e la)
    pdpc := lp.pdpc.filter (fun c => !c.matches m .pdpe la)
    pdec := lp.pdec.filter (fun c => !c.matches m .pde la) }

/-- The TLB entries that satisfy `p` removed. -/
def LP.removeTlb (p : TlbEntry → Bool) (lp : LP) : LP := { lp with tlb := lp.tlb.filter (fun e => !p e) }

/-- `PFInvalidate(lp, la)` (R226). -/
def LP.pfInvalidate (c : Choice) (la : Word) (lp : LP) : LP :=
  (((lp.removeTlb (TlbEntry.forFault lp.pagingMode la)).removePscFor lp.pagingMode la).dropSome c).dropWalks

/-- The effect of a change of the paging mode, of CR4.PSE or of IA32_EFER.NXE (`changed`): `Flush` empties everything, else
`may{remove any entries}` (R313, R305, R224, R331). -/
def LP.modeChanged (cfg : Config) (c : Choice) (changed : Bool) (lp : LP) : LP :=
  if changed && cfg.modeChange == .flush then lp.flush else lp.dropSome c

/-! ## Exceptions -/

/-- The vector number of an exception (R357, D19). -/
def Exception.vector : Exception → Nat
  | .pageFault _ _ => 14
  | .generalProtection _ => 13

/-- Takes an exception: it is the outcome of the operation, reported to the enclosing model, which owns delivery; `rip`
stays at the instruction, which can be re-executed (R353, R355, R358; entry 9). What a fault does while an earlier exception is
still in the hands of the enclosing model is not in the sources (R359): the new report takes the place of the old one and there
is no double fault (DESIGN CHOICE, entry 34). -/
def LP.takeException (e : Exception) (lp : LP) : LP := { lp with exc := some e, access := none, loading := none }

/-- Goes on after an exception, when the enclosing model has taken it over: it supplies where and at which CPL (R358, R359, R26). -/
def LP.resume (rip : Word) (cpl : BitVec 2) (lp : LP) : LP := { lp with exc := none, rip := rip, cpl := cpl }

/-- The page fault of a non-speculative access at `la`: the invalidation of R226, CR2, the error code, the report (R147, R353). -/
def LP.pageFault (c : Choice) (la : Word) (acc : Acc) (p rsvd : Bool) (lp : LP) : LP :=
  ({ lp.pfInvalidate c la with cr2 := la }).takeException (.pageFault la (errorCode lp.nxe acc p rsvd))

/-- GP(0): "the operation has no effect: no register, cache or memory change" (R356). -/
def State.generalProtection (s : State) : State := { s with lp := s.lp.takeException (.generalProtection 0) }

/-- Records the physical reads made at addresses with read side effects (R67, R70; entry 24). -/
def State.noteReads (addrs : List Nat) (s : State) : State :=
  { s with sideEffects := (addrs.filter s.cfg.hasReadSideEffect).reverse ++ s.sideEffects }

/-- The addresses from `pa` on. -/
def addrsFrom (pa : Nat) : Nat → List Nat
  | 0 => []
  | n + 1 => pa :: addrsFrom (pa + 1) n

end Sys2Proof.Machine
end

