-- ==== Sys2Proof/Machine/Operands.lean ====
section
/-! DEFINITION. The operand forms: general registers and their widths (R109; entries 1, 3) and the linear address of a
memory operand (entry 4); the end of an instruction. -/

namespace Sys2Proof.Machine

/-- Reads a general register. -/
def Gprs.get (g : Gprs) : Reg → Word
  | .rax => g.rax
  | .rcx => g.rcx
  | .rdx => g.rdx
  | .rbx => g.rbx
  | .rsp => g.rsp
  | .rbp => g.rbp
  | .rsi => g.rsi
  | .rdi => g.rdi

/-- Writes a general register. -/
def Gprs.set (g : Gprs) (r : Reg) (v : Word) : Gprs :=
  match r with
  | .rax => { g with rax := v }
  | .rcx => { g with rcx := v }
  | .rdx => { g with rdx := v }
  | .rbx => { g with rbx := v }
  | .rsp => { g with rsp := v }
  | .rbp => { g with rbp := v }
  | .rsi => { g with rsi := v }
  | .rdi => { g with rdi := v }

/-- The low half of a general register: EAX, ECX, EDX, EBX. -/
def LP.reg32 (lp : LP) (r : Reg) : Dword := (lp.gpr.get r).setWidth 32

/-- The operand r32/r64 of MOV to CRn: 64 bits in IA-32e mode, else the low 32 bits zero-extended (R109, R21; entry 3). -/
def LP.operand (lp : LP) (r : Reg) : Word :=
  if lp.inIA32e then lp.gpr.get r else (lp.reg32 r).setWidth 64

/-- The value of a displacement, sign-extended. -/
def Disp.value : Disp → Word
  | .none => 0
  | .disp8 d => d.signExtend 64
  | .disp32 d => d.signExtend 64

/-- The scaled index of a SIB byte. -/
def LP.scaledIndex (lp : LP) (scale : BitVec 2) : Option Reg → Word
  | .none => 0
  | some r => lp.gpr.get r <<< scale.toNat

/-- The linear address of a memory operand of an instruction of `len` bytes at `rip`; segment bases are 0 (entry 4). -/
def LP.effectiveAddress (lp : LP) (len : Nat) (m : MemOperand) : Word :=
  lp.linear <|
    match m with
    | .base r d => lp.gpr.get r + Disp.value d
    | .disp d => (if lp.inIA32e then lp.rip + BitVec.ofNat 64 len else 0) + d.signExtend 64
    | .sib scale index r d => lp.gpr.get r + lp.scaledIndex scale index + Disp.value d
    | .sibDisp scale index d => lp.scaledIndex scale index + d.signExtend 64

/-- `rip` moved past an instruction of `len` bytes. -/
def LP.advance (len : Nat) (lp : LP) : LP := { lp with rip := lp.linear (lp.rip + BitVec.ofNat 64 len) }

/-- The state after an instruction of `len` bytes that leaves the logical processor `lp`. -/
def State.complete (len : Nat) (lp : LP) (s : State) : State := { s with lp := lp.advance len }

/-- An instruction that needs CPL = 0: GP(0) at another CPL (R337, R361, D23). -/
def State.privileged (s : State) (k : Host.Outcome State Fault Refusal) : Host.Outcome State Fault Refusal :=
  if s.lp.cpl = 0 then k else .next s.generalProtection

end Sys2Proof.Machine
end

