-- ==== Sys2Proof/Machine/Control.lean ====
section
/-! DEFINITION. The meanings of MOV to CR0, MOV to CR3 and MOV to CR4 (R305, R222, R224), and the load of the PDPTR registers that
may be a part of them (R298, R299): four reads, one a step, between which the stores of other agents may fall (D5). -/

namespace Sys2Proof.Machine

/-! ## When the PDPTR registers are loaded, and when the load faults -/

/-- The physical address of an entry of the page-directory-pointer table that `c`, a value of CR3, names (R299, R106). -/
def pdpteAddr (c : Word) (i : Nat) : Nat := pdptBase c + 8 * i

/-- Whether the load of an entry faults (R299, P15). -/
def pdptrFaults (cfg : Config) (x : Word) : Bool :=
  (cfg.pdptrCheckNotPresent || bit x 0) && reservedPdptr cfg x

/-- Whether the load of four entries raises GP(0) (R299). -/
def pdptFaults (cfg : Config) (t : Pdptrs) : Bool :=
  pdptrFaults cfg t.p0 || pdptrFaults cfg t.p1 || pdptrFaults cfg t.p2 || pdptrFaults cfg t.p3

/-- Whether a MOV to CR3 loads the PDPTR registers (R298 item 1, P14). -/
def cr3Loads (cfg : Config) (lp : LP) : Bool := !lp.lma && lp.pae && (lp.pg || cfg.pdptrLoadWithPagingOff)

/-- Whether a MOV to CR4 of `v` loads the PDPTR registers (R298 item 2). -/
def cr4Loads (v : Word) (lp : LP) : Bool :=
  bit v 5 && !lp.lma && lp.pg && (bit v 5 != lp.pae || bit v 7 != lp.pge || bit v 4 != lp.pse)

/-- Whether a MOV to CR0 of `v` loads the PDPTR registers (R298 item 3, R305). -/
def cr0Loads (cfg : Config) (v : Word) (lp : LP) : Bool :=
  bit v 31 != lp.pg && !lp.lma && lp.pae
    && ((bit v 31 && !lp.lme) || (!bit v 31 && cfg.pdptrLoadWithPagingOff))

/-! ## The three instructions past their faults; `t` are the PDPTR registers they leave -/

/-- `MOV_CR3(lp, v)` (R222, R223). -/
def movCr3 (c : Choice) (v : Word) (t : Pdptrs) (lp : LP) : LP :=
  { lp with
    cr3 := v, pdptr := t
    tlb := thin c.dropTlb (lp.tlb.filter fun e => e.global)
    pml4c := [], pdpc := [], pdec := [], walks := [] }

/-- Whether a MOV to CR4 of `v` raises GP(0) before any load: "keeps the invariant" of R27 (R224). -/
def cr4Faults (v : Word) (lp : LP) : Bool := lp.lma && !bit v 5

/-- `MOV_CR4(lp, v)` (R224, R313). -/
def movCr4 (cfg : Config) (c : Choice) (v : Word) (t : Pdptrs) (lp : LP) : LP :=
  let written := { lp with cr4 := v, pdptr := t }
  LP.dropWalks <|
    if bit v 7 != lp.pge then written.flush
    else written.modeChanged cfg c (bit v 5 != lp.pae || bit v 4 != lp.pse)

/-- Whether a MOV to CR0 of `v` raises GP(0) before any load (R305, R27). -/
def cr0Faults (v : Word) (lp : LP) : Bool := bit v 31 && !lp.pg && lp.lme && !lp.pae

/-- `MOV_CR0(lp, v)` (R305, R313). -/
def movCr0 (cfg : Config) (c : Choice) (v : Word) (t : Pdptrs) (lp : LP) : LP :=
  LP.dropWalks <|
    LP.modeChanged cfg c (bit v 31 != lp.pg)
      { lp with cr0 := v, efer := putBit lp.efer 10 (lp.lme && bit v 31), pdptr := t }

/-! ## The load in steps -/

/-- The value of CR3 whose table the instruction loads (R222, R224, R305). -/
def ControlWrite.root (lp : LP) : ControlWrite → Word
  | .cr0 _ => lp.cr3
  | .cr3 v => v
  | .cr4 _ => lp.cr3

/-- The instruction past its faults, leaving the PDPTR registers `t`. -/
def ControlWrite.apply (cfg : Config) (c : Choice) (t : Pdptrs) (lp : LP) : ControlWrite → LP
  | .cr0 v => movCr0 cfg c v t lp
  | .cr3 v => movCr3 c v t lp
  | .cr4 v => movCr4 cfg c v t lp

/-- A MOV to CRn (3 bytes, R109) completes. -/
def State.finishMov (w : ControlWrite) (t : Pdptrs) (s : State) : State :=
  s.tick.complete 3 (w.apply s.cfg s.choice t s.lp)

/-- A MOV to CRn at CPL 0: GP(0); or it begins to load the PDPTR registers; or it completes and they stay. -/
def State.controlWrite (faults loads : Bool) (w : ControlWrite) (s : State) : State :=
  if faults then s.generalProtection
  else if loads then { s with lp := { s.lp with loading := some ⟨w, [0, 1, 2, 3], ⟨0, 0, 0, 0⟩⟩ } }
  else s.finishMov w s.lp.pdptr

/-- MOV CR0, r (R305). -/
def execMovCr0 (r : Reg) (s : State) : Host.Outcome State Fault Refusal :=
  let v := s.lp.operand r
  s.privileged (.next (s.controlWrite (cr0Faults v s.lp) (cr0Loads s.cfg v s.lp) (.cr0 v)))

/-- MOV CR3, r (R222). -/
def execMovCr3 (r : Reg) (s : State) : Host.Outcome State Fault Refusal :=
  s.privileged (.next (s.controlWrite false (cr3Loads s.cfg s.lp) (.cr3 (s.lp.operand r))))

/-- MOV CR4, r (R224). -/
def execMovCr4 (r : Reg) (s : State) : Host.Outcome State Fault Refusal :=
  let v := s.lp.operand r
  s.privileged (.next (s.controlWrite (cr4Faults v s.lp) (cr4Loads v s.lp) (.cr4 v)))

/-- The entry a PDPTR load reads next, of those not yet read: their order is free (R299, D5). -/
def PdptrLoad.next (c : Choice) (l : PdptrLoad) : Nat := pick 0 l.todo c.pdpte

/-- The load after one read, of 8 bytes and indivisible (R299, R66). -/
def State.readPdpte (l : PdptrLoad) (s : State) : PdptrLoad :=
  let i := l.next s.choice
  { l with todo := l.todo.erase i, entries := l.entries.set i (s.mem.readEntry (pdpteAddr (l.write.root s.lp) i) 8) }

/-- `LoadPDPTRs` once all four entries are read (R299): GP(0) with nothing changed, or the instruction completes with all four
registers loaded together. -/
def State.endLoad (l : PdptrLoad) (s : State) : State :=
  let s' : State := { s with lp := { s.lp with loading := none } }
  if pdptFaults s.cfg l.entries then s'.tick.generalProtection else s'.finishMov l.write l.entries

/-- One read of a PDPTR load in progress; with the last the load ends (R299). -/
def State.loadPdpte (l : PdptrLoad) (s : State) : State :=
  if (s.readPdpte l).todo = [] then s.endLoad (s.readPdpte l)
  else { s.tick with lp := { s.lp with loading := some (s.readPdpte l) } }

end Sys2Proof.Machine
end

