-- ==== Sys2Proof/Machine/Translate.lean ====
section
/-! DEFINITION. Address translation (R130 to R150) in the three modes (R261, R293, R307): access rights, the use of a TLB
entry, the choice of a starting point, one step of a walk with its accessed and dirty bits and the entries it may cache. -/

namespace Sys2Proof.Machine

/-- `Permit(lp, acc, rw, us, xd)` (R140 to R143); CPL = 3 is in `acc`, CR0.WP is read now. -/
def permit (lp : LP) (acc : Acc) (r : Rights) : Bool :=
  (!acc.user || r.us)
    && (acc.kind != .write || r.rw || (!acc.user && !lp.wp))
    && (acc.kind != .fetch || !r.xd)

/-- Whether a TLB that serves `sv` is used for an access of a kind (R174). -/
def Serves.allows (sv : Serves) (k : AccessKind) : Bool :=
  match sv with
  | .fetch => k == .fetch
  | .data => k != .fetch
  | .both => true

/-- `Matches(e, m, la, kind)` (R174, R265). -/
def TlbEntry.matches (m : PagingMode) (la : Word) (k : AccessKind) (e : TlbEntry) : Bool :=
  e.mode == m
    && (match e.size with
        | .ordinary => e.key == pageNumber m la
        | .large => e.key == largePageNumber m la)
    && Serves.allows e.serves k

/-- The physical address a TLB entry gives (R175, R265). -/
def TlbEntry.address (e : TlbEntry) (la : Word) : Nat :=
  match e.size with
  | .ordinary => pageAddr e.frame la
  | .large => largeAddr e.mode e.frame la

/-- The size of the page a TLB entry translates, `2 ^ n` bytes: an ordinary entry translates the 4-KByte page of its key or, if
`whole` and derived from a large page, that large page (R29, R267; entry 15). -/
def TlbEntry.pageBits (whole : Bool) (e : TlbEntry) : Nat :=
  if e.size = .large || (e.fromLarge && whole) then largeBits e.mode else 12

/-- What the use of a TLB entry answers (R175). -/
inductive TlbUse where
  | found (pa : Nat)
  /-- `Permit` is false: a page fault with P = 1, RSVD = 0, or an abort. -/
  | denied
  /-- A write through an entry whose `dirty` is 0 (R177). -/
  | cannotComplete
  deriving DecidableEq, Repr

/-- `UseTLB(lp, e, la, acc)` (R175 to R177). -/
def useTlb (lp : LP) (e : TlbEntry) (la : Word) (acc : Acc) : TlbUse :=
  if !permit lp acc e.rights then .denied
  else if acc.kind == .write && !e.dirty then .cannotComplete
  else .found (e.address la)

/-- The starting points of a translation (R130, R133). -/
inductive Alternative where
  /-- T: a TLB entry. -/
  | tlb (e : TlbEntry)
  /-- C: a paging-structure-cache entry, with the level of the entry the walk reads first. -/
  | cache (l : Level) (c : PscEntry)
  /-- R: the root. -/
  | root
  deriving DecidableEq, Repr

/-- The alternatives C and R, which start a walk (R134, R135). -/
def walkAlternatives (lp : LP) (m : PagingMode) (la : Word) : List Alternative :=
  (lp.pdec.filter (PscEntry.matches m .pde la)).map (.cache .pte)
    ++ (lp.pdpc.filter (PscEntry.matches m .pdpe la)).map (.cache .pde)
    ++ (lp.pml4c.filter (PscEntry.matches m .pml4e la)).map (.cache .pdpe)
    ++ [.root]

/-- All alternatives available to a translation (R133). -/
def alternatives (lp : LP) (m : PagingMode) (la : Word) (k : AccessKind) : List Alternative :=
  (lp.tlb.filter (TlbEntry.matches m la k)).map .tlb ++ walkAlternatives lp m la

/-- How a translation begins. -/
inductive Start where
  /-- It is complete: `PA(pa)`, in a page of `2 ^ bits` bytes. -/
  | found (pa bits : Nat)
  /-- A faulting condition, with the P and RSVD bits of the error code, in a page of `2 ^ bits` bytes. -/
  | fault (p rsvd : Bool) (bits : Nat)
  | walk (w : Walk)
  deriving DecidableEq, Repr

/-- `StartFromRoot(lp, la, acc)` (R135, R293, R307). -/
def startFromRoot (cfg : Config) (lp : LP) (m : PagingMode) (la : Word) (acc : Acc) : Start :=
  match m with
  | .modeIA32e =>
    .walk { la, acc, mode := m, level := .pml4e, base := rootBase cfg m lp.cr3, rights := .all, allA := true }
  | .modePAE =>
    let r := lp.pdptr.get (field la 31 30)
    if present r then
      .walk { la, acc, mode := m, level := .pde, base := pdptrBase cfg r, rights := .all, allA := true }
    else .fault false false 12
  | .mode32 =>
    .walk { la, acc, mode := m, level := .pde, base := rootBase cfg m lp.cr3, rights := .all, allA := true }

/-- `StartFromCache(c, la, acc)` (R134), or the root. -/
def startWalk (cfg : Config) (lp : LP) (m : PagingMode) (la : Word) (acc : Acc) : Alternative → Start
  | .cache l c => .walk { la, acc, mode := c.mode, level := l, base := c.addr, rights := c.rights, allA := true }
  | .tlb _ => startFromRoot cfg lp m la acc
  | .root => startFromRoot cfg lp m la acc

/-- `Translate(lp, la, acc)` up to its first walk step (R130): paging off, a TLB entry, or the start of a walk. -/
def translate (cfg : Config) (c : Choice) (lp : LP) (la : Word) (acc : Acc) : Start :=
  match lp.mode with
  | none => .found (la.setWidth 32).toNat 12
  | some m =>
    match pick .root (alternatives lp m la acc.kind) c.alternative with
    | .tlb e =>
      match useTlb lp e la acc with
      | .found pa => .found pa (e.pageBits c.wholePage)
      | .denied => .fault true false (e.pageBits false)
      | .cannotComplete => startWalk cfg lp m la acc (pick .root (walkAlternatives lp m la) c.again)
    | a => startWalk cfg lp m la acc a

/-! ## One step of a walk -/

/-- What one step of a walk answers (R136). -/
inductive WalkResult where
  /-- `Continue`. -/
  | more (w : Walk)
  /-- `PA(pa)`, in a page of `2 ^ bits` bytes. -/
  | found (pa bits : Nat)
  /-- A faulting condition, with the P and RSVD bits of the error code, in a page of `2 ^ bits` bytes. -/
  | fault (p rsvd : Bool) (bits : Nat)
  /-- A speculative write stops before the leaf entry is written (R150). -/
  | aborted
  /-- The walk skipped an accessed bit: the translation starts again (R144). -/
  | restart
  deriving DecidableEq, Repr

/-- Memory, logical processor and answer after one step of a walk. -/
structure WalkOut where
  mem : Memory
  lp : LP
  result : WalkResult
  deriving DecidableEq, Repr

/-- Adds an entry to the paging-structure cache of a level, if the processor has that cache (R196 conditions 4 and 5, R195). -/
def LP.cachePsc (cfg : Config) (l : Level) (e : PscEntry) (lp : LP) : LP :=
  match l with
  | .pml4e => if cfg.hasPml4Cache && e.mode == .modeIA32e then { lp with pml4c := addTo e lp.pml4c } else lp
  | .pdpe => if cfg.hasPdpCache && e.mode == .modeIA32e then { lp with pdpc := addTo e lp.pdpc } else lp
  | .pde => if cfg.hasPdeCache then { lp with pdec := addTo e lp.pdec } else lp
  | .pte => lp

/-- Adds a TLB entry, if the processor has a TLB of that kind (R172 condition 3). -/
def LP.cacheTlb (cfg : Config) (e : TlbEntry) (lp : LP) : LP :=
  if e.serves ∈ cfg.tlbs then { lp with tlb := addTo e lp.tlb } else lp

/-- The TLB entry of a 4-KByte page (R172) or of a large page (R264), from the leaf entry `e`. -/
def leafEntry (cfg : Config) (lp : LP) (w : Walk) (e : Word) (r : Rights) (sv : Serves) : TlbEntry where
  mode := w.mode
  size := if w.level = .pte then .ordinary else .large
  key := if w.level = .pte then pageNumber w.mode w.la else largePageNumber w.mode w.la
  frame := if w.level = .pte then frameField cfg w.mode e else largeFrame cfg w.mode e
  rights := r
  dirty := dirtyBit e || w.acc.kind == .write
  global := lp.pge && globalBit e
  fromLarge := false
  serves := sv

/-- The ordinary TLB entry for the 4-KByte piece `piece` of the large page of the leaf entry `e` (R267, R309). -/
def fractureEntry (cfg : Config) (lp : LP) (w : Walk) (e : Word) (r : Rights) (piece : Nat) (sv : Serves) : TlbEntry where
  mode := w.mode
  size := .ordinary
  key := cat (largePageNumber w.mode w.la) (largeBits w.mode - 12) (piece % 2 ^ (largeBits w.mode - 12))
  frame := cat (largeFrame cfg w.mode e) (largeBits w.mode - 12) (piece % 2 ^ (largeBits w.mode - 12))
  rights := r
  dirty := dirtyBit e || w.acc.kind == .write
  global := lp.pge && globalBit e
  fromLarge := true
  serves := sv

/-- The ordinary entries of a large page the processor may create (R261, R267). -/
def LP.cacheFractures (cfg : Config) (w : Walk) (e : Word) (r : Rights) : List (Nat × Serves) → LP → LP
  | [], lp => lp
  | (piece, sv) :: rest, lp =>
    LP.cacheFractures cfg w e r rest (lp.cacheTlb cfg (fractureEntry cfg lp w e r piece sv))

/-- The TLB entries the last step of a walk may create (R172, R261, R264, R267). -/
def LP.cacheLeaf (cfg : Config) (c : Choice) (w : Walk) (e : Word) (r : Rights) (lp : LP) : LP :=
  let lp' :=
    match c.cacheTlb with
    | none => lp
    | some sv => lp.cacheTlb cfg (leafEntry cfg lp w e r sv)
  if cfg.fractureLarge && w.level == .pde then lp'.cacheFractures cfg w e r c.fractures else lp'

/-- The physical address a leaf entry gives (R106). -/
def leafAddress (cfg : Config) (w : Walk) (e : Word) : Nat :=
  if w.level = .pte then pageAddr (frameField cfg w.mode e) w.la
  else largeAddr w.mode (largeFrame cfg w.mode e) w.la

/-- The size, `2 ^ n` bytes, of the page that the entry `e` of a walk maps: a large page for a PDE that maps one; else, also where
the entry does not say how large the page is, 4 KBytes (R260, R311; entry 15). -/
def Walk.pageBits (pse : Bool) (w : Walk) (e : Word) : Nat :=
  if isLargePde pse w.mode w.level e then largeBits w.mode else 12

/-- The step at an upper entry `e` read at `ea` (R136, R196): set its accessed bit or skip it, perhaps cache, go down. -/
def upperStep (cfg : Config) (c : Choice) (lp : LP) (mem : Memory) (w : Walk) (ea : Nat) (e : Word) (r : Rights) :
    WalkOut :=
  let marked := accessed e || c.setAccessed
  let allA := w.allA && marked
  { mem := if marked then mem.setBits ea (entryBytes w.mode) accessedMask else mem
    lp :=
      if allA && c.cachePsc then
        lp.cachePsc cfg w.level
          { mode := w.mode, key := pscKey w.mode w.level w.la, addr := nextBase cfg w.mode e, rights := r }
      else lp
    result := .more { w with level := w.level.below, base := nextBase cfg w.mode e, rights := r, allA := allA } }

/-- The step at a leaf entry `e` read at `ea` (R136, R261): the access rights, the accessed and dirty bits, perhaps TLB
entries, the physical address. -/
def leafStep (cfg : Config) (c : Choice) (lp : LP) (mem : Memory) (w : Walk) (ea : Nat) (e : Word) (r : Rights) :
    WalkOut :=
  if !permit lp w.acc r then ⟨mem, lp, .fault true false (w.pageBits lp.pse e)⟩
  else if !w.allA then ⟨mem, lp, .restart⟩
  else if w.acc.kind == .write && w.acc.spec then ⟨mem, lp, .aborted⟩
  else
    { mem := mem.setBits ea (entryBytes w.mode) (leafMask w.acc.kind)
      lp := lp.cacheLeaf cfg c w e r
      result := .found (leafAddress cfg w e) (w.pageBits lp.pse e) }

/-- The physical address of the entry a walk reads next (R106, R136). -/
def Walk.entryAddr (cfg : Config) (w : Walk) : Nat :=
  Sys2Proof.Machine.entryAddr cfg w.mode w.base (indexOf w.mode w.level w.la)

/-- `WalkStep(lp, w)` (R136, R261, R293, R307): one indivisible step, which reads one paging-structure entry. -/
def walkStep (cfg : Config) (c : Choice) (lp : LP) (mem : Memory) (w : Walk) : WalkOut :=
  let ea := w.entryAddr cfg
  let e := mem.readEntry ea (entryBytes w.mode)
  let r := w.rights.andEntry lp.nxe w.mode e
  if !present e then ⟨mem, lp, .fault false false 12⟩
  else if reserved cfg lp.nxe lp.pse w.mode w.level e then ⟨mem, lp, .fault true true (w.pageBits lp.pse e)⟩
  else if isLeaf lp.pse w.mode w.level e then leafStep cfg c lp mem w ea e r
  else upperStep cfg c lp mem w ea e r

/-! ## The size of a page -/

/-- The size of the page that the paging structures in memory map where a walk stands; `none` where an entry is not present or
breaks a reserved bit before the size shows. `fuel` bounds the levels. -/
def Walk.maps (cfg : Config) (lp : LP) (mem : Memory) : (fuel : Nat) → Walk → Option PageSize
  | 0, _ => none
  | fuel + 1, w =>
    let e := mem.readEntry (w.entryAddr cfg) (entryBytes w.mode)
    if !present e then none
    else if isLargePde lp.pse w.mode w.level e then some .large
    else if w.level = .pde || w.level = .pte then some .ordinary
    else if reserved cfg lp.nxe lp.pse w.mode w.level e then none
    else Walk.maps cfg lp mem fuel { w with level := w.level.below, base := nextBase cfg w.mode e }

/-- The size of the page that holds a linear address, as the paging structures in memory map it from the root: what R65 and R330
call the pages that an access touches (entry 15). It is no access of the machine: nothing is read by it, set or cached. -/
def LP.maps (cfg : Config) (lp : LP) (mem : Memory) (la : Word) : Option PageSize :=
  match lp.mode with
  | none => none
  | some m =>
    match startFromRoot cfg lp m la { kind := .read, user := false, spec := true } with
    | .walk w => w.maps cfg lp mem 3
    | .found _ _ => none
    | .fault _ _ _ => none

end Sys2Proof.Machine
end

