-- ==== Sys2Proof/Machine/Access.lean ====
section
/-! DEFINITION. Software's accesses (R330, R65, R148): the pages of an access, its steps, what a fault leaves of it; the fetch of
the instruction at `rip`. -/

namespace Sys2Proof.Machine

/-- What the acting logical processor's next step is: an outcome, or the execution of a decoded instruction. -/
inductive Plan where
  | done (o : Host.Outcome State Fault Refusal)
  | execute (i : Instr) (s : State)

/-- The 4-KByte pieces of the linear-address space touched by `n` bytes from `la` on, the first of these bytes at offset `off` of
the access (R65, R330); `fuel` bounds their number. Whether pieces lie in one large page shows only when one of them is
translated (entry 15). -/
def LP.pieces (lp : LP) : (fuel : Nat) → (la : Word) → (off n : Nat) → List Piece
  | 0, _, _, _ => []
  | fuel + 1, la, off, n =>
    if n = 0 then []
    else
      let len := min n (4096 - la.toNat % 4096)
      ⟨la, off, len⟩ :: LP.pieces lp fuel (lp.linear (la + BitVec.ofNat 64 len)) (off + len) (n - len)

/-- `Access(lp, kind, la, n)` begins (R330): `bytes` are the bytes to write, or `n` zeros to be replaced by those read. -/
def State.issue (kind : AccessKind) (la : Word) (bytes : List Byte) (s : State) : State :=
  { s with
    lp := { s.lp with
      access := some
        { kind, user := s.lp.user, instruction := false, la := s.lp.linear la, bytes,
          todo := s.lp.pieces bytes.length (s.lp.linear la) 0 bytes.length, covered := [], parts := [], done := []
          phase := .choosing } } }

/-- The state with the access in progress as given. -/
def State.setAccess (a : Access) (s : State) : State := { s with lp := { s.lp with access := some a } }

/-! ## The pages of an access -/

/-- Whether two linear addresses lie in one page of `2 ^ b` bytes (R65). -/
def samePage (b : Nat) (la la' : Word) : Bool := la.toNat / 2 ^ b == la'.toNat / 2 ^ b

/-- The size, `2 ^ n` bytes, of the page of the access that holds `la`, where its translation shows a page of `2 ^ b` bytes: that
page; but where another piece in it has been translated by itself the pages are the 4-KByte ones, so that no byte of a page
moves before the page is translated, and a page that faults is one in which none has moved (R147, R330, R353; entry 15). -/
def Access.pageBits (a : Access) (b : Nat) (la : Word) : Nat := if a.parts.any (samePage b la) then 12 else b

/-- The first byte of the access in the page that holds `la`, where its translation shows one of `2 ^ b` bytes (R65, R352). -/
def Access.firstByte (a : Access) (b : Nat) (la : Word) : Word :=
  let n := a.pageBits b la
  if samePage n a.la la then a.la else BitVec.ofNat 64 (la.toNat / 2 ^ n * 2 ^ n)

/-- The part `p` once its page, of `2 ^ b` bytes, is known: a fetch of the instruction at `rip` goes up to the end of the page. -/
def Access.extend (a : Access) (b : Nat) (p : Piece) : Piece :=
  if a.instruction then { p with len := min (maxLength - p.off) (2 ^ b - p.la.toNat % 2 ^ b) } else p

/-- The access once `p` is translated to `pa`, which shows a page of `2 ^ b` bytes: so are the other pieces not yet begun that lie
in the same page of the access; each has its own offset in the page (R65, R12). -/
def Access.found (a : Access) (p : Piece) (pa b : Nat) : Access :=
  let n := a.pageBits b p.la
  { a with
    todo := a.todo.filter fun q => !samePage n p.la q.la
    covered := (a.todo.filter fun q => samePage n p.la q.la).map fun q => (q, pa / 2 ^ n * 2 ^ n + q.la.toNat % 2 ^ n)
    parts := p.la :: a.parts
    phase := .translated (a.extend n p) pa }

/-- The pieces with one of which the access goes on: of a large page that memory maps, the first alone, since the page has one
translation, of the first byte of the access in it (R65, R330; entry 15). -/
def State.ready (a : Access) (s : State) : List Piece :=
  a.todo.filter fun p =>
    s.lp.maps s.cfg s.mem p.la != some .large || a.firstByte (largeBits s.lp.pagingMode) p.la == p.la

/-- The free choices as the translation of the piece `p` uses them. For the first byte of the access in a large page that memory
maps, an ordinary TLB entry derived from a large page translates the page whole, so that software is not aware of it; in a 4-KByte
page, as where the large page has been split since, it translates that page; where memory maps neither, either (R65, R267, R403;
entry 15). -/
def State.choiceFor (a : Access) (p : Piece) (s : State) : Choice :=
  let whole :=
    match s.lp.maps s.cfg s.mem p.la with
    | some .large => true
    | some .ordinary => false
    | none => s.choice.wholePage
  { s.choice with wholePage := whole && a.firstByte (largeBits s.lp.pagingMode) p.la == p.la }

/-! ## The end of an access -/

/-- `n` bytes of a number, 8 bits each. -/
def tornBytes (v : Nat) : Nat → List Byte
  | 0 => []
  | n + 1 => BitVec.ofNat 8 v :: tornBytes (v / 256) n

/-- The places a partly faulting store had written, given unspecified bytes (R65, I33; entry 16). -/
def Memory.scramble (m : Memory) (v : Nat) : List (Nat × Nat) → Memory
  | [] => m
  | (pa, n) :: rest => Memory.scramble (m.writeBytes pa (tornBytes v n)) (v / 256 ^ n) rest

/-- The access in progress ends with a page fault at `la` (R330, R65, R147). -/
def State.accessFault (c : Choice) (a : Access) (la : Word) (acc : Acc) (p rsvd : Bool) (s : State) : State :=
  { s with
    mem := if a.kind = .write then s.mem.scramble c.torn a.done else s.mem
    lp := s.lp.pageFault c la acc p rsvd }

/-- The access descriptor of an access in progress. -/
def Access.acc (a : Access) : Acc := { kind := a.kind, user := a.user, spec := false }

/-- The access is over; a read's or a fetch's bytes are its result (R330). -/
def State.finishAccess (a : Access) (s : State) : State :=
  { s with
    lp := { s.lp with
      access := none
      result := if a.kind = .write then s.lp.result else a.bytes } }

/-- The access after one of its pieces is done: the next one of the same page, another page, or the end. -/
def State.nextPiece (a : Access) (s : State) : State :=
  match a.covered with
  | (q, pa) :: rest => s.setAccess { a with covered := rest, phase := .translated q pa }
  | [] => if a.todo.isEmpty then s.finishAccess a else s.setAccess { a with phase := .choosing }

/-- `bytes` with those from `off` on replaced by `new`. -/
def patch (bytes : List Byte) (off : Nat) (new : List Byte) : List Byte :=
  bytes.take off ++ new ++ bytes.drop (off + new.length)

/-- The bytes of the access that lie in the piece `p` are read from, or written to, memory at `pa` onward (R148, R330). -/
def State.performPiece (a : Access) (p : Piece) (pa : Nat) (s : State) : State :=
  if a.kind = .write then
    State.nextPiece { a with done := (pa, p.len) :: a.done }
      { s with mem := s.mem.writeBytes pa ((a.bytes.drop p.off).take p.len) }
  else
    State.nextPiece { a with bytes := patch a.bytes p.off (s.mem.readBytes pa p.len) }
      (s.noteReads (addrsFrom pa p.len))

/-- The part of the fetch of the instruction at `rip` from its byte `off` on, up to the end of the 4-KByte piece (R77, R330;
entry 28). -/
def LP.fetchPiece (lp : LP) (off : Nat) : Piece :=
  let la := lp.linear (lp.rip + BitVec.ofNat 64 off)
  ⟨la, off, min (maxLength - off) (4096 - la.toNat % 4096)⟩

/-- The bytes fetched so far decode, or more of them are needed from the next page, or they are no instruction. -/
def State.fetchedPiece (a : Access) (p : Piece) (pa : Nat) (s : State) : Plan :=
  let bs := a.bytes ++ s.mem.readBytes pa p.len
  match decode bs with
  | .ok (i, rest) =>
    .execute i (({ s with lp := { s.lp with access := none } } : State).noteReads (addrsFrom pa (p.len - rest.length)))
  | .error .truncated =>
    if bs.length < maxLength then
      .done <| .next <|
        State.setAccess
          { a with
            bytes := bs
            todo := [s.lp.fetchPiece bs.length]
            phase := .choosing }
          (s.noteReads (addrsFrom pa p.len))
    else .done (.refused (.notAnInstruction .truncated))
  | .error e => .done (.refused (.notAnInstruction e))

/-- The translation of the piece `p` begins (R130): the access goes on with the pieces `rest`. -/
def State.beginPage (a : Access) (p : Piece) (rest : List Piece) (s : State) : Host.Outcome State Fault Refusal :=
  if s.lp.refuses p.la then .refused (.nonCanonical p.la)
  else
    match translate s.cfg (s.choiceFor a p) s.lp p.la a.acc with
    | .found pa b => .next (s.tick.setAccess (Access.found { a with todo := rest } p pa b))
    | .walk w => .next (s.tick.setAccess { a with todo := rest, phase := .walking p w })
    | .fault pf rsvd b => .next (s.tick.accessFault s.choice a (a.firstByte b p.la) a.acc pf rsvd)

/-- One step of the walk for the piece `p` (R136). -/
def State.walkPage (a : Access) (p : Piece) (w : Walk) (s : State) : State :=
  let out := walkStep s.cfg s.choice s.lp s.mem w
  let s' : State := { s.tick with mem := out.mem, lp := out.lp }
  match out.result with
  | .more w' => s'.setAccess { a with phase := .walking p w' }
  | .found pa b => s'.setAccess (a.found p pa b)
  | .fault pf rsvd b => s'.accessFault s.choice a (a.firstByte b w.la) w.acc pf rsvd
  | .aborted => s'.setAccess { a with todo := p :: a.todo, phase := .choosing }
  | .restart => s'.setAccess { a with todo := p :: a.todo, phase := .choosing }

/-- The next step of the software access in progress (R330). -/
def State.advanceAccess (a : Access) (s : State) : Plan :=
  match a.phase with
  | .choosing =>
    match a.todo with
    | [] => .done (.next (s.finishAccess a))
    | p :: _ =>
      let q := pick p (s.ready a) s.choice.page
      .done (s.beginPage a q (a.todo.erase q))
  | .walking p w => .done (.next (s.walkPage a p w))
  | .translated p pa =>
    if a.instruction then s.fetchedPiece a p pa else .done (.next (s.performPiece a p pa))

/-- The physical addresses of the instruction at `rip` with paging off (R132). -/
def LP.fetchAddrs (lp : LP) : List Nat :=
  (List.range maxLength).map fun i => (lp.linear (lp.rip + BitVec.ofNat 64 i)).toNat

/-- The fetch of the instruction at `rip` with paging off: no translation, no page (R132). -/
def State.fetchUntranslated (s : State) : Plan :=
  match decode (s.lp.fetchAddrs.map s.mem.read) with
  | .ok (i, rest) => .execute i (s.noteReads (s.lp.fetchAddrs.take (maxLength - rest.length)))
  | .error e => .done (.refused (.notAnInstruction e))

/-- The fetch of the instruction at `rip` as it begins with paging on: the bytes up to the end of the page (R77, R330). -/
def LP.fetchAccess (lp : LP) : Access :=
  { kind := .fetch, user := lp.user, instruction := true, la := lp.linear lp.rip, bytes := [],
    todo := [lp.fetchPiece 0], covered := [], parts := [], done := [], phase := .choosing }

/-- The next step of the acting logical processor's software: it goes on with its PDPTR load or its access; or, halted (R336) or
with an exception in the hands of the enclosing model (R358), it issues nothing; or it fetches the instruction at `rip`. -/
def State.software (s : State) : Plan :=
  match s.lp.loading with
  | some l => .done (.next (s.loadPdpte l))
  | none =>
    match s.lp.access with
    | some a => s.advanceAccess a
    | none =>
      if s.lp.halted || s.lp.exc.isSome then .done (.next s)
      else if s.lp.pg then s.advanceAccess s.lp.fetchAccess
      else s.fetchUntranslated

end Sys2Proof.Machine
end

