-- ==== Sys2Proof/Machine/Agents.lean ====
section
/-! DEFINITION. The other agents (R13): speculative accesses and their walks (R150), eviction (R230), other writers of memory
(R333), the other logical processors (R371), the enclosing model; and what moves next. -/

namespace Sys2Proof.Machine

/-- A speculative translation that succeeded may be followed by a physical read (R150, R67). -/
def State.specDone (c : Choice) (pa : Nat) (s : State) : State := if c.specRead then s.noteReads [pa] else s

/-- A speculative translation begins (R150): a faulting condition aborts it without effect. Its walk is one record more in
`walks`, "one per translation" (R31), also where an equal record is there already (DESIGN CHOICE, entry 33). -/
def State.specStart (la : Word) (acc : Acc) (s : State) : State :=
  match translate s.cfg s.choice s.lp la acc with
  | .found pa _ => s.tick.specDone s.choice pa
  | .fault _ _ _ => s.tick
  | .walk w => { s.tick with lp := { s.lp with walks := s.lp.walks ++ [w] } }

/-- `SpecAccess(lp, kind, la)` (R150): available while CR0.PG = 1, for a canonical address; else nothing happens (entry 25). -/
def State.specAccess (fetch : Bool) (la : Word) (s : State) : State :=
  if s.lp.pg && !s.lp.refuses la then
    s.specStart (s.lp.linear la) { kind := if fetch then .fetch else .read, user := s.lp.user, spec := true }
  else s

/-- The walker advances the speculative walk `w`, the `n`-th of `walks` (R136, R150). -/
def State.specWalk (n : Nat) (w : Walk) (s : State) : State :=
  let out := walkStep s.cfg s.choice s.lp s.mem w
  let s' : State := { s.tick with mem := out.mem, lp := { out.lp with walks := out.lp.walks.eraseIdx n } }
  match out.result with
  | .more w' => { s' with lp := { out.lp with walks := out.lp.walks.set n w' } }
  | .found pa _ => s'.specDone s.choice pa
  | .fault _ _ _ => s'
  | .aborted => s'
  | .restart => s'.specStart w.la w.acc

/-- `WalkStep` for the `n`-th speculative walk, if there is one. -/
def State.walkNth (n : Nat) (s : State) : State :=
  match s.lp.walks[n]? with
  | some w => s.specWalk n w
  | none => s

/-- `Evict(lp, S)` (R230). -/
def State.evict (s : State) : State :=
  { s.tick with
    lp := { s.lp.dropSome s.choice with walks := thin s.choice.dropWalks s.lp.walks } }

/-- `PhysStore(agent, pa, n, v)` (R333): it removes no cached entry (R71). -/
def State.physStore (pa : Nat) (bytes : List Byte) (s : State) : Host.Outcome State Fault Refusal :=
  if pa + bytes.length ≤ 2 ^ s.cfg.paw then .next { s with mem := s.mem.writeBytes pa bytes }
  else .fault (.physicalAddressAbsent (pa + bytes.length - 1))

/-- The `n`-th other logical processor acts from now on, if there is one (R13). -/
def State.schedule (n : Nat) (s : State) : State :=
  match s.others[n]? with
  | some lp' => { s with lp := lp', others := s.others.set n s.lp }
  | none => s

/-- The effect of an input that is not `software` (entry 7). A halted logical processor's software issues no access (R336). -/
def State.handle (i : Input) (s : State) : Host.Outcome State Fault Refusal :=
  match i with
  | .software => .next s
  | .load la n => .next (if s.lp.halted then s else s.issue .read la (List.replicate n 0))
  | .store la bytes => .next (if s.lp.halted then s else s.issue .write la bytes)
  | .fetch la n => .next (if s.lp.halted then s else s.issue .fetch la (List.replicate n 0))
  | .specAccess f la => .next (s.specAccess f la)
  | .walkStep n => .next (s.walkNth n)
  | .evict => .next s.evict
  | .physStore pa bytes => s.physStore pa bytes
  | .schedule n => .next (s.schedule n)
  | .wake => .next { s with lp := { s.lp with halted := false } }
  | .resume rip cpl => .next { s with lp := s.lp.resume rip cpl }
  | .setReg r v => .next { s with lp := { s.lp with gpr := s.lp.gpr.set r v } }

/-- Whether an input waits while an access is in progress: "the operation that follows starts after this one has ended" (R330). -/
def Input.waitsForAccess : Input → Bool
  | .load _ _ => true
  | .store _ _ => true
  | .fetch _ _ => true
  | .resume _ _ => true
  | .setReg _ _ => true
  | .software => false
  | .specAccess _ _ => false
  | .walkStep _ => false
  | .evict => false
  | .physStore _ _ => false
  | .schedule _ => false
  | .wake => false

/-- Whether an input waits while a PDPTR load is in progress: "nothing of the same logical processor interleaves with" it, its
speculative accesses and walks neither (D5). Eviction is "at any time" (R230): it neither reads nor writes memory. -/
def Input.waitsForLoad : Input → Bool
  | .specAccess _ _ => true
  | .walkStep _ => true
  | .load _ _ => true
  | .store _ _ => true
  | .fetch _ _ => true
  | .resume _ _ => true
  | .setReg _ _ => true
  | .software => false
  | .evict => false
  | .physStore _ _ => false
  | .schedule _ => false
  | .wake => false

/-- Whether an input waits for the operation in progress on a logical processor. -/
def LP.delays (i : Input) (lp : LP) : Bool :=
  (i.waitsForAccess && lp.access.isSome) || (i.waitsForLoad && lp.loading.isSome)

/-- What the next step is: the first input's effect, or the software's next step. -/
def State.plan (s : State) : Plan :=
  match s.inputs with
  | [] => s.software
  | .software :: rest => State.software { s with inputs := rest }
  | i :: rest =>
    if s.lp.delays i then s.software
    else .done (State.handle i { s with inputs := rest })

end Sys2Proof.Machine
end

