-- ==== Sys2Proof/Machine/System.lean ====
section
/-! DEFINITION. The meanings of INVLPG (R220, R245), WRMSR (R331), CPUID (R334) and HLT (R336). -/

namespace Sys2Proof.Machine

/-- `INVLPG(lp, la)` at CPL 0 (R220, R221, R268; with ALT_INVLPG R245). -/
def invlpg (cfg : Config) (c : Choice) (la : Word) (lp : LP) : LP :=
  let lp' := lp.removeTlb (TlbEntry.forPage lp.pagingMode la)
  ((if cfg.altInvlpg then lp'.removePscFor lp.pagingMode la else lp'.flushPsc).dropSome c).dropWalks

/-- INVLPG m (R220): the operand is not accessed. A non-canonical operand is refused (D20). -/
def execInvlpg (m : MemOperand) (s : State) : Host.Outcome State Fault Refusal :=
  let len := (Instr.invlpg m).length
  let la := s.lp.effectiveAddress len m
  s.privileged <|
    if s.lp.refuses la then .refused (.nonCanonical la)
    else .next (s.tick.complete len (invlpg s.cfg s.choice la s.lp))

/-- The MSR address of IA32_EFER (R25). -/
def eferAddress : Dword := 0xC0000080

/-- The reserved bits of IA32_EFER: 63:12, 9, 7:1 (R25, R331). -/
def eferReserved (v : Word) : Bool := anyBit v 63 12 || bit v 9 || anyBit v 7 1

/-- Whether WRMSR of `v` to IA32_EFER raises GP(0) at CPL 0 (R331). -/
def eferFaults (cfg : Config) (v : Word) (lp : LP) : Bool :=
  !(cfg.hasXd || cfg.hasIntel64) || eferReserved v || (bit v 11 && !cfg.hasXd) || (bit v 8 && !cfg.hasIntel64)
    || (bit v 8 != lp.lme && lp.pg)

/-- The new value of IA32_EFER: SCE, LME and NXE from `v`; "v[10] is ignored: LMA keeps its value" (R331). -/
def eferWritten (efer v : Word) : Word :=
  putBit (putBit (putBit efer 0 (bit v 0)) 8 (bit v 8)) 11 (bit v 11)

/-- `WRMSR_EFER(lp, v)` where it does not fault (R331, R313). -/
def wrmsrEfer (cfg : Config) (c : Choice) (v : Word) (lp : LP) : LP :=
  (LP.modeChanged cfg c (bit v 11 != lp.nxe) { lp with efer := eferWritten lp.efer v }).dropWalks

/-- EDX:EAX, the value WRMSR writes (R109). -/
def LP.edxEax (lp : LP) : Word := lp.reg32 .rdx ++ lp.reg32 .rax

/-- WRMSR (R331): ECX selects the register, of which the machine has one, IA32_EFER (R33, R60); a write to an absent MSR
raises GP(0) (R356; entry 11). -/
def execWrmsr (s : State) : Host.Outcome State Fault Refusal :=
  s.privileged <|
    if s.lp.reg32 .rcx ≠ eferAddress || eferFaults s.cfg s.lp.edxEax s.lp then .next s.generalProtection
    else .next (s.tick.complete 2 (wrmsrEfer s.cfg s.choice s.lp.edxEax s.lp))

/-- A result register of CPUID for function `f` (R334): the bits the spec defines are set as the configuration says, every
other bit is free (entry 12). -/
def cpuidResult (cfg : Config) (f : Dword) (r : CpuidReg) : Dword :=
  let free := Config.cpuidFree f r
  match r with
  | .edx =>
    if f = 0x80000001 then
      (free &&& ~~~0x20100000#32) ||| (if cfg.hasXd then 0x100000#32 else 0) ||| (if cfg.hasIntel64 then 0x20000000#32 else 0)
    else if f = 0x1 then (free &&& ~~~0x20000#32) ||| (if cfg.pse36 then 0x20000#32 else 0)
    else free
  | .eax => if f = 0x80000008 then (free &&& ~~~0xFF#32) ||| BitVec.ofNat 32 cfg.paw else free
  | .ebx => free
  | .ecx => free

/-- CPUID (R334): EAX is the function, at any CPL; a result fills the low half of its register and clears the high half
(entry 12). -/
def execCpuid (s : State) : Host.Outcome State Fault Refusal :=
  let f := s.lp.reg32 .rax
  let result := fun r => (cpuidResult s.cfg f r).setWidth 64
  .next <|
    s.complete 2
      { s.lp with
        gpr := { s.lp.gpr with rax := result .eax, rbx := result .ebx, rcx := result .ecx, rdx := result .edx } }

/-- HLT (R336): software issues no further operation until it is woken; nothing is invalidated or loaded. -/
def execHlt (s : State) : Host.Outcome State Fault Refusal :=
  s.privileged (.next (s.complete 1 { s.lp with halted := true }))

end Sys2Proof.Machine
end

