-- ==== Sys2Proof/Machine/Dispatch.lean ====
section
/-! DEFINITION. exec: one arm for each instruction. -/

namespace Sys2Proof.Machine

def exec (i : Instr) (s : State) : Host.Outcome State Fault Refusal :=
  match i with
  | .invlpg m => Sys2Proof.Machine.execInvlpg m s
  | .movCr0 r => Sys2Proof.Machine.execMovCr0 r s
  | .movCr3 r => Sys2Proof.Machine.execMovCr3 r s
  | .movCr4 r => Sys2Proof.Machine.execMovCr4 r s
  | .wrmsr => Sys2Proof.Machine.execWrmsr s
  | .cpuid => Sys2Proof.Machine.execCpuid s
  | .hlt => Sys2Proof.Machine.execHlt s

end Sys2Proof.Machine
end

