-- ==== Sys2Proof/Machine/Place.lean ====
section
/-! DEFINITION. Where an instruction is placed so that the very next step runs it (entry 21). -/

namespace Sys2Proof.Machine

/-- Writes bytes at the given addresses, one each. -/
def Memory.writeAt (m : Memory) : List Nat → List Byte → Memory
  | a :: as, b :: bs => Memory.writeAt (m.write a b) as bs
  | _, _ => m

/-- The state with the bytes where the next step fetches: at `rip` with paging off; with paging on, at a physical address to
which the fetch of `rip` is already translated. Software is neither halted nor waiting nor in an operation, and no other input comes first. -/
def State.placeInstruction (bs : List Byte) (s : State) : State :=
  let s' : State := { s with inputs := [], lp := { s.lp with halted := false, exc := none, access := none, loading := none } }
  if s.lp.pg then
    let pa := s.lp.rip.toNat % 2 ^ 31
    State.setAccess
      { s.lp.fetchAccess with todo := [], phase := .translated ⟨s.lp.linear s.lp.rip, 0, maxLength⟩ pa }
      { s' with mem := s.mem.writeBytes pa bs }
  else { s' with mem := s.mem.writeAt s.lp.fetchAddrs bs }

end Sys2Proof.Machine
end

