-- ==== Sys2Proof/Machine/Step.lean ====
section
/-! DEFINITION. One step of the machine: the first waiting input, or the next step of the acting logical processor's software,
which fetches, decodes and executes. -/

namespace Sys2Proof.Machine

/-- One step. -/
def step (s : State) : Host.Outcome State Fault Refusal :=
  match s.plan with
  | .done o => o
  | .execute i s' => exec i s'

/-- `s` with the instruction whose bits are `w` placed so that the very next step fetches and runs it (entry 21). -/
def State.withFetchWord (s : State) (nbits w : Nat) : State := s.placeInstruction (tableBytes nbits w)

end Sys2Proof.Machine
end

