-- ==== Sys2Proof/Safety.lean ====
section
/-! DEFINITION. The terms claims are stated in: what an operation leaves alone, what a page fault does, the registers only
certain events change, and the invariants of the machine. -/

namespace Sys2Proof.Machine

/-! ## Frames -/

/-- Outside the acting logical processor nothing but the supply of free choices has changed from `s` to `t`: every byte of
memory reads as before. -/
structure State.SameOutside (s t : State) : Prop where
  cfg : t.cfg = s.cfg
  mem : ∀ a, t.mem.read a = s.mem.read a
  others : t.others = s.others
  inputs : t.inputs = s.inputs
  sideEffects : t.sideEffects = s.sideEffects

/-- The TLB and the three paging-structure caches of `lp'` hold entries of `lp` only. -/
structure LP.OnlyRemoves (lp lp' : LP) : Prop where
  tlb : lp'.tlb.Sublist lp.tlb
  pml4c : lp'.pml4c.Sublist lp.pml4c
  pdpc : lp'.pdpc.Sublist lp.pdpc
  pdec : lp'.pdec.Sublist lp.pdec

/-- The TLB and the three paging-structure caches of `lp'` hold every entry of `lp` still. -/
structure LP.OnlyAdds (lp lp' : LP) : Prop where
  tlb : lp.tlb.Sublist lp'.tlb
  pml4c : lp.pml4c.Sublist lp'.pml4c
  pdpc : lp.pdpc.Sublist lp'.pdpc
  pdec : lp.pdec.Sublist lp'.pdec

/-- The TLB and the three paging-structure caches are empty. -/
structure LP.CachesEmpty (lp : LP) : Prop where
  tlb : lp.tlb = []
  pml4c : lp.pml4c = []
  pdpc : lp.pdpc = []
  pdec : lp.pdec = []

/-- After a GP(0) nothing has changed but the report of the exception, and the operation is over (R356; the report takes the place
of an earlier one: entries 9, 34). -/
def State.reportsGp (s : State) : State :=
  { s with lp := { s.lp with exc := some (.generalProtection 0), access := none, loading := none } }

/-- The software of the acting logical processor takes the next step: no input is there, or its own, or one that waits for the
operation in progress. -/
def State.SoftwareNext (s : State) : Prop :=
  s.inputs = [] ∨ ∃ i rest, s.inputs = i :: rest ∧ (i = .software ∨ s.lp.delays i = true)

/-- The state once the input of the step is taken; an input that waits stays. -/
def State.begun (s : State) : State :=
  { s with inputs := match s.inputs with
      | [] => []
      | i :: rest => if s.lp.delays i then i :: rest else rest }

/-- The next step schedules another logical processor. -/
def State.Schedules (s : State) : Prop := ∃ n rest, s.inputs = .schedule n :: rest

/-- The next step executes an instruction that satisfies `P`. -/
def State.Executes (P : Instr → Prop) (s : State) : Prop := ∃ i s', s.plan = .execute i s' ∧ P i

/-! ## The MOVs to control registers -/

/-- The software's next step reads an entry for the PDPTR load `l`. -/
structure State.Loading (s : State) (l : PdptrLoad) : Prop where
  next : s.SoftwareNext
  loading : s.lp.loading = some l

/-- The next step makes the last of the four reads of a PDPTR load of the instruction `w`, and `t` are the four entries then read. -/
structure State.LastRead (s : State) (w : ControlWrite) (t : Pdptrs) : Prop where
  reads : ∃ l, s.Loading l ∧ l.write = w ∧ ∃ i, l.todo = [i]
    ∧ t = l.entries.set i (s.mem.readEntry (pdpteAddr (w.root s.lp) i) 8)

/-- A MOV of `v` to CR3 takes the logical processor `lp` to `lp'`, the PDPTR registers then being `t`: only global TLB entries can
remain, the paging-structure caches are empty, the walks dropped, and no other register changed but `rip` (R222, R233). -/
structure LP.MovedCr3 (lp lp' : LP) (v : Word) (t : Pdptrs) : Prop where
  registers : lp' = { lp with
    cr3 := v, pdptr := t, tlb := lp'.tlb, pml4c := [], pdpc := [], pdec := [], walks := [], loading := lp'.loading
    rip := lp.linear (lp.rip + 3) }
  removes : lp'.tlb.Sublist lp.tlb
  global : ∀ e ∈ lp'.tlb, e.global = true

/-- A MOV of `v` to CR4 takes `lp` to `lp'`, the PDPTR registers then being `t`: a change of PGE empties the caches, and so does a
change of PAE or PSE with `Flush`; else entries may only go (R224, R313, R233). -/
structure LP.MovedCr4 (cfg : Config) (lp lp' : LP) (v : Word) (t : Pdptrs) : Prop where
  registers : lp' = { lp with
    cr4 := v, pdptr := t, tlb := lp'.tlb, pml4c := lp'.pml4c, pdpc := lp'.pdpc, pdec := lp'.pdec, walks := []
    loading := lp'.loading, rip := lp.linear (lp.rip + 3) }
  removes : lp.OnlyRemoves lp'
  pge : bit v 7 ≠ bit lp.cr4 7 → lp'.CachesEmpty
  flush : cfg.modeChange = .flush → (bit v 5 ≠ bit lp.cr4 5 ∨ bit v 4 ≠ bit lp.cr4 4) → lp'.CachesEmpty

/-- A MOV of `v` to CR0 takes `lp` to `lp'`, the PDPTR registers then being `t`: LMA becomes LME AND the new PG, no other bit of
IA32_EFER changes; with `Flush` a change of PG empties the caches, else entries may only go; software goes on behind the
instruction, at a linear address of the new mode (R305, R313, R233, R60). -/
structure LP.MovedCr0 (cfg : Config) (lp lp' : LP) (v : Word) (t : Pdptrs) : Prop where
  registers : lp' = { lp with
    cr0 := v, efer := lp'.efer, pdptr := t, tlb := lp'.tlb, pml4c := lp'.pml4c, pdpc := lp'.pdpc, pdec := lp'.pdec
    walks := [], loading := lp'.loading
    rip := if lp'.mode = some .modeIA32e then lp.rip + 3 else ((lp.rip + 3).setWidth 32).setWidth 64 }
  lma : lp'.lma = (lp.lme && bit v 31)
  efer : ∀ i, i ≠ 10 → bit lp'.efer i = bit lp.efer i
  removes : lp.OnlyRemoves lp'
  flush : cfg.modeChange = .flush → bit v 31 ≠ bit lp.cr0 31 → lp'.CachesEmpty

/-! ## Walks and page faults -/

/-- The paging-structure entry a walk reads next. -/
def Walk.entry (cfg : Config) (mem : Memory) (w : Walk) : Word := mem.readEntry (w.entryAddr cfg) (entryBytes w.mode)

/-- The walk with which a translation begins at the root: at the PML4E in ModeIA32e, else at the PDE, in the structure that CR3 or, in
ModePAE, the PDPTR register selected by `la[31:30]` names, with all rights (R135, R293, R307). -/
def LP.rootWalk (cfg : Config) (la : Word) (acc : Acc) (lp : LP) : Walk where
  la := la
  acc := acc
  mode := lp.pagingMode
  level := if lp.pagingMode = .modeIA32e then .pml4e else .pde
  base := match lp.pagingMode with
    | .modeIA32e => lp.cr3.toNat / 4096 % 2 ^ (cfg.paw - 12) * 4096
    | .modePAE => (lp.pdptr.get (la.toNat / 2 ^ 30 % 4)).toNat / 4096 % 2 ^ (cfg.paw - 12) * 4096
    | .mode32 => lp.cr3.toNat / 4096 % 2 ^ 20 * 4096
  rights := ⟨true, true, false⟩
  allA := true

/-- The walk `w` at the level below its upper entry `e`, at the structure the entry names, with the rights ANDed and XD ORed;
`marked` says that the entry's accessed bit is 1 as the walk leaves it (R136, R139). -/
def Walk.down (cfg : Config) (nxe marked : Bool) (e : Word) (w : Walk) : Walk :=
  { w with
    level := w.level.below, base := nextBase cfg w.mode e
    rights :=
      { rw := w.rights.rw && bit e 1, us := w.rights.us && bit e 2
        xd := w.rights.xd || (nxe && (w.mode != .mode32 && bit e 63)) }
    allA := w.allA && marked }

/-- The PDPTR register that a walk from the root begins with has P = 0 (R293). -/
def LP.PdptrAbsent (la : Word) (lp : LP) : Prop :=
  lp.pagingMode = .modePAE ∧ bit (lp.pdptr.get (la.toNat / 2 ^ 30 % 4)) 0 = false

/-- The access the software's next step works on: the one in progress, or the fetch of the instruction at `rip` that begins. -/
def State.Current (s : State) (a : Access) : Prop :=
  s.lp.access = some a
    ∨ (s.lp.access = none ∧ s.lp.halted = false ∧ s.lp.exc = none ∧ s.lp.pg = true ∧ a = s.lp.fetchAccess)

/-- The software's next step begins the translation of the piece `p` of the access `a`: the one the free choice picks among the
pieces not yet begun (of a large page that memory maps, the first), which leaves the pieces `rest` (R65, R330; entry 15). -/
structure State.Choosing (s : State) (a : Access) (p : Piece) (rest : List Piece) : Prop where
  next : s.SoftwareNext
  idle : s.lp.loading = none
  access : s.Current a
  phase : a.phase = .choosing
  picked : (s.ready a)[s.choice.page % (s.ready a).length]? = some p
  rest : rest = a.todo.erase p

/-- The TLB entry with which the translation of the piece `p` begins, by the free choice. -/
abbrev State.PicksTlb (s : State) (a : Access) (p : Piece) (e : TlbEntry) : Prop :=
  pick .root (alternatives s.lp s.lp.pagingMode p.la a.kind) s.choice.alternative = .tlb e

/-- What the beginning of a speculative translation does from `s` to `t` by the free choices `c`, where `walks` are the other
speculative walks: at a TLB entry it is over, and it may read at the address the entry gives, which shows only where reads have
side effects; else a walk begins, from a paging-structure-cache entry or the root, unless the PDPTR register of the address has
P = 0 (R150, R133 to R135, R67). -/
structure State.SpecBegins (s t : State) (c : Choice) (walks : List Walk) (la : Word) (acc : Acc) : Prop where
  tlb : ∀ e, pick .root (alternatives s.lp s.lp.pagingMode la acc.kind) c.alternative = .tlb e →
    t.lp.walks = walks
      ∧ t.sideEffects =
        if permit s.lp acc e.rights = true ∧ c.specRead = true ∧ s.cfg.hasReadSideEffect (e.address la) = true then
          e.address la :: s.sideEffects
        else s.sideEffects
  cache : ∀ l x, pick .root (alternatives s.lp s.lp.pagingMode la acc.kind) c.alternative = .cache l x →
    t.lp.walks = walks ++ [{ s.lp.rootWalk s.cfg la acc with level := l, base := x.addr, rights := x.rights }]
      ∧ t.sideEffects = s.sideEffects
  root : pick .root (alternatives s.lp s.lp.pagingMode la acc.kind) c.alternative = .root →
    (¬ s.lp.PdptrAbsent la → t.lp.walks = walks ++ [s.lp.rootWalk s.cfg la acc])
      ∧ (s.lp.PdptrAbsent la → t.lp.walks = walks) ∧ t.sideEffects = s.sideEffects

/-- The software's next step advances the walk `w` of the access `a`. -/
structure State.Walking (s : State) (a : Access) (p : Piece) (w : Walk) : Prop where
  next : s.SoftwareNext
  idle : s.lp.loading = none
  access : s.lp.access = some a
  phase : a.phase = .walking p w

/-- The software's next step accesses the bytes of the piece `p` at `pa` for the access `a`, which is no instruction fetch. -/
structure State.Performing (s : State) (a : Access) (p : Piece) (pa : Nat) : Prop where
  next : s.SoftwareNext
  idle : s.lp.loading = none
  access : s.lp.access = some a
  phase : a.phase = .translated p pa
  data : a.instruction = false

/-- The address lies where the access has already written. -/
def Access.Wrote (a : Access) (x : Nat) : Prop := a.kind = .write ∧ ∃ q ∈ a.done, q.1 ≤ x ∧ x < q.1 + q.2

/-- What a page fault at `la` of the access `a` does from `s` to `t` (R226, R352, R353): CR2, the exception with its error code
and the end of the access; every walk dropped; every cached entry that would be used for `la` removed; no other register
changed, and no byte of memory but those the access had already written. The report takes the place of an earlier one (entries 9,
34). -/
structure State.PageFaults (s t : State) (a : Access) (la : Word) (acc : Acc) (p rsvd : Bool) : Prop where
  registers : t.lp = { s.lp with
    cr2 := la, exc := some (.pageFault la (errorCode s.lp.nxe acc p rsvd)), access := none, loading := none, walks := []
    tlb := t.lp.tlb, pml4c := t.lp.pml4c, pdpc := t.lp.pdpc, pdec := t.lp.pdec }
  removes : s.lp.OnlyRemoves t.lp
  tlb : ∀ e ∈ t.lp.tlb, e.mode = s.lp.pagingMode →
    (e.size = .ordinary → e.key ≠ pageNumber e.mode la) ∧ (e.size = .large → e.key ≠ largePageNumber e.mode la)
  pml4c : ∀ c ∈ t.lp.pml4c, c.mode = s.lp.pagingMode → c.key ≠ field la 47 39
  pdpc : ∀ c ∈ t.lp.pdpc, c.mode = s.lp.pagingMode → c.key ≠ field la 47 30
  pdec : ∀ c ∈ t.lp.pdec, c.mode = s.lp.pagingMode → c.key ≠ largePageNumber c.mode la
  mem : ∀ x, ¬ a.Wrote x → t.mem.read x = s.mem.read x
  cfg : t.cfg = s.cfg
  others : t.others = s.others
  inputs : t.inputs = s.begun.inputs
  sideEffects : t.sideEffects = s.sideEffects

/-! ## Invariants -/

/-- The logical processors of the machine: the acting one and the others. -/
def State.processors (s : State) : List LP := s.lp :: s.others

/-- Every logical processor satisfies `P`. -/
def State.Each (P : LP → Prop) (s : State) : Prop := ∀ lp ∈ s.processors, P lp

/-- Registers: LMA = LME AND CR0.PG (R25, D17), and never CR4.PAE = 0 with LMA = 1 (R27); a MOV that loads the PDPTR registers
leaves CR4.PAE = 1 (R298); and such a load in progress has entries still to read (R299). -/
structure LP.ControlInv (lp : LP) : Prop where
  lma : lp.lma = (lp.lme && lp.pg)
  pae : lp.lma = true → lp.pae = true
  load : ∀ l, lp.loading = some l → match l.write with
    | .cr0 _ => lp.pae = true
    | .cr3 _ => lp.pae = true
    | .cr4 v => bit v 5 = true
  todo : ∀ l, lp.loading = some l → l.todo ≠ []

/-- "whenever CR4.PGE = 0, `lp.TLB` holds no entry with `global` = 1" (R273). -/
def LP.GlobalInv (lp : LP) : Prop := lp.pge = false → ∀ e ∈ lp.tlb, e.global = false

/-- The translation caches the processor does not have are empty (R30, R190), PML4- and PDP-cache entries were made in ModeIA32e
(R195; that they may stay in another mode is the model's reading of R30 against R313, entry 14), a TLB entry is held by a TLB the
processor has (R172). -/
structure LP.CacheInv (cfg : Config) (lp : LP) : Prop where
  pml4Absent : cfg.hasPml4Cache = false → lp.pml4c = []
  pdpAbsent : cfg.hasPdpCache = false → lp.pdpc = []
  pdeAbsent : cfg.hasPdeCache = false → lp.pdec = []
  pml4Mode : ∀ c ∈ lp.pml4c, c.mode = .modeIA32e
  pdpMode : ∀ c ∈ lp.pdpc, c.mode = .modeIA32e
  tlbServes : ∀ e ∈ lp.tlb, e.serves ∈ cfg.tlbs

/-- The walks of the speculation agent are speculative and never write (R150); the walk of a software access is of that
access (R330); with CR0.PG = 0 no walk is in progress (R132, R150, R233); a logical processor that loads the PDPTR registers has
no access in progress (R330, D5). -/
structure LP.WalkInv (lp : LP) : Prop where
  spec : ∀ w ∈ lp.walks, w.acc.spec = true ∧ w.acc.kind ≠ .write
  soft : ∀ a p w, lp.access = some a → a.phase = .walking p w → w.acc = a.acc
  offSpec : lp.pg = false → lp.walks = []
  offSoft : lp.pg = false → ∀ a p w, lp.access = some a → a.phase ≠ .walking p w
  load : lp.loading ≠ none → lp.access = none

/-- Physical addresses stay below 2^PAW, and structures aligned on 4 KBytes, where a logical processor holds them beside its access
in progress: in the paging-structure caches, in the frames of the TLB, in walks (R9, R64); and an ordinary TLB entry derived from a
large page translates a 4-KByte page to the same place in the large page's frame (R267). -/
structure LP.AddressInv (cfg : Config) (lp : LP) : Prop where
  psc : ∀ c, c ∈ lp.pml4c ∨ c ∈ lp.pdpc ∨ c ∈ lp.pdec → c.addr < 2 ^ cfg.paw ∧ c.addr % 4096 = 0
  ordinary : ∀ e ∈ lp.tlb, e.size = .ordinary → e.frame < 2 ^ (cfg.paw - 12)
  large : ∀ e ∈ lp.tlb, e.size = .large → e.frame < 2 ^ (cfg.paw - largeBits e.mode)
  fractured : ∀ e ∈ lp.tlb, e.size = .ordinary → e.fromLarge = true →
    e.key % 2 ^ (largeBits e.mode - 12) = e.frame % 2 ^ (largeBits e.mode - 12)
  walks : ∀ w ∈ lp.walks, w.base < 2 ^ cfg.paw ∧ w.base % 4096 = 0
  walking : ∀ a p w, lp.access = some a → a.phase = .walking p w → w.base < 2 ^ cfg.paw ∧ w.base % 4096 = 0

/-- A part of an access lies in one 4-KByte piece of the linear-address space (R65). -/
def Piece.Fits (p : Piece) : Prop := p.la.toNat % 4096 + p.len ≤ 4096

/-- The bytes an access has translated or written lie below 2^PAW, and its other parts in 4-KByte pieces each (R9, R65); a walk
for a part translates its first byte (R330). -/
structure Access.AddressInv (cfg : Config) (a : Access) : Prop where
  todo : ∀ p ∈ a.todo, p.Fits
  walking : ∀ p w, a.phase = .walking p w → p.Fits ∧ w.la = p.la
  translated : ∀ p pa, a.phase = .translated p pa →
    pa + p.len ≤ 2 ^ cfg.paw ∧ ∀ q ∈ a.covered, q.2 + q.1.len ≤ 2 ^ cfg.paw
  done : ∀ q ∈ a.done, q.1 + q.2 ≤ 2 ^ cfg.paw

/-- Every physical address that the machine holds is below 2^PAW: those of memory (R32) and of the reads with side effects (R67),
and on every logical processor those of its caches, walks and access in progress (R9, R64). -/
structure State.AddressInv (s : State) : Prop where
  mem : ∀ c ∈ s.mem, c.1 < 2 ^ s.cfg.paw
  sideEffects : ∀ x ∈ s.sideEffects, x < 2 ^ s.cfg.paw
  caches : s.Each (LP.AddressInv s.cfg)
  access : s.Each fun lp => ∀ a, lp.access = some a → a.AddressInv s.cfg

end Sys2Proof.Machine
end

