-- ==== Sys2Proof/Certificates/Slice0/Obligations.lean ====
section
/-! DEFINITION. The statements for the provers, from the numbered rules of the spec. -/

section

open Sys2Proof Sys2Proof.Machine

/-! ## Encodings -/

/-- No bit of an encoding is dropped: every well-formed instruction is decoded from its own bytes, whatever follows (R109; the
memory forms: entry 4). -/
def Obligations.DecodeOfEncode : Prop :=
  ∀ (i : Instr) (rest : List Byte), i.wf = true → decode (encode i ++ rest) = .ok (i, rest)

/-- What the decoder answers is well-formed, takes exactly its length from the front, and does not depend on what follows (R109;
the memory forms of INVLPG and their lengths: entry 4). -/
def Obligations.DecodedInstructionWellFormed : Prop :=
  ∀ (bs : List Byte) (i : Instr) (rest : List Byte), decode bs = .ok (i, rest) →
    i.wf = true ∧ bs = bs.take i.length ++ rest ∧ bs.length = i.length + rest.length
      ∧ ∀ other, decode (bs.take i.length ++ other) = .ok (i, other)

/-- Words of the opcode table, written out from R109, decode to their instructions: one of each row. -/
def Obligations.TableWordsDecode : Prop :=
  decodeTableWord 24 0x0F013B = some (.invlpg (.base .rbx .none)) ∧ decodeTableWord 24 0x0F22C0 = some (.movCr0 .rax)
    ∧ decodeTableWord 24 0x0F22DF = some (.movCr3 .rdi) ∧ decodeTableWord 24 0x0F22E2 = some (.movCr4 .rdx)
    ∧ decodeTableWord 16 0x0F30 = some .wrmsr ∧ decodeTableWord 16 0x0FA2 = some .cpuid
    ∧ decodeTableWord 8 0xF4 = some .hlt

/-! ## A step -/

/-- A step runs the instruction that the bytes at `rip` decode to, its input taken and the physical reads of the instruction's
bytes recorded: with paging off the bytes at the physical addresses equal to the linear ones; with paging on, once the fetch is
translated, the bytes of earlier pages and then those at the physical address of this one. With paging on the step that begins the
fetch begins to translate the address `rip`, for a fetch of CPL's privilege; and bytes that are only the beginning of an
instruction lead to a step that goes on behind them (R132, R77, R330, R67; the conventions of entries 1, 21 and 28). -/
def Obligations.StepRunsDecodedInstruction : Prop :=
  (∀ (s : State) (i : Instr) (rest : List Byte), s.SoftwareNext → s.lp.loading = none → s.lp.access = none →
    s.lp.halted = false → s.lp.exc = none → s.lp.pg = false → decode (s.lp.fetchAddrs.map s.mem.read) = .ok (i, rest) →
    i.wf = true ∧ step s = exec i (s.begun.noteReads (s.lp.fetchAddrs.take i.length)))
  ∧ (∀ (s : State) (a : Access) (p : Piece) (pa : Nat) (i : Instr) (rest : List Byte), s.SoftwareNext →
    s.lp.loading = none → s.lp.access = some a → a.instruction = true → a.phase = .translated p pa →
    decode (a.bytes ++ s.mem.readBytes pa p.len) = .ok (i, rest) →
    i.wf = true
      ∧ step s = exec i
          (({ s.begun with lp := { s.lp with access := none } } : State).noteReads (addrsFrom pa (p.len - rest.length))))
  ∧ (∀ s : State, s.SoftwareNext → s.lp.loading = none → s.lp.access = none → s.lp.halted = false → s.lp.exc = none →
    s.lp.pg = true →
    ∃ a p, step s = s.begun.beginPage a p [] ∧ a.kind = .fetch ∧ (a.user = true ↔ s.lp.cpl = 3) ∧ a.instruction = true
      ∧ a.la = s.lp.linear s.lp.rip ∧ a.bytes = [] ∧ a.parts = [] ∧ p.la = s.lp.linear s.lp.rip ∧ p.off = 0
      ∧ p.len = min 8 (4096 - p.la.toNat % 4096))
  ∧ ∀ (s : State) (a : Access) (p : Piece) (pa : Nat), s.SoftwareNext → s.lp.loading = none → s.lp.access = some a →
    a.instruction = true → a.phase = .translated p pa →
    let bs := a.bytes ++ s.mem.readBytes pa p.len
    let la := s.lp.linear (s.lp.rip + BitVec.ofNat 64 bs.length)
    decode bs = .error .truncated → bs.length < 8 →
    step s = .next (({ s.begun with
      lp := { s.lp with
        access := some { a with
          bytes := bs, phase := .choosing
          todo := [⟨la, bs.length, min (8 - bs.length) (4096 - la.toNat % 4096)⟩] } } } : State).noteReads
        (addrsFrom pa p.len))

/-- "software on `lp` issues no further operation until the enclosing model wakes it" (R336); nor while an exception is in the
hands of the enclosing model (R358, entry 9). -/
def Obligations.SoftwareWaits : Prop :=
  ∀ s : State, s.SoftwareNext → s.lp.loading = none → s.lp.access = none → (s.lp.halted = true ∨ s.lp.exc.isSome = true) →
    step s = .next s.begun

/-! ## The instructions -/

/-- INVLPG completes: TLB entries for the page number, global or not, large-page entries and ordinary entries derived from the
large page are gone; without the alternative behaviour the paging-structure caches are empty; the walks are dropped; nothing else
changes but `rip`. The operand's address is the sum that its form says, in 64 bits in ModeIA32e and in 32 bits else: a base
register, a scaled index and a sign-extended displacement, or, of a displacement alone without a SIB byte, in ModeIA32e the address
of the next instruction and the displacement (R220, R221, R268, R233; the operand's address, `rip` and the mode with paging off are
the model's: entries 1, 4, 18, 27). -/
def Obligations.InvlpgInvalidates : Prop :=
  (∀ (m : MemOperand) (s : State), s.lp.cpl = 0 →
    s.lp.refuses (s.lp.effectiveAddress (Instr.invlpg m).length m) = false →
    ∃ t, exec (.invlpg m) s = .next t ∧ s.SameOutside t ∧ s.lp.OnlyRemoves t.lp
      ∧ t.lp = { s.lp with
          tlb := t.lp.tlb, pml4c := t.lp.pml4c, pdpc := t.lp.pdpc, pdec := t.lp.pdec, walks := []
          rip := s.lp.linear (s.lp.rip + BitVec.ofNat 64 (Instr.invlpg m).length) }
      ∧ (∀ e ∈ t.lp.tlb, e.mode = s.lp.pagingMode →
          let la := s.lp.effectiveAddress (Instr.invlpg m).length m
          (e.size = .ordinary → e.key ≠ pageNumber e.mode la)
            ∧ (e.size = .large → e.key ≠ largePageNumber e.mode la)
            ∧ (e.size = .ordinary → e.fromLarge = true → largeOfKey e.mode e.key ≠ largePageNumber e.mode la))
      ∧ (s.cfg.altInvlpg = false → t.lp.pml4c = [] ∧ t.lp.pdpc = [] ∧ t.lp.pdec = []))
  ∧ (∀ (lp : LP) (len : Nat) (m : MemOperand),
    let index (scale : BitVec 2) : Option Reg → Int
      | none => 0
      | some r => (lp.gpr.get r).toNat * 2 ^ scale.toNat
    let disp : Disp → Int
      | .none => 0
      | .disp8 d => d.toInt
      | .disp32 d => d.toInt
    ((lp.effectiveAddress len m).toNat : Int) =
      (match m with
        | .base r d => (lp.gpr.get r).toNat + disp d
        | .disp d => (if lp.mode = some .modeIA32e then ((lp.rip.toNat + len : Nat) : Int) else 0) + d.toInt
        | .sib scale i r d => (lp.gpr.get r).toNat + index scale i + disp d
        | .sibDisp scale i d => index scale i + d.toInt) % 2 ^ (if lp.mode = some .modeIA32e then 64 else 32))
  ∧ ∀ g : Gprs, g.get .rax = g.rax ∧ g.get .rcx = g.rcx ∧ g.get .rdx = g.rdx ∧ g.get .rbx = g.rbx ∧ g.get .rsp = g.rsp
      ∧ g.get .rbp = g.rbp ∧ g.get .rsi = g.rsi ∧ g.get .rdi = g.rdi

/-- With the alternative behaviour INVLPG removes from the paging-structure caches the entries of the mode associated with the
operand, and may leave every other entry in place, those of another mode with the same key among them (R245, R220; the operand's
address is the model's, entry 4; so is the mode with paging off, the one the registers would give with PG = 1, entry 27). -/
def Obligations.InvlpgAlternative : Prop :=
  ∀ (m : MemOperand) (s : State), s.lp.cpl = 0 → s.cfg.altInvlpg = true →
    s.lp.refuses (s.lp.effectiveAddress (Instr.invlpg m).length m) = false →
    let la := s.lp.effectiveAddress (Instr.invlpg m).length m
    (∃ t, exec (.invlpg m) s = .next t
      ∧ (∀ c ∈ t.lp.pml4c, c.mode = s.lp.pagingMode → c.key ≠ field la 47 39)
      ∧ (∀ c ∈ t.lp.pdpc, c.mode = s.lp.pagingMode → c.key ≠ field la 47 30)
      ∧ (∀ c ∈ t.lp.pdec, c.mode = s.lp.pagingMode → c.key ≠ largePageNumber c.mode la))
    ∧ ∃ ch, ∀ cs, ∃ t, exec (.invlpg m) { s with choices := ch :: cs } = .next t
      ∧ (∀ c ∈ s.lp.pml4c, c.mode ≠ s.lp.pagingMode ∨ c.key ≠ field la 47 39 → c ∈ t.lp.pml4c)
      ∧ (∀ c ∈ s.lp.pdpc, c.mode ≠ s.lp.pagingMode ∨ c.key ≠ field la 47 30 → c ∈ t.lp.pdpc)
      ∧ (∀ c ∈ s.lp.pdec, c.mode ≠ s.lp.pagingMode ∨ c.key ≠ largePageNumber c.mode la → c ∈ t.lp.pdec)

/-- "the model refuses such an access (gives it no meaning)" (R131): INVLPG of a non-canonical address in ModeIA32e at CPL 0, and
the translation of such a page, stop by name, and only they (the stop: entry 13; the operand's address: entry 4). -/
def Obligations.NonCanonicalRefused : Prop :=
  (∀ (m : MemOperand) (s : State), s.lp.cpl = 0 →
    let la := s.lp.effectiveAddress (Instr.invlpg m).length m
    (exec (.invlpg m) s = .refused (.nonCanonical la)
      ↔ s.lp.mode = some .modeIA32e ∧ ∃ i, 48 ≤ i ∧ i < 64 ∧ la.getLsbD i ≠ la.getLsbD 47))
  ∧ ∀ (s : State) (a : Access) (p : Piece) (rest : List Piece), s.Choosing a p rest →
    (step s = .refused (.nonCanonical p.la)
      ↔ s.lp.mode = some .modeIA32e ∧ ∃ i, 48 ≤ i ∧ i < 64 ∧ p.la.getLsbD i ≠ p.la.getLsbD 47)

/-- MOV to CR3 completes where it loads no PDPTR register: CR3 holds the operand; only global TLB entries can remain; the
paging-structure caches are empty and the walks dropped; nothing else changes but `rip`. With LMA = 0 and PAE = 1 (and PG = 1, or
P14) it begins the load of the four PDPTR registers, and completes likewise with the last read, if no entry read breaks a reserved
bit (R222, R298, R299, R233; the operand's width and `rip`: entries 1, 3, 18; the steps of the load: entry 17). -/
def Obligations.MovCr3Completes : Prop :=
  (∀ (r : Reg) (s : State), s.lp.cpl = 0 →
    let v := if s.lp.mode = some .modeIA32e then s.lp.gpr.get r else ((s.lp.gpr.get r).setWidth 32).setWidth 64
    let loads := s.lp.lma = false ∧ s.lp.pae = true ∧ (s.lp.pg = true ∨ s.cfg.pdptrLoadWithPagingOff = true)
    (¬ loads → ∃ t, exec (.movCr3 r) s = .next t ∧ s.SameOutside t ∧ s.lp.MovedCr3 t.lp v s.lp.pdptr
      ∧ t.lp.loading = s.lp.loading)
    ∧ (loads → exec (.movCr3 r) s
        = .next { s with lp := { s.lp with loading := some ⟨.cr3 v, [0, 1, 2, 3], ⟨0, 0, 0, 0⟩⟩ } }))
  ∧ ∀ (s : State) (v : Word) (q : Pdptrs), s.LastRead (.cr3 v) q → pdptFaults s.cfg q = false →
    ∃ t, step s = .next t ∧ s.begun.SameOutside t ∧ s.lp.MovedCr3 t.lp v q ∧ t.lp.loading = none

/-- A global entry may or may not survive MOV to CR3: any subset of the global entries can be what remains, as the instruction
executes where it loads no PDPTR register, and with the last read of the load where it loads them (R223; the steps of the load:
entry 17, D5). -/
def Obligations.MovCr3GlobalEntriesMayStayOrGo : Prop :=
  (∀ (r : Reg) (s : State) (kept : List TlbEntry), s.lp.cpl = 0 → cr3Loads s.cfg s.lp = false →
    kept.Sublist (s.lp.tlb.filter fun e => e.global) →
    ∃ c, ∀ cs, ∃ t, exec (.movCr3 r) { s with choices := c :: cs } = .next t ∧ t.lp.tlb = kept)
  ∧ ∀ (s : State) (l : PdptrLoad) (v : Word) (i : Nat) (kept : List TlbEntry), s.Loading l → l.write = .cr3 v →
    l.todo = [i] → pdptFaults s.cfg (l.entries.set i (s.mem.readEntry (pdpteAddr v i) 8)) = false →
    kept.Sublist (s.lp.tlb.filter fun e => e.global) →
    ∃ c, ∀ cs, ∃ t, step { s with choices := c :: cs } = .next t ∧ t.lp.tlb = kept

/-- MOV to CR4 completes where it loads no PDPTR register: CR4 holds the operand; a change of PGE empties the TLB, global entries
included, and the paging-structure caches, and so does a change of PAE or PSE with `Flush`; else entries may only go; the walks
are dropped; nothing else changes but `rip`. Under the conditions of R298 item 2 it begins the load of the PDPTR registers and
completes likewise with the last read, if no entry read breaks a reserved bit (R224, R273, R298, R299, R313, R233; entries 1, 3,
17, 18). -/
def Obligations.MovCr4Completes : Prop :=
  (∀ (r : Reg) (s : State), s.lp.cpl = 0 →
    let v := if s.lp.mode = some .modeIA32e then s.lp.gpr.get r else ((s.lp.gpr.get r).setWidth 32).setWidth 64
    let loads := bit v 5 = true ∧ s.lp.lma = false ∧ s.lp.pg = true
      ∧ (bit v 5 ≠ bit s.lp.cr4 5 ∨ bit v 7 ≠ bit s.lp.cr4 7 ∨ bit v 4 ≠ bit s.lp.cr4 4)
    (s.lp.lma = true → bit v 5 = true) →
    (¬ loads → ∃ t, exec (.movCr4 r) s = .next t ∧ s.SameOutside t ∧ s.lp.MovedCr4 s.cfg t.lp v s.lp.pdptr
      ∧ t.lp.loading = s.lp.loading)
    ∧ (loads → exec (.movCr4 r) s
        = .next { s with lp := { s.lp with loading := some ⟨.cr4 v, [0, 1, 2, 3], ⟨0, 0, 0, 0⟩⟩ } }))
  ∧ ∀ (s : State) (v : Word) (q : Pdptrs), s.LastRead (.cr4 v) q → pdptFaults s.cfg q = false →
    ∃ t, step s = .next t ∧ s.begun.SameOutside t ∧ s.lp.MovedCr4 s.cfg t.lp v q ∧ t.lp.loading = none

/-- MOV to CR0 completes where it loads no PDPTR register: CR0 holds the operand; LMA becomes LME AND the new PG, no other bit of
IA32_EFER changes; with `Flush` a change of PG empties the caches, else entries may only go; the walks are dropped; software goes
on behind the instruction, at a linear address of the new mode; nothing else changes. Under the conditions of R305 it begins the
load of the PDPTR registers and completes likewise with the last read, if no entry read breaks a reserved bit (R305, R298, R299,
R313, R233; entries 1, 3, 17, 18). -/
def Obligations.MovCr0Completes : Prop :=
  (∀ (r : Reg) (s : State), s.lp.cpl = 0 →
    let v := if s.lp.mode = some .modeIA32e then s.lp.gpr.get r else ((s.lp.gpr.get r).setWidth 32).setWidth 64
    let loads := bit v 31 ≠ bit s.lp.cr0 31 ∧ s.lp.lma = false ∧ s.lp.pae = true
      ∧ ((bit v 31 = true ∧ s.lp.lme = false) ∨ (bit v 31 = false ∧ s.cfg.pdptrLoadWithPagingOff = true))
    ¬ (bit v 31 = true ∧ s.lp.pg = false ∧ s.lp.lme = true ∧ s.lp.pae = false) →
    (¬ loads → ∃ t, exec (.movCr0 r) s = .next t ∧ s.SameOutside t ∧ s.lp.MovedCr0 s.cfg t.lp v s.lp.pdptr
      ∧ t.lp.loading = s.lp.loading)
    ∧ (loads → exec (.movCr0 r) s
        = .next { s with lp := { s.lp with loading := some ⟨.cr0 v, [0, 1, 2, 3], ⟨0, 0, 0, 0⟩⟩ } }))
  ∧ ∀ (s : State) (v : Word) (q : Pdptrs), s.LastRead (.cr0 v) q → pdptFaults s.cfg q = false →
    ∃ t, step s = .next t ∧ s.begun.SameOutside t ∧ s.lp.MovedCr0 s.cfg t.lp v q ∧ t.lp.loading = none

/-- The MOVs to control registers raise GP(0), and then have no effect, exactly where their rules say: MOV to CR4 that clears PAE
with LMA = 1, MOV to CR0 that sets PG with LME = 1 and PAE = 0, and each at the end of its load of the PDPTR registers where an
entry read has a must-be-zero bit set; MOV to CR3 in no other case (R222, R224, R305, R299, R356; the steps of the load: entry
17). -/
def Obligations.MovToControlRegisterFaults : Prop :=
  (∀ (r : Reg) (s : State), s.lp.cpl = 0 → exec (.movCr3 r) s ≠ .next s.reportsGp)
  ∧ (∀ (r : Reg) (s : State), s.lp.cpl = 0 →
    (exec (.movCr4 r) s = .next s.reportsGp ↔ s.lp.lma = true ∧ bit (s.lp.gpr.get r) 5 = false))
  ∧ (∀ (r : Reg) (s : State), s.lp.cpl = 0 →
    (exec (.movCr0 r) s = .next s.reportsGp
      ↔ bit (s.lp.gpr.get r) 31 = true ∧ s.lp.pg = false ∧ s.lp.lme = true ∧ s.lp.pae = false))
  ∧ ∀ (s : State) (w : ControlWrite) (q : Pdptrs), s.LastRead w q →
    (step s = .next s.begun.tick.reportsGp ↔ pdptFaults s.cfg q = true)

/-- The load faults if one of the four entries has a bit of 63:PAW, 8:5 or 2:1 set, the entry being present or P15 checking all;
the entries stand at `CR3[31:5] ++ i ++ 000` (R299, R100, R106). -/
def Obligations.PdptFaultCondition : Prop :=
  (∀ (cfg : Config) (q : Pdptrs), pdptFaults cfg q = true
    ↔ ∃ i, i < 4 ∧ (cfg.pdptrCheckNotPresent = true ∨ bit (q.get i) 0 = true)
        ∧ ∃ j, bit (q.get i) j = true ∧ ((cfg.paw ≤ j ∧ j ≤ 63) ∨ (5 ≤ j ∧ j ≤ 8) ∨ (1 ≤ j ∧ j ≤ 2)))
  ∧ ∀ (c : Word) (i : Nat), pdpteAddr c i = c.toNat / 32 % 2 ^ 27 * 32 + 8 * i

/-- A write of IA32_EFER that does not fault completes: SCE, LME and NXE from the value, which is EDX ++ EAX, every other bit, LMA
among them, kept; with `Flush` a change of NXE empties the caches, else entries may only go; the walks are dropped; nothing else
changes but `rip` (R331, R109, R25, R313, R233; entries 1, 3, 18). -/
def Obligations.WrmsrEferCompletes : Prop :=
  ∀ (s : State) (v : Word), s.lp.cpl = 0 → s.lp.gpr.rcx.toNat % 2 ^ 32 = 0xC0000080 →
    v.toNat = s.lp.gpr.rdx.toNat % 2 ^ 32 * 2 ^ 32 + s.lp.gpr.rax.toNat % 2 ^ 32 →
    (s.cfg.hasXd = true ∨ s.cfg.hasIntel64 = true) →
    (∀ i, (12 ≤ i ∧ i ≤ 63) ∨ i = 9 ∨ (1 ≤ i ∧ i ≤ 7) → bit v i = false) →
    (bit v 11 = true → s.cfg.hasXd = true) → (bit v 8 = true → s.cfg.hasIntel64 = true) →
    (bit v 8 ≠ bit s.lp.efer 8 → s.lp.pg = false) →
    ∃ t, exec .wrmsr s = .next t ∧ s.SameOutside t ∧ s.lp.OnlyRemoves t.lp
      ∧ t.lp = { s.lp with
          efer := t.lp.efer
          tlb := t.lp.tlb, pml4c := t.lp.pml4c, pdpc := t.lp.pdpc, pdec := t.lp.pdec, walks := []
          rip := s.lp.linear (s.lp.rip + 2) }
      ∧ (∀ i, bit t.lp.efer i = if i = 0 ∨ i = 8 ∨ i = 11 then bit v i else bit s.lp.efer i)
      ∧ (s.cfg.modeChange = .flush → bit v 11 ≠ bit s.lp.efer 11 → t.lp.CachesEmpty)

/-- A write of IA32_EFER raises GP(0) without effect exactly in the cases of R331, the value being EDX ++ EAX; a write of another
MSR does too, the machine having none (R33, R356; another MSR: entry 11; the report of the GP(0), which takes the place of an
earlier one: entries 9, 34). -/
def Obligations.WrmsrFaults : Prop :=
  ∀ (s : State) (v : Word), s.lp.cpl = 0 →
    v.toNat = s.lp.gpr.rdx.toNat % 2 ^ 32 * 2 ^ 32 + s.lp.gpr.rax.toNat % 2 ^ 32 →
    ((s.lp.gpr.rcx.toNat % 2 ^ 32 ≠ 0xC0000080
        ∨ (s.cfg.hasXd = false ∧ s.cfg.hasIntel64 = false)
        ∨ (∃ i, bit v i = true ∧ ((12 ≤ i ∧ i ≤ 63) ∨ i = 9 ∨ (1 ≤ i ∧ i ≤ 7)))
        ∨ (bit v 11 = true ∧ s.cfg.hasXd = false)
        ∨ (bit v 8 = true ∧ s.cfg.hasIntel64 = false)
        ∨ (bit v 8 ≠ bit s.lp.efer 8 ∧ s.lp.pg = true))
      ↔ exec .wrmsr s = .next s.reportsGp)

/-- CPUID completes at every CPL: the enumerated bits of its results are those of the configuration; it writes RAX, RBX, RCX and
RDX and changes nothing else but `rip` (R334; the registers and `rip`, a linear address of the mode, are the model's: entries 1,
18). Of the other bits of the four registers it says nothing. -/
def Obligations.CpuidCompletes : Prop :=
  ∀ s : State, ∃ t, exec .cpuid s = .next t ∧ s.SameOutside t
    ∧ t.lp = { s.lp with
        gpr := { s.lp.gpr with rax := t.lp.gpr.rax, rbx := t.lp.gpr.rbx, rcx := t.lp.gpr.rcx, rdx := t.lp.gpr.rdx }
        rip := s.lp.linear (s.lp.rip + 2) }
    ∧ (s.lp.gpr.rax.toNat % 2 ^ 32 = 0x80000001 →
        bit t.lp.gpr.rdx 20 = s.cfg.hasXd ∧ bit t.lp.gpr.rdx 29 = s.cfg.hasIntel64)
    ∧ (s.lp.gpr.rax.toNat % 2 ^ 32 = 0x1 → bit t.lp.gpr.rdx 17 = s.cfg.pse36)
    ∧ (s.lp.gpr.rax.toNat % 2 ^ 32 = 0x80000008 → t.lp.gpr.rax.toNat % 256 = s.cfg.paw)

/-- HLT completes: software issues nothing further; nothing is invalidated, loaded or otherwise changed but `rip` (R336; entries
1, 10, 18). -/
def Obligations.HltCompletes : Prop :=
  ∀ s : State, s.lp.cpl = 0 →
    ∃ t, exec .hlt s = .next t ∧ s.SameOutside t
      ∧ t.lp = { s.lp with halted := true, rip := s.lp.linear (s.lp.rip + 1) }

/-- At a CPL other than 0 every instruction but CPUID raises GP(0) and has no effect (R337, R356, R361). -/
def Obligations.PrivilegedInstructionsFault : Prop :=
  ∀ (i : Instr) (s : State), i ≠ .cpuid → s.lp.cpl ≠ 0 → exec i s = .next s.reportsGp

/-- INVLPG, the MOVs to control registers and the write of IA32_EFER, where they do not fault, and every page fault, drop all
walks of the acting logical processor, and leave the other logical processors' walks alone; a MOV that loads the PDPTR registers
does so as it completes, with the last read (R233). -/
def Obligations.WalksInProgressDropped : Prop :=
  (∀ (i : Instr) (s t : State), i ≠ .cpuid → i ≠ .hlt → s.lp.loading = none → exec i s = .next t → t ≠ s.reportsGp →
    t.lp.loading = none → t.lp.walks = [] ∧ t.others = s.others)
  ∧ (∀ (s t : State) (w : ControlWrite) (q : Pdptrs), s.LastRead w q → step s = .next t → t ≠ s.begun.tick.reportsGp →
    t.lp.walks = [] ∧ t.others = s.others)
  ∧ ∀ (s t : State) (la : Word) (ec : Dword), ¬ s.Schedules → step s = .next t → s.lp.exc ≠ t.lp.exc →
    t.lp.exc = some (.pageFault la ec) → t.lp.walks = [] ∧ t.others = s.others

/-! ## Translation -/

/-- The paging mode is a function of CR0.PG, CR4.PAE and IA32_EFER.LMA (R6). -/
def Obligations.PagingModeOfRegisters : Prop :=
  ∀ lp : LP, lp.ControlInv →
    (lp.mode = none ↔ bit lp.cr0 31 = false)
      ∧ (lp.mode = some .mode32 ↔ bit lp.cr0 31 = true ∧ bit lp.cr4 5 = false)
      ∧ (lp.mode = some .modePAE ↔ bit lp.cr0 31 = true ∧ bit lp.cr4 5 = true ∧ bit lp.efer 10 = false)
      ∧ (lp.mode = some .modeIA32e ↔ bit lp.cr0 31 = true ∧ bit lp.efer 10 = true)

/-- With CR0.PG = 0 the physical address is the linear address: a translation is complete at once. No step creates a cached entry,
loads CR2 or reports a new page fault, and a step of a walk, there being none, leaves memory alone (R132; the parts of an access
with paging off: entry 15). -/
def Obligations.PagingOff : Prop :=
  (∀ (s : State) (a : Access) (p : Piece) (rest : List Piece), s.Choosing a p rest → s.lp.pg = false →
    step s = .next (s.begun.tick.setAccess (Access.found { a with todo := rest } p (p.la.setWidth 32).toNat 12)))
  ∧ ∀ s t : State, s.lp.pg = false → s.lp.WalkInv → ¬ s.Schedules → step s = .next t →
    s.lp.OnlyRemoves t.lp ∧ t.lp.cr2 = s.lp.cr2
      ∧ (∀ la ec, t.lp.exc = some (.pageFault la ec) → s.lp.exc = some (.pageFault la ec))
      ∧ ∀ n rest, s.inputs = .walkStep n :: rest → t.mem = s.mem

/-- "If this bit is 0 in any paging-structure entry used to translate a linear address, address translation stops and a page fault
is generated": an access takes the page fault with P = 0, RSVD = 0 and the entry is not written; CR2 is the first byte of the
access in the 4-KByte page, the entry not saying how large the page is (entry 15); a speculative walk ends without effect (R137,
R150, R352; the report is the field `exc`: entries 9, 34). -/
def Obligations.NotPresentEntryStopsTranslation : Prop :=
  (∀ (s : State) (a : Access) (p : Piece) (w : Walk), s.Walking a p w → bit (w.entry s.cfg s.mem) 0 = false →
    ∃ t, step s = .next t ∧ s.PageFaults t a (a.firstByte 12 w.la) w.acc false false)
  ∧ ∀ (s : State) (n : Nat) (w : Walk) (rest : List Input), s.inputs = .walkStep n :: rest → s.lp.loading = none →
    s.lp.walks[n]? = some w → bit (w.entry s.cfg s.mem) 0 = false →
    step s = .next { s.begun.tick with lp := { s.lp with walks := s.lp.walks.eraseIdx n } }

/-- A present entry with a checked reserved bit set causes a page fault with RSVD = 1 and P = 1; the entry is not written and
nothing is cached from it; CR2 is the first byte of the access in the page; a speculative walk ends without effect (R138, R150,
R352; where the entry does not say how large the page is, 4 KBytes, entry 15; the report: entries 9, 34). -/
def Obligations.ReservedBitStopsTranslation : Prop :=
  (∀ (s : State) (a : Access) (p : Piece) (w : Walk), s.Walking a p w → bit (w.entry s.cfg s.mem) 0 = true →
    reserved s.cfg s.lp.nxe s.lp.pse w.mode w.level (w.entry s.cfg s.mem) = true →
    ∃ t, step s = .next t
      ∧ s.PageFaults t a (a.firstByte (w.pageBits s.lp.pse (w.entry s.cfg s.mem)) w.la) w.acc true true)
  ∧ ∀ (s : State) (n : Nat) (w : Walk) (rest : List Input), s.inputs = .walkStep n :: rest → s.lp.loading = none →
    s.lp.walks[n]? = some w → bit (w.entry s.cfg s.mem) 0 = true →
    reserved s.cfg s.lp.nxe s.lp.pse w.mode w.level (w.entry s.cfg s.mem) = true →
    step s = .next { s.begun.tick with lp := { s.lp with walks := s.lp.walks.eraseIdx n } }

/-- The checked reserved bits by mode, kind of entry and NXE (R104). -/
def Obligations.ReservedBits : Prop :=
  (∀ (cfg : Config) (nxe pse : Bool) (m : PagingMode) (l : Level) (e : Word),
    reserved cfg nxe pse m l e = true
      ↔ ∃ i, bit e i = true ∧
          match m with
          | .mode32 => l = .pde ∧ pse = true ∧ bit e 7 = true ∧ i = 21
          | .modePAE =>
            (cfg.paw ≤ i ∧ i ≤ 62) ∨ (nxe = false ∧ i = 63) ∨ (l = .pde ∧ bit e 7 = true ∧ 13 ≤ i ∧ i ≤ 20)
          | .modeIA32e =>
            (cfg.paw ≤ i ∧ i ≤ 51) ∨ (nxe = false ∧ i = 63) ∨ (l = .pde ∧ bit e 7 = true ∧ 13 ≤ i ∧ i ≤ 20))
  ∧ ∀ (cfg : Config) (x : Word), reservedPdptr cfg x = true
      ↔ ∃ i, bit x i = true ∧ ((cfg.paw ≤ i ∧ i ≤ 63) ∨ (5 ≤ i ∧ i ≤ 8) ∨ (1 ≤ i ∧ i ≤ 2))

/-- The access-right check: user access needs U/S, a write needs R/W unless it is a supervisor's with WP = 0, a fetch needs XD = 0
(R140). -/
def Obligations.PermitIsTheAccessRightCheck : Prop :=
  ∀ (lp : LP) (acc : Acc) (r : Rights), permit lp acc r = true
    ↔ (acc.user = false ∨ r.us = true)
      ∧ (acc.kind ≠ .write ∨ r.rw = true ∨ (acc.user = false ∧ bit lp.cr0 16 = false))
      ∧ (acc.kind ≠ .fetch ∨ r.xd = false)

/-- An access without the rights takes the page fault with P = 1, RSVD = 0, at the leaf entry of a walk with the rights of all
entries used, and at a TLB entry with the rights it holds; no entry is written; CR2 is the first byte of the access in the page,
which is a 4-KByte page for an ordinary TLB entry (R140, R147, R175, R352; entry 15; the report: entries 9, 34). -/
def Obligations.DeniedAccessFaults : Prop :=
  (∀ (s : State) (a : Access) (p : Piece) (w : Walk), s.Walking a p w → bit (w.entry s.cfg s.mem) 0 = true →
    reserved s.cfg s.lp.nxe s.lp.pse w.mode w.level (w.entry s.cfg s.mem) = false →
    isLeaf s.lp.pse w.mode w.level (w.entry s.cfg s.mem) = true →
    permit s.lp w.acc (w.rights.andEntry s.lp.nxe w.mode (w.entry s.cfg s.mem)) = false →
    ∃ t, step s = .next t
      ∧ s.PageFaults t a (a.firstByte (w.pageBits s.lp.pse (w.entry s.cfg s.mem)) w.la) w.acc true false)
  ∧ ∀ (s : State) (a : Access) (p : Piece) (rest : List Piece) (e : TlbEntry), s.Choosing a p rest → s.lp.pg = true →
    s.lp.refuses p.la = false → s.PicksTlb a p e → permit s.lp a.acc e.rights = false →
    ∃ t, step s = .next t
      ∧ s.PageFaults t a (a.firstByte (if e.size = .ordinary then 12 else if e.mode = .mode32 then 22 else 21) p.la) a.acc
          true false

/-- In ModePAE a PDPTR register with P = 0 makes an access to its quarter page-fault with P = 0, without a walk, where no cached
entry is used; CR2 is the first byte of the access in the 4-KByte page (R293, R352; entry 15; the report: entries 9,
34). -/
def Obligations.NotPresentPdptrFaults : Prop :=
  ∀ (s : State) (a : Access) (p : Piece) (rest : List Piece), s.Choosing a p rest → s.lp.mode = some .modePAE →
    pick .root (alternatives s.lp .modePAE p.la a.kind) s.choice.alternative = .root →
    s.lp.PdptrAbsent p.la →
    ∃ t, step s = .next t ∧ s.PageFaults t a (a.firstByte 12 p.la) a.acc false false

/-- The page-fault error code bit by bit (R108, R351), and the vectors: 14 for a page fault, 13 for general protection (R357). -/
def Obligations.ErrorCodeBits : Prop :=
  (∀ (nxe : Bool) (acc : Acc) (p rsvd : Bool) (i : Nat), (errorCode nxe acc p rsvd).getLsbD i
    = if i = 0 then p
      else if i = 1 then acc.kind == .write
      else if i = 2 then acc.user
      else if i = 3 then rsvd
      else if i = 4 then acc.kind == .fetch && nxe
      else false)
  ∧ ∀ e : Exception, e.vector = match e with
      | .pageFault _ _ => 14
      | .generalProtection _ => 13

/-- At an upper entry that is present and breaks no reserved bit the walk goes on one level below, at the structure the entry
names, with the rights ANDed and XD ORed; the entry's accessed bit is 1 in memory afterwards, or was skipped by the choice R136
(ii), which the walk remembers; no other bit of memory changes, no TLB entry comes or goes and no paging-structure-cache entry
goes (R136, R139, R144, R196; the walk one level below: `Walk.down`). -/
def Obligations.UpperEntryStep : Prop :=
  ∀ (s : State) (a : Access) (p : Piece) (w : Walk), s.Walking a p w → bit (w.entry s.cfg s.mem) 0 = true →
    reserved s.cfg s.lp.nxe s.lp.pse w.mode w.level (w.entry s.cfg s.mem) = false →
    isLeaf s.lp.pse w.mode w.level (w.entry s.cfg s.mem) = false →
    let e := w.entry s.cfg s.mem
    let marked := bit e 5 || s.choice.setAccessed
    ∃ t, step s = .next t ∧ t.lp.access = some { a with phase := .walking p (w.down s.cfg s.lp.nxe marked e) }
      ∧ w.entry s.cfg t.mem = (if marked then e ||| 0x20 else e)
      ∧ (∀ x, x < w.entryAddr s.cfg ∨ w.entryAddr s.cfg + entryBytes w.mode ≤ x → t.mem.read x = s.mem.read x)
      ∧ t.lp = { s.lp with
          access := t.lp.access, pml4c := t.lp.pml4c, pdpc := t.lp.pdpc, pdec := t.lp.pdec }
      ∧ s.lp.OnlyAdds t.lp ∧ t.others = s.others

/-- At a leaf entry the access may use, a walk that skipped no accessed bit ends: the page is translated to the address the entry
gives, and with it every other part of the access in this page; its accessed bit, and for a write its dirty bit, are 1 in memory
afterwards; no other bit of memory and no register changes, and no cached entry goes (R136, R144, R145, R172, R261, R65; entry
15). -/
def Obligations.LeafEntryStep : Prop :=
  ∀ (s : State) (a : Access) (p : Piece) (w : Walk), s.Walking a p w → bit (w.entry s.cfg s.mem) 0 = true →
    reserved s.cfg s.lp.nxe s.lp.pse w.mode w.level (w.entry s.cfg s.mem) = false →
    isLeaf s.lp.pse w.mode w.level (w.entry s.cfg s.mem) = true →
    permit s.lp w.acc (w.rights.andEntry s.lp.nxe w.mode (w.entry s.cfg s.mem)) = true → w.allA = true →
    w.acc.spec = false →
    ∃ t, step s = .next t
      ∧ t.lp = { s.lp with
          access := some
            (a.found p (leafAddress s.cfg w (w.entry s.cfg s.mem)) (w.pageBits s.lp.pse (w.entry s.cfg s.mem)))
          tlb := t.lp.tlb }
      ∧ s.lp.OnlyAdds t.lp
      ∧ w.entry s.cfg t.mem = w.entry s.cfg s.mem ||| (if w.acc.kind = .write then 0x60 else 0x20)
      ∧ (∀ x, x < w.entryAddr s.cfg ∨ w.entryAddr s.cfg + entryBytes w.mode ≤ x → t.mem.read x = s.mem.read x)
      ∧ t.others = s.others

/-- A walk that skipped an accessed bit does not end at the leaf entry: the translation starts again, with nothing written (R136,
R144). -/
def Obligations.SkippedAccessedBitRestarts : Prop :=
  ∀ (s : State) (a : Access) (p : Piece) (w : Walk), s.Walking a p w → bit (w.entry s.cfg s.mem) 0 = true →
    reserved s.cfg s.lp.nxe s.lp.pse w.mode w.level (w.entry s.cfg s.mem) = false →
    isLeaf s.lp.pse w.mode w.level (w.entry s.cfg s.mem) = true →
    permit s.lp w.acc (w.rights.andEntry s.lp.nxe w.mode (w.entry s.cfg s.mem)) = true → w.allA = false →
    step s = .next (s.begun.tick.setAccess { a with todo := p :: a.todo, phase := .choosing })

/-- The addresses a walk forms are concatenations: of the entry it reads, 8 or 4 bytes wide and aligned on its size; of the byte
in a 4-KByte page; of the byte in a 2-MByte page, and in a 4-MByte page with its 32-bit or 36-bit frame; of the next structure,
which an entry, CR3 or a PDPTR register names by its bits PAW-1:12, in Mode32 31:12; and the frames of pages and of large pages,
the same bits and those of a large page's address (R106, R107, R64, R309, R93, R102, R23, R100). -/
def Obligations.AssembledAddresses : Prop :=
  (∀ (cfg : Config) (w : Walk), w.mode ≠ .mode32 →
    ∃ k, k < 512 ∧ w.entryAddr cfg = w.base / 4096 % 2 ^ (cfg.paw - 12) * 4096 + 8 * k
      ∧ (w.mode = .modeIA32e ∧ w.level = .pml4e → k = w.la.toNat / 2 ^ 39 % 512)
      ∧ (w.mode = .modeIA32e ∧ w.level = .pdpe → k = w.la.toNat / 2 ^ 30 % 512)
      ∧ (w.level = .pde → k = w.la.toNat / 2 ^ 21 % 512) ∧ (w.level = .pte → k = w.la.toNat / 2 ^ 12 % 512))
  ∧ (∀ (cfg : Config) (w : Walk), w.mode = .mode32 → w.level = .pde ∨ w.level = .pte →
    w.entryAddr cfg = w.base / 4096 % 2 ^ 20 * 4096
      + 4 * (if w.level = .pde then w.la.toNat / 2 ^ 22 % 1024 else w.la.toNat / 2 ^ 12 % 1024))
  ∧ (∀ (cfg : Config) (w : Walk) (e : Word), w.level = .pte → leafAddress cfg w e
    = e.toNat / 4096 % 2 ^ ((if w.mode = .mode32 then 32 else cfg.paw) - 12) * 4096 + w.la.toNat % 4096)
  ∧ (∀ (cfg : Config) (w : Walk) (e : Word), w.level = .pde → w.mode ≠ .mode32 → leafAddress cfg w e
    = e.toNat / 2 ^ 21 % 2 ^ (cfg.paw - 21) * 2 ^ 21 + w.la.toNat % 2 ^ 21)
  ∧ (∀ (cfg : Config) (w : Walk) (e : Word), w.level = .pde → w.mode = .mode32 → leafAddress cfg w e
    = ((if cfg.hasPse36 = true ∧ 36 ≤ cfg.paw then e.toNat / 2 ^ 13 % 16 * 1024 else 0) + e.toNat / 2 ^ 22 % 1024) * 2 ^ 22
      + w.la.toNat % 2 ^ 22)
  ∧ ∀ (cfg : Config) (m : PagingMode) (e : Word),
    nextBase cfg m e = e.toNat / 4096 % 2 ^ ((if m = .mode32 then 32 else cfg.paw) - 12) * 4096
      ∧ rootBase cfg m e = e.toNat / 4096 % 2 ^ ((if m = .mode32 then 32 else cfg.paw) - 12) * 4096
      ∧ pdptrBase cfg e = e.toNat / 4096 % 2 ^ (cfg.paw - 12) * 4096
      ∧ frameField cfg m e = e.toNat / 4096 % 2 ^ ((if m = .mode32 then 32 else cfg.paw) - 12)
      ∧ largeFrame cfg m e =
        (if m = .mode32 then
          (if cfg.hasPse36 = true ∧ 36 ≤ cfg.paw then e.toNat / 2 ^ 13 % 16 * 1024 else 0) + e.toNat / 2 ^ 22 % 1024
        else e.toNat / 2 ^ 21 % 2 ^ (cfg.paw - 21))

/-! ## The caches -/

/-- TLB entries come from leaf entries only: every entry a walk step adds has the mode and key of the walk, the frame of a leaf
entry that is present and breaks no reserved bit, the combined rights of a permitted access by a walk that skipped no accessed
bit, the dirty bit as it stands after the step, `global` from CR4.PGE and bit 8; and it is held by a TLB the processor has. No TLB
entry goes by a walk step. And "the processor may (not must) add": at such a leaf entry any of the entries of the page can be what
the step adds: none, the entry of the 4-KByte or large page for any TLB the processor has, and, with P9, any of the ordinary entries
of the large page (R172, R264, R267, R272). -/
def Obligations.TlbEntryCreation : Prop :=
  (∀ (cfg : Config) (c : Choice) (lp : LP) (mem : Memory) (w : Walk) (x : TlbEntry),
    x ∈ (walkStep cfg c lp mem w).lp.tlb → x ∉ lp.tlb →
    let e := w.entry cfg mem
    let r := w.rights.andEntry lp.nxe w.mode e
    bit e 0 = true ∧ reserved cfg lp.nxe lp.pse w.mode w.level e = false ∧ isLeaf lp.pse w.mode w.level e = true
      ∧ permit lp w.acc r = true ∧ w.allA = true ∧ (w.acc.kind = .write → w.acc.spec = false)
      ∧ (walkStep cfg c lp mem w).result = .found (leafAddress cfg w e) (w.pageBits lp.pse e)
      ∧ x.mode = w.mode ∧ x.rights = r ∧ x.serves ∈ cfg.tlbs
      ∧ x.dirty = bit (w.entry cfg (walkStep cfg c lp mem w).mem) 6 ∧ x.global = (lp.pge && bit e 8)
      ∧ ((w.level = .pte ∧ x.size = .ordinary ∧ x.fromLarge = false ∧ x.key = pageNumber w.mode w.la
            ∧ x.frame = frameField cfg w.mode e)
        ∨ (w.level = .pde ∧ x.size = .large ∧ x.fromLarge = false ∧ x.key = largePageNumber w.mode w.la
            ∧ x.frame = largeFrame cfg w.mode e)
        ∨ (w.level = .pde ∧ cfg.fractureLarge = true ∧ x.size = .ordinary ∧ x.fromLarge = true
            ∧ largeOfKey w.mode x.key = largePageNumber w.mode w.la
            ∧ largeOfKey w.mode x.frame = largeFrame cfg w.mode e
            ∧ x.key % 2 ^ (largeBits w.mode - 12) = x.frame % 2 ^ (largeBits w.mode - 12))))
  ∧ (∀ (cfg : Config) (c : Choice) (lp : LP) (mem : Memory) (w : Walk), lp.tlb.Sublist (walkStep cfg c lp mem w).lp.tlb)
  ∧ ∀ (cfg : Config) (lp : LP) (mem : Memory) (w : Walk) (page : Option Serves) (pieces : List (Nat × Serves)),
    let e := w.entry cfg mem
    let r := w.rights.andEntry lp.nxe w.mode e
    let n := largeBits w.mode - 12
    bit e 0 = true → reserved cfg lp.nxe lp.pse w.mode w.level e = false → isLeaf lp.pse w.mode w.level e = true →
    permit lp w.acc r = true → w.allA = true → (w.acc.kind = .write → w.acc.spec = false) → (∀ sv ∈ page, sv ∈ cfg.tlbs) →
    (∀ q ∈ pieces, q.1 < 2 ^ n ∧ q.2 ∈ cfg.tlbs ∧ cfg.fractureLarge = true ∧ w.level = .pde) →
    ∃ c, ∀ x : TlbEntry, x ∈ (walkStep cfg c lp mem w).lp.tlb
      ↔ x ∈ lp.tlb
        ∨ (∃ sv ∈ page, x =
            { mode := w.mode, size := if w.level = .pte then .ordinary else .large
              key := if w.level = .pte then pageNumber w.mode w.la else largePageNumber w.mode w.la
              frame := if w.level = .pte then frameField cfg w.mode e else largeFrame cfg w.mode e
              rights := r, dirty := bit e 6 || w.acc.kind == .write, global := lp.pge && bit e 8, fromLarge := false
              serves := sv })
        ∨ ∃ q ∈ pieces, x =
            { mode := w.mode, size := .ordinary, key := largePageNumber w.mode w.la * 2 ^ n + q.1
              frame := largeFrame cfg w.mode e * 2 ^ n + q.1, rights := r, dirty := bit e 6 || w.acc.kind == .write
              global := lp.pge && bit e 8, fromLarge := true, serves := q.2 }

/-- Paging-structure-cache entries come from upper entries only: one that is present, breaks no reserved bit, maps no large page
and has its accessed bit 1 in memory, in a walk that skipped none; the new entry goes into the cache of its level, which the
processor and the mode have, keyed by the linear address. No entry goes by a walk step, one with the same key neither. And "the
processor may (not must) add" it: a walk that skipped no accessed bit can add the entry, and can add none (R196, R195). -/
def Obligations.PscEntryCreation : Prop :=
  (∀ (cfg : Config) (c : Choice) (lp : LP) (mem : Memory) (w : Walk) (x : PscEntry),
    let e := w.entry cfg mem
    let out := walkStep cfg c lp mem w
    ((x ∈ out.lp.pml4c ∧ x ∉ lp.pml4c) ∨ (x ∈ out.lp.pdpc ∧ x ∉ lp.pdpc) ∨ (x ∈ out.lp.pdec ∧ x ∉ lp.pdec)) →
    bit e 0 = true ∧ bit (w.entry cfg out.mem) 5 = true
      ∧ reserved cfg lp.nxe lp.pse w.mode w.level e = false ∧ isLeaf lp.pse w.mode w.level e = false ∧ w.allA = true
      ∧ x.mode = w.mode ∧ x.addr = nextBase cfg w.mode e ∧ x.rights = w.rights.andEntry lp.nxe w.mode e
      ∧ ((w.level = .pml4e ∧ cfg.hasPml4Cache = true ∧ w.mode = .modeIA32e ∧ x.key = field w.la 47 39
            ∧ x ∈ out.lp.pml4c)
        ∨ (w.level = .pdpe ∧ cfg.hasPdpCache = true ∧ w.mode = .modeIA32e ∧ x.key = field w.la 47 30
            ∧ x ∈ out.lp.pdpc)
        ∨ (w.level = .pde ∧ cfg.hasPdeCache = true ∧ x.key = largePageNumber w.mode w.la ∧ x ∈ out.lp.pdec)))
  ∧ (∀ (cfg : Config) (c : Choice) (lp : LP) (mem : Memory) (w : Walk), lp.OnlyAdds (walkStep cfg c lp mem w).lp)
  ∧ ∀ (cfg : Config) (lp : LP) (mem : Memory) (w : Walk) (add : Bool),
    let e := w.entry cfg mem
    let new (key : Nat) : PscEntry :=
      { mode := w.mode, key := key, addr := nextBase cfg w.mode e, rights := w.rights.andEntry lp.nxe w.mode e }
    bit e 0 = true → reserved cfg lp.nxe lp.pse w.mode w.level e = false → isLeaf lp.pse w.mode w.level e = false →
    w.allA = true →
    ∃ c, let out := walkStep cfg c lp mem w
      (∀ x, x ∈ out.lp.pml4c ↔ x ∈ lp.pml4c
        ∨ (add = true ∧ w.level = .pml4e ∧ cfg.hasPml4Cache = true ∧ w.mode = .modeIA32e ∧ x = new (field w.la 47 39)))
      ∧ (∀ x, x ∈ out.lp.pdpc ↔ x ∈ lp.pdpc
        ∨ (add = true ∧ w.level = .pdpe ∧ cfg.hasPdpCache = true ∧ w.mode = .modeIA32e ∧ x = new (field w.la 47 30)))
      ∧ ∀ x, x ∈ out.lp.pdec ↔ x ∈ lp.pdec
        ∨ (add = true ∧ w.level = .pde ∧ cfg.hasPdeCache = true ∧ x = new (largePageNumber w.mode w.la))

/-- A PDE with bit 7 = 1, in Mode32 only with CR4.PSE = 1, maps a large page, of 4 MBytes in Mode32 and of 2 MBytes else: it ends
a walk, as a PTE does and no other entry; "No PDE-cache entry is created from the PDE" (R263, R260, R261, R311, R136, R9; that an
entry which maps no large page counts as one of a 4-KByte page, also where it is no PTE, and how the size of the page that memory
maps is found, along the entries from the root: entry 15). -/
def Obligations.NoPdeCacheEntryFromLargePage : Prop :=
  (∀ (cfg : Config) (c : Choice) (lp : LP) (mem : Memory) (w : Walk), w.level = .pde →
    bit (w.entry cfg mem) 7 = true → (w.mode = .mode32 → lp.pse = true) →
    (walkStep cfg c lp mem w).lp.pdec = lp.pdec)
  ∧ (∀ (pse : Bool) (w : Walk) (e : Word),
    let large := w.level = .pde ∧ bit e 7 = true ∧ (w.mode = .mode32 → pse = true)
    (isLeaf pse w.mode w.level e = true ↔ w.level = .pte ∨ large)
      ∧ (large → w.pageBits pse e = if w.mode = .mode32 then 22 else 21) ∧ (¬ large → w.pageBits pse e = 12))
  ∧ (∀ (cfg : Config) (lp : LP) (mem : Memory) (w : Walk) (n : Nat),
    let e := w.entry cfg mem
    let large := w.level = .pde ∧ bit e 7 = true ∧ (w.mode = .mode32 → lp.pse = true)
    (bit e 0 = false → w.maps cfg lp mem (n + 1) = none)
      ∧ (bit e 0 = true → large → w.maps cfg lp mem (n + 1) = some .large)
      ∧ (bit e 0 = true → ¬ large → w.level = .pde → w.maps cfg lp mem (n + 1) = some .ordinary)
      ∧ (bit e 0 = true → w.level = .pml4e ∨ w.level = .pdpe →
          w.maps cfg lp mem (n + 1) =
            if reserved cfg lp.nxe lp.pse w.mode w.level e then none
            else ({ w with level := w.level.below, base := nextBase cfg w.mode e } : Walk).maps cfg lp mem n))
  ∧ ∀ (cfg : Config) (lp : LP) (mem : Memory) (la : Word),
    (lp.pg = false ∨ lp.PdptrAbsent la → lp.maps cfg mem la = none)
      ∧ (lp.pg = true → ¬ lp.PdptrAbsent la →
          lp.maps cfg mem la = (lp.rootWalk cfg la ⟨.read, false, true⟩).maps cfg lp mem 3)

/-- What a translation can begin with: the root, always; a TLB entry of the mode with the page or large-page number of the address
that serves the kind of access; a paging-structure-cache entry of the mode with the key of the address; nothing else. Each of them
can be chosen. From the root the walk begins at the PML4E or, outside ModeIA32e, at the PDE, in the structure CR3 or, in ModePAE,
the selected PDPTR register names, with all rights (`LP.rootWalk`); from a paging-structure-cache entry one level below it, in the
structure and with the rights it holds. The page numbers are `la[47:12]` or `la[31:12]`, the large-page numbers `la[47:21]`,
`la[31:21]` or `la[31:22]`; a page number without its low 9, in Mode32 10, bits is the large-page number (R133, R134, R135, R174,
R265, R293, R307, R91, R195). -/
def Obligations.StartingPointsOfATranslation : Prop :=
  (∀ (lp : LP) (m : PagingMode) (la : Word) (k : AccessKind) (alt : Alternative),
    (alt ∈ alternatives lp m la k
      ↔ alt = .root
        ∨ (∃ e ∈ lp.tlb, alt = .tlb e ∧ e.mode = m
            ∧ (if e.size = .ordinary then e.key = pageNumber m la else e.key = largePageNumber m la)
            ∧ (if k = .fetch then e.serves ≠ .data else e.serves ≠ .fetch))
        ∨ (∃ c ∈ lp.pdec, alt = .cache .pte c ∧ c.mode = m ∧ c.key = largePageNumber m la)
        ∨ (∃ c ∈ lp.pdpc, alt = .cache .pde c ∧ c.mode = m ∧ c.key = field la 47 30)
        ∨ (∃ c ∈ lp.pml4c, alt = .cache .pdpe c ∧ c.mode = m ∧ c.key = field la 47 39))
    ∧ (alt ∈ alternatives lp m la k → ∃ n, pick .root (alternatives lp m la k) n = alt))
  ∧ (∀ (s : State) (a : Access) (p : Piece) (rest : List Piece), s.Choosing a p rest → s.lp.pg = true →
    s.lp.refuses p.la = false →
    let alt := pick .root (alternatives s.lp s.lp.pagingMode p.la a.kind) s.choice.alternative
    let root := s.lp.rootWalk s.cfg p.la a.acc
    let walks (w : Walk) := step s = .next (s.begun.tick.setAccess { a with todo := rest, phase := .walking p w })
    (alt = .root → ¬ s.lp.PdptrAbsent p.la → walks root)
      ∧ ∀ l c, alt = .cache l c → walks { root with level := l, base := c.addr, rights := c.rights })
  ∧ ∀ (m : PagingMode) (la : Word) (key : Nat),
    pageNumber m la = (if m = .modeIA32e then la.toNat / 2 ^ 12 % 2 ^ 36 else la.toNat / 2 ^ 12 % 2 ^ 20)
      ∧ largePageNumber m la = (match m with
          | .modeIA32e => la.toNat / 2 ^ 21 % 2 ^ 27
          | .modePAE => la.toNat / 2 ^ 21 % 2 ^ 11
          | .mode32 => la.toNat / 2 ^ 22 % 2 ^ 10)
      ∧ largeOfKey m key = key / (if m = .mode32 then 2 ^ 10 else 2 ^ 9)

/-- A translation that uses a TLB entry with the rights, and for a write with its dirty field 1, is complete: the entry's frame
and the offset; no byte of memory is read or written and no entry changes. Every other part of the access in this page is
translated with it; the page of an ordinary entry derived from a large page is, for the first byte of the access in it, the large
page where memory maps one, and by a free choice where memory maps no page, else the 4-KByte page (R175, R265, R267, R65; entry
15). -/
def Obligations.TlbEntryTranslates : Prop :=
  ∀ (s : State) (a : Access) (p : Piece) (rest : List Piece) (e : TlbEntry), s.Choosing a p rest → s.lp.pg = true →
    s.lp.refuses p.la = false → s.PicksTlb a p e → permit s.lp a.acc e.rights = true →
    (a.kind = .write → e.dirty = true) →
    step s = .next (s.begun.tick.setAccess
      (Access.found { a with todo := rest } p
        (match e.size with
          | .ordinary => e.frame * 4096 + p.la.toNat % 4096
          | .large => e.frame * 2 ^ largeBits e.mode + p.la.toNat % 2 ^ largeBits e.mode)
        (if e.size = .large
            ∨ (e.fromLarge = true ∧ a.firstByte (largeBits s.lp.pagingMode) p.la = p.la
              ∧ (s.lp.maps s.cfg s.mem p.la = some .large
                ∨ (s.lp.maps s.cfg s.mem p.la = none ∧ s.choice.wholePage = true))) then
          if e.mode = .mode32 then 22 else 21
        else 12)))

/-- A write through a TLB entry whose dirty field is 0 makes the translation again by a walk, from a paging-structure-cache entry
or the root, whichever the free choice picks of them, and each can be picked; the old entry stays; in ModePAE, from the root, a
PDPTR register with P = 0 makes it page-fault (R177, R134, R135, R293; CR2: entry 15; the report, which takes the place of an
earlier one: entries 9, 34). -/
def Obligations.CleanTlbEntryWalksAgain : Prop :=
  (∀ (lp : LP) (m : PagingMode) (la : Word) (alt : Alternative),
    (alt ∈ walkAlternatives lp m la
      ↔ alt = .root
        ∨ (∃ c ∈ lp.pdec, alt = .cache .pte c ∧ c.mode = m ∧ c.key = largePageNumber m la)
        ∨ (∃ c ∈ lp.pdpc, alt = .cache .pde c ∧ c.mode = m ∧ c.key = field la 47 30)
        ∨ (∃ c ∈ lp.pml4c, alt = .cache .pdpe c ∧ c.mode = m ∧ c.key = field la 47 39))
    ∧ (alt ∈ walkAlternatives lp m la → ∃ n, pick .root (walkAlternatives lp m la) n = alt))
  ∧ ∀ (s : State) (a : Access) (p : Piece) (rest : List Piece) (e : TlbEntry), s.Choosing a p rest → s.lp.pg = true →
    s.lp.refuses p.la = false → s.PicksTlb a p e → permit s.lp a.acc e.rights = true → a.kind = .write →
    e.dirty = false →
    let alt := pick .root (walkAlternatives s.lp s.lp.pagingMode p.la) s.choice.again
    let root := s.lp.rootWalk s.cfg p.la a.acc
    let walks (w : Walk) := step s = .next (s.begun.tick.setAccess { a with todo := rest, phase := .walking p w })
    (alt = .root → ¬ s.lp.PdptrAbsent p.la → walks root)
      ∧ (∀ l c, alt = .cache l c → walks { root with level := l, base := c.addr, rights := c.rights })
      ∧ (alt = .root → s.lp.PdptrAbsent p.la →
          ∃ t, step s = .next t ∧ s.PageFaults t a (a.firstByte 12 p.la) a.acc false false)

/-- A page fault, whenever a step delivers one: CR2 holds the linear address, the access is over, no walk is in progress, and a
new translation of that address can begin at the root only, for any kind of access (R226, R227, R352, R353). -/
def Obligations.PageFaultLeavesTheRootAlone : Prop :=
  ∀ (s t : State) (la : Word) (ec : Dword), ¬ s.Schedules → step s = .next t → s.lp.exc ≠ t.lp.exc →
    t.lp.exc = some (.pageFault la ec) →
    t.lp.cr2 = la ∧ t.lp.access = none ∧ t.lp.walks = []
      ∧ ∀ k, alternatives t.lp t.lp.pagingMode la k = [.root]

/-! ## The other agents -/

/-- A speculative access never faults, whatever it meets: no register, no byte of memory and no cached entry changes when it
begins; it leaves at most one walk more, which is speculative and a read or a fetch; or, translated at once by a TLB entry, it may
read, which is recorded where reads have side effects (`State.SpecBegins`). With paging off, and at a non-canonical address in
ModeIA32e, it does nothing (R150, R61, R67; beside a PDPTR load it waits, entry 17; the record of reads: entry 24; an access that
is not available: entry 25). -/
def Obligations.SpeculativeAccessNeverFaults : Prop :=
  ∀ (s : State) (fetch : Bool) (la : Word) (rest : List Input), s.inputs = .specAccess fetch la :: rest →
    s.lp.loading = none →
    ∃ t, step s = .next t ∧ t.mem = s.mem ∧ t.others = s.others ∧ t.lp = { s.lp with walks := t.lp.walks }
      ∧ (t.lp.walks = s.lp.walks
        ∨ ∃ w, t.lp.walks = s.lp.walks ++ [w] ∧ w.la = s.lp.linear la
            ∧ w.acc = { kind := if fetch then .fetch else .read, user := s.lp.user, spec := true })
      ∧ (s.lp.pg = true → s.lp.refuses la = false →
          s.SpecBegins t s.choice s.lp.walks (s.lp.linear la)
            { kind := if fetch then .fetch else .read, user := s.lp.user, spec := true })
      ∧ (s.lp.pg = false ∨ s.lp.refuses la = true → t.lp.walks = s.lp.walks ∧ t.sideEffects = s.sideEffects)

/-- A step of a speculative walk changes of memory at most the accessed bit of the entry it reads, and of the logical processor at
most the caches, which lose no entry, and the walks: no register, no exception, no dirty bit. At an upper entry the walk goes on in
its place one level below (`Walk.down`); at a faulting condition it ends without effect; at the leaf entry it ends, and may read at
the address it gives, which is recorded where reads have side effects; or, having skipped an accessed bit, it starts again (R136,
R144, R145, R150, R172, R196, R67; beside a PDPTR load it waits, entry 17; the record of reads: entry 24). -/
def Obligations.SpeculativeWalkSetsAccessedBitsOnly : Prop :=
  ∀ (s : State) (n : Nat) (w : Walk) (rest : List Input), s.inputs = .walkStep n :: rest → s.lp.loading = none →
    s.lp.WalkInv → s.lp.walks[n]? = some w →
    let e := w.entry s.cfg s.mem
    let marked := bit e 5 || s.choice.setAccessed
    let sound := bit e 0 = true ∧ reserved s.cfg s.lp.nxe s.lp.pse w.mode w.level e = false
    let leaf := isLeaf s.lp.pse w.mode w.level e = true
    let allowed := permit s.lp w.acc (w.rights.andEntry s.lp.nxe w.mode e) = true
    let pa := leafAddress s.cfg w e
    ∃ t, step s = .next t
      ∧ t.lp = { s.lp with
          tlb := t.lp.tlb, pml4c := t.lp.pml4c, pdpc := t.lp.pdpc, pdec := t.lp.pdec, walks := t.lp.walks }
      ∧ s.lp.OnlyAdds t.lp ∧ t.others = s.others
      ∧ (w.entry s.cfg t.mem = e ∨ w.entry s.cfg t.mem = e ||| 0x20)
      ∧ (∀ x, x < w.entryAddr s.cfg ∨ w.entryAddr s.cfg + entryBytes w.mode ≤ x → t.mem.read x = s.mem.read x)
      ∧ (¬ sound ∨ (leaf ∧ ¬ allowed) →
          t.lp.walks = s.lp.walks.eraseIdx n ∧ t.mem = s.mem ∧ t.sideEffects = s.sideEffects)
      ∧ (sound → ¬ leaf →
          t.lp.walks = s.lp.walks.set n (w.down s.cfg s.lp.nxe marked e)
            ∧ w.entry s.cfg t.mem = (if marked then e ||| 0x20 else e) ∧ t.sideEffects = s.sideEffects)
      ∧ (sound → leaf → allowed → w.allA = true →
          t.lp.walks = s.lp.walks.eraseIdx n ∧ w.entry s.cfg t.mem = e ||| 0x20
            ∧ t.sideEffects =
              if s.choice.specRead = true ∧ s.cfg.hasReadSideEffect pa = true then pa :: s.sideEffects else s.sideEffects)
      ∧ (sound → leaf → allowed → w.allA = false →
          t.mem = s.mem ∧ s.SpecBegins t s.begun.tick.choice (s.lp.walks.eraseIdx n) w.la w.acc)

/-- The eviction agent can remove any subset of the cached entries and drop any subset of the speculative walks, "at any time",
and whatever it chooses it does nothing else: it adds no entry and no walk, and touches no register and no byte of memory (R230). -/
def Obligations.EvictionOfAnySubset : Prop :=
  (∀ (s : State) (rest : List Input) (tlb : List TlbEntry) (pml4c pdpc pdec : List PscEntry) (walks : List Walk),
    s.inputs = .evict :: rest → tlb.Sublist s.lp.tlb → pml4c.Sublist s.lp.pml4c → pdpc.Sublist s.lp.pdpc →
    pdec.Sublist s.lp.pdec → walks.Sublist s.lp.walks →
    ∃ c, ∀ cs, step { s with choices := c :: cs }
      = .next { s with
          inputs := rest, choices := cs
          lp := { s.lp with tlb := tlb, pml4c := pml4c, pdpc := pdpc, pdec := pdec, walks := walks } })
  ∧ ∀ (s : State) (rest : List Input), s.inputs = .evict :: rest →
    ∃ t, step s = .next t ∧ s.lp.OnlyRemoves t.lp ∧ t.lp.walks.Sublist s.lp.walks
      ∧ t = { s with
          inputs := rest, choices := t.choices, drawn := t.drawn
          lp := { s.lp with
            tlb := t.lp.tlb, pml4c := t.lp.pml4c, pdpc := t.lp.pdpc, pdec := t.lp.pdec, walks := t.lp.walks } }

/-- Another agent's store changes the bytes it writes and nothing else: no cached entry is changed or removed; to an address that
does not exist it stops (R333, R71, R32; the fault is the model's: entry 26). -/
def Obligations.PhysStoreLeavesCaches : Prop :=
  ∀ (s : State) (pa : Nat) (bytes : List Byte) (rest : List Input), s.inputs = .physStore pa bytes :: rest →
    (pa + bytes.length ≤ 2 ^ s.cfg.paw →
      ∃ t, step s = .next t ∧ t.lp = s.lp ∧ t.others = s.others
        ∧ (∀ i (h : i < bytes.length), t.mem.read (pa + i) = bytes[i])
        ∧ ∀ x, x < pa ∨ pa + bytes.length ≤ x → t.mem.read x = s.mem.read x)
    ∧ (2 ^ s.cfg.paw < pa + bytes.length →
      step s = .fault (.physicalAddressAbsent (pa + bytes.length - 1)))

/-- No step of one logical processor changes another, nor the configuration, nor the physical processor a logical processor
belongs to; the input `schedule` only exchanges the acting logical processor with another. That an invalidation removes nothing of
another logical processor in the same step, as R231 permits, is the model's: the other's eviction agent covers it (R20, R371,
R376; entries 22 and 23, D24). -/
def Obligations.OtherProcessorsUntouched : Prop :=
  (∀ s t : State, step s = .next t →
    t.cfg = s.cfg ∧ (¬ s.Schedules → t.others = s.others ∧ t.lp.physical = s.lp.physical))
  ∧ ∀ (s : State) (n : Nat) (rest : List Input), s.inputs = .schedule n :: rest →
    (∀ lp', s.others[n]? = some lp' →
      step s = .next { s with inputs := rest, lp := lp', others := s.others.set n s.lp })
    ∧ (s.others[n]? = none → step s = .next { s with inputs := rest })

/-- Only these events change a control register: MOV to CR0 changes CR0, MOV to CR3 changes CR3, MOV to CR4 changes CR4, MOV to
CR0 and WRMSR change IA32_EFER (each MOV as it executes or, where it loads the PDPTR registers, with the last read), a page fault
changes CR2, and the enclosing model's `resume` changes CPL (R21 to R26, R22, R337; CPL: entry 32; the steps of a load: entry 17).
-/
def Obligations.ControlRegistersChangeOnlyBy : Prop :=
  ∀ s t : State, s.lp.ControlInv → ¬ s.Schedules → step s = .next t →
    let movesCr0 := (s.Executes fun i => ∃ r, i = .movCr0 r) ∨ ∃ v q, s.LastRead (.cr0 v) q
    (t.lp.cr0 = s.lp.cr0 ∨ movesCr0)
      ∧ (t.lp.cr3 = s.lp.cr3 ∨ (s.Executes fun i => ∃ r, i = .movCr3 r) ∨ ∃ v q, s.LastRead (.cr3 v) q)
      ∧ (t.lp.cr4 = s.lp.cr4 ∨ (s.Executes fun i => ∃ r, i = .movCr4 r) ∨ ∃ v q, s.LastRead (.cr4 v) q)
      ∧ (t.lp.efer = s.lp.efer ∨ (s.Executes fun i => i = .wrmsr) ∨ movesCr0)
      ∧ (t.lp.cr2 = s.lp.cr2 ∨ ∃ ec, t.lp.exc = some (.pageFault t.lp.cr2 ec))
      ∧ (t.lp.cpl = s.lp.cpl ∨ ∃ rip cpl rest, s.inputs = .resume rip cpl :: rest)

/-- The PDPTR registers "are not modified by any other operations" than the three loading ones, which load the four entries of the
table in memory together: a load begins with a MOV to CR0, CR3 or CR4 only; it makes one read of 8 bytes a step, of any entry not
yet read, and other agents may move between two reads; all four registers change with the last (R28, R298, R299; the steps of a
load: entry 17). -/
def Obligations.PdptrsLoadedOnlyByMovs : Prop :=
  (∀ s t : State, s.lp.ControlInv → ¬ s.Schedules → step s = .next t →
    (t.lp.pdptr = s.lp.pdptr ∨ ∃ w, s.LastRead w t.lp.pdptr)
      ∧ (s.lp.loading = none → t.lp.loading ≠ none →
          s.Executes fun i => ∃ r, i = .movCr0 r ∨ i = .movCr3 r ∨ i = .movCr4 r))
  ∧ (∀ (s : State) (l : PdptrLoad), s.Loading l → 2 ≤ l.todo.length →
    ∃ i ∈ l.todo, step s = .next { s.begun.tick with
      lp := { s.lp with
        loading := some { l with
          todo := l.todo.erase i, entries := l.entries.set i (s.mem.readEntry (pdpteAddr (l.write.root s.lp) i) 8) } } })
  ∧ ∀ (s : State) (l : PdptrLoad) (i : Nat), s.Loading l → 2 ≤ l.todo.length → i ∈ l.todo →
    ∃ c, ∀ cs, ∃ t, step { s with choices := c :: cs } = .next t
      ∧ t.lp.loading = some { l with
          todo := l.todo.erase i, entries := l.entries.set i (s.mem.readEntry (pdpteAddr (l.write.root s.lp) i) 8) }

/-! ## Memory and accesses -/

/-- `PhysRead` and `PhysWrite` are little-endian: bits 8i+7:8i of the value are the byte at `pa + i` (R62, R63). -/
def Obligations.PhysicalMemoryIsLittleEndian : Prop :=
  ∀ (m : Memory) (pa n v i : Nat), i < n →
    (m.writeLe pa n v).read (pa + i) = BitVec.ofNat 8 (v / 256 ^ i)
      ∧ m.readLe pa n / 256 ^ i % 256 = (m.read (pa + i)).toNat ∧ m.readLe pa n < 256 ^ n

/-- The parts of an access: its bytes in order, none left out and none twice, each part inside one 4-KByte page at the linear
address of its first byte. When one part is translated, so are the others not yet begun that lie in the same page, be it a large
one, each at its offset in this page, and only they; and the linear address of a page fault is the first byte of the access in the
page. The page has the size, 2^b bytes, that the translation shows; but once another part in it has been translated by itself,
each 4-KByte page is a page of its own, so that no byte has moved in a page that faults. Of a large page that memory maps, the part
that begins is the first. The part of a fetch of the instruction at `rip` grows to the end of the page once this is known (R65,
R330, R147, R352, R12; entry 15; the fetch: entry 28; linear addresses wrap, entry 18). -/
def Obligations.PagesOfAnAccess : Prop :=
  (∀ (lp : LP) (la : Word) (n : Nat),
    let ps := lp.pieces n (lp.linear la) 0 n
    (ps.flatMap fun p => List.range' p.off p.len) = List.range n
      ∧ ∀ p ∈ ps, 0 < p.len ∧ p.la.toNat % 4096 + p.len ≤ 4096
          ∧ p.la = lp.linear (la + BitVec.ofNat 64 p.off))
  ∧ (∀ (a : Access) (p q : Piece) (pa b x : Nat),
    let n := if ∃ y ∈ a.parts, y.toNat / 2 ^ b = p.la.toNat / 2 ^ b then 12 else b
    (q ∈ (a.found p pa b).todo ↔ q ∈ a.todo ∧ q.la.toNat / 2 ^ n ≠ p.la.toNat / 2 ^ n)
      ∧ ((q, x) ∈ (a.found p pa b).covered
        ↔ q ∈ a.todo ∧ q.la.toNat / 2 ^ n = p.la.toNat / 2 ^ n ∧ x = pa / 2 ^ n * 2 ^ n + q.la.toNat % 2 ^ n)
      ∧ (a.found p pa b).parts = p.la :: a.parts
      ∧ (a.instruction = false → (a.found p pa b).phase = .translated p pa)
      ∧ (a.instruction = true →
          (a.found p pa b).phase = .translated { p with len := min (8 - p.off) (2 ^ n - p.la.toNat % 2 ^ n) } pa))
  ∧ (∀ (a : Access) (b : Nat) (la : Word), b ≤ 64 →
    let n := if ∃ y ∈ a.parts, y.toNat / 2 ^ b = la.toNat / 2 ^ b then 12 else b
    (a.la.toNat / 2 ^ n = la.toNat / 2 ^ n → a.firstByte b la = a.la)
      ∧ (a.la.toNat / 2 ^ n ≠ la.toNat / 2 ^ n → (a.firstByte b la).toNat = la.toNat / 2 ^ n * 2 ^ n))
  ∧ ∀ (s : State) (a : Access) (p : Piece),
    p ∈ s.ready a
      ↔ p ∈ a.todo ∧ (s.lp.maps s.cfg s.mem p.la = some .large → a.firstByte (largeBits s.lp.pagingMode) p.la = p.la)

/-- A `Load`, a `Store` or a `Fetch` is issued with the privilege of the moment, and with all its parts to be translated (R330,
R26; the record of it is the model's: entries 7, 9). -/
def Obligations.AccessIsIssued : Prop :=
  ∀ (s : State) (i : Input) (k : AccessKind) (la : Word) (bytes : List Byte) (rest : List Input), s.inputs = i :: rest →
    (k = .read ∧ i = .load la bytes.length) ∨ (k = .fetch ∧ i = .fetch la bytes.length) ∨ (k = .write ∧ i = .store la bytes) →
    s.lp.loading = none → s.lp.access = none → s.lp.halted = false →
    ∃ a, step s = .next { s with inputs := rest, lp := { s.lp with access := some a } }
      ∧ a.kind = k ∧ (a.user = true ↔ s.lp.cpl = 3) ∧ a.instruction = false ∧ a.la = s.lp.linear la
      ∧ a.bytes.length = bytes.length ∧ (k = .write → a.bytes = bytes) ∧ a.phase = .choosing
      ∧ a.todo = s.lp.pieces bytes.length (s.lp.linear la) 0 bytes.length ∧ a.covered = [] ∧ a.parts = [] ∧ a.done = []

/-- A store writes its bytes of the part at the physical address, and no other byte; it reads none; it goes on with the next part
of the same page, or with another page, and after the last it is over (R330, R65, R62; the parts: entry 15; the record of reads:
entry 24). -/
def Obligations.StoreWritesItsBytes : Prop :=
  ∀ (s : State) (a : Access) (p : Piece) (pa : Nat), s.Performing a p pa → a.kind = .write →
    p.off + p.len ≤ a.bytes.length →
    let a' : Access := { a with done := (pa, p.len) :: a.done }
    ∃ t, step s = .next t
      ∧ (∀ i (h : i < p.len) (h' : p.off + i < a.bytes.length), t.mem.read (pa + i) = a.bytes[p.off + i])
      ∧ (∀ x, x < pa ∨ pa + p.len ≤ x → t.mem.read x = s.mem.read x)
      ∧ t.lp = { s.lp with access := t.lp.access } ∧ t.others = s.others ∧ t.sideEffects = s.sideEffects
      ∧ (a.covered = [] → a.todo = [] → t.lp.access = none)
      ∧ (a.covered = [] → a.todo ≠ [] → t.lp.access = some { a' with phase := .choosing })
      ∧ ∀ q x cs, a.covered = (q, x) :: cs → t.lp.access = some { a' with covered := cs, phase := .translated q x }

/-- A load reads its bytes of the part at the physical address and changes no byte; it goes on with the next part of the same
page, or with another page, and after the last its bytes are the result; the addresses read that have read side effects are
recorded (R330, R65, R62, R67, R70; the parts: entry 15; the record of reads: entry 24). -/
def Obligations.LoadReadsItsBytes : Prop :=
  ∀ (s : State) (a : Access) (p : Piece) (pa : Nat), s.Performing a p pa → a.kind ≠ .write →
    p.off + p.len ≤ a.bytes.length →
    ∃ t bytes, step s = .next t ∧ bytes.length = a.bytes.length
      ∧ (∀ i (h : i < bytes.length) (h' : i < a.bytes.length),
          bytes[i] = if p.off ≤ i ∧ i < p.off + p.len then s.mem.read (pa + (i - p.off)) else a.bytes[i])
      ∧ t.mem = s.mem ∧ t.others = s.others
      ∧ (∀ x, x ∈ t.sideEffects ↔ x ∈ s.sideEffects
          ∨ (pa ≤ x ∧ x < pa + p.len ∧ ∃ r ∈ s.cfg.readSideEffect, r.1 ≤ x ∧ x < r.1 + r.2))
      ∧ (a.covered = [] → a.todo = [] → t.lp = { s.lp with access := none, result := bytes })
      ∧ (a.covered = [] → a.todo ≠ [] →
          t.lp = { s.lp with access := some { a with bytes := bytes, phase := .choosing } })
      ∧ ∀ q x cs, a.covered = (q, x) :: cs →
          t.lp = { s.lp with access := some { a with bytes := bytes, covered := cs, phase := .translated q x } }

/-- The enclosing model goes on after an exception where and at the CPL it says, and wakes a halted logical processor; nothing
else changes (R336, R358, R26; entries 9 and 10). -/
def Obligations.ResumeAndWake : Prop :=
  (∀ (s : State) (rip : Word) (cpl : BitVec 2) (rest : List Input), s.inputs = .resume rip cpl :: rest →
    s.lp.access = none → s.lp.loading = none →
    step s = .next { s with inputs := rest, lp := { s.lp with exc := none, rip := rip, cpl := cpl } })
  ∧ ∀ (s : State) (rest : List Input), s.inputs = .wake :: rest →
    step s = .next { s with inputs := rest, lp := { s.lp with halted := false } }

/-! ## Invariants -/

/-- Every step keeps memory in canonical form. -/
def Obligations.StepKeepsMemoryCanonical : Prop :=
  ∀ s t : State, s.mem.wf = true → step s = .next t → t.mem.wf = true

/-- Every step keeps "at no time is CR4.PAE = 0 and IA32_EFER.LMA = 1", and LMA = LME AND CR0.PG, on every logical processor; a
PDPTR load in progress is one of a MOV that leaves CR4.PAE = 1, and has entries still to read (R27, R25, R298, R299). -/
def Obligations.StepKeepsControlInvariant : Prop :=
  ∀ s t : State, s.Each LP.ControlInv → step s = .next t → t.Each LP.ControlInv

/-- Every step keeps "whenever CR4.PGE = 0, `lp.TLB` holds no entry with `global` = 1", on every logical processor (R273). -/
def Obligations.StepKeepsGlobalInvariant : Prop :=
  ∀ s t : State, s.Each LP.GlobalInv → step s = .next t → t.Each LP.GlobalInv

/-- Every step keeps absent caches empty, the entries of the PML4 and PDP caches made in ModeIA32e, and TLB entries in TLBs the
processor has (R30, R190, R195, R172). That the PML4 and PDP caches may hold such entries, tagged with ModeIA32e, in another mode
too is the model's reading of R30, which has them empty there, against R313, which keeps them with `Retain`: entry 14. -/
def Obligations.StepKeepsCacheInvariant : Prop :=
  ∀ s t : State, s.Each (LP.CacheInv s.cfg) → step s = .next t → t.Each (LP.CacheInv t.cfg)

/-- Every step keeps the speculative walks speculative and free of writes, the walk of an access its own, with CR0.PG = 0 no walk
in progress, and beside a PDPTR load no access (R150, R330, R132, R233, R299). -/
def Obligations.StepKeepsWalkInvariant : Prop :=
  ∀ s t : State, s.Each LP.WalkInv → step s = .next t → t.Each LP.WalkInv

/-- Every step keeps every physical address the machine holds below 2^PAW, those of memory, of the reads recorded, of the caches, of
the walks and of the access in progress, and every paging structure aligned (R9, R32, R64; the parts of an access: entry 15; the
record of reads: entry 24). -/
def Obligations.StepKeepsAddressInvariant : Prop :=
  ∀ s t : State, s.AddressInv → step s = .next t → t.AddressInv

/-- After reset every logical processor has paging off, CR0.WP = 0, CR2 = CR3 = 0, CR4.PSE = PAE = PGE = 0, IA32_EFER = 0, CPL 0,
empty caches and no walk, and the invariants hold; the logical processors are those of the configuration, each in its physical
processor; the alternative INVLPG behaviour is off (R37, R390, R376, R7 P10 and P11; no access and no load in progress: entries 7,
17). -/
def Obligations.ResetState : Prop :=
  State.reset.mem.wf = true ∧ State.reset.cfg.altInvlpg = false ∧ State.reset.AddressInv
    ∧ (State.reset.processors.map LP.physical) = 0 :: State.reset.cfg.otherProcessors
    ∧ ∀ lp ∈ State.reset.processors,
        lp.pg = false ∧ lp.wp = false ∧ lp.cr2 = 0 ∧ lp.cr3 = 0 ∧ lp.pse = false ∧ lp.pae = false ∧ lp.pge = false
          ∧ lp.efer = 0 ∧ lp.cpl = 0 ∧ lp.CachesEmpty ∧ lp.walks = [] ∧ lp.access = none ∧ lp.loading = none
          ∧ lp.mode = none
          ∧ lp.ControlInv ∧ lp.GlobalInv ∧ lp.CacheInv State.reset.cfg ∧ lp.WalkInv

end
end

