-- ==== Sys2Proof/Laws/Bits.lean ====
section
/-! SUPPORT. The laws of bits, fields and finite sets: what removing elements by a mask can leave, which element a choice
picks, how wide fields and assembled addresses are. -/

namespace Sys2Proof.Machine

/-! ## Finite sets as lists -/

section
variable {α : Type}

theorem thin_sublist (mask : Nat) (l : List α) : (thin mask l).Sublist l := by
  induction l generalizing mask with
  | nil => simp [thin]
  | cons x xs ih =>
    unfold thin
    split
    · exact (ih _).cons _
    · exact (ih _).cons_cons _

theorem mem_of_mem_thin {mask : Nat} {l : List α} {x : α} (h : x ∈ thin mask l) : x ∈ l := (thin_sublist mask l).mem h

@[simp] theorem thin_nil (mask : Nat) : thin mask ([] : List α) = [] := rfl

@[simp] theorem thin_zero (l : List α) : thin 0 l = l := by
  induction l with
  | nil => rfl
  | cons x xs ih => simp [thin, ih]

/-- Any subset can be left: "for any subset `S`" (R230). -/
theorem exists_thin {l' l : List α} (h : l'.Sublist l) : ∃ mask, thin mask l = l' := by
  induction h with
  | slnil => exact ⟨0, rfl⟩
  | cons a _ ih =>
    obtain ⟨m, hm⟩ := ih
    exact ⟨2 * m + 1, by simp [thin, Nat.testBit_zero, show (2 * m + 1) / 2 = m by omega, hm]⟩
  | cons_cons a _ ih =>
    obtain ⟨m, hm⟩ := ih
    exact ⟨2 * m, by simp [thin, Nat.testBit_zero, show 2 * m / 2 = m by omega, hm]⟩

theorem pick_mem (d : α) (l : List α) (n : Nat) (h : l ≠ []) : pick d l n ∈ l := by
  have : n % l.length < l.length := Nat.mod_lt _ (List.length_pos_of_ne_nil h)
  rw [pick, List.getD_eq_getElem?_getD, List.getElem?_eq_getElem this]
  exact List.getElem_mem this

/-- Any element can be picked. -/
theorem exists_pick (d : α) (l : List α) (x : α) (h : x ∈ l) : ∃ n, pick d l n = x := by
  obtain ⟨n, hn, rfl⟩ := List.mem_iff_getElem.mp h
  exact ⟨n, by simp [pick, Nat.mod_eq_of_lt hn, List.getElem?_eq_getElem hn]⟩

theorem mem_addTo [DecidableEq α] {x y : α} {l : List α} : y ∈ addTo x l ↔ y = x ∨ y ∈ l := by
  unfold addTo
  split
  · rename_i h
    exact ⟨.inr, fun h' => h'.elim (fun e => e ▸ h) id⟩
  · simp

/-- Adding removes nothing. -/
theorem addTo_sublist [DecidableEq α] (x : α) (l : List α) : l.Sublist (addTo x l) := by
  unfold addTo
  split
  · exact .refl _
  · exact List.sublist_cons_self _ _

end

/-! ## Bits and fields -/

@[simp] theorem bit_putBit_same (v : Word) (i : Nat) (b : Bool) (h : i < 64) : bit (putBit v i b) i = b := by
  cases b <;> simp [bit, putBit, h]

theorem bit_putBit_other (v : Word) (i j : Nat) (b : Bool) (h : j ≠ i) : bit (putBit v i b) j = bit v j := by
  unfold bit putBit
  cases b
  · by_cases hj : j < 64
    · have : ¬ (j - i = 0 ∧ i ≤ j) := by omega
      rcases Nat.lt_or_ge j i with hi | hi
      · simp [hj, hi]
      · have hne : j - i ≠ 0 := by omega
        simp [hj, hne, Nat.not_lt.mpr hi]
    · simp [BitVec.getLsbD_of_ge v j (by omega), hj]
  · by_cases hj : j < 64
    · rcases Nat.lt_or_ge j i with hi | hi
      · simp [hj, hi]
      · have hne : j - i ≠ 0 := by omega
        simp [hj, hne, Nat.not_lt.mpr hi]
    · simp [BitVec.getLsbD_of_ge v j (by omega), hj]

theorem field_lt (v : Word) (hi lo : Nat) : field v hi lo < 2 ^ (hi + 1 - lo) := Nat.mod_lt _ (Nat.two_pow_pos _)

/-- A field shifted right is the field of the bits above. -/
theorem field_shiftRight (v : Word) (hi lo k : Nat) (h : lo + k ≤ hi + 1) :
    field v hi lo >>> k = field v hi (lo + k) := by
  unfold field
  rw [Nat.shiftRight_eq_div_pow, Nat.shiftRight_add, Nat.shiftRight_eq_div_pow _ k,
    show hi + 1 - lo = k + (hi + 1 - (lo + k)) by omega, Nat.pow_add, Nat.mod_mul_right_div_self]

/-- The bits of a linear address that key a large page are those of its page number, shifted. -/
theorem largeOfKey_pageNumber (m : PagingMode) (la : Word) : largeOfKey m (pageNumber m la) = largePageNumber m la := by
  cases m <;> simp [largeOfKey, pageNumber, largePageNumber, largeBits, field_shiftRight]

theorem anyBit_eq_false {v : Word} {hi lo : Nat} :
    anyBit v hi lo = false ↔ ∀ i, lo ≤ i → i ≤ hi → bit v i = false := by
  unfold anyBit field bit
  rw [bne_eq_false_iff_eq]
  constructor
  · intro h i h1 h2
    have : ((v.toNat >>> lo) % 2 ^ (hi + 1 - lo)).testBit (i - lo) = false := by simp [h]
    rw [Nat.testBit_mod_two_pow, Nat.testBit_shiftRight] at this
    simpa [show i - lo < hi + 1 - lo by omega, show lo + (i - lo) = i by omega, BitVec.testBit_toNat] using this
  · intro h
    apply Nat.eq_of_testBit_eq
    intro j
    rw [Nat.testBit_mod_two_pow, Nat.testBit_shiftRight, Nat.zero_testBit]
    by_cases hj : j < hi + 1 - lo
    · simpa [hj, BitVec.testBit_toNat] using h (lo + j) (by omega) (by omega)
    · simp [hj]

/-! ## Addresses -/

theorem cat_lt {hi width lo w : Nat} (h1 : hi < 2 ^ w) (h2 : lo < 2 ^ width) : cat hi width lo < 2 ^ (w + width) := by
  unfold cat
  rw [Nat.pow_add]
  calc hi * 2 ^ width + lo < hi * 2 ^ width + 2 ^ width := by omega
    _ = (hi + 1) * 2 ^ width := by ring
    _ ≤ 2 ^ w * 2 ^ width := Nat.mul_le_mul_right _ h1

theorem paw_bounds (cfg : Config) : 32 ≤ cfg.paw ∧ cfg.paw ≤ 52 := by
  have := cfg.pawOver32.isLt
  unfold Config.paw
  omega

theorem addrWidth_bounds (cfg : Config) (m : PagingMode) : 32 ≤ addrWidth cfg m ∧ addrWidth cfg m ≤ cfg.paw := by
  have := paw_bounds cfg
  unfold addrWidth
  split <;> omega

theorem indexOf_lt (m : PagingMode) (l : Level) (la : Word) : indexOf m l la * entryBytes m < 4096 := by
  have h1 := field_lt la 47 39
  have h2 := field_lt la 38 30
  have h3 := field_lt la 31 22
  have h4 := field_lt la 29 21
  have h5 := field_lt la 21 12
  have h6 := field_lt la 20 12
  cases m <;> cases l <;> simp [indexOf, entryBytes] <;> omega

/-- A walker's address lies below 2^PAW and is aligned on the entry size (R64, R106). -/
theorem entryAddr_bounds (cfg : Config) (m : PagingMode) (l : Level) (base : Nat) (la : Word) :
    entryAddr cfg m base (indexOf m l la) + entryBytes m ≤ 2 ^ addrWidth cfg m
      ∧ entryAddr cfg m base (indexOf m l la) % entryBytes m = 0 := by
  have hw := addrWidth_bounds cfg m
  have hi := indexOf_lt m l la
  have hf : (base >>> 12) % 2 ^ (addrWidth cfg m - 12) < 2 ^ (addrWidth cfg m - 12) := Nat.mod_lt _ (Nat.two_pow_pos _)
  have hs : 2 ^ addrWidth cfg m = 2 ^ (addrWidth cfg m - 12) * 4096 := by
    rw [show (4096 : Nat) = 2 ^ 12 by norm_num, ← Nat.pow_add]; congr 1; omega
  unfold entryAddr cat
  generalize (base >>> 12) % 2 ^ (addrWidth cfg m - 12) = f at *
  rw [hs]
  have he : entryBytes m = 4 ∨ entryBytes m = 8 := by unfold entryBytes; split <;> simp
  constructor
  · have : f + 1 ≤ 2 ^ (addrWidth cfg m - 12) := hf
    have : (f + 1) * 4096 ≤ 2 ^ (addrWidth cfg m - 12) * 4096 := Nat.mul_le_mul_right _ this
    rcases he with he | he <;> rw [he] at hi ⊢ <;> omega
  · rcases he with he | he <;> rw [he] <;> omega

theorem frameField_lt (cfg : Config) (m : PagingMode) (e : Word) : frameField cfg m e < 2 ^ (addrWidth cfg m - 12) := by
  have h := field_lt e (addrWidth cfg m - 1) 12
  have hw := addrWidth_bounds cfg m
  rwa [show addrWidth cfg m - 1 + 1 - 12 = addrWidth cfg m - 12 by omega] at h

/-- The next structure lies below 2^PAW, aligned on 4 KBytes (R93). -/
theorem nextBase_bounds (cfg : Config) (m : PagingMode) (e : Word) :
    nextBase cfg m e < 2 ^ cfg.paw ∧ nextBase cfg m e % 4096 = 0 := by
  have hw := addrWidth_bounds cfg m
  have h := cat_lt (frameField_lt cfg m e) (show (0 : Nat) < 2 ^ 12 by norm_num)
  rw [show addrWidth cfg m - 12 + 12 = addrWidth cfg m by omega] at h
  refine ⟨lt_of_lt_of_le h (Nat.pow_le_pow_right (by norm_num) hw.2), ?_⟩
  unfold nextBase cat
  omega

/-- A byte of a 4-KByte page lies below 2^PAW. -/
theorem pageAddr_lt {cfg : Config} {frame : Nat} (la : Word) (h : frame < 2 ^ (cfg.paw - 12)) :
    pageAddr frame la < 2 ^ cfg.paw := by
  have hw := paw_bounds cfg
  have := cat_lt h (field_lt la 11 0)
  rwa [show cfg.paw - 12 + (11 + 1 - 0) = cfg.paw by omega] at this

/-- A large-page frame number fits the large frames below 2^PAW (R98, R309). -/
theorem largeFrame_lt (cfg : Config) (m : PagingMode) (e : Word) :
    largeFrame cfg m e < 2 ^ (cfg.paw - largeBits m) := by
  have hw := paw_bounds cfg
  unfold largeFrame largeBits
  split
  · split
    · rename_i h
      have h36 : 36 ≤ cfg.paw := by
        simp [Config.pse36] at h; exact h.2
      have := cat_lt (field_lt e 16 13) (show field e 31 22 < 2 ^ 10 from field_lt e 31 22)
      exact lt_of_lt_of_le this (Nat.pow_le_pow_right (by norm_num) (by omega))
    · exact lt_of_lt_of_le (field_lt e 31 22) (Nat.pow_le_pow_right (by norm_num) (by omega))
  · have := field_lt e (cfg.paw - 1) 21
    rwa [show cfg.paw - 1 + 1 - 21 = cfg.paw - 21 by omega] at this

/-- A byte of a large page lies below 2^PAW. -/
theorem largeAddr_lt {cfg : Config} {m : PagingMode} {frame : Nat} (la : Word) (h : frame < 2 ^ (cfg.paw - largeBits m)) :
    largeAddr m frame la < 2 ^ cfg.paw := by
  have hw := paw_bounds cfg
  have hb : largeBits m = 21 ∨ largeBits m = 22 := by unfold largeBits; split <;> simp
  have hf := field_lt la (largeBits m - 1) 0
  rw [show largeBits m - 1 + 1 - 0 = largeBits m by omega] at hf
  have := cat_lt h hf
  rwa [show cfg.paw - largeBits m + largeBits m = cfg.paw by omega] at this

end Sys2Proof.Machine
end

