-- ==== Sys2Proof/Laws/State.lean ====
section
/-! SUPPORT. One lemma for each field and each update of the records of the machine: later proofs never unfold an update. -/

namespace Sys2Proof.Machine

/-! ## Updates of a logical processor -/

@[simp] theorem LP.dropSome_physical (c : Choice) (lp : LP) : (lp.dropSome c).physical = lp.physical := rfl
@[simp] theorem LP.dropSome_cr0 (c : Choice) (lp : LP) : (lp.dropSome c).cr0 = lp.cr0 := rfl
@[simp] theorem LP.dropSome_cr2 (c : Choice) (lp : LP) : (lp.dropSome c).cr2 = lp.cr2 := rfl
@[simp] theorem LP.dropSome_cr3 (c : Choice) (lp : LP) : (lp.dropSome c).cr3 = lp.cr3 := rfl
@[simp] theorem LP.dropSome_cr4 (c : Choice) (lp : LP) : (lp.dropSome c).cr4 = lp.cr4 := rfl
@[simp] theorem LP.dropSome_efer (c : Choice) (lp : LP) : (lp.dropSome c).efer = lp.efer := rfl
@[simp] theorem LP.dropSome_cpl (c : Choice) (lp : LP) : (lp.dropSome c).cpl = lp.cpl := rfl
@[simp] theorem LP.dropSome_pdptr (c : Choice) (lp : LP) : (lp.dropSome c).pdptr = lp.pdptr := rfl
@[simp] theorem LP.dropSome_tlb (c : Choice) (lp : LP) : (lp.dropSome c).tlb = thin c.dropTlb lp.tlb := rfl
@[simp] theorem LP.dropSome_pml4c (c : Choice) (lp : LP) : (lp.dropSome c).pml4c = thin c.dropPml4 lp.pml4c := rfl
@[simp] theorem LP.dropSome_pdpc (c : Choice) (lp : LP) : (lp.dropSome c).pdpc = thin c.dropPdp lp.pdpc := rfl
@[simp] theorem LP.dropSome_pdec (c : Choice) (lp : LP) : (lp.dropSome c).pdec = thin c.dropPde lp.pdec := rfl
@[simp] theorem LP.dropSome_walks (c : Choice) (lp : LP) : (lp.dropSome c).walks = lp.walks := rfl
@[simp] theorem LP.dropSome_access (c : Choice) (lp : LP) : (lp.dropSome c).access = lp.access := rfl
@[simp] theorem LP.dropSome_loading (c : Choice) (lp : LP) : (lp.dropSome c).loading = lp.loading := rfl
@[simp] theorem LP.dropSome_halted (c : Choice) (lp : LP) : (lp.dropSome c).halted = lp.halted := rfl
@[simp] theorem LP.dropSome_gpr (c : Choice) (lp : LP) : (lp.dropSome c).gpr = lp.gpr := rfl
@[simp] theorem LP.dropSome_rip (c : Choice) (lp : LP) : (lp.dropSome c).rip = lp.rip := rfl
@[simp] theorem LP.dropSome_exc (c : Choice) (lp : LP) : (lp.dropSome c).exc = lp.exc := rfl
@[simp] theorem LP.dropSome_result (c : Choice) (lp : LP) : (lp.dropSome c).result = lp.result := rfl

@[simp] theorem LP.flush_physical (lp : LP) : (lp.flush).physical = lp.physical := rfl
@[simp] theorem LP.flush_cr0 (lp : LP) : (lp.flush).cr0 = lp.cr0 := rfl
@[simp] theorem LP.flush_cr2 (lp : LP) : (lp.flush).cr2 = lp.cr2 := rfl
@[simp] theorem LP.flush_cr3 (lp : LP) : (lp.flush).cr3 = lp.cr3 := rfl
@[simp] theorem LP.flush_cr4 (lp : LP) : (lp.flush).cr4 = lp.cr4 := rfl
@[simp] theorem LP.flush_efer (lp : LP) : (lp.flush).efer = lp.efer := rfl
@[simp] theorem LP.flush_cpl (lp : LP) : (lp.flush).cpl = lp.cpl := rfl
@[simp] theorem LP.flush_pdptr (lp : LP) : (lp.flush).pdptr = lp.pdptr := rfl
@[simp] theorem LP.flush_tlb (lp : LP) : (lp.flush).tlb = [] := rfl
@[simp] theorem LP.flush_pml4c (lp : LP) : (lp.flush).pml4c = [] := rfl
@[simp] theorem LP.flush_pdpc (lp : LP) : (lp.flush).pdpc = [] := rfl
@[simp] theorem LP.flush_pdec (lp : LP) : (lp.flush).pdec = [] := rfl
@[simp] theorem LP.flush_walks (lp : LP) : (lp.flush).walks = lp.walks := rfl
@[simp] theorem LP.flush_access (lp : LP) : (lp.flush).access = lp.access := rfl
@[simp] theorem LP.flush_loading (lp : LP) : (lp.flush).loading = lp.loading := rfl
@[simp] theorem LP.flush_halted (lp : LP) : (lp.flush).halted = lp.halted := rfl
@[simp] theorem LP.flush_gpr (lp : LP) : (lp.flush).gpr = lp.gpr := rfl
@[simp] theorem LP.flush_rip (lp : LP) : (lp.flush).rip = lp.rip := rfl
@[simp] theorem LP.flush_exc (lp : LP) : (lp.flush).exc = lp.exc := rfl
@[simp] theorem LP.flush_result (lp : LP) : (lp.flush).result = lp.result := rfl

@[simp] theorem LP.flushPsc_physical (lp : LP) : (lp.flushPsc).physical = lp.physical := rfl
@[simp] theorem LP.flushPsc_cr0 (lp : LP) : (lp.flushPsc).cr0 = lp.cr0 := rfl
@[simp] theorem LP.flushPsc_cr2 (lp : LP) : (lp.flushPsc).cr2 = lp.cr2 := rfl
@[simp] theorem LP.flushPsc_cr3 (lp : LP) : (lp.flushPsc).cr3 = lp.cr3 := rfl
@[simp] theorem LP.flushPsc_cr4 (lp : LP) : (lp.flushPsc).cr4 = lp.cr4 := rfl
@[simp] theorem LP.flushPsc_efer (lp : LP) : (lp.flushPsc).efer = lp.efer := rfl
@[simp] theorem LP.flushPsc_cpl (lp : LP) : (lp.flushPsc).cpl = lp.cpl := rfl
@[simp] theorem LP.flushPsc_pdptr (lp : LP) : (lp.flushPsc).pdptr = lp.pdptr := rfl
@[simp] theorem LP.flushPsc_tlb (lp : LP) : (lp.flushPsc).tlb = lp.tlb := rfl
@[simp] theorem LP.flushPsc_pml4c (lp : LP) : (lp.flushPsc).pml4c = [] := rfl
@[simp] theorem LP.flushPsc_pdpc (lp : LP) : (lp.flushPsc).pdpc = [] := rfl
@[simp] theorem LP.flushPsc_pdec (lp : LP) : (lp.flushPsc).pdec = [] := rfl
@[simp] theorem LP.flushPsc_walks (lp : LP) : (lp.flushPsc).walks = lp.walks := rfl
@[simp] theorem LP.flushPsc_access (lp : LP) : (lp.flushPsc).access = lp.access := rfl
@[simp] theorem LP.flushPsc_loading (lp : LP) : (lp.flushPsc).loading = lp.loading := rfl
@[simp] theorem LP.flushPsc_halted (lp : LP) : (lp.flushPsc).halted = lp.halted := rfl
@[simp] theorem LP.flushPsc_gpr (lp : LP) : (lp.flushPsc).gpr = lp.gpr := rfl
@[simp] theorem LP.flushPsc_rip (lp : LP) : (lp.flushPsc).rip = lp.rip := rfl
@[simp] theorem LP.flushPsc_exc (lp : LP) : (lp.flushPsc).exc = lp.exc := rfl
@[simp] theorem LP.flushPsc_result (lp : LP) : (lp.flushPsc).result = lp.result := rfl

@[simp] theorem LP.dropWalks_physical (lp : LP) : (lp.dropWalks).physical = lp.physical := rfl
@[simp] theorem LP.dropWalks_cr0 (lp : LP) : (lp.dropWalks).cr0 = lp.cr0 := rfl
@[simp] theorem LP.dropWalks_cr2 (lp : LP) : (lp.dropWalks).cr2 = lp.cr2 := rfl
@[simp] theorem LP.dropWalks_cr3 (lp : LP) : (lp.dropWalks).cr3 = lp.cr3 := rfl
@[simp] theorem LP.dropWalks_cr4 (lp : LP) : (lp.dropWalks).cr4 = lp.cr4 := rfl
@[simp] theorem LP.dropWalks_efer (lp : LP) : (lp.dropWalks).efer = lp.efer := rfl
@[simp] theorem LP.dropWalks_cpl (lp : LP) : (lp.dropWalks).cpl = lp.cpl := rfl
@[simp] theorem LP.dropWalks_pdptr (lp : LP) : (lp.dropWalks).pdptr = lp.pdptr := rfl
@[simp] theorem LP.dropWalks_tlb (lp : LP) : (lp.dropWalks).tlb = lp.tlb := rfl
@[simp] theorem LP.dropWalks_pml4c (lp : LP) : (lp.dropWalks).pml4c = lp.pml4c := rfl
@[simp] theorem LP.dropWalks_pdpc (lp : LP) : (lp.dropWalks).pdpc = lp.pdpc := rfl
@[simp] theorem LP.dropWalks_pdec (lp : LP) : (lp.dropWalks).pdec = lp.pdec := rfl
@[simp] theorem LP.dropWalks_walks (lp : LP) : (lp.dropWalks).walks = [] := rfl
@[simp] theorem LP.dropWalks_access (lp : LP) : (lp.dropWalks).access = lp.access := rfl
@[simp] theorem LP.dropWalks_loading (lp : LP) : (lp.dropWalks).loading = lp.loading := rfl
@[simp] theorem LP.dropWalks_halted (lp : LP) : (lp.dropWalks).halted = lp.halted := rfl
@[simp] theorem LP.dropWalks_gpr (lp : LP) : (lp.dropWalks).gpr = lp.gpr := rfl
@[simp] theorem LP.dropWalks_rip (lp : LP) : (lp.dropWalks).rip = lp.rip := rfl
@[simp] theorem LP.dropWalks_exc (lp : LP) : (lp.dropWalks).exc = lp.exc := rfl
@[simp] theorem LP.dropWalks_result (lp : LP) : (lp.dropWalks).result = lp.result := rfl

@[simp] theorem LP.removePscFor_physical (m : PagingMode) (la : Word) (lp : LP) : (lp.removePscFor m la).physical = lp.physical := rfl
@[simp] theorem LP.removePscFor_cr0 (m : PagingMode) (la : Word) (lp : LP) : (lp.removePscFor m la).cr0 = lp.cr0 := rfl
@[simp] theorem LP.removePscFor_cr2 (m : PagingMode) (la : Word) (lp : LP) : (lp.removePscFor m la).cr2 = lp.cr2 := rfl
@[simp] theorem LP.removePscFor_cr3 (m : PagingMode) (la : Word) (lp : LP) : (lp.removePscFor m la).cr3 = lp.cr3 := rfl
@[simp] theorem LP.removePscFor_cr4 (m : PagingMode) (la : Word) (lp : LP) : (lp.removePscFor m la).cr4 = lp.cr4 := rfl
@[simp] theorem LP.removePscFor_efer (m : PagingMode) (la : Word) (lp : LP) : (lp.removePscFor m la).efer = lp.efer := rfl
@[simp] theorem LP.removePscFor_cpl (m : PagingMode) (la : Word) (lp : LP) : (lp.removePscFor m la).cpl = lp.cpl := rfl
@[simp] theorem LP.removePscFor_pdptr (m : PagingMode) (la : Word) (lp : LP) : (lp.removePscFor m la).pdptr = lp.pdptr := rfl
@[simp] theorem LP.removePscFor_tlb (m : PagingMode) (la : Word) (lp : LP) : (lp.removePscFor m la).tlb = lp.tlb := rfl
@[simp] theorem LP.removePscFor_pml4c (m : PagingMode) (la : Word) (lp : LP) : (lp.removePscFor m la).pml4c = lp.pml4c.filter (fun c => !c.matches m .pml4e la) := rfl
@[simp] theorem LP.removePscFor_pdpc (m : PagingMode) (la : Word) (lp : LP) : (lp.removePscFor m la).pdpc = lp.pdpc.filter (fun c => !c.matches m .pdpe la) := rfl
@[simp] theorem LP.removePscFor_pdec (m : PagingMode) (la : Word) (lp : LP) : (lp.removePscFor m la).pdec = lp.pdec.filter (fun c => !c.matches m .pde la) := rfl
@[simp] theorem LP.removePscFor_walks (m : PagingMode) (la : Word) (lp : LP) : (lp.removePscFor m la).walks = lp.walks := rfl
@[simp] theorem LP.removePscFor_access (m : PagingMode) (la : Word) (lp : LP) : (lp.removePscFor m la).access = lp.access := rfl
@[simp] theorem LP.removePscFor_loading (m : PagingMode) (la : Word) (lp : LP) : (lp.removePscFor m la).loading = lp.loading := rfl
@[simp] theorem LP.removePscFor_halted (m : PagingMode) (la : Word) (lp : LP) : (lp.removePscFor m la).halted = lp.halted := rfl
@[simp] theorem LP.removePscFor_gpr (m : PagingMode) (la : Word) (lp : LP) : (lp.removePscFor m la).gpr = lp.gpr := rfl
@[simp] theorem LP.removePscFor_rip (m : PagingMode) (la : Word) (lp : LP) : (lp.removePscFor m la).rip = lp.rip := rfl
@[simp] theorem LP.removePscFor_exc (m : PagingMode) (la : Word) (lp : LP) : (lp.removePscFor m la).exc = lp.exc := rfl
@[simp] theorem LP.removePscFor_result (m : PagingMode) (la : Word) (lp : LP) : (lp.removePscFor m la).result = lp.result := rfl

@[simp] theorem LP.removeTlb_physical (p : TlbEntry → Bool) (lp : LP) : (lp.removeTlb p).physical = lp.physical := rfl
@[simp] theorem LP.removeTlb_cr0 (p : TlbEntry → Bool) (lp : LP) : (lp.removeTlb p).cr0 = lp.cr0 := rfl
@[simp] theorem LP.removeTlb_cr2 (p : TlbEntry → Bool) (lp : LP) : (lp.removeTlb p).cr2 = lp.cr2 := rfl
@[simp] theorem LP.removeTlb_cr3 (p : TlbEntry → Bool) (lp : LP) : (lp.removeTlb p).cr3 = lp.cr3 := rfl
@[simp] theorem LP.removeTlb_cr4 (p : TlbEntry → Bool) (lp : LP) : (lp.removeTlb p).cr4 = lp.cr4 := rfl
@[simp] theorem LP.removeTlb_efer (p : TlbEntry → Bool) (lp : LP) : (lp.removeTlb p).efer = lp.efer := rfl
@[simp] theorem LP.removeTlb_cpl (p : TlbEntry → Bool) (lp : LP) : (lp.removeTlb p).cpl = lp.cpl := rfl
@[simp] theorem LP.removeTlb_pdptr (p : TlbEntry → Bool) (lp : LP) : (lp.removeTlb p).pdptr = lp.pdptr := rfl
@[simp] theorem LP.removeTlb_tlb (p : TlbEntry → Bool) (lp : LP) : (lp.removeTlb p).tlb = lp.tlb.filter (fun e => !p e) := rfl
@[simp] theorem LP.removeTlb_pml4c (p : TlbEntry → Bool) (lp : LP) : (lp.removeTlb p).pml4c = lp.pml4c := rfl
@[simp] theorem LP.removeTlb_pdpc (p : TlbEntry → Bool) (lp : LP) : (lp.removeTlb p).pdpc = lp.pdpc := rfl
@[simp] theorem LP.removeTlb_pdec (p : TlbEntry → Bool) (lp : LP) : (lp.removeTlb p).pdec = lp.pdec := rfl
@[simp] theorem LP.removeTlb_walks (p : TlbEntry → Bool) (lp : LP) : (lp.removeTlb p).walks = lp.walks := rfl
@[simp] theorem LP.removeTlb_access (p : TlbEntry → Bool) (lp : LP) : (lp.removeTlb p).access = lp.access := rfl
@[simp] theorem LP.removeTlb_loading (p : TlbEntry → Bool) (lp : LP) : (lp.removeTlb p).loading = lp.loading := rfl
@[simp] theorem LP.removeTlb_halted (p : TlbEntry → Bool) (lp : LP) : (lp.removeTlb p).halted = lp.halted := rfl
@[simp] theorem LP.removeTlb_gpr (p : TlbEntry → Bool) (lp : LP) : (lp.removeTlb p).gpr = lp.gpr := rfl
@[simp] theorem LP.removeTlb_rip (p : TlbEntry → Bool) (lp : LP) : (lp.removeTlb p).rip = lp.rip := rfl
@[simp] theorem LP.removeTlb_exc (p : TlbEntry → Bool) (lp : LP) : (lp.removeTlb p).exc = lp.exc := rfl
@[simp] theorem LP.removeTlb_result (p : TlbEntry → Bool) (lp : LP) : (lp.removeTlb p).result = lp.result := rfl

@[simp] theorem LP.takeException_physical (e : Exception) (lp : LP) : (lp.takeException e).physical = lp.physical := rfl
@[simp] theorem LP.takeException_cr0 (e : Exception) (lp : LP) : (lp.takeException e).cr0 = lp.cr0 := rfl
@[simp] theorem LP.takeException_cr2 (e : Exception) (lp : LP) : (lp.takeException e).cr2 = lp.cr2 := rfl
@[simp] theorem LP.takeException_cr3 (e : Exception) (lp : LP) : (lp.takeException e).cr3 = lp.cr3 := rfl
@[simp] theorem LP.takeException_cr4 (e : Exception) (lp : LP) : (lp.takeException e).cr4 = lp.cr4 := rfl
@[simp] theorem LP.takeException_efer (e : Exception) (lp : LP) : (lp.takeException e).efer = lp.efer := rfl
@[simp] theorem LP.takeException_cpl (e : Exception) (lp : LP) : (lp.takeException e).cpl = lp.cpl := rfl
@[simp] theorem LP.takeException_pdptr (e : Exception) (lp : LP) : (lp.takeException e).pdptr = lp.pdptr := rfl
@[simp] theorem LP.takeException_tlb (e : Exception) (lp : LP) : (lp.takeException e).tlb = lp.tlb := rfl
@[simp] theorem LP.takeException_pml4c (e : Exception) (lp : LP) : (lp.takeException e).pml4c = lp.pml4c := rfl
@[simp] theorem LP.takeException_pdpc (e : Exception) (lp : LP) : (lp.takeException e).pdpc = lp.pdpc := rfl
@[simp] theorem LP.takeException_pdec (e : Exception) (lp : LP) : (lp.takeException e).pdec = lp.pdec := rfl
@[simp] theorem LP.takeException_walks (e : Exception) (lp : LP) : (lp.takeException e).walks = lp.walks := rfl
@[simp] theorem LP.takeException_access (e : Exception) (lp : LP) : (lp.takeException e).access = none := rfl
@[simp] theorem LP.takeException_loading (e : Exception) (lp : LP) : (lp.takeException e).loading = none := rfl
@[simp] theorem LP.takeException_halted (e : Exception) (lp : LP) : (lp.takeException e).halted = lp.halted := rfl
@[simp] theorem LP.takeException_gpr (e : Exception) (lp : LP) : (lp.takeException e).gpr = lp.gpr := rfl
@[simp] theorem LP.takeException_rip (e : Exception) (lp : LP) : (lp.takeException e).rip = lp.rip := rfl
@[simp] theorem LP.takeException_exc (e : Exception) (lp : LP) : (lp.takeException e).exc = some e := rfl
@[simp] theorem LP.takeException_result (e : Exception) (lp : LP) : (lp.takeException e).result = lp.result := rfl

@[simp] theorem LP.resume_physical (a : Word) (l : BitVec 2) (lp : LP) : (lp.resume a l).physical = lp.physical := rfl
@[simp] theorem LP.resume_cr0 (a : Word) (l : BitVec 2) (lp : LP) : (lp.resume a l).cr0 = lp.cr0 := rfl
@[simp] theorem LP.resume_cr2 (a : Word) (l : BitVec 2) (lp : LP) : (lp.resume a l).cr2 = lp.cr2 := rfl
@[simp] theorem LP.resume_cr3 (a : Word) (l : BitVec 2) (lp : LP) : (lp.resume a l).cr3 = lp.cr3 := rfl
@[simp] theorem LP.resume_cr4 (a : Word) (l : BitVec 2) (lp : LP) : (lp.resume a l).cr4 = lp.cr4 := rfl
@[simp] theorem LP.resume_efer (a : Word) (l : BitVec 2) (lp : LP) : (lp.resume a l).efer = lp.efer := rfl
@[simp] theorem LP.resume_cpl (a : Word) (l : BitVec 2) (lp : LP) : (lp.resume a l).cpl = l := rfl
@[simp] theorem LP.resume_pdptr (a : Word) (l : BitVec 2) (lp : LP) : (lp.resume a l).pdptr = lp.pdptr := rfl
@[simp] theorem LP.resume_tlb (a : Word) (l : BitVec 2) (lp : LP) : (lp.resume a l).tlb = lp.tlb := rfl
@[simp] theorem LP.resume_pml4c (a : Word) (l : BitVec 2) (lp : LP) : (lp.resume a l).pml4c = lp.pml4c := rfl
@[simp] theorem LP.resume_pdpc (a : Word) (l : BitVec 2) (lp : LP) : (lp.resume a l).pdpc = lp.pdpc := rfl
@[simp] theorem LP.resume_pdec (a : Word) (l : BitVec 2) (lp : LP) : (lp.resume a l).pdec = lp.pdec := rfl
@[simp] theorem LP.resume_walks (a : Word) (l : BitVec 2) (lp : LP) : (lp.resume a l).walks = lp.walks := rfl
@[simp] theorem LP.resume_access (a : Word) (l : BitVec 2) (lp : LP) : (lp.resume a l).access = lp.access := rfl
@[simp] theorem LP.resume_loading (a : Word) (l : BitVec 2) (lp : LP) : (lp.resume a l).loading = lp.loading := rfl
@[simp] theorem LP.resume_halted (a : Word) (l : BitVec 2) (lp : LP) : (lp.resume a l).halted = lp.halted := rfl
@[simp] theorem LP.resume_gpr (a : Word) (l : BitVec 2) (lp : LP) : (lp.resume a l).gpr = lp.gpr := rfl
@[simp] theorem LP.resume_rip (a : Word) (l : BitVec 2) (lp : LP) : (lp.resume a l).rip = a := rfl
@[simp] theorem LP.resume_exc (a : Word) (l : BitVec 2) (lp : LP) : (lp.resume a l).exc = none := rfl
@[simp] theorem LP.resume_result (a : Word) (l : BitVec 2) (lp : LP) : (lp.resume a l).result = lp.result := rfl

@[simp] theorem LP.advance_physical (n : Nat) (lp : LP) : (lp.advance n).physical = lp.physical := rfl
@[simp] theorem LP.advance_cr0 (n : Nat) (lp : LP) : (lp.advance n).cr0 = lp.cr0 := rfl
@[simp] theorem LP.advance_cr2 (n : Nat) (lp : LP) : (lp.advance n).cr2 = lp.cr2 := rfl
@[simp] theorem LP.advance_cr3 (n : Nat) (lp : LP) : (lp.advance n).cr3 = lp.cr3 := rfl
@[simp] theorem LP.advance_cr4 (n : Nat) (lp : LP) : (lp.advance n).cr4 = lp.cr4 := rfl
@[simp] theorem LP.advance_efer (n : Nat) (lp : LP) : (lp.advance n).efer = lp.efer := rfl
@[simp] theorem LP.advance_cpl (n : Nat) (lp : LP) : (lp.advance n).cpl = lp.cpl := rfl
@[simp] theorem LP.advance_pdptr (n : Nat) (lp : LP) : (lp.advance n).pdptr = lp.pdptr := rfl
@[simp] theorem LP.advance_tlb (n : Nat) (lp : LP) : (lp.advance n).tlb = lp.tlb := rfl
@[simp] theorem LP.advance_pml4c (n : Nat) (lp : LP) : (lp.advance n).pml4c = lp.pml4c := rfl
@[simp] theorem LP.advance_pdpc (n : Nat) (lp : LP) : (lp.advance n).pdpc = lp.pdpc := rfl
@[simp] theorem LP.advance_pdec (n : Nat) (lp : LP) : (lp.advance n).pdec = lp.pdec := rfl
@[simp] theorem LP.advance_walks (n : Nat) (lp : LP) : (lp.advance n).walks = lp.walks := rfl
@[simp] theorem LP.advance_access (n : Nat) (lp : LP) : (lp.advance n).access = lp.access := rfl
@[simp] theorem LP.advance_loading (n : Nat) (lp : LP) : (lp.advance n).loading = lp.loading := rfl
@[simp] theorem LP.advance_halted (n : Nat) (lp : LP) : (lp.advance n).halted = lp.halted := rfl
@[simp] theorem LP.advance_gpr (n : Nat) (lp : LP) : (lp.advance n).gpr = lp.gpr := rfl
@[simp] theorem LP.advance_rip (n : Nat) (lp : LP) : (lp.advance n).rip = lp.linear (lp.rip + BitVec.ofNat 64 n) := rfl
@[simp] theorem LP.advance_exc (n : Nat) (lp : LP) : (lp.advance n).exc = lp.exc := rfl
@[simp] theorem LP.advance_result (n : Nat) (lp : LP) : (lp.advance n).result = lp.result := rfl

@[simp] theorem LP.pfInvalidate_physical (c : Choice) (la : Word) (lp : LP) : (lp.pfInvalidate c la).physical = lp.physical := rfl
@[simp] theorem LP.pfInvalidate_cr0 (c : Choice) (la : Word) (lp : LP) : (lp.pfInvalidate c la).cr0 = lp.cr0 := rfl
@[simp] theorem LP.pfInvalidate_cr2 (c : Choice) (la : Word) (lp : LP) : (lp.pfInvalidate c la).cr2 = lp.cr2 := rfl
@[simp] theorem LP.pfInvalidate_cr3 (c : Choice) (la : Word) (lp : LP) : (lp.pfInvalidate c la).cr3 = lp.cr3 := rfl
@[simp] theorem LP.pfInvalidate_cr4 (c : Choice) (la : Word) (lp : LP) : (lp.pfInvalidate c la).cr4 = lp.cr4 := rfl
@[simp] theorem LP.pfInvalidate_efer (c : Choice) (la : Word) (lp : LP) : (lp.pfInvalidate c la).efer = lp.efer := rfl
@[simp] theorem LP.pfInvalidate_cpl (c : Choice) (la : Word) (lp : LP) : (lp.pfInvalidate c la).cpl = lp.cpl := rfl
@[simp] theorem LP.pfInvalidate_pdptr (c : Choice) (la : Word) (lp : LP) : (lp.pfInvalidate c la).pdptr = lp.pdptr := rfl
@[simp] theorem LP.pfInvalidate_tlb (c : Choice) (la : Word) (lp : LP) : (lp.pfInvalidate c la).tlb = thin c.dropTlb (lp.tlb.filter fun e => !TlbEntry.forFault lp.pagingMode la e) := rfl
@[simp] theorem LP.pfInvalidate_pml4c (c : Choice) (la : Word) (lp : LP) : (lp.pfInvalidate c la).pml4c = thin c.dropPml4 (lp.pml4c.filter fun e => !e.matches lp.pagingMode .pml4e la) := rfl
@[simp] theorem LP.pfInvalidate_pdpc (c : Choice) (la : Word) (lp : LP) : (lp.pfInvalidate c la).pdpc = thin c.dropPdp (lp.pdpc.filter fun e => !e.matches lp.pagingMode .pdpe la) := rfl
@[simp] theorem LP.pfInvalidate_pdec (c : Choice) (la : Word) (lp : LP) : (lp.pfInvalidate c la).pdec = thin c.dropPde (lp.pdec.filter fun e => !e.matches lp.pagingMode .pde la) := rfl
@[simp] theorem LP.pfInvalidate_walks (c : Choice) (la : Word) (lp : LP) : (lp.pfInvalidate c la).walks = [] := rfl
@[simp] theorem LP.pfInvalidate_access (c : Choice) (la : Word) (lp : LP) : (lp.pfInvalidate c la).access = lp.access := rfl
@[simp] theorem LP.pfInvalidate_loading (c : Choice) (la : Word) (lp : LP) : (lp.pfInvalidate c la).loading = lp.loading := rfl
@[simp] theorem LP.pfInvalidate_halted (c : Choice) (la : Word) (lp : LP) : (lp.pfInvalidate c la).halted = lp.halted := rfl
@[simp] theorem LP.pfInvalidate_gpr (c : Choice) (la : Word) (lp : LP) : (lp.pfInvalidate c la).gpr = lp.gpr := rfl
@[simp] theorem LP.pfInvalidate_rip (c : Choice) (la : Word) (lp : LP) : (lp.pfInvalidate c la).rip = lp.rip := rfl
@[simp] theorem LP.pfInvalidate_exc (c : Choice) (la : Word) (lp : LP) : (lp.pfInvalidate c la).exc = lp.exc := rfl
@[simp] theorem LP.pfInvalidate_result (c : Choice) (la : Word) (lp : LP) : (lp.pfInvalidate c la).result = lp.result := rfl

@[simp] theorem LP.pageFault_physical (c : Choice) (la : Word) (acc : Acc) (p r : Bool) (lp : LP) : (lp.pageFault c la acc p r).physical = lp.physical := rfl
@[simp] theorem LP.pageFault_cr0 (c : Choice) (la : Word) (acc : Acc) (p r : Bool) (lp : LP) : (lp.pageFault c la acc p r).cr0 = lp.cr0 := rfl
@[simp] theorem LP.pageFault_cr2 (c : Choice) (la : Word) (acc : Acc) (p r : Bool) (lp : LP) : (lp.pageFault c la acc p r).cr2 = la := rfl
@[simp] theorem LP.pageFault_cr3 (c : Choice) (la : Word) (acc : Acc) (p r : Bool) (lp : LP) : (lp.pageFault c la acc p r).cr3 = lp.cr3 := rfl
@[simp] theorem LP.pageFault_cr4 (c : Choice) (la : Word) (acc : Acc) (p r : Bool) (lp : LP) : (lp.pageFault c la acc p r).cr4 = lp.cr4 := rfl
@[simp] theorem LP.pageFault_efer (c : Choice) (la : Word) (acc : Acc) (p r : Bool) (lp : LP) : (lp.pageFault c la acc p r).efer = lp.efer := rfl
@[simp] theorem LP.pageFault_cpl (c : Choice) (la : Word) (acc : Acc) (p r : Bool) (lp : LP) : (lp.pageFault c la acc p r).cpl = lp.cpl := rfl
@[simp] theorem LP.pageFault_pdptr (c : Choice) (la : Word) (acc : Acc) (p r : Bool) (lp : LP) : (lp.pageFault c la acc p r).pdptr = lp.pdptr := rfl
@[simp] theorem LP.pageFault_tlb (c : Choice) (la : Word) (acc : Acc) (p r : Bool) (lp : LP) : (lp.pageFault c la acc p r).tlb = (lp.pfInvalidate c la).tlb := rfl
@[simp] theorem LP.pageFault_pml4c (c : Choice) (la : Word) (acc : Acc) (p r : Bool) (lp : LP) : (lp.pageFault c la acc p r).pml4c = (lp.pfInvalidate c la).pml4c := rfl
@[simp] theorem LP.pageFault_pdpc (c : Choice) (la : Word) (acc : Acc) (p r : Bool) (lp : LP) : (lp.pageFault c la acc p r).pdpc = (lp.pfInvalidate c la).pdpc := rfl
@[simp] theorem LP.pageFault_pdec (c : Choice) (la : Word) (acc : Acc) (p r : Bool) (lp : LP) : (lp.pageFault c la acc p r).pdec = (lp.pfInvalidate c la).pdec := rfl
@[simp] theorem LP.pageFault_walks (c : Choice) (la : Word) (acc : Acc) (p r : Bool) (lp : LP) : (lp.pageFault c la acc p r).walks = [] := rfl
@[simp] theorem LP.pageFault_access (c : Choice) (la : Word) (acc : Acc) (p r : Bool) (lp : LP) : (lp.pageFault c la acc p r).access = none := rfl
@[simp] theorem LP.pageFault_loading (c : Choice) (la : Word) (acc : Acc) (p r : Bool) (lp : LP) : (lp.pageFault c la acc p r).loading = none := rfl
@[simp] theorem LP.pageFault_halted (c : Choice) (la : Word) (acc : Acc) (p r : Bool) (lp : LP) : (lp.pageFault c la acc p r).halted = lp.halted := rfl
@[simp] theorem LP.pageFault_gpr (c : Choice) (la : Word) (acc : Acc) (p r : Bool) (lp : LP) : (lp.pageFault c la acc p r).gpr = lp.gpr := rfl
@[simp] theorem LP.pageFault_rip (c : Choice) (la : Word) (acc : Acc) (p r : Bool) (lp : LP) : (lp.pageFault c la acc p r).rip = lp.rip := rfl
@[simp] theorem LP.pageFault_exc (c : Choice) (la : Word) (acc : Acc) (p r : Bool) (lp : LP) : (lp.pageFault c la acc p r).exc = some (.pageFault la (errorCode lp.nxe acc p r)) := rfl
@[simp] theorem LP.pageFault_result (c : Choice) (la : Word) (acc : Acc) (p r : Bool) (lp : LP) : (lp.pageFault c la acc p r).result = lp.result := rfl

@[simp] theorem LP.modeChanged_physical (cfg : Config) (c : Choice) (b : Bool) (lp : LP) : (lp.modeChanged cfg c b).physical = lp.physical := by
  unfold LP.modeChanged; split <;> rfl
@[simp] theorem LP.modeChanged_cr0 (cfg : Config) (c : Choice) (b : Bool) (lp : LP) : (lp.modeChanged cfg c b).cr0 = lp.cr0 := by
  unfold LP.modeChanged; split <;> rfl
@[simp] theorem LP.modeChanged_cr2 (cfg : Config) (c : Choice) (b : Bool) (lp : LP) : (lp.modeChanged cfg c b).cr2 = lp.cr2 := by
  unfold LP.modeChanged; split <;> rfl
@[simp] theorem LP.modeChanged_cr3 (cfg : Config) (c : Choice) (b : Bool) (lp : LP) : (lp.modeChanged cfg c b).cr3 = lp.cr3 := by
  unfold LP.modeChanged; split <;> rfl
@[simp] theorem LP.modeChanged_cr4 (cfg : Config) (c : Choice) (b : Bool) (lp : LP) : (lp.modeChanged cfg c b).cr4 = lp.cr4 := by
  unfold LP.modeChanged; split <;> rfl
@[simp] theorem LP.modeChanged_efer (cfg : Config) (c : Choice) (b : Bool) (lp : LP) : (lp.modeChanged cfg c b).efer = lp.efer := by
  unfold LP.modeChanged; split <;> rfl
@[simp] theorem LP.modeChanged_cpl (cfg : Config) (c : Choice) (b : Bool) (lp : LP) : (lp.modeChanged cfg c b).cpl = lp.cpl := by
  unfold LP.modeChanged; split <;> rfl
@[simp] theorem LP.modeChanged_pdptr (cfg : Config) (c : Choice) (b : Bool) (lp : LP) : (lp.modeChanged cfg c b).pdptr = lp.pdptr := by
  unfold LP.modeChanged; split <;> rfl
@[simp] theorem LP.modeChanged_walks (cfg : Config) (c : Choice) (b : Bool) (lp : LP) : (lp.modeChanged cfg c b).walks = lp.walks := by
  unfold LP.modeChanged; split <;> rfl
@[simp] theorem LP.modeChanged_access (cfg : Config) (c : Choice) (b : Bool) (lp : LP) : (lp.modeChanged cfg c b).access = lp.access := by
  unfold LP.modeChanged; split <;> rfl
@[simp] theorem LP.modeChanged_loading (cfg : Config) (c : Choice) (b : Bool) (lp : LP) : (lp.modeChanged cfg c b).loading = lp.loading := by
  unfold LP.modeChanged; split <;> rfl
@[simp] theorem LP.modeChanged_halted (cfg : Config) (c : Choice) (b : Bool) (lp : LP) : (lp.modeChanged cfg c b).halted = lp.halted := by
  unfold LP.modeChanged; split <;> rfl
@[simp] theorem LP.modeChanged_gpr (cfg : Config) (c : Choice) (b : Bool) (lp : LP) : (lp.modeChanged cfg c b).gpr = lp.gpr := by
  unfold LP.modeChanged; split <;> rfl
@[simp] theorem LP.modeChanged_rip (cfg : Config) (c : Choice) (b : Bool) (lp : LP) : (lp.modeChanged cfg c b).rip = lp.rip := by
  unfold LP.modeChanged; split <;> rfl
@[simp] theorem LP.modeChanged_exc (cfg : Config) (c : Choice) (b : Bool) (lp : LP) : (lp.modeChanged cfg c b).exc = lp.exc := by
  unfold LP.modeChanged; split <;> rfl
@[simp] theorem LP.modeChanged_result (cfg : Config) (c : Choice) (b : Bool) (lp : LP) : (lp.modeChanged cfg c b).result = lp.result := by
  unfold LP.modeChanged; split <;> rfl

@[simp] theorem LP.cachePsc_physical (cfg : Config) (l : Level) (e : PscEntry) (lp : LP) : (lp.cachePsc cfg l e).physical = lp.physical := by
  unfold LP.cachePsc; split <;> (try split) <;> rfl
@[simp] theorem LP.cachePsc_cr0 (cfg : Config) (l : Level) (e : PscEntry) (lp : LP) : (lp.cachePsc cfg l e).cr0 = lp.cr0 := by
  unfold LP.cachePsc; split <;> (try split) <;> rfl
@[simp] theorem LP.cachePsc_cr2 (cfg : Config) (l : Level) (e : PscEntry) (lp : LP) : (lp.cachePsc cfg l e).cr2 = lp.cr2 := by
  unfold LP.cachePsc; split <;> (try split) <;> rfl
@[simp] theorem LP.cachePsc_cr3 (cfg : Config) (l : Level) (e : PscEntry) (lp : LP) : (lp.cachePsc cfg l e).cr3 = lp.cr3 := by
  unfold LP.cachePsc; split <;> (try split) <;> rfl
@[simp] theorem LP.cachePsc_cr4 (cfg : Config) (l : Level) (e : PscEntry) (lp : LP) : (lp.cachePsc cfg l e).cr4 = lp.cr4 := by
  unfold LP.cachePsc; split <;> (try split) <;> rfl
@[simp] theorem LP.cachePsc_efer (cfg : Config) (l : Level) (e : PscEntry) (lp : LP) : (lp.cachePsc cfg l e).efer = lp.efer := by
  unfold LP.cachePsc; split <;> (try split) <;> rfl
@[simp] theorem LP.cachePsc_cpl (cfg : Config) (l : Level) (e : PscEntry) (lp : LP) : (lp.cachePsc cfg l e).cpl = lp.cpl := by
  unfold LP.cachePsc; split <;> (try split) <;> rfl
@[simp] theorem LP.cachePsc_pdptr (cfg : Config) (l : Level) (e : PscEntry) (lp : LP) : (lp.cachePsc cfg l e).pdptr = lp.pdptr := by
  unfold LP.cachePsc; split <;> (try split) <;> rfl
@[simp] theorem LP.cachePsc_tlb (cfg : Config) (l : Level) (e : PscEntry) (lp : LP) : (lp.cachePsc cfg l e).tlb = lp.tlb := by
  unfold LP.cachePsc; split <;> (try split) <;> rfl
@[simp] theorem LP.cachePsc_walks (cfg : Config) (l : Level) (e : PscEntry) (lp : LP) : (lp.cachePsc cfg l e).walks = lp.walks := by
  unfold LP.cachePsc; split <;> (try split) <;> rfl
@[simp] theorem LP.cachePsc_access (cfg : Config) (l : Level) (e : PscEntry) (lp : LP) : (lp.cachePsc cfg l e).access = lp.access := by
  unfold LP.cachePsc; split <;> (try split) <;> rfl
@[simp] theorem LP.cachePsc_loading (cfg : Config) (l : Level) (e : PscEntry) (lp : LP) : (lp.cachePsc cfg l e).loading = lp.loading := by
  unfold LP.cachePsc; split <;> (try split) <;> rfl
@[simp] theorem LP.cachePsc_halted (cfg : Config) (l : Level) (e : PscEntry) (lp : LP) : (lp.cachePsc cfg l e).halted = lp.halted := by
  unfold LP.cachePsc; split <;> (try split) <;> rfl
@[simp] theorem LP.cachePsc_gpr (cfg : Config) (l : Level) (e : PscEntry) (lp : LP) : (lp.cachePsc cfg l e).gpr = lp.gpr := by
  unfold LP.cachePsc; split <;> (try split) <;> rfl
@[simp] theorem LP.cachePsc_rip (cfg : Config) (l : Level) (e : PscEntry) (lp : LP) : (lp.cachePsc cfg l e).rip = lp.rip := by
  unfold LP.cachePsc; split <;> (try split) <;> rfl
@[simp] theorem LP.cachePsc_exc (cfg : Config) (l : Level) (e : PscEntry) (lp : LP) : (lp.cachePsc cfg l e).exc = lp.exc := by
  unfold LP.cachePsc; split <;> (try split) <;> rfl
@[simp] theorem LP.cachePsc_result (cfg : Config) (l : Level) (e : PscEntry) (lp : LP) : (lp.cachePsc cfg l e).result = lp.result := by
  unfold LP.cachePsc; split <;> (try split) <;> rfl

@[simp] theorem LP.cacheTlb_physical (cfg : Config) (e : TlbEntry) (lp : LP) : (lp.cacheTlb cfg e).physical = lp.physical := by
  unfold LP.cacheTlb; split <;> rfl
@[simp] theorem LP.cacheTlb_cr0 (cfg : Config) (e : TlbEntry) (lp : LP) : (lp.cacheTlb cfg e).cr0 = lp.cr0 := by
  unfold LP.cacheTlb; split <;> rfl
@[simp] theorem LP.cacheTlb_cr2 (cfg : Config) (e : TlbEntry) (lp : LP) : (lp.cacheTlb cfg e).cr2 = lp.cr2 := by
  unfold LP.cacheTlb; split <;> rfl
@[simp] theorem LP.cacheTlb_cr3 (cfg : Config) (e : TlbEntry) (lp : LP) : (lp.cacheTlb cfg e).cr3 = lp.cr3 := by
  unfold LP.cacheTlb; split <;> rfl
@[simp] theorem LP.cacheTlb_cr4 (cfg : Config) (e : TlbEntry) (lp : LP) : (lp.cacheTlb cfg e).cr4 = lp.cr4 := by
  unfold LP.cacheTlb; split <;> rfl
@[simp] theorem LP.cacheTlb_efer (cfg : Config) (e : TlbEntry) (lp : LP) : (lp.cacheTlb cfg e).efer = lp.efer := by
  unfold LP.cacheTlb; split <;> rfl
@[simp] theorem LP.cacheTlb_cpl (cfg : Config) (e : TlbEntry) (lp : LP) : (lp.cacheTlb cfg e).cpl = lp.cpl := by
  unfold LP.cacheTlb; split <;> rfl
@[simp] theorem LP.cacheTlb_pdptr (cfg : Config) (e : TlbEntry) (lp : LP) : (lp.cacheTlb cfg e).pdptr = lp.pdptr := by
  unfold LP.cacheTlb; split <;> rfl
@[simp] theorem LP.cacheTlb_pml4c (cfg : Config) (e : TlbEntry) (lp : LP) : (lp.cacheTlb cfg e).pml4c = lp.pml4c := by
  unfold LP.cacheTlb; split <;> rfl
@[simp] theorem LP.cacheTlb_pdpc (cfg : Config) (e : TlbEntry) (lp : LP) : (lp.cacheTlb cfg e).pdpc = lp.pdpc := by
  unfold LP.cacheTlb; split <;> rfl
@[simp] theorem LP.cacheTlb_pdec (cfg : Config) (e : TlbEntry) (lp : LP) : (lp.cacheTlb cfg e).pdec = lp.pdec := by
  unfold LP.cacheTlb; split <;> rfl
@[simp] theorem LP.cacheTlb_walks (cfg : Config) (e : TlbEntry) (lp : LP) : (lp.cacheTlb cfg e).walks = lp.walks := by
  unfold LP.cacheTlb; split <;> rfl
@[simp] theorem LP.cacheTlb_access (cfg : Config) (e : TlbEntry) (lp : LP) : (lp.cacheTlb cfg e).access = lp.access := by
  unfold LP.cacheTlb; split <;> rfl
@[simp] theorem LP.cacheTlb_loading (cfg : Config) (e : TlbEntry) (lp : LP) : (lp.cacheTlb cfg e).loading = lp.loading := by
  unfold LP.cacheTlb; split <;> rfl
@[simp] theorem LP.cacheTlb_halted (cfg : Config) (e : TlbEntry) (lp : LP) : (lp.cacheTlb cfg e).halted = lp.halted := by
  unfold LP.cacheTlb; split <;> rfl
@[simp] theorem LP.cacheTlb_gpr (cfg : Config) (e : TlbEntry) (lp : LP) : (lp.cacheTlb cfg e).gpr = lp.gpr := by
  unfold LP.cacheTlb; split <;> rfl
@[simp] theorem LP.cacheTlb_rip (cfg : Config) (e : TlbEntry) (lp : LP) : (lp.cacheTlb cfg e).rip = lp.rip := by
  unfold LP.cacheTlb; split <;> rfl
@[simp] theorem LP.cacheTlb_exc (cfg : Config) (e : TlbEntry) (lp : LP) : (lp.cacheTlb cfg e).exc = lp.exc := by
  unfold LP.cacheTlb; split <;> rfl
@[simp] theorem LP.cacheTlb_result (cfg : Config) (e : TlbEntry) (lp : LP) : (lp.cacheTlb cfg e).result = lp.result := by
  unfold LP.cacheTlb; split <;> rfl

/-! ## Updates of the state -/

@[simp] theorem State.tick_cfg (s : State) : (s.tick).cfg = s.cfg := by
  unfold State.tick; split <;> rfl
@[simp] theorem State.tick_mem (s : State) : (s.tick).mem = s.mem := by
  unfold State.tick; split <;> rfl
@[simp] theorem State.tick_lp (s : State) : (s.tick).lp = s.lp := by
  unfold State.tick; split <;> rfl
@[simp] theorem State.tick_others (s : State) : (s.tick).others = s.others := by
  unfold State.tick; split <;> rfl
@[simp] theorem State.tick_inputs (s : State) : (s.tick).inputs = s.inputs := by
  unfold State.tick; split <;> rfl
@[simp] theorem State.tick_sideEffects (s : State) : (s.tick).sideEffects = s.sideEffects := by
  unfold State.tick; split <;> rfl

@[simp] theorem State.setAccess_cfg (a : Access) (s : State) : (s.setAccess a).cfg = s.cfg := rfl
@[simp] theorem State.setAccess_mem (a : Access) (s : State) : (s.setAccess a).mem = s.mem := rfl
@[simp] theorem State.setAccess_lp (a : Access) (s : State) : (s.setAccess a).lp = { s.lp with access := some a } := rfl
@[simp] theorem State.setAccess_others (a : Access) (s : State) : (s.setAccess a).others = s.others := rfl
@[simp] theorem State.setAccess_inputs (a : Access) (s : State) : (s.setAccess a).inputs = s.inputs := rfl
@[simp] theorem State.setAccess_choices (a : Access) (s : State) : (s.setAccess a).choices = s.choices := rfl
@[simp] theorem State.setAccess_drawn (a : Access) (s : State) : (s.setAccess a).drawn = s.drawn := rfl
@[simp] theorem State.setAccess_sideEffects (a : Access) (s : State) : (s.setAccess a).sideEffects = s.sideEffects := rfl

@[simp] theorem State.noteReads_cfg (l : List Nat) (s : State) : (s.noteReads l).cfg = s.cfg := rfl
@[simp] theorem State.noteReads_mem (l : List Nat) (s : State) : (s.noteReads l).mem = s.mem := rfl
@[simp] theorem State.noteReads_lp (l : List Nat) (s : State) : (s.noteReads l).lp = s.lp := rfl
@[simp] theorem State.noteReads_others (l : List Nat) (s : State) : (s.noteReads l).others = s.others := rfl
@[simp] theorem State.noteReads_inputs (l : List Nat) (s : State) : (s.noteReads l).inputs = s.inputs := rfl
@[simp] theorem State.noteReads_choices (l : List Nat) (s : State) : (s.noteReads l).choices = s.choices := rfl
@[simp] theorem State.noteReads_drawn (l : List Nat) (s : State) : (s.noteReads l).drawn = s.drawn := rfl

@[simp] theorem State.generalProtection_cfg (s : State) : (s.generalProtection).cfg = s.cfg := rfl
@[simp] theorem State.generalProtection_mem (s : State) : (s.generalProtection).mem = s.mem := rfl
@[simp] theorem State.generalProtection_lp (s : State) : (s.generalProtection).lp = s.lp.takeException (.generalProtection 0) := rfl
@[simp] theorem State.generalProtection_others (s : State) : (s.generalProtection).others = s.others := rfl
@[simp] theorem State.generalProtection_inputs (s : State) : (s.generalProtection).inputs = s.inputs := rfl
@[simp] theorem State.generalProtection_choices (s : State) : (s.generalProtection).choices = s.choices := rfl
@[simp] theorem State.generalProtection_drawn (s : State) : (s.generalProtection).drawn = s.drawn := rfl
@[simp] theorem State.generalProtection_sideEffects (s : State) : (s.generalProtection).sideEffects = s.sideEffects := rfl

@[simp] theorem State.complete_cfg (n : Nat) (lp : LP) (s : State) : (s.complete n lp).cfg = s.cfg := rfl
@[simp] theorem State.complete_mem (n : Nat) (lp : LP) (s : State) : (s.complete n lp).mem = s.mem := rfl
@[simp] theorem State.complete_lp (n : Nat) (lp : LP) (s : State) : (s.complete n lp).lp = lp.advance n := rfl
@[simp] theorem State.complete_others (n : Nat) (lp : LP) (s : State) : (s.complete n lp).others = s.others := rfl
@[simp] theorem State.complete_inputs (n : Nat) (lp : LP) (s : State) : (s.complete n lp).inputs = s.inputs := rfl
@[simp] theorem State.complete_choices (n : Nat) (lp : LP) (s : State) : (s.complete n lp).choices = s.choices := rfl
@[simp] theorem State.complete_drawn (n : Nat) (lp : LP) (s : State) : (s.complete n lp).drawn = s.drawn := rfl
@[simp] theorem State.complete_sideEffects (n : Nat) (lp : LP) (s : State) : (s.complete n lp).sideEffects = s.sideEffects := rfl

@[simp] theorem State.finishAccess_cfg (a : Access) (s : State) : (s.finishAccess a).cfg = s.cfg := rfl
@[simp] theorem State.finishAccess_mem (a : Access) (s : State) : (s.finishAccess a).mem = s.mem := rfl
@[simp] theorem State.finishAccess_lp (a : Access) (s : State) : (s.finishAccess a).lp = { s.lp with access := none, result := if a.kind = .write then s.lp.result else a.bytes } := rfl
@[simp] theorem State.finishAccess_others (a : Access) (s : State) : (s.finishAccess a).others = s.others := rfl
@[simp] theorem State.finishAccess_inputs (a : Access) (s : State) : (s.finishAccess a).inputs = s.inputs := rfl
@[simp] theorem State.finishAccess_choices (a : Access) (s : State) : (s.finishAccess a).choices = s.choices := rfl
@[simp] theorem State.finishAccess_drawn (a : Access) (s : State) : (s.finishAccess a).drawn = s.drawn := rfl
@[simp] theorem State.finishAccess_sideEffects (a : Access) (s : State) : (s.finishAccess a).sideEffects = s.sideEffects := rfl

@[simp] theorem State.issue_cfg (k : AccessKind) (la : Word) (b : List Byte) (s : State) : (s.issue k la b).cfg = s.cfg := rfl
@[simp] theorem State.issue_mem (k : AccessKind) (la : Word) (b : List Byte) (s : State) : (s.issue k la b).mem = s.mem := rfl
@[simp] theorem State.issue_others (k : AccessKind) (la : Word) (b : List Byte) (s : State) : (s.issue k la b).others = s.others := rfl
@[simp] theorem State.issue_inputs (k : AccessKind) (la : Word) (b : List Byte) (s : State) : (s.issue k la b).inputs = s.inputs := rfl
@[simp] theorem State.issue_choices (k : AccessKind) (la : Word) (b : List Byte) (s : State) : (s.issue k la b).choices = s.choices := rfl
@[simp] theorem State.issue_drawn (k : AccessKind) (la : Word) (b : List Byte) (s : State) : (s.issue k la b).drawn = s.drawn := rfl
@[simp] theorem State.issue_sideEffects (k : AccessKind) (la : Word) (b : List Byte) (s : State) : (s.issue k la b).sideEffects = s.sideEffects := rfl

@[simp] theorem State.accessFault_cfg (c : Choice) (a : Access) (la : Word) (acc : Acc) (p r : Bool) (s : State) : (s.accessFault c a la acc p r).cfg = s.cfg := rfl
@[simp] theorem State.accessFault_mem (c : Choice) (a : Access) (la : Word) (acc : Acc) (p r : Bool) (s : State) : (s.accessFault c a la acc p r).mem = if a.kind = .write then s.mem.scramble c.torn a.done else s.mem := rfl
@[simp] theorem State.accessFault_lp (c : Choice) (a : Access) (la : Word) (acc : Acc) (p r : Bool) (s : State) : (s.accessFault c a la acc p r).lp = s.lp.pageFault c la acc p r := rfl
@[simp] theorem State.accessFault_others (c : Choice) (a : Access) (la : Word) (acc : Acc) (p r : Bool) (s : State) : (s.accessFault c a la acc p r).others = s.others := rfl
@[simp] theorem State.accessFault_inputs (c : Choice) (a : Access) (la : Word) (acc : Acc) (p r : Bool) (s : State) : (s.accessFault c a la acc p r).inputs = s.inputs := rfl
@[simp] theorem State.accessFault_choices (c : Choice) (a : Access) (la : Word) (acc : Acc) (p r : Bool) (s : State) : (s.accessFault c a la acc p r).choices = s.choices := rfl
@[simp] theorem State.accessFault_drawn (c : Choice) (a : Access) (la : Word) (acc : Acc) (p r : Bool) (s : State) : (s.accessFault c a la acc p r).drawn = s.drawn := rfl
@[simp] theorem State.accessFault_sideEffects (c : Choice) (a : Access) (la : Word) (acc : Acc) (p r : Bool) (s : State) : (s.accessFault c a la acc p r).sideEffects = s.sideEffects := rfl

end Sys2Proof.Machine
end

