-- ==== Sys2Proof/Laws/Access.lean ====
section
/-! SUPPORT. The laws of a software access: what lies in the page of a translated piece, and how an access goes on. -/

namespace Sys2Proof.Machine

theorem samePage_iff {b : Nat} {la la' : Word} : samePage b la la' = true ↔ la.toNat / 2 ^ b = la'.toNat / 2 ^ b := by
  simp [samePage]

/-- The pieces still to be translated are those of other pages (R65). -/
theorem Access.mem_found_todo {a : Access} {p q : Piece} {pa b : Nat} :
    q ∈ (a.found p pa b).todo
      ↔ q ∈ a.todo ∧ ¬ p.la.toNat / 2 ^ a.pageBits b p.la = q.la.toNat / 2 ^ a.pageBits b p.la := by
  simp [Access.found, samePage]

/-- The pieces translated with `p` are those of its page, each at its offset there (R65). -/
theorem Access.mem_found_covered {a : Access} {p q : Piece} {pa b x : Nat} :
    (q, x) ∈ (a.found p pa b).covered
      ↔ q ∈ a.todo ∧ p.la.toNat / 2 ^ a.pageBits b p.la = q.la.toNat / 2 ^ a.pageBits b p.la
        ∧ x = pa / 2 ^ a.pageBits b p.la * 2 ^ a.pageBits b p.la + q.la.toNat % 2 ^ a.pageBits b p.la := by
  simp only [Access.found, List.mem_map, List.mem_filter, samePage_iff, Prod.mk.injEq]
  constructor
  · rintro ⟨r, ⟨h1, h2⟩, rfl, rfl⟩
    exact ⟨h1, h2, rfl⟩
  · rintro ⟨h1, h2, rfl⟩
    exact ⟨q, ⟨h1, h2⟩, rfl, rfl⟩

theorem Access.extend_data {a : Access} (h : a.instruction = false) (b : Nat) (p : Piece) : a.extend b p = p := by
  simp [Access.extend, h]

@[simp] theorem Access.found_phase (a : Access) (p : Piece) (pa b : Nat) :
    (a.found p pa b).phase = .translated (a.extend (a.pageBits b p.la) p) pa := rfl

@[simp] theorem Access.found_parts (a : Access) (p : Piece) (pa b : Nat) : (a.found p pa b).parts = p.la :: a.parts := rfl

/-- The page of an access is the page its translation shows, or a 4-KByte page where another part of it has been translated by
itself (R147, R330). -/
theorem Access.pageBits_eq (a : Access) (b : Nat) (la : Word) :
    a.pageBits b la = if ∃ y ∈ a.parts, y.toNat / 2 ^ b = la.toNat / 2 ^ b then 12 else b := by
  simp only [Access.pageBits, List.any_eq_true, samePage_iff, eq_comm (a := la.toNat / 2 ^ b)]

/-- The page of an access is the page its translation shows, or a 4-KByte page. -/
theorem Access.pageBits_cases (a : Access) (b : Nat) (la : Word) : a.pageBits b la = b ∨ a.pageBits b la = 12 := by
  unfold Access.pageBits
  split <;> simp

@[simp] theorem Access.pageBits_page (a : Access) (la : Word) : a.pageBits 12 la = 12 := by simp [Access.pageBits]

/-- The access goes on with one of its pieces. -/
theorem State.mem_of_ready {a : Access} {p : Piece} (s : State) (h : p ∈ a.todo) (n : Nat) : pick p (s.ready a) n ∈ a.todo := by
  cases hr : s.ready a with
  | nil => simpa [pick] using h
  | cons q qs =>
    have := pick_mem p (s.ready a) n (by simp [hr])
    rw [hr] at this
    exact (List.mem_filter.mp (hr ▸ this : pick p (q :: qs) n ∈ s.ready a)).1

/-- The three things an access can do when one of its pieces is done (R330). -/
theorem nextPiece_cases (a : Access) (s : State) :
    (∃ q x rest, a.covered = (q, x) :: rest
        ∧ s.nextPiece a = s.setAccess { a with covered := rest, phase := .translated q x })
      ∨ (a.covered = [] ∧ a.todo = [] ∧ s.nextPiece a = s.finishAccess a)
      ∨ (a.covered = [] ∧ a.todo ≠ [] ∧ s.nextPiece a = s.setAccess { a with phase := .choosing }) := by
  unfold State.nextPiece
  split
  · exact .inl ⟨_, _, _, ‹_›, rfl⟩
  · rename_i h
    by_cases ht : a.todo = []
    · exact .inr (.inl ⟨h, ht, by simp [ht]⟩)
    · exact .inr (.inr ⟨h, ht, by simp [ht]⟩)

end Sys2Proof.Machine
end

