-- ==== Sys2Proof/Laws/Exec.lean ====
section
/-! SUPPORT. The laws of the instructions: each lemma says everything an instruction can do when it answers a next state. -/

namespace Sys2Proof.Machine

/-! ## Removal by a change of mode -/

theorem LP.modeChanged_eq (cfg : Config) (c : Choice) (b : Bool) (lp : LP) :
    lp.modeChanged cfg c b
      = { lp with
          tlb := (lp.modeChanged cfg c b).tlb, pml4c := (lp.modeChanged cfg c b).pml4c
          pdpc := (lp.modeChanged cfg c b).pdpc, pdec := (lp.modeChanged cfg c b).pdec } := by
  unfold LP.modeChanged; split <;> rfl

/-- A change of mode only removes entries (R313). -/
theorem LP.modeChanged_sublist (cfg : Config) (c : Choice) (b : Bool) (lp : LP) :
    (lp.modeChanged cfg c b).tlb.Sublist lp.tlb ∧ (lp.modeChanged cfg c b).pml4c.Sublist lp.pml4c
      ∧ (lp.modeChanged cfg c b).pdpc.Sublist lp.pdpc ∧ (lp.modeChanged cfg c b).pdec.Sublist lp.pdec := by
  unfold LP.modeChanged
  split
  · simp
  · simp [thin_sublist]

/-- With `Flush`, a change of mode empties the caches (R313). -/
theorem LP.modeChanged_flush {cfg : Config} (h : cfg.modeChange = .flush) (c : Choice) (lp : LP) :
    lp.modeChanged cfg c true = lp.flush := by simp [LP.modeChanged, h]

/-! ## The instructions -/

theorem eferWritten_bit (efer v : Word) (i : Nat) :
    bit (eferWritten efer v) i = if i = 0 ∨ i = 8 ∨ i = 11 then bit v i else bit efer i := by
  unfold eferWritten
  by_cases h11 : i = 11
  · simp [h11]
  · rw [bit_putBit_other _ _ _ _ h11]
    by_cases h8 : i = 8
    · simp [h8]
    · rw [bit_putBit_other _ _ _ _ h8]
      by_cases h0 : i = 0
      · simp [h0]
      · rw [bit_putBit_other _ _ _ _ h0]
        simp [h0, h8, h11]

/-- No reserved bit of IA32_EFER is set (R25, R331). -/
theorem eferReserved_eq_false {v : Word} :
    eferReserved v = false ↔ ∀ i, (12 ≤ i ∧ i ≤ 63) ∨ i = 9 ∨ (1 ≤ i ∧ i ≤ 7) → bit v i = false := by
  simp only [eferReserved, Bool.or_eq_false_iff, anyBit_eq_false]
  constructor
  · rintro ⟨⟨h1, h2⟩, h3⟩ i (h | rfl | h)
    exacts [h1 i h.1 h.2, h2, h3 i h.1 h.2]
  · exact fun h => ⟨⟨fun i a b => h i (.inl ⟨a, b⟩), h 9 (.inr (.inl rfl))⟩, fun i a b => h i (.inr (.inr ⟨a, b⟩))⟩

/-- The value WRMSR writes is EDX ++ EAX (R109). -/
theorem LP.edxEax_toNat (lp : LP) :
    lp.edxEax.toNat = lp.gpr.rdx.toNat % 2 ^ 32 * 2 ^ 32 + lp.gpr.rax.toNat % 2 ^ 32 := by
  simp only [LP.edxEax, LP.reg32, Gprs.get, BitVec.toNat_append, BitVec.toNat_setWidth]
  rw [← Nat.shiftLeft_add_eq_or_of_lt (Nat.mod_lt _ (by norm_num)), Nat.shiftLeft_eq]

/-- What an instruction that needs CPL = 0 can do at its privilege check (R337). -/
theorem privileged_next {s t : State} {k : Host.Outcome State Fault Refusal} (h : s.privileged k = .next t) :
    t = s.generalProtection ∨ (s.lp.cpl = 0 ∧ k = .next t) := by
  unfold State.privileged at h
  split at h
  · exact .inr ⟨‹_›, h⟩
  · cases h; exact .inl rfl

/-- What a MOV to a control register at CPL 0 can do: GP(0), the begin of a PDPTR load, or its own effect. -/
theorem controlWrite_cases (faults loads : Bool) (w : ControlWrite) (s : State) :
    (faults = true ∧ s.controlWrite faults loads w = s.generalProtection)
      ∨ (faults = false ∧ loads = true ∧ s.controlWrite faults loads w
          = { s with lp := { s.lp with loading := some ⟨w, [0, 1, 2, 3], ⟨0, 0, 0, 0⟩⟩ } })
      ∨ (faults = false ∧ loads = false ∧ s.controlWrite faults loads w = s.finishMov w s.lp.pdptr) := by
  unfold State.controlWrite
  cases faults <;> cases loads <;> simp

/-- What a MOV to a control register raises GP(0) for, before any load (R224, R305). -/
def ControlWrite.faults (lp : LP) : ControlWrite → Bool
  | .cr0 v => cr0Faults v lp
  | .cr3 _ => false
  | .cr4 v => cr4Faults v lp

/-- Whether a MOV to a control register loads the PDPTR registers (R298). -/
def ControlWrite.loads (cfg : Config) (lp : LP) : ControlWrite → Bool
  | .cr0 v => cr0Loads cfg v lp
  | .cr3 _ => cr3Loads cfg lp
  | .cr4 v => cr4Loads v lp

/-- What an instruction of the table writes to a control register. -/
def ControlWrite.of (lp : LP) : Instr → Option ControlWrite
  | .movCr0 r => some (.cr0 (lp.operand r))
  | .movCr3 r => some (.cr3 (lp.operand r))
  | .movCr4 r => some (.cr4 (lp.operand r))
  | .invlpg _ => none
  | .wrmsr => none
  | .cpuid => none
  | .hlt => none

/-- Everything an instruction can do: GP(0); a MOV to a control register that begins to load the PDPTR registers; or its own
effect and `rip` past it. -/
theorem exec_next {i : Instr} {s t : State} (h : exec i s = .next t) :
    t = s.generalProtection
      ∨ (∃ m, i = .invlpg m ∧ s.lp.refuses (s.lp.effectiveAddress (Instr.invlpg m).length m) = false ∧ s.lp.cpl = 0
          ∧ t = s.tick.complete i.length
              (invlpg s.cfg s.choice (s.lp.effectiveAddress (Instr.invlpg m).length m) s.lp))
      ∨ (∃ w, ControlWrite.of s.lp i = some w ∧ s.lp.cpl = 0 ∧ w.faults s.lp = false ∧ w.loads s.cfg s.lp = true
          ∧ t = { s with lp := { s.lp with loading := some ⟨w, [0, 1, 2, 3], ⟨0, 0, 0, 0⟩⟩ } })
      ∨ (∃ w, ControlWrite.of s.lp i = some w ∧ s.lp.cpl = 0 ∧ w.faults s.lp = false ∧ w.loads s.cfg s.lp = false
          ∧ t = s.finishMov w s.lp.pdptr)
      ∨ (i = .wrmsr ∧ s.lp.cpl = 0 ∧ s.lp.reg32 .rcx = eferAddress ∧ eferFaults s.cfg s.lp.edxEax s.lp = false
          ∧ t = s.tick.complete i.length (wrmsrEfer s.cfg s.choice s.lp.edxEax s.lp))
      ∨ (∃ g, i = .cpuid ∧ t = s.complete i.length { s.lp with gpr := g })
      ∨ (i = .hlt ∧ s.lp.cpl = 0 ∧ t = s.complete i.length { s.lp with halted := true }) := by
  have mov : ∀ {w}, ControlWrite.of s.lp i = some w →
      exec i s = s.privileged (.next (s.controlWrite (w.faults s.lp) (w.loads s.cfg s.lp) w)) →
      t = s.generalProtection
        ∨ (∃ w, ControlWrite.of s.lp i = some w ∧ s.lp.cpl = 0 ∧ w.faults s.lp = false ∧ w.loads s.cfg s.lp = true
            ∧ t = { s with lp := { s.lp with loading := some ⟨w, [0, 1, 2, 3], ⟨0, 0, 0, 0⟩⟩ } })
        ∨ ∃ w, ControlWrite.of s.lp i = some w ∧ s.lp.cpl = 0 ∧ w.faults s.lp = false ∧ w.loads s.cfg s.lp = false
            ∧ t = s.finishMov w s.lp.pdptr := fun {w} hw he => by
    rcases privileged_next (he ▸ h) with h | ⟨hc, h⟩
    · exact .inl h
    · injection h with h
      rcases controlWrite_cases (w.faults s.lp) (w.loads s.cfg s.lp) w s with ⟨-, e⟩ | ⟨h1, h2, e⟩ | ⟨h1, h2, e⟩
      · exact .inl (h ▸ e)
      · exact .inr (.inl ⟨w, hw, hc, h1, h2, h ▸ e⟩)
      · exact .inr (.inr ⟨w, hw, hc, h1, h2, h ▸ e⟩)
  cases i with
  | invlpg m =>
    rcases privileged_next (show s.privileged _ = .next t from h) with h | ⟨hc, h⟩
    · exact .inl h
    · split at h
      · cases h
      · rename_i hn
        cases h
        exact .inr (.inl ⟨m, rfl, by simpa using hn, hc, rfl⟩)
  | movCr0 r =>
    rcases mov (w := .cr0 (s.lp.operand r)) rfl rfl with h | h | h
    · exact .inl h
    · exact .inr (.inr (.inl h))
    · exact .inr (.inr (.inr (.inl h)))
  | movCr3 r =>
    rcases mov (w := .cr3 (s.lp.operand r)) rfl rfl with h | h | h
    · exact .inl h
    · exact .inr (.inr (.inl h))
    · exact .inr (.inr (.inr (.inl h)))
  | movCr4 r =>
    rcases mov (w := .cr4 (s.lp.operand r)) rfl rfl with h | h | h
    · exact .inl h
    · exact .inr (.inr (.inl h))
    · exact .inr (.inr (.inr (.inl h)))
  | wrmsr =>
    rcases privileged_next (show s.privileged _ = .next t from h) with h | ⟨hc, h⟩
    · exact .inl h
    · split at h
      · cases h; exact .inl rfl
      · rename_i hn
        cases h
        simp only [ne_eq, Bool.or_eq_true, decide_eq_true_eq, not_or, not_not, Bool.not_eq_true] at hn
        exact .inr (.inr (.inr (.inr (.inl ⟨rfl, hc, hn.1, hn.2, rfl⟩))))
  | cpuid =>
    cases h
    exact .inr (.inr (.inr (.inr (.inr (.inl ⟨_, rfl, rfl⟩)))))
  | hlt =>
    rcases privileged_next (show s.privileged _ = .next t from h) with h | ⟨hc, h⟩
    · exact .inl h
    · cases h
      exact .inr (.inr (.inr (.inr (.inr (.inr ⟨rfl, hc, rfl⟩)))))

/-- What a MOV to a control register past its faults leaves alone: every register but the control registers and the PDPTR
registers (R222, R224, R305). -/
theorem ControlWrite.apply_eq (cfg : Config) (c : Choice) (t : Pdptrs) (lp : LP) (w : ControlWrite) :
    w.apply cfg c t lp
      = { lp with
          cr0 := (w.apply cfg c t lp).cr0, cr3 := (w.apply cfg c t lp).cr3, cr4 := (w.apply cfg c t lp).cr4
          efer := (w.apply cfg c t lp).efer, pdptr := t, walks := []
          tlb := (w.apply cfg c t lp).tlb, pml4c := (w.apply cfg c t lp).pml4c
          pdpc := (w.apply cfg c t lp).pdpc, pdec := (w.apply cfg c t lp).pdec } := by
  cases w with
  | cr0 v =>
    simp only [ControlWrite.apply, movCr0, LP.modeChanged]
    split <;> rfl
  | cr3 v => rfl
  | cr4 v =>
    simp only [ControlWrite.apply, movCr4, LP.modeChanged]
    split
    · rfl
    · split <;> rfl

/-- A MOV to a control register only removes cached entries. -/
theorem ControlWrite.apply_removes (cfg : Config) (c : Choice) (t : Pdptrs) (lp : LP) (w : ControlWrite) :
    (w.apply cfg c t lp).tlb.Sublist lp.tlb ∧ (w.apply cfg c t lp).pml4c.Sublist lp.pml4c
      ∧ (w.apply cfg c t lp).pdpc.Sublist lp.pdpc ∧ (w.apply cfg c t lp).pdec.Sublist lp.pdec := by
  cases w with
  | cr0 v => exact LP.modeChanged_sublist cfg c _ _
  | cr3 v =>
    exact ⟨(thin_sublist _ _).trans List.filter_sublist, List.nil_sublist _, List.nil_sublist _, List.nil_sublist _⟩
  | cr4 v =>
    unfold ControlWrite.apply movCr4
    simp only
    split
    · exact ⟨List.nil_sublist _, List.nil_sublist _, List.nil_sublist _, List.nil_sublist _⟩
    · exact LP.modeChanged_sublist cfg c _ _

/-- The two things the end of a PDPTR load can do (R299). -/
theorem State.endLoad_cases (l : PdptrLoad) (s : State) :
    (pdptFaults s.cfg l.entries = true ∧ s.endLoad l
        = State.generalProtection (State.tick { s with lp := { s.lp with loading := none } }))
      ∨ (pdptFaults s.cfg l.entries = false ∧ s.endLoad l
        = State.finishMov l.write l.entries { s with lp := { s.lp with loading := none } }) := by
  unfold State.endLoad
  cases pdptFaults s.cfg l.entries <;> simp

/-- The two things a read of a PDPTR load can do (R299). -/
theorem State.loadPdpte_cases (l : PdptrLoad) (s : State) :
    ((s.readPdpte l).todo = [] ∧ s.loadPdpte l = s.endLoad (s.readPdpte l))
      ∨ ((s.readPdpte l).todo ≠ [] ∧ s.loadPdpte l = { s.tick with lp := { s.lp with loading := some (s.readPdpte l) } }) := by
  unfold State.loadPdpte
  split
  · exact .inl ⟨‹_›, rfl⟩
  · exact .inr ⟨‹_›, rfl⟩

/-- A read of a PDPTR load touches no memory, no other logical processor, no input and no parameter (R299). -/
theorem loadPdpte_outside (l : PdptrLoad) (s : State) :
    (s.loadPdpte l).cfg = s.cfg ∧ (s.loadPdpte l).mem = s.mem ∧ (s.loadPdpte l).others = s.others
      ∧ (s.loadPdpte l).inputs = s.inputs ∧ (s.loadPdpte l).sideEffects = s.sideEffects := by
  rcases State.loadPdpte_cases l s with ⟨-, h⟩ | ⟨-, h⟩
  · rcases State.endLoad_cases (s.readPdpte l) s with ⟨-, e⟩ | ⟨-, e⟩ <;> rw [h, e] <;> simp [State.finishMov]
  · rw [h]; simp

/-- No instruction of the table touches memory, another logical processor, the inputs or the configuration. -/
theorem exec_outside {i : Instr} {s t : State} (h : exec i s = .next t) :
    t.cfg = s.cfg ∧ t.mem = s.mem ∧ t.others = s.others ∧ t.inputs = s.inputs ∧ t.sideEffects = s.sideEffects := by
  rcases exec_next h with rfl | ⟨m, -, -, -, rfl⟩ | ⟨w, -, -, -, -, rfl⟩ | ⟨w, -, -, -, -, rfl⟩ | ⟨-, -, -, -, rfl⟩ |
    ⟨g, -, rfl⟩ | ⟨-, -, rfl⟩ <;> simp [State.finishMov]

end Sys2Proof.Machine
end

