-- ==== Sys2Proof/Laws/Memory.lean ====
section
/-! SUPPORT. The laws of physical memory: what a read gives after a write, what a write leaves alone, and that every memory
operation keeps the canonical form. -/

namespace Sys2Proof.Machine

/-! ## One byte -/

theorem Memory.read_filter (m : Memory) (a x : Nat) :
    Memory.read (m.filter fun c => c.1 != a) x = if x = a then 0 else m.read x := by
  induction m with
  | nil => simp [Memory.read]
  | cons c rest ih =>
    obtain ⟨k, b⟩ := c
    by_cases hk : k = a
    · subst hk
      by_cases hx : x = k
      · simpa [hx] using ih
      · simpa [hx, Memory.read, Ne.symm hx] using ih
    · by_cases hx : x = a
      · subst hx; simpa [Memory.read, hk] using ih
      · simp [hk, Memory.read, ih, hx]

theorem Memory.read_place_other (m : Memory) (a x : Nat) (b : Byte) (h : x ≠ a) :
    (m.place a b).read x = m.read x := by
  induction m with
  | nil => simp [Memory.place, Memory.read, Ne.symm h]
  | cons c rest ih =>
    obtain ⟨k, d⟩ := c
    unfold Memory.place
    split
    · simp [Memory.read, Ne.symm h]
    · simp [Memory.read, ih]

theorem Memory.read_place_same (m : Memory) (a : Nat) (b : Byte) (h : ∀ c ∈ m, c.1 ≠ a) :
    (m.place a b).read a = b := by
  induction m with
  | nil => simp [Memory.place, Memory.read]
  | cons c rest ih =>
    obtain ⟨k, d⟩ := c
    have hk : k ≠ a := h (k, d) (by simp)
    unfold Memory.place
    split
    · simp [Memory.read]
    · simp [Memory.read, hk, ih fun c hc => h c (by simp [hc])]

/-- A read after a write to the same address gives the byte written. -/
@[simp] theorem Memory.read_write_same (m : Memory) (a : Nat) (b : Byte) : (m.write a b).read a = b := by
  unfold Memory.write
  by_cases hb : b = 0
  · simp [hb, Memory.read_filter]
  · rw [if_neg hb]
    exact Memory.read_place_same _ _ _ fun c hc => by simpa using (List.mem_filter.mp hc).2

/-- A write leaves every other address alone. -/
theorem Memory.read_write_other (m : Memory) (a x : Nat) (b : Byte) (h : x ≠ a) :
    (m.write a b).read x = m.read x := by
  unfold Memory.write
  by_cases hb : b = 0
  · simp [hb, Memory.read_filter, h]
  · rw [if_neg hb, Memory.read_place_other _ _ _ _ h, Memory.read_filter, if_neg h]

/-! ## Several bytes -/

/-- `PhysWrite` leaves every byte outside its range alone. -/
theorem Memory.read_writeLe_other (m : Memory) (pa x : Nat) (n v : Nat) (h : x < pa ∨ pa + n ≤ x) :
    (m.writeLe pa n v).read x = m.read x := by
  induction n generalizing m pa v with
  | zero => rfl
  | succ n ih =>
    rw [Memory.writeLe, ih _ _ _ (by omega), Memory.read_write_other _ _ _ _ (by omega)]

theorem Memory.readLe_congr (m m' : Memory) (pa : Nat) (n : Nat)
    (h : ∀ x, pa ≤ x → x < pa + n → m'.read x = m.read x) : m'.readLe pa n = m.readLe pa n := by
  induction n generalizing pa with
  | zero => rfl
  | succ n ih =>
    rw [Memory.readLe, Memory.readLe, h pa (by omega) (by omega), ih (pa + 1) fun x h1 h2 => h x (by omega) (by omega)]

theorem Memory.readLe_lt (m : Memory) (pa : Nat) (n : Nat) : m.readLe pa n < 256 ^ n := by
  induction n generalizing pa with
  | zero => simp [Memory.readLe]
  | succ n ih =>
    have := ih (pa + 1)
    have := (m.read pa).isLt
    rw [Memory.readLe, Nat.pow_succ]
    omega

/-- `PhysRead` after `PhysWrite` at the same address gives the value written, as far as its bytes go. -/
theorem Memory.readLe_writeLe (m : Memory) (pa : Nat) (n v : Nat) :
    (m.writeLe pa n v).readLe pa n = v % 256 ^ n := by
  induction n generalizing m pa v with
  | zero => simp [Memory.readLe, Nat.mod_one]
  | succ n ih =>
    rw [Memory.readLe, Memory.writeLe, Memory.read_writeLe_other _ _ _ _ _ (by omega), Memory.read_write_same, ih,
      BitVec.toNat_ofNat, Nat.pow_succ (n := 256), Nat.mul_comm (256 ^ n) 256, Nat.mod_mul]

/-- `PhysSetBits` leaves every byte outside its range alone. -/
theorem Memory.read_setBits_other (m : Memory) (pa x : Nat) (n mask : Nat) (h : x < pa ∨ pa + n ≤ x) :
    (m.setBits pa n mask).read x = m.read x := Memory.read_writeLe_other _ _ _ _ _ h

/-- `PhysSetBits` sets the bits of the mask in the value it read. -/
theorem Memory.readLe_setBits (m : Memory) (pa : Nat) (n mask : Nat) (h : mask < 256 ^ n) :
    (m.setBits pa n mask).readLe pa n = m.readLe pa n ||| mask := by
  rw [Memory.setBits, Memory.readLe_writeLe, Nat.mod_eq_of_lt]
  have h1 := m.readLe_lt pa n
  rw [show 256 ^ n = 2 ^ (8 * n) by rw [Nat.pow_mul]] at *
  exact Nat.or_lt_two_pow h1 h

theorem Memory.readLe_setBits_same (m : Memory) (pa : Nat) (n mask : Nat) (h : m.readLe pa n ||| mask = m.readLe pa n)
    (x : Nat) : (m.setBits pa n mask).read x = m.read x := by
  rw [Memory.setBits, h]
  clear h
  induction n generalizing m pa with
  | zero => rfl
  | succ n ih =>
    have hb : BitVec.ofNat 8 (m.readLe pa (n + 1)) = m.read pa := by
      apply BitVec.eq_of_toNat_eq
      have := (m.read pa).isLt
      simp [Memory.readLe]; omega
    have hd : m.readLe pa (n + 1) / 256 = (m.write pa (m.read pa)).readLe (pa + 1) n := by
      rw [Memory.readLe_congr m (m.write pa (m.read pa)) (pa + 1) n
        fun y h1 _ => Memory.read_write_other _ _ _ _ (by omega), Memory.readLe]
      have := (m.read pa).isLt
      omega
    rw [Memory.writeLe, hb, hd, ih (m.write pa (m.read pa)) (pa + 1)]
    by_cases hx : x = pa
    · simp [hx]
    · exact Memory.read_write_other _ _ _ _ hx

/-- Writing bytes leaves every byte outside their range alone. -/
theorem Memory.read_writeBytes_other (m : Memory) (pa x : Nat) (bs : List Byte) (h : x < pa ∨ pa + bs.length ≤ x) :
    (m.writeBytes pa bs).read x = m.read x := by
  induction bs generalizing m pa with
  | nil => rfl
  | cons b bs ih =>
    rw [List.length_cons] at h
    rw [Memory.writeBytes, ih _ _ (by omega), Memory.read_write_other _ _ _ _ (by omega)]

/-- Each byte written is read back. -/
theorem Memory.read_writeBytes (m : Memory) (pa : Nat) (bs : List Byte) (i : Nat) (h : i < bs.length) :
    (m.writeBytes pa bs).read (pa + i) = bs[i] := by
  induction bs generalizing m pa i with
  | nil => simp at h
  | cons b bs ih =>
    cases i with
    | zero => simp [Memory.writeBytes, Memory.read_writeBytes_other]
    | succ i =>
      rw [Memory.writeBytes, show pa + (i + 1) = pa + 1 + i by omega, ih _ _ _ (by simpa using h)]
      simp

@[simp] theorem Memory.readBytes_length (m : Memory) (pa : Nat) (n : Nat) : (m.readBytes pa n).length = n := by
  induction n generalizing pa with
  | zero => rfl
  | succ n ih => simp [Memory.readBytes, ih]

theorem Memory.readBytes_getElem (m : Memory) (pa : Nat) (n i : Nat) (h : i < (m.readBytes pa n).length) :
    (m.readBytes pa n)[i] = m.read (pa + i) := by
  induction n generalizing pa i with
  | zero => simp [Memory.readBytes] at h
  | succ n ih =>
    cases i with
    | zero => simp [Memory.readBytes]
    | succ i =>
      simp only [Memory.readBytes, List.getElem_cons_succ]
      rw [ih (pa + 1) i (by simpa [Memory.readBytes] using h)]
      congr 1; omega

@[simp] theorem tornBytes_length (v n : Nat) : (tornBytes v n).length = n := by
  induction n generalizing v with
  | zero => rfl
  | succ n ih => simp [tornBytes, ih]

/-- What a partly faulting store leaves unspecified lies where it had already written. -/
theorem Memory.read_scramble_other (m : Memory) (v : Nat) (places : List (Nat × Nat)) (x : Nat)
    (h : ∀ p ∈ places, x < p.1 ∨ p.1 + p.2 ≤ x) : (m.scramble v places).read x = m.read x := by
  induction places generalizing m v with
  | nil => rfl
  | cons p rest ih =>
    obtain ⟨pa, n⟩ := p
    rw [Memory.scramble, ih _ _ fun q hq => h q (by simp [hq]),
      Memory.read_writeBytes_other _ _ _ _ (by simpa using h (pa, n) (by simp))]

/-! ## The canonical form -/

theorem Memory.wf_iff (m : Memory) : m.wf = true ↔ m.Pairwise (fun c d => c.1 < d.1) ∧ ∀ c ∈ m, c.2 ≠ 0 := by
  induction m with
  | nil => simp [Memory.wf]
  | cons c rest ih =>
    obtain ⟨k, b⟩ := c
    cases rest with
    | nil => simp [Memory.wf]
    | cons d rest =>
      obtain ⟨k', b'⟩ := d
      simp only [Memory.wf, Bool.and_eq_true, bne_iff_ne, ne_eq, decide_eq_true_eq, ih]
      constructor
      · rintro ⟨⟨hb, hk⟩, hp, hz⟩
        refine ⟨List.pairwise_cons.mpr ⟨fun e he => ?_, hp⟩, fun e he => ?_⟩
        · rcases List.mem_cons.mp he with rfl | he
          · exact hk
          · exact lt_trans hk ((List.pairwise_cons.mp hp).1 e he)
        · rcases List.mem_cons.mp he with rfl | he
          · exact hb
          · exact hz e he
      · rintro ⟨hp, hz⟩
        exact ⟨⟨hz (k, b) (by simp), (List.pairwise_cons.mp hp).1 (k', b') (by simp)⟩, (List.pairwise_cons.mp hp).2,
          fun e he => hz e (by simp [he])⟩

theorem Memory.mem_place (m : Memory) (a : Nat) (b : Byte) (c : Host.Cell) :
    c ∈ m.place a b ↔ c = (a, b) ∨ c ∈ m := by
  induction m with
  | nil => simp [Memory.place]
  | cons d rest ih =>
    obtain ⟨k, e⟩ := d
    unfold Memory.place
    split
    · simp
    · rw [List.mem_cons, ih]; simp; tauto

/-- Writing one byte keeps the canonical form. -/
theorem Memory.wf_write (m : Memory) (a : Nat) (b : Byte) (h : m.wf = true) : (m.write a b).wf = true := by
  rw [Memory.wf_iff] at *
  obtain ⟨hp, hz⟩ := h
  have hp' : (m.filter fun c => c.1 != a).Pairwise (fun c d => c.1 < d.1) := hp.filter _
  have hz' : ∀ c ∈ m.filter fun c => c.1 != a, c.2 ≠ 0 := fun c hc => hz c (List.mem_filter.mp hc).1
  have hne : ∀ c ∈ m.filter fun c => c.1 != a, c.1 ≠ a := fun c hc => by simpa using (List.mem_filter.mp hc).2
  unfold Memory.write
  by_cases hb : b = 0
  · simpa [hb] using And.intro hp' (by simpa using hz')
  · rw [if_neg hb]
    refine ⟨?_, fun c hc => ?_⟩
    · generalize (m.filter fun c => c.1 != a) = l at hp' hne
      clear hz' hp hz
      induction l with
      | nil => simp [Memory.place]
      | cons d rest ih =>
        obtain ⟨k, e⟩ := d
        have hk : k ≠ a := hne (k, e) (by simp)
        rw [List.pairwise_cons] at hp'
        unfold Memory.place
        split
        · rename_i hlt
          refine List.pairwise_cons.mpr ⟨fun c hc => ?_, List.pairwise_cons.mpr hp'⟩
          rcases List.mem_cons.mp hc with rfl | hc
          · exact hlt
          · exact lt_trans hlt (hp'.1 c hc)
        · refine List.pairwise_cons.mpr ⟨fun c hc => ?_, ih hp'.2 fun c hc => hne c (by simp [hc])⟩
          rcases (Memory.mem_place _ _ _ _).mp hc with rfl | hc
          · exact lt_of_le_of_ne (by omega) hk
          · exact hp'.1 c hc
    · rcases (Memory.mem_place _ _ _ _).mp hc with rfl | hc
      · exact hb
      · exact hz' c hc

theorem Memory.wf_writeLe (m : Memory) (pa : Nat) (n v : Nat) (h : m.wf = true) : (m.writeLe pa n v).wf = true := by
  induction n generalizing m pa v with
  | zero => exact h
  | succ n ih => exact ih _ _ _ (m.wf_write _ _ h)

theorem Memory.wf_setBits (m : Memory) (pa : Nat) (n mask : Nat) (h : m.wf = true) :
    (m.setBits pa n mask).wf = true := m.wf_writeLe _ _ _ h

theorem Memory.wf_writeBytes (m : Memory) (pa : Nat) (bs : List Byte) (h : m.wf = true) :
    (m.writeBytes pa bs).wf = true := by
  induction bs generalizing m pa with
  | nil => exact h
  | cons b bs ih => exact ih _ _ (m.wf_write _ _ h)

theorem Memory.wf_scramble (m : Memory) (v : Nat) (places : List (Nat × Nat)) (h : m.wf = true) :
    (m.scramble v places).wf = true := by
  induction places generalizing m v with
  | nil => exact h
  | cons p rest ih => exact ih _ _ (m.wf_writeBytes _ _ h)

theorem Memory.wf_writeAt (m : Memory) (as : List Nat) (bs : List Byte) (h : m.wf = true) :
    (m.writeAt as bs).wf = true := by
  induction as generalizing m bs with
  | nil => cases bs <;> exact h
  | cons a as ih =>
    cases bs with
    | nil => exact h
    | cons b bs => exact ih _ _ (m.wf_write _ _ h)

/-! ## The addresses listed -/

/-- The listed addresses lie below a bound that the written address respects. -/
theorem Memory.lt_write {m : Memory} {n : Nat} (a : Nat) (b : Byte) (h : ∀ c ∈ m, c.1 < n) (ha : a < n) :
    ∀ c ∈ m.write a b, c.1 < n := by
  intro c hc
  have h' : ∀ d ∈ m.filter fun d => d.1 != a, d.1 < n := fun d hd => h d (List.mem_filter.mp hd).1
  unfold Memory.write at hc
  split at hc
  · exact h' c hc
  · rcases (Memory.mem_place _ _ _ _).mp hc with rfl | hc
    · exact ha
    · exact h' c hc

theorem Memory.lt_writeLe {m : Memory} {n : Nat} (pa k v : Nat) (h : ∀ c ∈ m, c.1 < n) (hk : pa + k ≤ n) :
    ∀ c ∈ m.writeLe pa k v, c.1 < n := by
  induction k generalizing m pa v with
  | zero => exact h
  | succ k ih => exact ih _ _ (Memory.lt_write _ _ h (by omega)) (by omega)

theorem Memory.lt_setBits {m : Memory} {n : Nat} (pa k mask : Nat) (h : ∀ c ∈ m, c.1 < n) (hk : pa + k ≤ n) :
    ∀ c ∈ m.setBits pa k mask, c.1 < n := Memory.lt_writeLe _ _ _ h hk

theorem Memory.lt_writeBytes {m : Memory} {n : Nat} (pa : Nat) (bs : List Byte) (h : ∀ c ∈ m, c.1 < n)
    (hk : pa + bs.length ≤ n) : ∀ c ∈ m.writeBytes pa bs, c.1 < n := by
  induction bs generalizing m pa with
  | nil => exact h
  | cons b bs ih =>
    rw [List.length_cons] at hk
    exact ih _ (Memory.lt_write _ _ h (by omega)) (by omega)

theorem Memory.lt_scramble {m : Memory} {n : Nat} (v : Nat) (places : List (Nat × Nat)) (h : ∀ c ∈ m, c.1 < n)
    (hp : ∀ q ∈ places, q.1 + q.2 ≤ n) : ∀ c ∈ m.scramble v places, c.1 < n := by
  induction places generalizing m v with
  | nil => exact h
  | cons q rest ih =>
    exact ih _ (Memory.lt_writeBytes _ _ h (by simpa using hp q (by simp))) fun q' hq' => hp q' (by simp [hq'])

/-- The memory of the machine after reset is in canonical form. -/
theorem reset_memory_wf : State.reset.mem.wf = true := rfl

end Sys2Proof.Machine
end

