-- ==== Sys2Proof/Laws/Walk.lean ====
section
/-! SUPPORT. The laws of translation: what a translation can begin with, everything one step of a walk can do to memory, to the
caches and to the walk, and what it leaves alone. -/

namespace Sys2Proof.Machine

/-! ## The beginning of a translation -/

/-- With paging off a translation is complete (R132). -/
theorem translate_off (cfg : Config) (c : Choice) (lp : LP) (la : Word) (acc : Acc) (h : lp.pg = false) :
    translate cfg c lp la acc = .found (la.setWidth 32).toNat 12 := by simp [translate, LP.mode, h]

theorem startFromRoot_walk {cfg : Config} {lp : LP} {m : PagingMode} {la : Word} {acc : Acc} {w : Walk}
    (h : startFromRoot cfg lp m la acc = .walk w) :
    w.la = la ∧ w.acc = acc ∧ w.mode = m ∧ w.allA = true ∧ w.base < 2 ^ cfg.paw ∧ w.base % 4096 = 0 := by
  unfold startFromRoot at h
  cases m <;> simp only at h
  · cases h; exact ⟨rfl, rfl, rfl, rfl, nextBase_bounds _ _ _⟩
  · split at h
    · cases h; exact ⟨rfl, rfl, rfl, rfl, nextBase_bounds _ _ _⟩
    · cases h
  · cases h; exact ⟨rfl, rfl, rfl, rfl, nextBase_bounds _ _ _⟩

theorem mem_walkAlternatives_cache {lp : LP} {m : PagingMode} {la : Word} {l : Level} {e : PscEntry}
    (h : Alternative.cache l e ∈ walkAlternatives lp m la) :
    e.mode = m ∧ (e ∈ lp.pml4c ∨ e ∈ lp.pdpc ∨ e ∈ lp.pdec) := by
  simp only [walkAlternatives, List.mem_append, List.mem_map, List.mem_filter, PscEntry.matches, List.mem_singleton,
    Bool.and_eq_true, beq_iff_eq, Alternative.cache.injEq, reduceCtorEq, or_false] at h
  rcases h with (⟨a, ⟨h1, h2, -⟩, -, rfl⟩ | ⟨a, ⟨h1, h2, -⟩, -, rfl⟩) | ⟨a, ⟨h1, h2, -⟩, -, rfl⟩ <;> simp [h1, h2]

/-- What a translation that walks begins with: from the root, or from a cache entry of its mode (R134, R135). -/
theorem translate_walk {cfg : Config} {c : Choice} {lp : LP} {la : Word} {acc : Acc} {w : Walk}
    (h : translate cfg c lp la acc = .walk w) :
    w.la = la ∧ w.acc = acc ∧ lp.pg = true ∧ w.mode = lp.pagingMode ∧ w.allA = true
      ∧ ((w.base < 2 ^ cfg.paw ∧ w.base % 4096 = 0)
        ∨ ∃ e : PscEntry, (e ∈ lp.pml4c ∨ e ∈ lp.pdpc ∨ e ∈ lp.pdec) ∧ w.base = e.addr) := by
  unfold translate LP.mode at h
  by_cases hpg : lp.pg <;> simp only [hpg, if_true, reduceCtorEq, if_false, Bool.false_eq_true] at h
  have root : ∀ {w'}, startFromRoot cfg lp lp.pagingMode la acc = .walk w' →
      w'.la = la ∧ w'.acc = acc ∧ lp.pg = true ∧ w'.mode = lp.pagingMode ∧ w'.allA = true
        ∧ ((w'.base < 2 ^ cfg.paw ∧ w'.base % 4096 = 0)
          ∨ ∃ e : PscEntry, (e ∈ lp.pml4c ∨ e ∈ lp.pdpc ∨ e ∈ lp.pdec) ∧ w'.base = e.addr) := fun h' => by
    obtain ⟨h1, h2, h3, h4, h5, h6⟩ := startFromRoot_walk h'
    exact ⟨h1, h2, hpg, h3, h4, .inl ⟨h5, h6⟩⟩
  have walk : ∀ {a w'}, a ∈ walkAlternatives lp lp.pagingMode la → startWalk cfg lp lp.pagingMode la acc a = .walk w' →
      w'.la = la ∧ w'.acc = acc ∧ lp.pg = true ∧ w'.mode = lp.pagingMode ∧ w'.allA = true
        ∧ ((w'.base < 2 ^ cfg.paw ∧ w'.base % 4096 = 0)
          ∨ ∃ e : PscEntry, (e ∈ lp.pml4c ∨ e ∈ lp.pdpc ∨ e ∈ lp.pdec) ∧ w'.base = e.addr) := fun {a w'} ha h' => by
    cases a with
    | tlb e => exact root h'
    | root => exact root h'
    | cache l e =>
      obtain ⟨h1, h2⟩ := mem_walkAlternatives_cache ha
      simp only [startWalk, Start.walk.injEq] at h'
      subst h'
      exact ⟨rfl, rfl, hpg, h1, rfl, .inr ⟨e, h2, rfl⟩⟩
  have hne : walkAlternatives lp lp.pagingMode la ≠ [] := by simp [walkAlternatives]
  have hne' : alternatives lp lp.pagingMode la acc.kind ≠ [] := by simp [alternatives, hne]
  have hm := pick_mem .root _ c.alternative hne'
  generalize pick .root (alternatives lp lp.pagingMode la acc.kind) c.alternative = a at h hm
  cases a with
  | tlb e =>
    simp only at h
    split at h
    · cases h
    · cases h
    · exact walk (pick_mem _ _ _ hne) h
  | root => exact root h
  | cache l e =>
    refine walk (a := .cache l e) ?_ h
    simpa [alternatives] using hm

/-- Where a translation that is complete at once has its address from: paging is off, or a TLB entry (R132, R175). -/
theorem translate_found {cfg : Config} {c : Choice} {lp : LP} {la : Word} {acc : Acc} {pa b : Nat}
    (h : translate cfg c lp la acc = .found pa b) :
    (lp.pg = false ∧ pa = (la.setWidth 32).toNat ∧ b = 12)
      ∨ ∃ e ∈ lp.tlb, lp.pg = true ∧ e.matches lp.pagingMode la acc.kind = true ∧ permit lp acc e.rights = true
          ∧ (acc.kind = .write → e.dirty = true) ∧ pa = e.address la ∧ b = e.pageBits c.wholePage := by
  unfold translate LP.mode at h
  by_cases hpg : lp.pg
  · right
    simp only [hpg, if_true] at h
    have nowalk : ∀ a, startWalk cfg lp lp.pagingMode la acc a ≠ .found pa b := by
      intro a
      have : startFromRoot cfg lp lp.pagingMode la acc ≠ .found pa b := by
        unfold startFromRoot
        cases lp.pagingMode <;> simp
        split <;> simp
      cases a <;> simp [startWalk, this]
    have hne' : alternatives lp lp.pagingMode la acc.kind ≠ [] := by simp [alternatives, walkAlternatives]
    have hm := pick_mem .root _ c.alternative hne'
    generalize pick .root (alternatives lp lp.pagingMode la acc.kind) c.alternative = a at h hm
    cases a with
    | tlb e =>
      have he : e ∈ lp.tlb ∧ e.matches lp.pagingMode la acc.kind = true := by
        simpa [alternatives, walkAlternatives] using hm
      unfold useTlb at h
      simp only at h
      split at h
      · rename_i h'
        split at h'
        · cases h'
        · split at h'
          · cases h'
          · cases h'; cases h
            rename_i hp hd
            exact ⟨e, he.1, hpg, he.2, by simpa using hp, fun hk => by simpa [hk] using hd, rfl, rfl⟩
      · cases h
      · exact absurd h (nowalk _)
    | root => exact absurd h (nowalk _)
    | cache l e => exact absurd h (nowalk _)
  · left
    simp only [hpg] at h
    cases h
    exact ⟨by simpa using hpg, rfl, rfl⟩

/-! ## What a step may add to the caches -/

theorem LP.mem_cacheTlb {cfg : Config} {e x : TlbEntry} {lp : LP} :
    x ∈ (lp.cacheTlb cfg e).tlb ↔ x ∈ lp.tlb ∨ (x = e ∧ e.serves ∈ cfg.tlbs) := by
  unfold LP.cacheTlb
  split
  · rename_i h; simp [mem_addTo, h, or_comm]
  · rename_i h; simp [h]

theorem LP.cacheTlb_eq (cfg : Config) (e : TlbEntry) (lp : LP) :
    lp.cacheTlb cfg e = { lp with tlb := (lp.cacheTlb cfg e).tlb } := by
  unfold LP.cacheTlb; split <;> rfl

theorem LP.cacheFractures_eq (cfg : Config) (w : Walk) (e : Word) (r : Rights) (l : List (Nat × Serves)) (lp : LP) :
    lp.cacheFractures cfg w e r l = { lp with tlb := (lp.cacheFractures cfg w e r l).tlb } := by
  induction l generalizing lp with
  | nil => rfl
  | cons p rest ih =>
    obtain ⟨piece, sv⟩ := p
    rw [LP.cacheFractures, ih]
    simp

@[simp] theorem LP.cacheFractures_physical (cfg : Config) (w : Walk) (e : Word) (r : Rights) (l : List (Nat × Serves)) (lp : LP) :
    (lp.cacheFractures cfg w e r l).physical = lp.physical := by rw [LP.cacheFractures_eq]
@[simp] theorem LP.cacheFractures_cr0 (cfg : Config) (w : Walk) (e : Word) (r : Rights) (l : List (Nat × Serves)) (lp : LP) :
    (lp.cacheFractures cfg w e r l).cr0 = lp.cr0 := by rw [LP.cacheFractures_eq]
@[simp] theorem LP.cacheFractures_cr2 (cfg : Config) (w : Walk) (e : Word) (r : Rights) (l : List (Nat × Serves)) (lp : LP) :
    (lp.cacheFractures cfg w e r l).cr2 = lp.cr2 := by rw [LP.cacheFractures_eq]
@[simp] theorem LP.cacheFractures_cr3 (cfg : Config) (w : Walk) (e : Word) (r : Rights) (l : List (Nat × Serves)) (lp : LP) :
    (lp.cacheFractures cfg w e r l).cr3 = lp.cr3 := by rw [LP.cacheFractures_eq]
@[simp] theorem LP.cacheFractures_cr4 (cfg : Config) (w : Walk) (e : Word) (r : Rights) (l : List (Nat × Serves)) (lp : LP) :
    (lp.cacheFractures cfg w e r l).cr4 = lp.cr4 := by rw [LP.cacheFractures_eq]
@[simp] theorem LP.cacheFractures_efer (cfg : Config) (w : Walk) (e : Word) (r : Rights) (l : List (Nat × Serves)) (lp : LP) :
    (lp.cacheFractures cfg w e r l).efer = lp.efer := by rw [LP.cacheFractures_eq]
@[simp] theorem LP.cacheFractures_cpl (cfg : Config) (w : Walk) (e : Word) (r : Rights) (l : List (Nat × Serves)) (lp : LP) :
    (lp.cacheFractures cfg w e r l).cpl = lp.cpl := by rw [LP.cacheFractures_eq]
@[simp] theorem LP.cacheFractures_pdptr (cfg : Config) (w : Walk) (e : Word) (r : Rights) (l : List (Nat × Serves)) (lp : LP) :
    (lp.cacheFractures cfg w e r l).pdptr = lp.pdptr := by rw [LP.cacheFractures_eq]
@[simp] theorem LP.cacheFractures_walks (cfg : Config) (w : Walk) (e : Word) (r : Rights) (l : List (Nat × Serves)) (lp : LP) :
    (lp.cacheFractures cfg w e r l).walks = lp.walks := by rw [LP.cacheFractures_eq]
@[simp] theorem LP.cacheFractures_access (cfg : Config) (w : Walk) (e : Word) (r : Rights) (l : List (Nat × Serves)) (lp : LP) :
    (lp.cacheFractures cfg w e r l).access = lp.access := by rw [LP.cacheFractures_eq]
@[simp] theorem LP.cacheFractures_loading (cfg : Config) (w : Walk) (e : Word) (r : Rights) (l : List (Nat × Serves)) (lp : LP) :
    (lp.cacheFractures cfg w e r l).loading = lp.loading := by rw [LP.cacheFractures_eq]
@[simp] theorem LP.cacheFractures_halted (cfg : Config) (w : Walk) (e : Word) (r : Rights) (l : List (Nat × Serves)) (lp : LP) :
    (lp.cacheFractures cfg w e r l).halted = lp.halted := by rw [LP.cacheFractures_eq]
@[simp] theorem LP.cacheFractures_gpr (cfg : Config) (w : Walk) (e : Word) (r : Rights) (l : List (Nat × Serves)) (lp : LP) :
    (lp.cacheFractures cfg w e r l).gpr = lp.gpr := by rw [LP.cacheFractures_eq]
@[simp] theorem LP.cacheFractures_rip (cfg : Config) (w : Walk) (e : Word) (r : Rights) (l : List (Nat × Serves)) (lp : LP) :
    (lp.cacheFractures cfg w e r l).rip = lp.rip := by rw [LP.cacheFractures_eq]
@[simp] theorem LP.cacheFractures_exc (cfg : Config) (w : Walk) (e : Word) (r : Rights) (l : List (Nat × Serves)) (lp : LP) :
    (lp.cacheFractures cfg w e r l).exc = lp.exc := by rw [LP.cacheFractures_eq]
@[simp] theorem LP.cacheFractures_result (cfg : Config) (w : Walk) (e : Word) (r : Rights) (l : List (Nat × Serves)) (lp : LP) :
    (lp.cacheFractures cfg w e r l).result = lp.result := by rw [LP.cacheFractures_eq]

/-- The ordinary entries of a large page that the choice names are added, and no others (R267). -/
theorem LP.mem_cacheFractures {cfg : Config} {w : Walk} {e : Word} {r : Rights} {l : List (Nat × Serves)} {lp : LP}
    {x : TlbEntry} :
    x ∈ (lp.cacheFractures cfg w e r l).tlb
      ↔ x ∈ lp.tlb ∨ ∃ p ∈ l, p.2 ∈ cfg.tlbs ∧ x = fractureEntry cfg lp w e r p.1 p.2 := by
  induction l generalizing lp with
  | nil => simp [LP.cacheFractures]
  | cons p rest ih =>
    have he : ∀ q : Nat × Serves, fractureEntry cfg (lp.cacheTlb cfg (fractureEntry cfg lp w e r p.1 p.2)) w e r q.1 q.2
        = fractureEntry cfg lp w e r q.1 q.2 := fun q => by simp [fractureEntry, LP.pge]
    have hs : (fractureEntry cfg lp w e r p.1 p.2).serves = p.2 := rfl
    simp only [LP.cacheFractures, ih, he, LP.mem_cacheTlb, hs, List.mem_cons, exists_eq_or_imp]
    tauto

theorem LP.cacheTlb_sublist (cfg : Config) (e : TlbEntry) (lp : LP) : lp.tlb.Sublist (lp.cacheTlb cfg e).tlb := by
  unfold LP.cacheTlb
  split
  · exact addTo_sublist _ _
  · exact .refl _

theorem LP.cacheFractures_sublist (cfg : Config) (w : Walk) (e : Word) (r : Rights) (l : List (Nat × Serves)) (lp : LP) :
    lp.tlb.Sublist (lp.cacheFractures cfg w e r l).tlb := by
  induction l generalizing lp with
  | nil => exact .refl _
  | cons p rest ih => exact (LP.cacheTlb_sublist _ _ _).trans (ih _)

theorem LP.cacheLeaf_eq (cfg : Config) (c : Choice) (w : Walk) (e : Word) (r : Rights) (lp : LP) :
    lp.cacheLeaf cfg c w e r = { lp with tlb := (lp.cacheLeaf cfg c w e r).tlb } := by
  unfold LP.cacheLeaf
  cases c.cacheTlb <;> simp only <;> split
  · rw [LP.cacheFractures_eq]
  · rfl
  · rw [LP.cacheFractures_eq]; simp
  · rw [LP.cacheTlb_eq]

@[simp] theorem LP.cacheLeaf_physical (cfg : Config) (c : Choice) (w : Walk) (e : Word) (r : Rights) (lp : LP) :
    (lp.cacheLeaf cfg c w e r).physical = lp.physical := by rw [LP.cacheLeaf_eq]
@[simp] theorem LP.cacheLeaf_cr0 (cfg : Config) (c : Choice) (w : Walk) (e : Word) (r : Rights) (lp : LP) :
    (lp.cacheLeaf cfg c w e r).cr0 = lp.cr0 := by rw [LP.cacheLeaf_eq]
@[simp] theorem LP.cacheLeaf_cr2 (cfg : Config) (c : Choice) (w : Walk) (e : Word) (r : Rights) (lp : LP) :
    (lp.cacheLeaf cfg c w e r).cr2 = lp.cr2 := by rw [LP.cacheLeaf_eq]
@[simp] theorem LP.cacheLeaf_cr3 (cfg : Config) (c : Choice) (w : Walk) (e : Word) (r : Rights) (lp : LP) :
    (lp.cacheLeaf cfg c w e r).cr3 = lp.cr3 := by rw [LP.cacheLeaf_eq]
@[simp] theorem LP.cacheLeaf_cr4 (cfg : Config) (c : Choice) (w : Walk) (e : Word) (r : Rights) (lp : LP) :
    (lp.cacheLeaf cfg c w e r).cr4 = lp.cr4 := by rw [LP.cacheLeaf_eq]
@[simp] theorem LP.cacheLeaf_efer (cfg : Config) (c : Choice) (w : Walk) (e : Word) (r : Rights) (lp : LP) :
    (lp.cacheLeaf cfg c w e r).efer = lp.efer := by rw [LP.cacheLeaf_eq]
@[simp] theorem LP.cacheLeaf_cpl (cfg : Config) (c : Choice) (w : Walk) (e : Word) (r : Rights) (lp : LP) :
    (lp.cacheLeaf cfg c w e r).cpl = lp.cpl := by rw [LP.cacheLeaf_eq]
@[simp] theorem LP.cacheLeaf_pdptr (cfg : Config) (c : Choice) (w : Walk) (e : Word) (r : Rights) (lp : LP) :
    (lp.cacheLeaf cfg c w e r).pdptr = lp.pdptr := by rw [LP.cacheLeaf_eq]
@[simp] theorem LP.cacheLeaf_walks (cfg : Config) (c : Choice) (w : Walk) (e : Word) (r : Rights) (lp : LP) :
    (lp.cacheLeaf cfg c w e r).walks = lp.walks := by rw [LP.cacheLeaf_eq]
@[simp] theorem LP.cacheLeaf_access (cfg : Config) (c : Choice) (w : Walk) (e : Word) (r : Rights) (lp : LP) :
    (lp.cacheLeaf cfg c w e r).access = lp.access := by rw [LP.cacheLeaf_eq]
@[simp] theorem LP.cacheLeaf_loading (cfg : Config) (c : Choice) (w : Walk) (e : Word) (r : Rights) (lp : LP) :
    (lp.cacheLeaf cfg c w e r).loading = lp.loading := by rw [LP.cacheLeaf_eq]
@[simp] theorem LP.cacheLeaf_halted (cfg : Config) (c : Choice) (w : Walk) (e : Word) (r : Rights) (lp : LP) :
    (lp.cacheLeaf cfg c w e r).halted = lp.halted := by rw [LP.cacheLeaf_eq]
@[simp] theorem LP.cacheLeaf_gpr (cfg : Config) (c : Choice) (w : Walk) (e : Word) (r : Rights) (lp : LP) :
    (lp.cacheLeaf cfg c w e r).gpr = lp.gpr := by rw [LP.cacheLeaf_eq]
@[simp] theorem LP.cacheLeaf_rip (cfg : Config) (c : Choice) (w : Walk) (e : Word) (r : Rights) (lp : LP) :
    (lp.cacheLeaf cfg c w e r).rip = lp.rip := by rw [LP.cacheLeaf_eq]
@[simp] theorem LP.cacheLeaf_exc (cfg : Config) (c : Choice) (w : Walk) (e : Word) (r : Rights) (lp : LP) :
    (lp.cacheLeaf cfg c w e r).exc = lp.exc := by rw [LP.cacheLeaf_eq]
@[simp] theorem LP.cacheLeaf_result (cfg : Config) (c : Choice) (w : Walk) (e : Word) (r : Rights) (lp : LP) :
    (lp.cacheLeaf cfg c w e r).result = lp.result := by rw [LP.cacheLeaf_eq]
@[simp] theorem LP.cacheLeaf_pml4c (cfg : Config) (c : Choice) (w : Walk) (e : Word) (r : Rights) (lp : LP) :
    (lp.cacheLeaf cfg c w e r).pml4c = lp.pml4c := by rw [LP.cacheLeaf_eq]
@[simp] theorem LP.cacheLeaf_pdpc (cfg : Config) (c : Choice) (w : Walk) (e : Word) (r : Rights) (lp : LP) :
    (lp.cacheLeaf cfg c w e r).pdpc = lp.pdpc := by rw [LP.cacheLeaf_eq]
@[simp] theorem LP.cacheLeaf_pdec (cfg : Config) (c : Choice) (w : Walk) (e : Word) (r : Rights) (lp : LP) :
    (lp.cacheLeaf cfg c w e r).pdec = lp.pdec := by rw [LP.cacheLeaf_eq]

/-- The TLB after the last step of a walk: the entries that were there, and those the choice makes from the leaf entry (R172, R264,
R267). -/
theorem LP.mem_cacheLeaf {cfg : Config} {c : Choice} {w : Walk} {e : Word} {r : Rights} {lp : LP} {x : TlbEntry} :
    x ∈ (lp.cacheLeaf cfg c w e r).tlb
      ↔ x ∈ lp.tlb ∨ (∃ sv ∈ c.cacheTlb, sv ∈ cfg.tlbs ∧ x = leafEntry cfg lp w e r sv)
        ∨ (cfg.fractureLarge = true ∧ w.level = .pde
            ∧ ∃ p ∈ c.fractures, p.2 ∈ cfg.tlbs ∧ x = fractureEntry cfg lp w e r p.1 p.2) := by
  have hs : ∀ sv, (leafEntry cfg lp w e r sv).serves = sv := fun _ => rfl
  unfold LP.cacheLeaf
  cases c.cacheTlb with
  | none =>
    simp only
    split
    · rename_i hf
      simp only [Bool.and_eq_true, beq_iff_eq] at hf
      simp [LP.mem_cacheFractures, hf.1, hf.2]
    · rename_i hf
      simp only [Bool.and_eq_true, beq_iff_eq] at hf
      simp only [Option.mem_def, reduceCtorEq, false_and, exists_false, false_or]
      tauto
  | some sv =>
    have he : ∀ q : Nat × Serves, fractureEntry cfg (lp.cacheTlb cfg (leafEntry cfg lp w e r sv)) w e r q.1 q.2
        = fractureEntry cfg lp w e r q.1 q.2 := fun q => by simp [fractureEntry, LP.pge]
    simp only
    split
    · rename_i hf
      simp only [Bool.and_eq_true, beq_iff_eq] at hf
      simp only [LP.mem_cacheFractures, he, LP.mem_cacheTlb, hs, hf.1, hf.2, Option.mem_def, Option.some.injEq, exists_eq_left']
      tauto
    · rename_i hf
      simp only [Bool.and_eq_true, beq_iff_eq] at hf
      simp only [LP.mem_cacheTlb, hs, Option.mem_def, Option.some.injEq, exists_eq_left']
      tauto

theorem LP.cacheLeaf_sublist (cfg : Config) (c : Choice) (w : Walk) (e : Word) (r : Rights) (lp : LP) :
    lp.tlb.Sublist (lp.cacheLeaf cfg c w e r).tlb := by
  unfold LP.cacheLeaf
  cases c.cacheTlb with
  | none =>
    simp only
    split
    · exact LP.cacheFractures_sublist _ _ _ _ _ _
    · exact .refl _
  | some sv =>
    simp only
    split
    · exact (LP.cacheTlb_sublist _ _ _).trans (LP.cacheFractures_sublist _ _ _ _ _ _)
    · exact LP.cacheTlb_sublist _ _ _

/-- Adding to a paging-structure cache changes one of the three caches, by one entry, of a mode that has that cache, if
the processor implements it (R195, R196 conditions 4 and 5). -/
theorem LP.cachePsc_cases (cfg : Config) (l : Level) (e : PscEntry) (lp : LP) :
    lp.cachePsc cfg l e = lp
      ∨ (l = .pml4e ∧ cfg.hasPml4Cache = true ∧ e.mode = .modeIA32e
          ∧ lp.cachePsc cfg l e = { lp with pml4c := addTo e lp.pml4c })
      ∨ (l = .pdpe ∧ cfg.hasPdpCache = true ∧ e.mode = .modeIA32e
          ∧ lp.cachePsc cfg l e = { lp with pdpc := addTo e lp.pdpc })
      ∨ (l = .pde ∧ cfg.hasPdeCache = true ∧ lp.cachePsc cfg l e = { lp with pdec := addTo e lp.pdec }) := by
  unfold LP.cachePsc
  cases l <;> simp only
  · split
    · rename_i h; simp only [Bool.and_eq_true, beq_iff_eq] at h; simp [h.1, h.2]
    · simp
  · split
    · rename_i h; simp only [Bool.and_eq_true, beq_iff_eq] at h; simp [h.1, h.2]
    · simp
  · split
    · rename_i h; simp [h]
    · simp
  · simp

theorem LP.cachePsc_eq (cfg : Config) (l : Level) (e : PscEntry) (lp : LP) :
    lp.cachePsc cfg l e
      = { lp with
          pml4c := (lp.cachePsc cfg l e).pml4c, pdpc := (lp.cachePsc cfg l e).pdpc, pdec := (lp.cachePsc cfg l e).pdec } := by
  rcases LP.cachePsc_cases cfg l e lp with h | ⟨-, -, -, h⟩ | ⟨-, -, -, h⟩ | ⟨-, -, h⟩ <;> rw [h]

/-- Adding to a paging-structure cache removes nothing (R196). -/
theorem LP.cachePsc_sublist (cfg : Config) (l : Level) (e : PscEntry) (lp : LP) :
    lp.pml4c.Sublist (lp.cachePsc cfg l e).pml4c ∧ lp.pdpc.Sublist (lp.cachePsc cfg l e).pdpc
      ∧ lp.pdec.Sublist (lp.cachePsc cfg l e).pdec := by
  rcases LP.cachePsc_cases cfg l e lp with h | ⟨-, -, -, h⟩ | ⟨-, -, -, h⟩ | ⟨-, -, h⟩ <;> rw [h]
  exacts [⟨.refl _, .refl _, .refl _⟩, ⟨addTo_sublist _ _, .refl _, .refl _⟩, ⟨.refl _, addTo_sublist _ _, .refl _⟩,
    ⟨.refl _, .refl _, addTo_sublist _ _⟩]

/-! ## One step of a walk -/

/-- The four things one step of a walk can meet (R136): a not-present entry, a reserved bit, a leaf entry, an upper entry. -/
theorem walkStep_cases (cfg : Config) (c : Choice) (lp : LP) (mem : Memory) (w : Walk) :
    let ea := w.entryAddr cfg
    let e := mem.readEntry ea (entryBytes w.mode)
    let r := w.rights.andEntry lp.nxe w.mode e
    (present e = false ∧ walkStep cfg c lp mem w = ⟨mem, lp, .fault false false 12⟩)
      ∨ (present e = true ∧ reserved cfg lp.nxe lp.pse w.mode w.level e = true
          ∧ walkStep cfg c lp mem w = ⟨mem, lp, .fault true true (w.pageBits lp.pse e)⟩)
      ∨ (present e = true ∧ reserved cfg lp.nxe lp.pse w.mode w.level e = false
          ∧ isLeaf lp.pse w.mode w.level e = true ∧ walkStep cfg c lp mem w = leafStep cfg c lp mem w ea e r)
      ∨ (present e = true ∧ reserved cfg lp.nxe lp.pse w.mode w.level e = false
          ∧ isLeaf lp.pse w.mode w.level e = false ∧ walkStep cfg c lp mem w = upperStep cfg c lp mem w ea e r) := by
  simp only
  cases h1 : present (mem.readEntry (w.entryAddr cfg) (entryBytes w.mode)) <;>
    cases h2 : reserved cfg lp.nxe lp.pse w.mode w.level (mem.readEntry (w.entryAddr cfg) (entryBytes w.mode)) <;>
      cases h3 : isLeaf lp.pse w.mode w.level (mem.readEntry (w.entryAddr cfg) (entryBytes w.mode)) <;>
        simp [walkStep, h1, h2, h3]

/-- The four things the step at a leaf entry can do. -/
theorem leafStep_cases (cfg : Config) (c : Choice) (lp : LP) (mem : Memory) (w : Walk) (ea : Nat) (e : Word) (r : Rights) :
    (permit lp w.acc r = false ∧ leafStep cfg c lp mem w ea e r = ⟨mem, lp, .fault true false (w.pageBits lp.pse e)⟩)
      ∨ (permit lp w.acc r = true ∧ w.allA = false ∧ leafStep cfg c lp mem w ea e r = ⟨mem, lp, .restart⟩)
      ∨ (permit lp w.acc r = true ∧ w.allA = true ∧ w.acc.kind = .write ∧ w.acc.spec = true
          ∧ leafStep cfg c lp mem w ea e r = ⟨mem, lp, .aborted⟩)
      ∨ (permit lp w.acc r = true ∧ w.allA = true ∧ (w.acc.kind = .write → w.acc.spec = false)
          ∧ leafStep cfg c lp mem w ea e r
            = ⟨mem.setBits ea (entryBytes w.mode) (leafMask w.acc.kind), lp.cacheLeaf cfg c w e r,
                .found (leafAddress cfg w e) (w.pageBits lp.pse e)⟩) := by
  unfold leafStep
  cases h1 : permit lp w.acc r <;> cases h2 : w.allA <;> simp
  by_cases h3 : w.acc.kind = .write <;> cases h4 : w.acc.spec <;> simp [h3]

theorem walkStep_lp (cfg : Config) (c : Choice) (lp : LP) (mem : Memory) (w : Walk) :
    (walkStep cfg c lp mem w).lp
      = { lp with
          tlb := (walkStep cfg c lp mem w).lp.tlb, pml4c := (walkStep cfg c lp mem w).lp.pml4c
          pdpc := (walkStep cfg c lp mem w).lp.pdpc, pdec := (walkStep cfg c lp mem w).lp.pdec } := by
  rcases walkStep_cases cfg c lp mem w with ⟨-, h⟩ | ⟨-, -, h⟩ | ⟨-, -, -, h⟩ | ⟨-, -, -, h⟩ <;> rw [h]
  · rcases leafStep_cases cfg c lp mem w (w.entryAddr cfg) (mem.readEntry (w.entryAddr cfg) (entryBytes w.mode))
      (w.rights.andEntry lp.nxe w.mode (mem.readEntry (w.entryAddr cfg) (entryBytes w.mode))) with
      ⟨-, h⟩ | ⟨-, -, h⟩ | ⟨-, -, -, -, h⟩ | ⟨-, -, -, h⟩ <;> rw [h]
    conv_lhs => rw [LP.cacheLeaf_eq]
    simp
  · simp only [upperStep]
    split
    · conv_lhs => rw [LP.cachePsc_eq]
      simp
    · rfl

@[simp] theorem walkStep_physical (cfg : Config) (c : Choice) (lp : LP) (mem : Memory) (w : Walk) :
    (walkStep cfg c lp mem w).lp.physical = lp.physical := by rw [walkStep_lp]
@[simp] theorem walkStep_cr0 (cfg : Config) (c : Choice) (lp : LP) (mem : Memory) (w : Walk) :
    (walkStep cfg c lp mem w).lp.cr0 = lp.cr0 := by rw [walkStep_lp]
@[simp] theorem walkStep_cr2 (cfg : Config) (c : Choice) (lp : LP) (mem : Memory) (w : Walk) :
    (walkStep cfg c lp mem w).lp.cr2 = lp.cr2 := by rw [walkStep_lp]
@[simp] theorem walkStep_cr3 (cfg : Config) (c : Choice) (lp : LP) (mem : Memory) (w : Walk) :
    (walkStep cfg c lp mem w).lp.cr3 = lp.cr3 := by rw [walkStep_lp]
@[simp] theorem walkStep_cr4 (cfg : Config) (c : Choice) (lp : LP) (mem : Memory) (w : Walk) :
    (walkStep cfg c lp mem w).lp.cr4 = lp.cr4 := by rw [walkStep_lp]
@[simp] theorem walkStep_efer (cfg : Config) (c : Choice) (lp : LP) (mem : Memory) (w : Walk) :
    (walkStep cfg c lp mem w).lp.efer = lp.efer := by rw [walkStep_lp]
@[simp] theorem walkStep_cpl (cfg : Config) (c : Choice) (lp : LP) (mem : Memory) (w : Walk) :
    (walkStep cfg c lp mem w).lp.cpl = lp.cpl := by rw [walkStep_lp]
@[simp] theorem walkStep_pdptr (cfg : Config) (c : Choice) (lp : LP) (mem : Memory) (w : Walk) :
    (walkStep cfg c lp mem w).lp.pdptr = lp.pdptr := by rw [walkStep_lp]
@[simp] theorem walkStep_walks (cfg : Config) (c : Choice) (lp : LP) (mem : Memory) (w : Walk) :
    (walkStep cfg c lp mem w).lp.walks = lp.walks := by rw [walkStep_lp]
@[simp] theorem walkStep_access (cfg : Config) (c : Choice) (lp : LP) (mem : Memory) (w : Walk) :
    (walkStep cfg c lp mem w).lp.access = lp.access := by rw [walkStep_lp]
@[simp] theorem walkStep_loading (cfg : Config) (c : Choice) (lp : LP) (mem : Memory) (w : Walk) :
    (walkStep cfg c lp mem w).lp.loading = lp.loading := by rw [walkStep_lp]
@[simp] theorem walkStep_halted (cfg : Config) (c : Choice) (lp : LP) (mem : Memory) (w : Walk) :
    (walkStep cfg c lp mem w).lp.halted = lp.halted := by rw [walkStep_lp]
@[simp] theorem walkStep_gpr (cfg : Config) (c : Choice) (lp : LP) (mem : Memory) (w : Walk) :
    (walkStep cfg c lp mem w).lp.gpr = lp.gpr := by rw [walkStep_lp]
@[simp] theorem walkStep_rip (cfg : Config) (c : Choice) (lp : LP) (mem : Memory) (w : Walk) :
    (walkStep cfg c lp mem w).lp.rip = lp.rip := by rw [walkStep_lp]
@[simp] theorem walkStep_exc (cfg : Config) (c : Choice) (lp : LP) (mem : Memory) (w : Walk) :
    (walkStep cfg c lp mem w).lp.exc = lp.exc := by rw [walkStep_lp]
@[simp] theorem walkStep_result (cfg : Config) (c : Choice) (lp : LP) (mem : Memory) (w : Walk) :
    (walkStep cfg c lp mem w).lp.result = lp.result := by rw [walkStep_lp]

/-- A walk step writes at most the entry it reads (R136, R144). -/
theorem walkStep_read_other (cfg : Config) (c : Choice) (lp : LP) (mem : Memory) (w : Walk) (x : Nat)
    (hx : x < w.entryAddr cfg ∨ w.entryAddr cfg + entryBytes w.mode ≤ x) :
    (walkStep cfg c lp mem w).mem.read x = mem.read x := by
  rcases walkStep_cases cfg c lp mem w with ⟨-, h⟩ | ⟨-, -, h⟩ | ⟨-, -, -, h⟩ | ⟨-, -, -, h⟩ <;> rw [h]
  · rcases leafStep_cases cfg c lp mem w (w.entryAddr cfg) (mem.readEntry (w.entryAddr cfg) (entryBytes w.mode))
      (w.rights.andEntry lp.nxe w.mode (mem.readEntry (w.entryAddr cfg) (entryBytes w.mode))) with
      ⟨-, h⟩ | ⟨-, -, h⟩ | ⟨-, -, -, -, h⟩ | ⟨-, -, -, h⟩ <;> rw [h]
    exact Memory.read_setBits_other _ _ _ _ _ hx
  · simp only [upperStep]
    split
    · exact Memory.read_setBits_other _ _ _ _ _ hx
    · rfl

/-- A walk step keeps the canonical form of memory. -/
theorem walkStep_mem_wf (cfg : Config) (c : Choice) (lp : LP) (mem : Memory) (w : Walk) (hm : mem.wf = true) :
    (walkStep cfg c lp mem w).mem.wf = true := by
  rcases walkStep_cases cfg c lp mem w with ⟨-, h⟩ | ⟨-, -, h⟩ | ⟨-, -, -, h⟩ | ⟨-, -, -, h⟩ <;> rw [h]
  · exact hm
  · exact hm
  · rcases leafStep_cases cfg c lp mem w (w.entryAddr cfg) (mem.readEntry (w.entryAddr cfg) (entryBytes w.mode))
      (w.rights.andEntry lp.nxe w.mode (mem.readEntry (w.entryAddr cfg) (entryBytes w.mode))) with
      ⟨-, h⟩ | ⟨-, -, h⟩ | ⟨-, -, -, -, h⟩ | ⟨-, -, -, h⟩ <;> rw [h]
    · exact hm
    · exact hm
    · exact hm
    · exact Memory.wf_setBits _ _ _ _ hm
  · simp only [upperStep]
    split
    · exact Memory.wf_setBits _ _ _ _ hm
    · exact hm

/-- A walk that goes on is the same access at the level below, with the base the entry names (R136). -/
theorem walkStep_more {cfg : Config} {c : Choice} {lp : LP} {mem : Memory} {w w' : Walk}
    (h : (walkStep cfg c lp mem w).result = .more w') :
    w'.la = w.la ∧ w'.acc = w.acc ∧ w'.mode = w.mode ∧ w'.level = w.level.below
      ∧ w'.base < 2 ^ cfg.paw ∧ w'.base % 4096 = 0 := by
  rcases walkStep_cases cfg c lp mem w with ⟨-, h'⟩ | ⟨-, -, h'⟩ | ⟨-, -, -, h'⟩ | ⟨-, -, -, h'⟩ <;> rw [h'] at h
  · cases h
  · cases h
  · rcases leafStep_cases cfg c lp mem w (w.entryAddr cfg) (mem.readEntry (w.entryAddr cfg) (entryBytes w.mode))
      (w.rights.andEntry lp.nxe w.mode (mem.readEntry (w.entryAddr cfg) (entryBytes w.mode))) with
      ⟨-, h'⟩ | ⟨-, -, h'⟩ | ⟨-, -, -, -, h'⟩ | ⟨-, -, -, h'⟩ <;> rw [h'] at h <;> cases h
  · cases h
    exact ⟨rfl, rfl, rfl, rfl, nextBase_bounds _ _ _⟩

theorem leafAddress_lt (cfg : Config) (w : Walk) (e : Word) : leafAddress cfg w e < 2 ^ cfg.paw := by
  unfold leafAddress
  split
  · refine pageAddr_lt _ (lt_of_lt_of_le (frameField_lt cfg w.mode e) (Nat.pow_le_pow_right (by norm_num) ?_))
    have := addrWidth_bounds cfg w.mode
    omega
  · exact largeAddr_lt _ (largeFrame_lt cfg w.mode e)

/-- No page is larger than physical memory (P1, R9). -/
theorem largeBits_le (cfg : Config) (m : PagingMode) : largeBits m ≤ cfg.paw := by
  unfold largeBits Config.paw
  split <;> omega

theorem Walk.pageBits_le (cfg : Config) (pse : Bool) (w : Walk) (e : Word) : w.pageBits pse e ≤ cfg.paw := by
  have := largeBits_le cfg w.mode
  unfold Walk.pageBits Config.paw at *
  split <;> omega

theorem TlbEntry.pageBits_le (cfg : Config) (whole : Bool) (e : TlbEntry) : e.pageBits whole ≤ cfg.paw := by
  have := largeBits_le cfg e.mode
  unfold TlbEntry.pageBits Config.paw at *
  split <;> omega

/-- Every address in a page of physical memory is below 2^PAW. -/
theorem inPage_lt {pa b n x : Nat} (h : pa < 2 ^ n) (hb : b ≤ n) : pa / 2 ^ b * 2 ^ b + x % 2 ^ b < 2 ^ n := by
  obtain ⟨k, rfl⟩ := Nat.exists_eq_add_of_le hb
  rw [Nat.pow_add] at *
  have h1 : pa / 2 ^ b < 2 ^ k := Nat.div_lt_of_lt_mul h
  have h2 : x % 2 ^ b < 2 ^ b := Nat.mod_lt _ (by positivity)
  calc pa / 2 ^ b * 2 ^ b + x % 2 ^ b < pa / 2 ^ b * 2 ^ b + 2 ^ b := by omega
    _ = (pa / 2 ^ b + 1) * 2 ^ b := by ring
    _ ≤ 2 ^ k * 2 ^ b := Nat.mul_le_mul_right _ h1
    _ = 2 ^ b * 2 ^ k := Nat.mul_comm _ _

/-- A walk that is complete gives an address below 2^PAW (R9, R106). -/
theorem walkStep_found {cfg : Config} {c : Choice} {lp : LP} {mem : Memory} {w : Walk} {pa b : Nat}
    (h : (walkStep cfg c lp mem w).result = .found pa b) : pa < 2 ^ cfg.paw ∧ b ≤ cfg.paw := by
  rcases walkStep_cases cfg c lp mem w with ⟨-, h'⟩ | ⟨-, -, h'⟩ | ⟨-, -, -, h'⟩ | ⟨-, -, -, h'⟩ <;> rw [h'] at h
  · cases h
  · cases h
  · rcases leafStep_cases cfg c lp mem w (w.entryAddr cfg) (mem.readEntry (w.entryAddr cfg) (entryBytes w.mode))
      (w.rights.andEntry lp.nxe w.mode (mem.readEntry (w.entryAddr cfg) (entryBytes w.mode))) with
      ⟨-, h'⟩ | ⟨-, -, h'⟩ | ⟨-, -, -, -, h'⟩ | ⟨-, -, -, h'⟩ <;> rw [h'] at h <;> cases h
    exact ⟨leafAddress_lt _ _ _, Walk.pageBits_le _ _ _ _⟩
  · cases h

/-- The TLB entries a walk step adds: only at a leaf entry, by a walk that is then complete (R172). -/
theorem mem_walkStep_tlb {cfg : Config} {c : Choice} {lp : LP} {mem : Memory} {w : Walk} {x : TlbEntry}
    (h : x ∈ (walkStep cfg c lp mem w).lp.tlb) :
    let e := mem.readEntry (w.entryAddr cfg) (entryBytes w.mode)
    let r := w.rights.andEntry lp.nxe w.mode e
    x ∈ lp.tlb
      ∨ (present e = true ∧ reserved cfg lp.nxe lp.pse w.mode w.level e = false
          ∧ isLeaf lp.pse w.mode w.level e = true ∧ permit lp w.acc r = true ∧ w.allA = true
          ∧ (walkStep cfg c lp mem w).result = .found (leafAddress cfg w e) (w.pageBits lp.pse e)
          ∧ ((∃ sv ∈ cfg.tlbs, x = leafEntry cfg lp w e r sv)
            ∨ (cfg.fractureLarge = true ∧ w.level = .pde
                ∧ ∃ piece, ∃ sv ∈ cfg.tlbs, x = fractureEntry cfg lp w e r piece sv))) := by
  simp only
  rcases walkStep_cases cfg c lp mem w with ⟨-, h'⟩ | ⟨-, -, h'⟩ | ⟨hp, hr, hl, h'⟩ | ⟨-, -, -, h'⟩
  · rw [h'] at h; exact .inl h
  · rw [h'] at h; exact .inl h
  · rcases leafStep_cases cfg c lp mem w (w.entryAddr cfg) (mem.readEntry (w.entryAddr cfg) (entryBytes w.mode))
      (w.rights.andEntry lp.nxe w.mode (mem.readEntry (w.entryAddr cfg) (entryBytes w.mode))) with
      ⟨-, h''⟩ | ⟨-, -, h''⟩ | ⟨-, -, -, -, h''⟩ | ⟨h1, h2, -, h''⟩ <;> rw [h', h''] at h
    · exact .inl h
    · exact .inl h
    · exact .inl h
    · rcases LP.mem_cacheLeaf.mp h with h | ⟨sv, -, hs, rfl⟩ | ⟨hf, hv, q, -, hs, rfl⟩
      · exact .inl h
      · exact .inr ⟨hp, hr, hl, h1, h2, by rw [h', h''], .inl ⟨sv, hs, rfl⟩⟩
      · exact .inr ⟨hp, hr, hl, h1, h2, by rw [h', h''], .inr ⟨hf, hv, q.1, q.2, hs, rfl⟩⟩
  · rw [h'] at h
    simp only [upperStep] at h
    split at h
    · simp at h; exact .inl h
    · exact .inl h

/-- The paging-structure-cache entries a walk step adds: only at an upper entry that is present, has no reserved bit set and is
accessed, by a walk that has skipped no accessed bit (R196). -/
theorem walkStep_psc (cfg : Config) (c : Choice) (lp : LP) (mem : Memory) (w : Walk) :
    let e := mem.readEntry (w.entryAddr cfg) (entryBytes w.mode)
    let x : PscEntry :=
      { mode := w.mode, key := pscKey w.mode w.level w.la, addr := nextBase cfg w.mode e,
        rights := w.rights.andEntry lp.nxe w.mode e }
    let out := walkStep cfg c lp mem w
    (out.lp.pml4c = lp.pml4c ∧ out.lp.pdpc = lp.pdpc ∧ out.lp.pdec = lp.pdec)
      ∨ (present e = true ∧ reserved cfg lp.nxe lp.pse w.mode w.level e = false
          ∧ isLeaf lp.pse w.mode w.level e = false ∧ w.allA = true ∧ (accessed e || c.setAccessed) = true
          ∧ c.cachePsc = true ∧ out.lp = lp.cachePsc cfg w.level x) := by
  simp only
  rcases walkStep_cases cfg c lp mem w with ⟨-, h'⟩ | ⟨-, -, h'⟩ | ⟨-, -, -, h'⟩ | ⟨hp, hr, hl, h'⟩
  · rw [h']; simp
  · rw [h']; simp
  · rcases leafStep_cases cfg c lp mem w (w.entryAddr cfg) (mem.readEntry (w.entryAddr cfg) (entryBytes w.mode))
      (w.rights.andEntry lp.nxe w.mode (mem.readEntry (w.entryAddr cfg) (entryBytes w.mode))) with
      ⟨-, h''⟩ | ⟨-, -, h''⟩ | ⟨-, -, -, -, h''⟩ | ⟨-, -, -, h''⟩ <;> rw [h', h''] <;> simp
  · rw [h']
    simp only [upperStep]
    split
    · rename_i hc
      simp only [Bool.and_eq_true] at hc
      exact .inr ⟨hp, hr, hl, hc.1.1, hc.1.2, hc.2, rfl⟩
    · simp

end Sys2Proof.Machine
end

