-- ==== Sys2Proof/Laws/Step.lean ====
section
/-! SUPPORT. The inversion of a step: everything a step of the machine can do, once, and what it leaves alone whatever it does. -/

namespace Sys2Proof.Machine

/-- Everything the software's next step can do, no PDPTR load being in progress (R330, R336, R358). -/
inductive SoftwareMove (s : State) : State → Prop where
  /-- Halted, or with an exception in the hands of the enclosing model, it issues nothing. -/
  | idle (h : s.lp.access = none) : SoftwareMove s s
  /-- An access without pages ends. -/
  | finish {a : Access} (h : s.Current a) (hp : a.phase = .choosing) : SoftwareMove s (s.finishAccess a)
  /-- A page is translated at once. -/
  | found {a : Access} {p : Piece} {rest : List Piece} {pa b : Nat} (h : s.Current a) (hp : a.phase = .choosing)
      (hin : p ∈ a.todo) (hr : rest.Sublist a.todo)
      (ht : translate s.cfg (s.choiceFor a p) s.lp p.la a.acc = .found pa b) :
      SoftwareMove s (s.tick.setAccess (Access.found { a with todo := rest } p pa b))
  /-- A walk begins. -/
  | walk {a : Access} {p : Piece} {rest : List Piece} {w : Walk} (h : s.Current a) (hp : a.phase = .choosing)
      (hin : p ∈ a.todo) (hr : rest.Sublist a.todo)
      (ht : translate s.cfg (s.choiceFor a p) s.lp p.la a.acc = .walk w) :
      SoftwareMove s (s.tick.setAccess { a with todo := rest, phase := .walking p w })
  /-- A translation faults at its start. -/
  | fault {a : Access} {p : Piece} {pf rsvd : Bool} {b : Nat} (h : s.Current a)
      (ht : translate s.cfg (s.choiceFor a p) s.lp p.la a.acc = .fault pf rsvd b) :
      SoftwareMove s (s.tick.accessFault s.choice a (a.firstByte b p.la) a.acc pf rsvd)
  /-- The walk advances by one entry. -/
  | walkStep {a : Access} {p : Piece} {w : Walk} (h : s.lp.access = some a) (hp : a.phase = .walking p w) :
      SoftwareMove s (s.walkPage a p w)
  /-- The bytes of a translated piece are read or written. -/
  | perform {a : Access} {p : Piece} {pa : Nat} (h : s.lp.access = some a) (hp : a.phase = .translated p pa) :
      SoftwareMove s (s.performPiece a p pa)
  /-- The instruction goes on in the next page. -/
  | fetchMore {a : Access} {p : Piece} {pa : Nat} {bs : List Byte} (h : s.lp.access = some a)
      (hp : a.phase = .translated p pa) :
      SoftwareMove s (State.setAccess { a with bytes := bs, todo := [s.lp.fetchPiece bs.length], phase := .choosing }
        (s.noteReads (addrsFrom pa p.len)))
  /-- The fetched instruction is executed. -/
  | execute {i : Instr} {l : List Nat} {t : State}
      (hl : (s.lp.pg = false ∧ ∀ x ∈ l, x ∈ s.lp.fetchAddrs)
        ∨ ∃ a p pa n, s.lp.access = some a ∧ a.phase = .translated p pa ∧ l = addrsFrom pa (p.len - n))
      (hp : s.software = .execute i (({ s with lp := { s.lp with access := none } } : State).noteReads l))
      (h : exec i (({ s with lp := { s.lp with access := none } } : State).noteReads l) = .next t) : SoftwareMove s t

theorem beginPage_move {s t : State} {a : Access} {p : Piece} {rest : List Piece} (h : s.Current a) (hp : a.phase = .choosing)
    (hin : p ∈ a.todo) (hr : rest.Sublist a.todo) (ht : s.beginPage a p rest = .next t) : SoftwareMove s t := by
  unfold State.beginPage at ht
  split at ht
  · cases ht
  · split at ht <;> cases ht
    · exact .found h hp hin hr ‹_›
    · exact .walk h hp hin hr ‹_›
    · exact .fault h ‹_›

/-- The outcome of a plan. -/
def Plan.Next (p : Plan) (t : State) : Prop :=
  p = .done (.next t) ∨ ∃ i s', p = .execute i s' ∧ exec i s' = .next t

theorem advanceAccess_move {s t : State} {a : Access} (h : s.Current a) (hs : s.software = s.advanceAccess a)
    (ht : (s.advanceAccess a).Next t) : SoftwareMove s t := by
  have hsome : ∀ {p w}, a.phase = .walking p w → s.lp.access = some a := fun {p w} hp => by
    rcases h with h | ⟨-, -, -, -, rfl⟩
    · exact h
    · cases hp
  have hsome' : ∀ {p pa}, a.phase = .translated p pa → s.lp.access = some a := fun {p pa} hp => by
    rcases h with h | ⟨-, -, -, -, rfl⟩
    · exact h
    · cases hp
  unfold State.advanceAccess at ht hs
  cases hp : a.phase with
  | choosing =>
    simp only [hp] at ht
    cases htodo : a.todo with
    | nil =>
      simp only [htodo] at ht
      rcases ht with ht | ⟨i, s', ht, -⟩ <;> cases ht
      exact .finish h hp
    | cons p ps =>
      simp only [htodo] at ht
      rcases ht with ht | ⟨i, s', ht, -⟩
      · injection ht with ht
        rw [← htodo] at ht
        refine beginPage_move h hp ?_ List.erase_sublist ht
        have hin : p ∈ a.todo := by rw [htodo]; exact List.mem_cons_self
        exact s.mem_of_ready hin s.choice.page
      · cases ht
  | walking p w =>
    simp only [hp] at ht
    rcases ht with ht | ⟨i, s', ht, -⟩ <;> cases ht
    exact .walkStep (hsome hp) hp
  | translated p pa =>
    simp only [hp] at ht hs
    split at ht
    · rename_i hi
      rw [if_pos hi] at hs
      unfold State.fetchedPiece at ht hs
      simp only at ht hs
      split at ht
      · rename_i hd
        rcases ht with ht | ⟨i, s', ht, he⟩ <;> cases ht
        rw [hd] at hs
        exact .execute (.inr ⟨_, _, _, _, hsome' hp, hp, rfl⟩) hs he
      · split at ht
        · rcases ht with ht | ⟨i, s', ht, -⟩ <;> cases ht
          exact .fetchMore (hsome' hp) hp
        · rcases ht with ht | ⟨i, s', ht, -⟩ <;> cases ht
      · rcases ht with ht | ⟨i, s', ht, -⟩ <;> cases ht
    · rcases ht with ht | ⟨i, s', ht, -⟩ <;> cases ht
      exact .perform (hsome' hp) hp

/-- Everything the software's next step can do: an entry is read for the PDPTR load in progress; or a move of an access. -/
def State.Moves (s t : State) : Prop :=
  (∃ l, s.lp.loading = some l ∧ t = s.loadPdpte l) ∨ (s.lp.loading = none ∧ SoftwareMove s t)

theorem software_move {s t : State} (ht : s.software.Next t) : s.Moves t := by
  have hs : s.software = s.software := rfl
  conv at hs => rhs; unfold State.software
  unfold State.software at ht
  split at ht
  · rename_i hl
    rcases ht with ht | ⟨i, s', ht, -⟩ <;> cases ht
    exact .inl ⟨_, hl, rfl⟩
  · rename_i hl
    refine .inr ⟨hl, ?_⟩
    simp only [hl] at hs
    split at ht
    · rename_i ha
      simp only [ha] at hs
      exact advanceAccess_move (.inl ha) hs ht
    · rename_i hn
      simp only [hn] at hs
      split at ht
      · rcases ht with ht | ⟨i, s', ht, -⟩ <;> cases ht
        exact .idle hn
      · rename_i hh
        rw [if_neg hh] at hs
        simp only [Bool.or_eq_true, not_or, Bool.not_eq_true, Option.isSome_eq_false_iff, Option.isNone_iff_eq_none] at hh
        split at ht
        · rename_i hpg
          rw [if_pos hpg] at hs
          exact advanceAccess_move (.inr ⟨hn, hh.1, hh.2, hpg, rfl⟩) hs ht
        · rename_i hpg
          rw [if_neg hpg] at hs
          unfold State.fetchUntranslated at ht hs
          split at ht
          · rename_i j rest hd
            simp only [hd] at hs
            have e : ({ s with lp := { s.lp with access := none } } : State) = s := by rw [← hn]
            rcases ht with ht | ⟨i, s', ht, he⟩ <;> cases ht
            exact .execute (i := j) (.inl ⟨by simpa using hpg, fun x hx => List.mem_of_mem_take hx⟩) (by rw [e]; exact hs)
              (by rw [e]; exact he)
          · rcases ht with ht | ⟨i, s', ht, -⟩ <;> cases ht

theorem delays_software (lp : LP) : lp.delays .software = false := rfl

/-- An input that does not wait is taken. -/
theorem begun_input {s : State} {i : Input} {rest : List Input} (h : s.inputs = i :: rest) (hd : s.lp.delays i = false) :
    s.begun = { s with inputs := rest } := by
  simp only [State.begun, h, hd, Bool.false_eq_true, if_false]

/-- With no input the step begins with the state as it is. -/
theorem begun_nil {s : State} (h : s.inputs = []) : s.begun = s := by
  unfold State.begun
  simp only [h]
  rw [← h]

/-- An input that waits stays. -/
theorem begun_waits {s : State} {i : Input} {rest : List Input} (h : s.inputs = i :: rest) (hd : s.lp.delays i = true) :
    s.begun = s := by
  unfold State.begun
  simp only [h, hd, if_true]
  rw [← h]

/-- Everything a step can do: the effect of the first waiting input, or a move of the software. -/
theorem step_cases {s t : State} (h : step s = .next t) :
    (∃ i rest, s.inputs = i :: rest ∧ i ≠ .software ∧ s.lp.delays i = false
        ∧ State.handle i { s with inputs := rest } = .next t)
      ∨ (s.plan = s.software ∧ s.SoftwareNext ∧ s.begun = s ∧ s.Moves t)
      ∨ (∃ rest, s.inputs = .software :: rest ∧ s.plan = State.software { s with inputs := rest }
          ∧ State.Moves { s with inputs := rest } t) := by
  have hn : s.plan.Next t := by
    unfold step at h
    split at h
    · exact .inl (by rw [‹s.plan = _›, h])
    · exact .inr ⟨_, _, ‹_›, h⟩
  cases hi : s.inputs with
  | nil =>
    have hp : s.plan = s.software := by simp only [State.plan, hi]
    exact .inr (.inl ⟨hp, .inl hi, begun_nil hi, software_move (hp ▸ hn)⟩)
  | cons i rest =>
    by_cases his : i = .software
    · subst his
      have hp : s.plan = State.software { s with inputs := rest } := by simp only [State.plan, hi]
      exact .inr (.inr ⟨rest, rfl, hp, software_move (hp ▸ hn)⟩)
    · have hp : s.plan = if s.lp.delays i then s.software
          else .done (State.handle i { s with inputs := rest }) := by
        cases i with
        | software => exact absurd rfl his
        | _ => simp only [State.plan, hi]
      by_cases hw : (s.lp.delays i) = true
      · rw [if_pos hw] at hp
        exact .inr (.inl ⟨hp, .inr ⟨i, rest, hi, .inr hw⟩, begun_waits hi hw, software_move (hp ▸ hn)⟩)
      · rw [if_neg hw] at hp
        rw [hp] at hn
        rcases hn with hn | ⟨_, _, hn, -⟩
        · injection hn with hn
          exact .inl ⟨i, rest, rfl, his, by simpa using hw, hn⟩
        · cases hn

/-! ## What the next step is -/

/-- The outcome of what the next step is. -/
def Plan.run : Plan → Host.Outcome State Fault Refusal
  | .done o => o
  | .execute i s => exec i s

theorem step_plan (s : State) : step s = s.plan.run := by
  unfold step
  cases s.plan <;> rfl

/-- Where the software moves next, the step is its next step. -/
theorem step_software {s : State} (h : s.SoftwareNext) : step s = s.begun.software.run := by
  rcases h with h | ⟨i, rest, h, rfl | hd⟩
  · rw [begun_nil h]
    simp only [step_plan, State.plan, h]
  · rw [begun_input h rfl]
    simp only [step_plan, State.plan, h]
  · rw [begun_waits h hd]
    cases i with
    | software => cases hd
    | _ => simp only [step_plan, State.plan, h, hd, if_true]

/-- Where another input comes first and does not wait, the step is its effect. -/
theorem step_input {s : State} {i : Input} {rest : List Input} (h : s.inputs = i :: rest) (hi : i ≠ .software)
    (hd : s.lp.delays i = false) : step s = State.handle i { s with inputs := rest } := by
  cases i with
  | software => exact absurd rfl hi
  | _ => simp only [step, State.plan, h, hd, Bool.false_eq_true, if_false]

/-- An input that waits for no access and meets no PDPTR load does not wait. -/
theorem delays_idle {lp : LP} {i : Input} (hl : lp.loading = none) (h : i.waitsForAccess = false ∨ lp.access = none) :
    lp.delays i = false := by
  rcases h with h | h <;> simp [LP.delays, h, hl]

theorem step_loading {s : State} {l : PdptrLoad} (h : s.Loading l) : step s = .next (s.begun.loadPdpte l) := by
  rw [step_software h.next]
  have : s.begun.lp.loading = some l := h.loading
  simp [State.software, Plan.run, this]

theorem step_walking {s : State} {a : Access} {p : Piece} {w : Walk} (h : s.Walking a p w) :
    step s = .next (s.begun.walkPage a p w) := by
  rw [step_software h.next]
  have h1 : s.begun.lp.loading = none := h.idle
  have : s.begun.lp.access = some a := h.access
  simp [State.software, State.advanceAccess, Plan.run, h1, this, h.phase]

/-- The software's step on the access it works on. -/
theorem software_current {s : State} {a : Access} (hl : s.lp.loading = none) (h : s.Current a) :
    s.software = s.advanceAccess a := by
  unfold State.software
  rcases h with h | ⟨h1, h2, h3, h4, rfl⟩
  · simp [hl, h]
  · simp [hl, h1, h2, h3, h4]

theorem step_choosing {s : State} {a : Access} {p : Piece} {rest : List Piece} (h : s.Choosing a p rest) :
    step s = s.begun.beginPage a p rest := by
  rw [step_software h.next, software_current (s := s.begun) h.idle h.access]
  have hp := h.picked
  have hr := h.rest
  unfold State.advanceAccess
  rw [h.phase]
  cases ht : a.todo with
  | nil => simp [State.ready, ht] at hp
  | cons q qs =>
    have hc : s.begun.choice = s.choice := rfl
    have hb : s.begun.ready a = s.ready a := rfl
    simp only [Plan.run, pick, hc, hb, hr, List.getD_eq_getElem?_getD, hp, Option.getD_some, ht]

theorem step_performing {s : State} {a : Access} {p : Piece} {pa : Nat} (h : s.Performing a p pa) :
    step s = .next (s.begun.performPiece a p pa) := by
  rw [step_software h.next]
  have h1 : s.begun.lp.loading = none := h.idle
  have : s.begun.lp.access = some a := h.access
  simp [State.software, State.advanceAccess, Plan.run, h1, this, h.phase, h.data]

end Sys2Proof.Machine
end

