-- ==== Sys2Proof/Laws/Invariant.lean ====
section
/-! SUPPORT. The induction over a step, packaged once: a property of logical processors that survives each primitive change of
a logical processor survives every step of the machine, on every logical processor. -/

namespace Sys2Proof.Machine

/-- The operation in progress goes on unchanged from `lp` to `lp'`, or it is over; or there is an access that waits for its next
page. -/
structure LP.Rests (lp lp' : LP) : Prop where
  load : lp'.loading = none ∨ (lp'.loading = lp.loading ∧ lp'.access = lp.access)
  access : lp'.access = lp.access ∨ ∀ a, lp'.access = some a → a.phase = .choosing

theorem LP.Rests.same {lp lp' : LP} (hl : lp'.loading = lp.loading) (ha : lp'.access = lp.access) : lp.Rests lp' :=
  ⟨.inr ⟨hl, ha⟩, .inl ha⟩

theorem LP.Rests.idle {lp lp' : LP} (hl : lp'.loading = none) (ha : ∀ a, lp'.access = some a → a.phase = .choosing) :
    lp.Rests lp' := ⟨.inl hl, .inr ha⟩

/-- The base of a walk: a structure an entry names, or what a paging-structure cache of `lp` holds. -/
def LP.BaseOf (cfg : Config) (lp : LP) (w : Walk) : Prop :=
  (w.base < 2 ^ cfg.paw ∧ w.base % 4096 = 0)
    ∨ ∃ e : PscEntry, (e ∈ lp.pml4c ∨ e ∈ lp.pdpc ∨ e ∈ lp.pdec) ∧ w.base = e.addr

/-- A property of a logical processor that survives every primitive change a step can make to it. -/
structure Kept (P : Config → LP → Prop) : Prop where
  /-- Cached entries and walks go; no control register changes. -/
  removes : ∀ {cfg lp lp'}, P cfg lp → lp'.cr0 = lp.cr0 → lp'.cr4 = lp.cr4 → lp'.efer = lp.efer → lp.OnlyRemoves lp' →
    lp'.walks.Sublist lp.walks → lp.Rests lp' → P cfg lp'
  /-- A walk step adds its cache entries. -/
  walkStep : ∀ {cfg c lp mem w}, P cfg lp → P cfg (walkStep cfg c lp mem w).lp
  /-- A page is translated, or the access goes on with a piece translated before. -/
  translated : ∀ {cfg lp pa} {a : Access} {p : Piece}, P cfg lp → lp.loading = none → a.phase = .translated p pa →
    P cfg { lp with access := some a }
  /-- The walk of an access begins. -/
  walking : ∀ {cfg lp w} {a : Access} {p : Piece}, P cfg lp → lp.loading = none → lp.pg = true → w.acc = a.acc →
    lp.BaseOf cfg w → a.phase = .walking p w → P cfg { lp with access := some a }
  /-- The walk of an access goes on. -/
  walkingMore : ∀ {cfg lp} {w w' : Walk} {a a' : Access} {p : Piece}, P cfg lp → lp.loading = none →
    lp.access = some a → a.phase = .walking p w → w'.acc = w.acc → w'.base < 2 ^ cfg.paw ∧ w'.base % 4096 = 0 →
    a'.acc = a.acc → a'.phase = .walking p w' → P cfg { lp with access := some a' }
  /-- A speculative walk begins. -/
  specStart : ∀ {cfg lp} {w : Walk}, P cfg lp → lp.pg = true → w.acc.spec = true → w.acc.kind ≠ .write →
    lp.BaseOf cfg w → P cfg { lp with walks := lp.walks ++ [w] }
  /-- A speculative walk goes on. -/
  specMore : ∀ {cfg lp n} {w w' : Walk}, P cfg lp → lp.walks[n]? = some w → w'.acc = w.acc →
    w'.base < 2 ^ cfg.paw ∧ w'.base % 4096 = 0 → P cfg { lp with walks := lp.walks.set n w' }
  /-- A speculative walk starts again. -/
  specAgain : ∀ {cfg lp n} {w w' : Walk}, P cfg lp → lp.walks[n]? = some w → w'.acc = w.acc → lp.pg = true →
    lp.BaseOf cfg w' → P cfg { lp with walks := lp.walks.eraseIdx n ++ [w'] }
  /-- A PDPTR load begins. -/
  load : ∀ {cfg lp} {l : PdptrLoad}, P cfg lp → lp.access = none → l.write.loads cfg lp = true →
    l.todo ≠ [] → P cfg { lp with loading := some l }
  /-- A PDPTR load goes on. -/
  loadMore : ∀ {cfg lp} {l l' : PdptrLoad}, P cfg lp → lp.loading = some l → l'.write = l.write →
    l'.todo ≠ [] → P cfg { lp with loading := some l' }
  /-- A PDPTR load ends, and with it its MOV to a control register. -/
  loadEnd : ∀ {cfg c t lp} {l : PdptrLoad}, P cfg lp → lp.loading = some l →
    P cfg (l.write.apply cfg c t { lp with loading := none })
  /-- A MOV to a control register that loads no PDPTR register. -/
  write : ∀ {cfg c t lp} {w : ControlWrite}, P cfg lp → lp.access = none → lp.loading = none → w.faults lp = false →
    P cfg (w.apply cfg c t lp)
  wrmsr : ∀ {cfg c v lp}, P cfg lp → lp.access = none → lp.loading = none → eferFaults cfg v lp = false →
    P cfg (wrmsrEfer cfg c v lp)

theorem LP.OnlyRemoves.refl (lp : LP) : lp.OnlyRemoves lp := ⟨.refl _, .refl _, .refl _, .refl _⟩

/-- The removal of `may{remove any entries}` only removes. -/
theorem LP.dropSome_removes (c : Choice) (lp : LP) : lp.OnlyRemoves (lp.dropSome c) :=
  ⟨thin_sublist _ _, thin_sublist _ _, thin_sublist _ _, thin_sublist _ _⟩

/-- The invalidation of a page fault only removes. -/
theorem LP.pfInvalidate_removes (c : Choice) (la : Word) (lp : LP) : lp.OnlyRemoves (lp.pfInvalidate c la) := by
  constructor <;> simp only [LP.pfInvalidate_tlb, LP.pfInvalidate_pml4c, LP.pfInvalidate_pdpc, LP.pfInvalidate_pdec] <;>
    exact (thin_sublist _ _).trans List.filter_sublist

/-- INVLPG only removes. -/
theorem invlpg_removes (cfg : Config) (c : Choice) (la : Word) (lp : LP) : lp.OnlyRemoves (invlpg cfg c la lp) := by
  unfold invlpg
  simp only
  split
  · constructor <;> simp only [LP.dropWalks_tlb, LP.dropWalks_pml4c, LP.dropWalks_pdpc, LP.dropWalks_pdec,
      LP.dropSome_tlb, LP.dropSome_pml4c, LP.dropSome_pdpc, LP.dropSome_pdec, LP.removePscFor_tlb,
      LP.removePscFor_pml4c, LP.removePscFor_pdpc, LP.removePscFor_pdec, LP.removeTlb_tlb, LP.removeTlb_pml4c,
      LP.removeTlb_pdpc, LP.removeTlb_pdec] <;>
      exact (thin_sublist _ _).trans List.filter_sublist
  · constructor <;> simp only [LP.dropWalks_tlb, LP.dropWalks_pml4c, LP.dropWalks_pdpc, LP.dropWalks_pdec,
      LP.dropSome_tlb, LP.dropSome_pml4c, LP.dropSome_pdpc, LP.dropSome_pdec, LP.flushPsc_tlb, LP.flushPsc_pml4c,
      LP.flushPsc_pdpc, LP.flushPsc_pdec, LP.removeTlb_tlb, thin_nil]
    · exact (thin_sublist _ _).trans List.filter_sublist
    all_goals exact List.nil_sublist _

/-- INVLPG changes no register, and no access. -/
theorem invlpg_registers (cfg : Config) (c : Choice) (la : Word) (lp : LP) :
    invlpg cfg c la lp
      = { lp with
          walks := []
          tlb := (invlpg cfg c la lp).tlb, pml4c := (invlpg cfg c la lp).pml4c
          pdpc := (invlpg cfg c la lp).pdpc, pdec := (invlpg cfg c la lp).pdec } := by
  unfold invlpg
  simp only
  split <;> rfl

section
variable {P : Config → LP → Prop}

theorem Kept.quiet (K : Kept P) {cfg : Config} {lp lp' : LP} (h : P cfg lp) (h0 : lp'.cr0 = lp.cr0) (h4 : lp'.cr4 = lp.cr4)
    (he : lp'.efer = lp.efer) (ht : lp'.tlb = lp.tlb) (hm : lp'.pml4c = lp.pml4c) (hp : lp'.pdpc = lp.pdpc)
    (hd : lp'.pdec = lp.pdec) (hw : lp'.walks = lp.walks) (ha : lp.Rests lp') : P cfg lp' :=
  K.removes h h0 h4 he ⟨by rw [ht], by rw [hm], by rw [hp], by rw [hd]⟩ (by rw [hw]) ha

theorem Kept.pageFault (K : Kept P) {cfg : Config} {c : Choice} {lp : LP} {la : Word} {acc : Acc} {p r : Bool}
    (h : P cfg lp) : P cfg (lp.pageFault c la acc p r) := by
  have := LP.pfInvalidate_removes c la lp
  exact K.removes h (by simp) (by simp) (by simp) ⟨this.tlb, this.pml4c, this.pdpc, this.pdec⟩ (by simp)
    (.idle (by simp) (by simp))

theorem Kept.exec (K : Kept P) {i : Instr} {s t : State} (h : P s.cfg s.lp) (ha : s.lp.access = none)
    (hl : s.lp.loading = none) (he : exec i s = .next t) : P t.cfg t.lp := by
  rw [(exec_outside he).1]
  have done : ∀ {lp' : LP} {n : Nat}, P s.cfg lp' → P s.cfg (lp'.advance n) := fun h' =>
    K.quiet h' rfl rfl rfl rfl rfl rfl rfl rfl (.same rfl rfl)
  rcases exec_next he with rfl | ⟨m, -, -, -, rfl⟩ | ⟨w, -, -, -, h1, rfl⟩ | ⟨w, -, -, h1, -, rfl⟩ | ⟨-, -, -, h1, rfl⟩ |
    ⟨g, -, rfl⟩ | ⟨-, -, rfl⟩
  · exact K.quiet h rfl rfl rfl rfl rfl rfl rfl rfl (.idle (by simp) (by simp))
  · have hr := invlpg_registers s.cfg s.choice (s.lp.effectiveAddress (Instr.invlpg m).length m) s.lp
    refine done (K.removes h ?_ ?_ ?_ (invlpg_removes _ _ _ _) ?_ (.same ?_ ?_)) <;> rw [hr]
    exact List.nil_sublist _
  · exact K.load h ha h1 (by simp)
  · exact done (K.write h ha hl h1)
  · exact done (K.wrmsr h ha hl h1)
  · exact done (K.quiet h rfl rfl rfl rfl rfl rfl rfl rfl (.same rfl rfl))
  · exact done (K.quiet h rfl rfl rfl rfl rfl rfl rfl rfl (.same rfl rfl))

theorem Kept.loadPdpte (K : Kept P) {s : State} {l : PdptrLoad} (h : P s.cfg s.lp) (hl : s.lp.loading = some l) :
    P s.cfg (s.loadPdpte l).lp := by
  rcases State.loadPdpte_cases l s with ⟨-, e⟩ | ⟨ht, e⟩
  · rcases State.endLoad_cases (s.readPdpte l) s with ⟨-, e'⟩ | ⟨-, e'⟩ <;> rw [e, e']
    · exact K.removes h (by simp) (by simp) (by simp) (by constructor <;> simp) (by simp) (.idle (by simp) (by simp))
    · have := K.loadEnd (c := s.choice) (t := (s.readPdpte l).entries) h hl
      exact K.quiet this rfl rfl rfl rfl rfl rfl rfl rfl (.same rfl rfl)
  · rw [e]
    exact K.loadMore h hl rfl ht

theorem Kept.nextPiece (K : Kept P) {s : State} {a : Access} (h : P s.cfg s.lp) (hl : s.lp.loading = none) :
    P (s.nextPiece a).cfg (s.nextPiece a).lp ∧ (s.nextPiece a).others = s.others ∧ (s.nextPiece a).cfg = s.cfg := by
  rcases nextPiece_cases a s with ⟨q, pa', rest, -, e⟩ | ⟨-, -, e⟩ | ⟨-, -, e⟩ <;> rw [e]
  · exact ⟨K.translated h hl rfl, rfl, rfl⟩
  · exact ⟨K.quiet h rfl rfl rfl rfl rfl rfl rfl rfl (.idle hl (by simp)), rfl, rfl⟩
  · exact ⟨K.quiet h rfl rfl rfl rfl rfl rfl rfl rfl (.idle hl (by simp)), rfl, rfl⟩

theorem Kept.software (K : Kept P) {s t : State} (h : P s.cfg s.lp) (hm : s.Moves t) :
    P t.cfg t.lp ∧ t.others = s.others ∧ t.cfg = s.cfg := by
  rcases hm with ⟨l, hl, rfl⟩ | ⟨hl, hm⟩
  · have ho := loadPdpte_outside l s
    exact ⟨by rw [ho.1]; exact K.loadPdpte h hl, ho.2.2.1, ho.1⟩
  cases hm with
  | idle => exact ⟨h, rfl, rfl⟩
  | finish => exact ⟨K.quiet h rfl rfl rfl rfl rfl rfl rfl rfl (.idle hl (by simp)), rfl, rfl⟩
  | found => exact ⟨by simpa using K.translated h hl (Access.found_phase _ _ _ _), by simp, by simp⟩
  | walk _ _ _ _ ht =>
    obtain ⟨-, h2, h3, -, -, h6⟩ := translate_walk ht
    exact ⟨by simpa using K.walking h hl h3 (by simpa [Access.acc] using h2) h6 rfl, by simp, by simp⟩
  | fault => exact ⟨by simpa using K.pageFault h, by simp, by simp⟩
  | @walkStep a p w ha hp =>
    have h1 : P s.cfg (Sys2Proof.Machine.walkStep s.cfg s.choice s.lp s.mem w).lp := K.walkStep h
    have ha1 : (Sys2Proof.Machine.walkStep s.cfg s.choice s.lp s.mem w).lp.access = some a := by simpa using ha
    have hl1 : (Sys2Proof.Machine.walkStep s.cfg s.choice s.lp s.mem w).lp.loading = none := by simpa using hl
    have rests := K.quiet (lp' := { (Sys2Proof.Machine.walkStep s.cfg s.choice s.lp s.mem w).lp with
      access := some { a with todo := p :: a.todo, phase := .choosing } }) h1 rfl rfl rfl rfl rfl rfl rfl rfl
        (.idle hl1 (by simp))
    simp only [State.walkPage]
    split
    · rename_i w' hr
      obtain ⟨-, h2, -, -, h5, h6⟩ := walkStep_more hr
      have hk := K.walkingMore (a' := { a with phase := .walking p w' }) h1 hl1 ha1 hp h2 ⟨h5, h6⟩ rfl rfl
      exact ⟨by simpa using hk, by simp, by simp⟩
    · rename_i pa b hr
      have hk := K.translated h1 hl1 (Access.found_phase a p pa b)
      exact ⟨by simpa using hk, by simp, by simp⟩
    · exact ⟨by simpa using K.pageFault h1, by simp, by simp⟩
    · exact ⟨by simpa using rests, by simp, by simp⟩
    · exact ⟨by simpa using rests, by simp, by simp⟩
  | @perform a p pa ha hp =>
    unfold State.performPiece
    split
    · exact K.nextPiece (s := { s with mem := s.mem.writeBytes pa ((a.bytes.drop p.off).take p.len) }) h hl
    · exact K.nextPiece (s := s.noteReads (addrsFrom pa p.len)) h hl
  | fetchMore ha =>
    exact ⟨K.quiet h rfl rfl rfl rfl rfl rfl rfl rfl (.idle hl (by simp)), rfl, rfl⟩
  | execute _ hp he =>
    refine ⟨K.exec ?_ rfl (by exact hl) he, (exec_outside he).2.2.1, (exec_outside he).1⟩
    exact K.quiet h rfl rfl rfl rfl rfl rfl rfl rfl (.idle hl (by simp))

theorem Kept.specStart' (K : Kept P) {s : State} {la : Word} {acc : Acc} (h : P s.cfg s.lp) (hs : acc.spec = true)
    (hk : acc.kind ≠ .write) : P s.cfg (s.specStart la acc).lp := by
  unfold State.specStart
  split
  · unfold State.specDone; split <;> simpa using h
  · simpa using h
  · rename_i w ht
    obtain ⟨-, h2, h3, -, -, h6⟩ := translate_walk ht
    exact K.specStart h h3 (by rw [h2]; exact hs) (by rw [h2]; exact hk) h6

theorem specStart_outside (s : State) (la : Word) (acc : Acc) :
    (s.specStart la acc).cfg = s.cfg ∧ (s.specStart la acc).others = s.others ∧ (s.specStart la acc).mem = s.mem
      ∧ (s.specStart la acc).inputs = s.inputs := by
  unfold State.specStart
  split
  · unfold State.specDone; split <;> simp
  · simp
  · simp

theorem Kept.walkNth (K : Kept P) {s : State} {n : Nat} (h : P s.cfg s.lp) :
    P s.cfg (s.walkNth n).lp ∧ (s.walkNth n).others = s.others ∧ (s.walkNth n).cfg = s.cfg := by
  unfold State.walkNth
  split
  · rename_i w hw
    have h1 : P s.cfg (Sys2Proof.Machine.walkStep s.cfg s.choice s.lp s.mem w).lp := K.walkStep h
    have hw1 : (Sys2Proof.Machine.walkStep s.cfg s.choice s.lp s.mem w).lp.walks[n]? = some w := by simpa using hw
    have herase : P s.cfg { (Sys2Proof.Machine.walkStep s.cfg s.choice s.lp s.mem w).lp with
        walks := (Sys2Proof.Machine.walkStep s.cfg s.choice s.lp s.mem w).lp.walks.eraseIdx n } :=
      K.removes h1 rfl rfl rfl ⟨.refl _, .refl _, .refl _, .refl _⟩ (List.eraseIdx_sublist _ _) (.same rfl rfl)
    unfold State.specWalk
    simp only
    split
    · rename_i w' hr
      obtain ⟨-, h2, -, -, h5, h6⟩ := walkStep_more hr
      exact ⟨K.specMore h1 hw1 h2 ⟨h5, h6⟩, by simp, by simp⟩
    · unfold State.specDone; split <;> exact ⟨by simpa using herase, by simp, by simp⟩
    · exact ⟨herase, by simp, by simp⟩
    · exact ⟨herase, by simp, by simp⟩
    · refine ⟨?_, (specStart_outside _ _ _).2.1.trans (by simp), (specStart_outside _ _ _).1.trans (by simp)⟩
      unfold State.specStart
      split
      · unfold State.specDone; split <;> simpa using herase
      · simpa using herase
      · rename_i w' ht
        obtain ⟨-, h2, h3, -, -, h6⟩ := translate_walk ht
        simp only [State.tick_cfg] at h6
        exact K.specAgain h1 hw1 h2 h3 h6
  · exact ⟨h, rfl, rfl⟩

/-- A property that survives every primitive change survives every step, on every logical processor. -/
theorem Kept.step (K : Kept P) {s t : State} (h : s.Each (P s.cfg)) (hs : Sys2Proof.Machine.step s = .next t) :
    t.Each (P t.cfg) := by
  have hl : P s.cfg s.lp := h s.lp (by simp [State.processors])
  have mk : ∀ {t : State}, P t.cfg t.lp ∧ t.others = s.others ∧ t.cfg = s.cfg → t.Each (P t.cfg) := by
    rintro t ⟨h1, h2, h3⟩ lp hlp
    rcases List.mem_cons.mp hlp with rfl | hlp
    · exact h1
    · rw [h3]
      exact h lp (List.mem_cons_of_mem _ (h2 ▸ hlp))
  have idle : ∀ {i : Input}, s.lp.delays i = false → i.waitsForLoad = true → s.lp.loading = none := fun {i} hd hi => by
    simpa [LP.delays, hi] using (Bool.or_eq_false_iff.mp hd).2
  rcases step_cases hs with ⟨i, rest, hi, hne, hd, hh⟩ | ⟨-, -, -, hm⟩ | ⟨rest, hi, -, hm⟩
  · cases i <;> simp only [State.handle] at hh
    case software => exact absurd rfl hne
    case load =>
      cases hh; split
      · exact mk ⟨hl, rfl, rfl⟩
      · exact mk ⟨K.quiet hl rfl rfl rfl rfl rfl rfl rfl rfl (.idle (idle hd rfl) (by simp [State.issue])), rfl, rfl⟩
    case store =>
      cases hh; split
      · exact mk ⟨hl, rfl, rfl⟩
      · exact mk ⟨K.quiet hl rfl rfl rfl rfl rfl rfl rfl rfl (.idle (idle hd rfl) (by simp [State.issue])), rfl, rfl⟩
    case fetch =>
      cases hh; split
      · exact mk ⟨hl, rfl, rfl⟩
      · exact mk ⟨K.quiet hl rfl rfl rfl rfl rfl rfl rfl rfl (.idle (idle hd rfl) (by simp [State.issue])), rfl, rfl⟩
    case specAccess f la =>
      cases hh
      unfold State.specAccess
      split
      · have ho := specStart_outside ({ s with inputs := rest } : State) (s.lp.linear la)
          { kind := if f then .fetch else .read, user := s.lp.user, spec := true }
        refine mk ⟨?_, ho.2.1, ho.1⟩
        rw [ho.1]
        exact K.specStart' (s := { s with inputs := rest }) hl rfl (by cases f <;> simp)
      · exact mk ⟨hl, rfl, rfl⟩
    case walkStep n =>
      cases hh
      obtain ⟨h1, h2, h3⟩ := K.walkNth (s := { s with inputs := rest }) (n := n) hl
      exact mk ⟨by rw [h3]; exact h1, h2, h3⟩
    case evict =>
      cases hh
      refine mk ⟨?_, by simp [State.evict], by simp [State.evict]⟩
      simp only [State.evict, State.tick_cfg]
      exact K.removes hl rfl rfl rfl
        ⟨thin_sublist _ _, thin_sublist _ _, thin_sublist _ _, thin_sublist _ _⟩ (thin_sublist _ _) (.same rfl rfl)
    case physStore =>
      unfold State.physStore at hh
      split at hh <;> cases hh
      exact mk ⟨hl, rfl, rfl⟩
    case schedule n =>
      cases hh
      unfold State.schedule
      split
      · rename_i lp' hn
        rintro lp hlp
        refine h lp ?_
        have hm : lp' ∈ s.others := List.mem_of_getElem? hn
        rcases List.mem_cons.mp hlp with rfl | hlp
        · exact List.mem_cons_of_mem _ hm
        · rcases List.mem_or_eq_of_mem_set hlp with hlp | rfl
          · exact List.mem_cons_of_mem _ hlp
          · exact List.mem_cons_self
      · exact mk ⟨hl, rfl, rfl⟩
    case wake => cases hh; exact mk ⟨K.quiet hl rfl rfl rfl rfl rfl rfl rfl rfl (.same rfl rfl), rfl, rfl⟩
    case resume => cases hh; exact mk ⟨K.quiet hl rfl rfl rfl rfl rfl rfl rfl rfl (.same rfl rfl), rfl, rfl⟩
    case setReg => cases hh; exact mk ⟨K.quiet hl rfl rfl rfl rfl rfl rfl rfl rfl (.same rfl rfl), rfl, rfl⟩
  · exact mk (K.software hl hm)
  · exact mk (K.software (s := { s with inputs := rest }) hl hm)

end

end Sys2Proof.Machine
end

