-- ==== Sys2Proof/Laws/Registers.lean ====
section
/-! SUPPORT. The page fault said once; the outcomes of a walk step by what the entry holds; what a step does to the control
registers, to CR2 and to the report of an exception. -/

namespace Sys2Proof.Machine

/-! ## Helpers about registers and operands -/

theorem linear_congr {l l' : LP} (h : l'.inIA32e = l.inIA32e) (x : Word) : l'.linear x = l.linear x := by simp [LP.linear, h]

/-- The mode does not change where PG and LMA do not. -/
theorem inIA32e_congr {l l' : LP} (h0 : l'.cr0 = l.cr0) (he : l'.lma = l.lma) : l'.inIA32e = l.inIA32e := by
  unfold LP.inIA32e LP.mode LP.pagingMode
  have : l'.pg = l.pg := by simp [LP.pg, h0]
  rw [this, he]
  by_cases hp : l.pg
  · by_cases hl : l.lma
    · simp [hp, hl]
    · simp only [hp, hl, if_true, if_false, Bool.false_eq_true]
      split <;> split <;> simp
  · simp [hp]

/-- A privileged instruction at CPL 0 (R337). -/
theorem privileged_zero {s : State} (h : s.lp.cpl = 0) (k : Host.Outcome State Fault Refusal) :
    s.privileged k = k := by simp [State.privileged, h]

/-- A canonical address bit by bit (R131). -/
theorem canonical_iff (la : Word) : canonical la = false ↔ ∃ i, 48 ≤ i ∧ i < 64 ∧ la.getLsbD i ≠ la.getLsbD 47 := by
  unfold canonical
  rw [beq_eq_false_iff_ne, ne_eq, BitVec.eq_of_getLsbD_eq_iff, not_forall]
  constructor
  · rintro ⟨i, h⟩
    simp only [not_forall] at h
    obtain ⟨hi, h⟩ := h
    rw [BitVec.getLsbD_signExtend, BitVec.msb_eq_getLsbD_last] at h
    by_cases h48 : i < 48
    · simp [hi, h48] at h
    · exact ⟨i, by omega, hi, by simpa [hi, h48] using h⟩
  · rintro ⟨i, h1, h2, h3⟩
    refine ⟨i, ?_⟩
    simp only [not_forall]
    refine ⟨h2, ?_⟩
    rw [BitVec.getLsbD_signExtend, BitVec.msb_eq_getLsbD_last]
    simpa [h2, Nat.not_lt.mpr h1] using h3

theorem refuses_iff (lp : LP) (la : Word) : lp.refuses la = true
    ↔ lp.mode = some .modeIA32e ∧ ∃ i, 48 ≤ i ∧ i < 64 ∧ la.getLsbD i ≠ la.getLsbD 47 := by
  rw [← canonical_iff]
  simp [LP.refuses, LP.inIA32e]

/-- The operand of a MOV (entry 3). -/
theorem operand_eq (lp : LP) (r : Reg) : lp.operand r
    = if lp.mode = some .modeIA32e then lp.gpr.get r else ((lp.gpr.get r).setWidth 32).setWidth 64 := by
  unfold LP.operand LP.inIA32e LP.reg32
  by_cases h : lp.mode = some .modeIA32e <;> simp [h]

/-- Every free choice is taken from the supply. -/
theorem tick_ne (s : State) : s.tick.choices ≠ s.choices ∨ s.tick.drawn ≠ s.drawn := by
  unfold State.tick
  split
  · rename_i c cs h; left; rw [h]; simp
  · right; simp

theorem complete_ne (s s' : State) (n lp) (hc : s.choices = s'.choices) (hd : s.drawn = s'.drawn) :
    s.tick.complete n lp ≠ s'.reportsGp := by
  intro h
  rcases tick_ne s with h' | h'
  · exact h' (by have := congrArg State.choices h; exact this.trans hc.symm)
  · exact h' (by have := congrArg State.drawn h; exact this.trans hd.symm)

theorem anyBit_true {v : Word} {hi lo : Nat} : anyBit v hi lo = true ↔ ∃ i, lo ≤ i ∧ i ≤ hi ∧ bit v i = true := by
  rw [← Bool.not_eq_false, anyBit_eq_false]
  push Not
  simp

/-! ## The page fault -/

/-- An access that ends with a page fault does what a page fault does, and nothing else (R226, R353). -/
theorem accessFault_pageFaults {s : State} {a : Access} {la : Word} {acc : Acc} {p rsvd : Bool} (c : Choice) :
    s.PageFaults (s.begun.tick.accessFault c a la acc p rsvd) a la acc p rsvd := by
  have hr := LP.pfInvalidate_removes c la s.lp
  have hb : s.begun.lp = s.lp := rfl
  constructor
  · simp [State.accessFault, LP.pageFault, LP.takeException, LP.pfInvalidate, hb, LP.nxe]
  · constructor <;> simpa [State.accessFault, LP.pageFault, LP.takeException, hb] using by
      first | exact hr.1 | exact hr.2 | exact hr.3 | exact hr.4
  · intro e he hm
    have he := mem_of_mem_thin he
    simp [LP.removeTlb, LP.removePscFor, hb, TlbEntry.forFault] at he
    have := he.2
    rw [hm]
    cases hs : e.size <;> simp [hs, hm] at this ⊢ <;> exact this
  · intro e he hm
    have he := mem_of_mem_thin he
    simp [LP.removeTlb, LP.removePscFor, hb, PscEntry.matches, pscKey] at he
    exact (he.2.resolve_left (by simpa using hm))
  · intro e he hm
    have he := mem_of_mem_thin he
    simp [LP.removeTlb, LP.removePscFor, hb, PscEntry.matches, pscKey] at he
    exact (he.2.resolve_left (by simpa using hm))
  · intro e he hm
    have he := mem_of_mem_thin he
    simp [LP.removeTlb, LP.removePscFor, hb, PscEntry.matches, pscKey] at he
    rw [hm]
    exact (he.2.resolve_left (by simpa using hm))
  · intro x hx
    simp only [State.accessFault]
    split
    · simp
      refine Memory.read_scramble_other _ _ _ _ ?_
      intro q hq
      by_contra h
      exact hx ⟨‹_›, q, hq, by omega⟩
    · simp [State.begun]
  · simp [State.accessFault, State.begun]
  · simp [State.accessFault, State.begun]
  · simp [State.accessFault, State.begun]
  · simp [State.accessFault, State.begun]

/-- The walk of an access that meets a faulting condition ends in the page fault. -/
theorem walkPage_fault {s : State} {a : Access} {p : Piece} {w : Walk} {pf rsvd : Bool} {b : Nat}
    (h : walkStep s.cfg s.choice s.lp s.mem w = ⟨s.mem, s.lp, .fault pf rsvd b⟩) :
    s.begun.walkPage a p w = s.begun.tick.accessFault s.choice a (a.firstByte b w.la) w.acc pf rsvd := by
  have : walkStep s.begun.cfg s.begun.choice s.begun.lp s.begun.mem w = ⟨s.mem, s.lp, .fault pf rsvd b⟩ := h
  unfold State.walkPage
  simp only [this]
  have : ({ s.begun.tick with mem := s.mem, lp := s.lp } : State) = s.begun.tick := by
    have h1 : s.begun.tick.mem = s.mem := by simp [State.begun]
    have h2 : s.begun.tick.lp = s.lp := by simp [State.begun]
    rw [← h1, ← h2]
  rw [this]; rfl

/-- A speculative walk that meets a faulting condition ends without effect (R150). -/
theorem specWalk_fault {s : State} {n : Nat} {w : Walk} {rest : List Input} {pf rsvd : Bool} {b : Nat}
    (hi : s.inputs = .walkStep n :: rest) (hl : s.lp.loading = none) (hw : s.lp.walks[n]? = some w)
    (h : walkStep s.cfg s.choice s.lp s.mem w = ⟨s.mem, s.lp, .fault pf rsvd b⟩) :
    step s = .next { s.begun.tick with lp := { s.lp with walks := s.lp.walks.eraseIdx n } } := by
  have hd : s.lp.delays (.walkStep n) = false := delays_idle hl (.inl rfl)
  rw [step_input hi (by simp) hd, ← begun_input hi hd]
  have hw' : s.begun.lp.walks[n]? = some w := hw
  have : walkStep s.begun.cfg s.begun.choice s.begun.lp s.begun.mem w = ⟨s.mem, s.lp, .fault pf rsvd b⟩ := h
  simp only [State.handle, State.walkNth, hw', State.specWalk, this]
  have h1 : s.begun.tick.mem = s.mem := by simp [State.begun]
  rw [← h1]

/-! ## A walk step by its entry -/

/-- A not-present entry (R137). -/
theorem walkStep_notPresent {cfg : Config} {c : Choice} {lp : LP} {mem : Memory} {w : Walk}
    (h : bit (w.entry cfg mem) 0 = false) :
    walkStep cfg c lp mem w = ⟨mem, lp, .fault false false 12⟩ := by
  have : present (mem.readEntry (w.entryAddr cfg) (entryBytes w.mode)) = false := h
  simp [walkStep, this]

/-- A present entry with a reserved bit set (R138). -/
theorem walkStep_reserved {cfg : Config} {c : Choice} {lp : LP} {mem : Memory} {w : Walk}
    (h : bit (w.entry cfg mem) 0 = true)
    (h2 : reserved cfg lp.nxe lp.pse w.mode w.level (w.entry cfg mem) = true) :
    walkStep cfg c lp mem w = ⟨mem, lp, .fault true true (w.pageBits lp.pse (w.entry cfg mem))⟩ := by
  have : present (mem.readEntry (w.entryAddr cfg) (entryBytes w.mode)) = true := h
  have h3 : reserved cfg lp.nxe lp.pse w.mode w.level (mem.readEntry (w.entryAddr cfg) (entryBytes w.mode)) = true := h2
  simp [walkStep, this, h3, Walk.entry]

/-- A leaf entry. -/
theorem walkStep_leaf {cfg : Config} {c : Choice} {lp : LP} {mem : Memory} {w : Walk}
    (h : bit (w.entry cfg mem) 0 = true)
    (h2 : reserved cfg lp.nxe lp.pse w.mode w.level (w.entry cfg mem) = false)
    (h3 : isLeaf lp.pse w.mode w.level (w.entry cfg mem) = true) :
    walkStep cfg c lp mem w
      = leafStep cfg c lp mem w (w.entryAddr cfg) (w.entry cfg mem) (w.rights.andEntry lp.nxe w.mode (w.entry cfg mem)) := by
  unfold Walk.entry at *
  have : present (mem.readEntry (w.entryAddr cfg) (entryBytes w.mode)) = true := h
  simp [walkStep, this, h2, h3]

/-- An upper entry. -/
theorem walkStep_upper {cfg : Config} {c : Choice} {lp : LP} {mem : Memory} {w : Walk}
    (h : bit (w.entry cfg mem) 0 = true)
    (h2 : reserved cfg lp.nxe lp.pse w.mode w.level (w.entry cfg mem) = false)
    (h3 : isLeaf lp.pse w.mode w.level (w.entry cfg mem) = false) :
    walkStep cfg c lp mem w
      = upperStep cfg c lp mem w (w.entryAddr cfg) (w.entry cfg mem) (w.rights.andEntry lp.nxe w.mode (w.entry cfg mem)) := by
  unfold Walk.entry at *
  have : present (mem.readEntry (w.entryAddr cfg) (entryBytes w.mode)) = true := h
  simp [walkStep, this, h2, h3]

/-- An entry after bits of it are set (R66). -/
theorem Memory.readEntry_setBits (m : Memory) (pa n mask : Nat) (h : mask < 256 ^ n) :
    (m.setBits pa n mask).readEntry pa n = m.readEntry pa n ||| BitVec.ofNat 64 mask := by
  unfold Memory.readEntry
  rw [Memory.readLe_setBits _ _ _ _ h, BitVec.ofNat_or]

theorem Memory.readEntry_setAccessed (m : Memory) (pa : Nat) (md : PagingMode) :
    (m.setBits pa (entryBytes md) accessedMask).readEntry pa (entryBytes md)
      = m.readEntry pa (entryBytes md) ||| 0x20 :=
  Memory.readEntry_setBits _ _ _ _ (by cases md <;> simp [entryBytes, accessedMask])

theorem Memory.readEntry_setLeaf (m : Memory) (pa : Nat) (md : PagingMode) (k : AccessKind) :
    (m.setBits pa (entryBytes md) (leafMask k)).readEntry pa (entryBytes md)
      = m.readEntry pa (entryBytes md) ||| (if k = .write then 0x60 else 0x20) := by
  rw [Memory.readEntry_setBits _ _ _ _ (by cases md <;> cases k <;> simp [entryBytes, leafMask])]
  cases k <;> rfl

/-- A walk step adds to the caches only (R172, R196). -/
theorem walkStep_adds (cfg : Config) (c : Choice) (lp : LP) (mem : Memory) (w : Walk) :
    lp.OnlyAdds (walkStep cfg c lp mem w).lp := by
  have same : lp.OnlyAdds lp := ⟨.refl _, .refl _, .refl _, .refl _⟩
  rcases walkStep_cases cfg c lp mem w with ⟨-, h⟩ | ⟨-, -, h⟩ | ⟨-, -, -, h⟩ | ⟨-, -, -, h⟩ <;> rw [h]
  · exact same
  · exact same
  · rcases leafStep_cases cfg c lp mem w (w.entryAddr cfg) (mem.readEntry (w.entryAddr cfg) (entryBytes w.mode))
      (w.rights.andEntry lp.nxe w.mode (mem.readEntry (w.entryAddr cfg) (entryBytes w.mode))) with
      ⟨-, h⟩ | ⟨-, -, h⟩ | ⟨-, -, -, -, h⟩ | ⟨-, -, -, h⟩ <;> rw [h]
    · exact same
    · exact same
    · exact same
    · exact ⟨LP.cacheLeaf_sublist _ _ _ _ _ _, by simp, by simp, by simp⟩
  · simp only [upperStep]
    split
    · have := LP.cachePsc_sublist cfg w.level
        { mode := w.mode, key := pscKey w.mode w.level w.la,
          addr := nextBase cfg w.mode (mem.readEntry (w.entryAddr cfg) (entryBytes w.mode)),
          rights := w.rights.andEntry lp.nxe w.mode (mem.readEntry (w.entryAddr cfg) (entryBytes w.mode)) } lp
      exact ⟨by simp, this.1, this.2.1, this.2.2⟩
    · exact same

/-- A walk step writes below 2^PAW only (R9, R64). -/
theorem walkStep_mem_lt {cfg : Config} (c : Choice) (lp : LP) {mem : Memory} (w : Walk) (h : ∀ x ∈ mem, x.1 < 2 ^ cfg.paw) :
    ∀ x ∈ (walkStep cfg c lp mem w).mem, x.1 < 2 ^ cfg.paw := by
  have hb : w.entryAddr cfg + entryBytes w.mode ≤ 2 ^ cfg.paw :=
    le_trans (entryAddr_bounds cfg w.mode w.level w.base w.la).1
      (Nat.pow_le_pow_right (by norm_num) (addrWidth_bounds cfg w.mode).2)
  rcases walkStep_cases cfg c lp mem w with ⟨-, h'⟩ | ⟨-, -, h'⟩ | ⟨-, -, -, h'⟩ | ⟨-, -, -, h'⟩ <;> rw [h']
  · exact h
  · exact h
  · rcases leafStep_cases cfg c lp mem w (w.entryAddr cfg) (mem.readEntry (w.entryAddr cfg) (entryBytes w.mode))
      (w.rights.andEntry lp.nxe w.mode (mem.readEntry (w.entryAddr cfg) (entryBytes w.mode))) with
      ⟨-, h'⟩ | ⟨-, -, h'⟩ | ⟨-, -, -, -, h'⟩ | ⟨-, -, -, h'⟩ <;> rw [h']
    · exact h
    · exact h
    · exact h
    · exact Memory.lt_setBits _ _ _ h hb
  · simp only [upperStep]
    split
    · exact Memory.lt_setBits _ _ _ h hb
    · exact h

/-- A translation that faults at its start. -/
theorem beginPage_fault {s : State} {a : Access} {p : Piece} {rest : List Piece} {pf rsvd : Bool} {b : Nat}
    (hr : s.lp.refuses p.la = false) (ht : translate s.cfg (s.choiceFor a p) s.lp p.la a.acc = .fault pf rsvd b) :
    s.begun.beginPage a p rest = .next (s.begun.tick.accessFault s.choice a (a.firstByte b p.la) a.acc pf rsvd) := by
  have h1 : s.begun.lp.refuses p.la = false := hr
  have h2 : translate s.begun.cfg (s.begun.choiceFor a p) s.begun.lp p.la a.acc = .fault pf rsvd b := ht
  simp only [State.beginPage, h1, h2]
  rfl

/-- A translation that chooses a TLB entry (R175 to R177). -/
theorem translate_tlb {cfg : Config} {c : Choice} {lp : LP} {la : Word} {acc : Acc} {e : TlbEntry} (hpg : lp.pg = true)
    (hp : pick .root (alternatives lp lp.pagingMode la acc.kind) c.alternative = .tlb e) :
    translate cfg c lp la acc = match useTlb lp e la acc with
      | .found pa => .found pa (e.pageBits c.wholePage)
      | .denied => .fault true false (e.pageBits false)
      | .cannotComplete =>
        startWalk cfg lp lp.pagingMode la acc (pick .root (walkAlternatives lp lp.pagingMode la) c.again) := by
  unfold translate
  cases h : useTlb lp e la acc <;> simp only [LP.mode, hpg, if_true, hp, h]

/-! ## Control registers -/

/-- The control registers, CPL, the PDPTR registers and the physical processor are the same. -/
structure SameControl (l l' : LP) : Prop where
  physical : l'.physical = l.physical
  cr0 : l'.cr0 = l.cr0
  cr3 : l'.cr3 = l.cr3
  cr4 : l'.cr4 = l.cr4
  efer : l'.efer = l.efer
  cpl : l'.cpl = l.cpl
  pdptr : l'.pdptr = l.pdptr

/-- Everything a page fault does to a logical processor (R226, R352, R353). -/
theorem pageFault_facts (c : Choice) (la : Word) (acc : Acc) (p r : Bool) (lp : LP) (k : AccessKind) :
    let l := lp.pageFault c la acc p r
    l.cr2 = la ∧ l.access = none ∧ l.walks = [] ∧ alternatives l l.pagingMode la k = [.root] ∧ SameControl lp l
      ∧ l.exc = some (.pageFault la (errorCode lp.nxe acc p r)) ∧ lp.OnlyRemoves l := by
  intro l
  have hm : l.pagingMode = lp.pagingMode := rfl
  refine ⟨rfl, rfl, rfl, ?_, ⟨rfl, rfl, rfl, rfl, rfl, rfl, rfl⟩, by simp [l, LP.pageFault, LP.takeException], ?_⟩
  · rw [hm]
    simp only [alternatives, walkAlternatives]
    have h1 : l.tlb.filter (TlbEntry.matches lp.pagingMode la k) = [] := by
      rw [List.filter_eq_nil_iff]
      intro e he
      have he := mem_of_mem_thin he
      simp [LP.removeTlb, LP.removePscFor, TlbEntry.forFault] at he
      have := he.2
      simp [TlbEntry.matches]
      intro h1 h2
      cases hs : e.size <;> simp_all
    have h2 : l.pdec.filter (PscEntry.matches lp.pagingMode .pde la) = [] := by
      rw [List.filter_eq_nil_iff]
      intro e he
      have he := mem_of_mem_thin he
      simp [LP.removePscFor] at he
      simpa using he.2
    have h3 : l.pdpc.filter (PscEntry.matches lp.pagingMode .pdpe la) = [] := by
      rw [List.filter_eq_nil_iff]
      intro e he
      have he := mem_of_mem_thin he
      simp [LP.removePscFor] at he
      simpa using he.2
    have h4 : l.pml4c.filter (PscEntry.matches lp.pagingMode .pml4e la) = [] := by
      rw [List.filter_eq_nil_iff]
      intro e he
      have he := mem_of_mem_thin he
      simp [LP.removePscFor] at he
      simpa using he.2
    simp [h1, h2, h3, h4]
  · have := LP.pfInvalidate_removes c la lp
    exact ⟨this.1, this.2, this.3, this.4⟩

/-- Nothing a claim about control registers names has changed: no control register, no CR2, no report of an exception, no PDPTR load
begun. -/
structure Quiet (l l' : LP) : Prop where
  control : SameControl l l'
  cr2 : l'.cr2 = l.cr2
  exc : l'.exc = l.exc
  loading : l'.loading = l.loading

/-- Nothing but the record of the access changes as an access goes on to its next piece. -/
theorem nextPiece_eq (a : Access) (s : State) :
    ∃ acc res, s.nextPiece a = { s with lp := { s.lp with access := acc, result := res } } := by
  rcases nextPiece_cases a s with ⟨_, _, _, -, h⟩ | ⟨-, -, h⟩ | ⟨-, -, h⟩ <;> rw [h]
  · exact ⟨_, s.lp.result, rfl⟩
  · exact ⟨none, _, rfl⟩
  · exact ⟨_, s.lp.result, rfl⟩

/-- What the software's next step does to the control registers: nothing, a page fault, the execution of an instruction, or a read
of a PDPTR load. -/
theorem software_registers {s t : State} (hm : s.Moves t) :
    t.others = s.others ∧ t.cfg = s.cfg
      ∧ (Quiet s.lp t.lp
        ∨ (∃ c la acc p r lp, t.lp = LP.pageFault c la acc p r lp ∧ SameControl s.lp lp)
        ∨ (∃ i l, s.software = .execute i (({ s with lp := { s.lp with access := none } } : State).noteReads l)
            ∧ s.lp.loading = none
            ∧ exec i (({ s with lp := { s.lp with access := none } } : State).noteReads l) = .next t)
        ∨ ∃ l, s.lp.loading = some l ∧ t = s.loadPdpte l) := by
  rcases hm with ⟨l, hl, rfl⟩ | ⟨hl, hm⟩
  · have ho := loadPdpte_outside l s
    exact ⟨ho.2.2.1, ho.1, .inr (.inr (.inr ⟨l, hl, rfl⟩))⟩
  cases hm with
  | idle => exact ⟨rfl, rfl, .inl ⟨⟨rfl, rfl, rfl, rfl, rfl, rfl, rfl⟩, rfl, rfl, rfl⟩⟩
  | finish => exact ⟨rfl, rfl, .inl ⟨⟨rfl, rfl, rfl, rfl, rfl, rfl, rfl⟩, rfl, rfl, rfl⟩⟩
  | found => exact ⟨by simp, by simp, .inl ⟨by constructor <;> simp, by simp, by simp, by simp⟩⟩
  | walk => exact ⟨by simp, by simp, .inl ⟨by constructor <;> simp, by simp, by simp, by simp⟩⟩
  | fault =>
    exact ⟨by simp, by simp, .inr (.inl ⟨_, _, _, _, _, s.lp, by simp [State.accessFault]; rfl,
      ⟨rfl, rfl, rfl, rfl, rfl, rfl, rfl⟩⟩)⟩
  | @walkStep a p w ha hp =>
    have hc : SameControl s.lp (Sys2Proof.Machine.walkStep s.cfg s.choice s.lp s.mem w).lp := by constructor <;> simp
    unfold State.walkPage
    simp only
    split
    · exact ⟨by simp, by simp, .inl ⟨by constructor <;> simp, by simp, by simp, by simp⟩⟩
    · exact ⟨by simp, by simp, .inl ⟨by constructor <;> simp, by simp, by simp, by simp⟩⟩
    · exact ⟨by simp, by simp, .inr (.inl ⟨_, _, _, _, _, _, rfl, hc⟩)⟩
    · exact ⟨by simp, by simp, .inl ⟨by constructor <;> simp, by simp, by simp, by simp⟩⟩
    · exact ⟨by simp, by simp, .inl ⟨by constructor <;> simp, by simp, by simp, by simp⟩⟩
  | @perform a p pa ha hp =>
    unfold State.performPiece
    split
    · obtain ⟨x, y, h⟩ := nextPiece_eq { a with done := (pa, p.len) :: a.done }
        { s with mem := s.mem.writeBytes pa ((a.bytes.drop p.off).take p.len) }
      rw [h]
      exact ⟨rfl, rfl, .inl ⟨⟨rfl, rfl, rfl, rfl, rfl, rfl, rfl⟩, rfl, rfl, rfl⟩⟩
    · obtain ⟨x, y, h⟩ := nextPiece_eq { a with bytes := patch a.bytes p.off (s.mem.readBytes pa p.len) }
        (s.noteReads (addrsFrom pa p.len))
      rw [h]
      exact ⟨rfl, rfl, .inl ⟨⟨rfl, rfl, rfl, rfl, rfl, rfl, rfl⟩, rfl, rfl, rfl⟩⟩
  | fetchMore => exact ⟨rfl, rfl, .inl ⟨⟨rfl, rfl, rfl, rfl, rfl, rfl, rfl⟩, rfl, rfl, rfl⟩⟩
  | execute _ h1 h2 =>
    obtain ⟨a, b, c, d⟩ := exec_outside h2
    exact ⟨by rw [c]; rfl, by rw [a]; rfl, .inr (.inr (.inl ⟨_, _, h1, hl, h2⟩))⟩

/-- What the beginning of a speculative translation does to a logical processor: at most one walk more. -/
theorem specStart_registers (s : State) (la : Word) (acc : Acc) :
    ∃ ws, (s.specStart la acc).lp = { s.lp with walks := ws } := by
  unfold State.specStart
  split
  · unfold State.specDone; split <;> exact ⟨s.lp.walks, by simp⟩
  · exact ⟨s.lp.walks, by simp⟩
  · exact ⟨_, rfl⟩

/-- What a step of a speculative walk does to the registers: nothing. -/
theorem walkNth_registers (s : State) (n : Nat) :
    (s.walkNth n).others = s.others ∧ (s.walkNth n).cfg = s.cfg
      ∧ ∃ a b c d e, (s.walkNth n).lp = { s.lp with walks := a, tlb := b, pml4c := c, pdpc := d, pdec := e } := by
  unfold State.walkNth
  split
  · rename_i w hw
    unfold State.specWalk
    simp only
    have hl := walkStep_lp s.cfg s.choice s.lp s.mem w
    split
    · exact ⟨by simp, by simp, _, _, _, _, _, by simp only; rw [hl]⟩
    · unfold State.specDone; split <;> exact ⟨by simp, by simp, _, _, _, _, _, by simp only [State.noteReads_lp]; rw [hl]⟩
    · exact ⟨by simp, by simp, _, _, _, _, _, by simp only; rw [hl]⟩
    · exact ⟨by simp, by simp, _, _, _, _, _, by simp only; rw [hl]⟩
    · refine ⟨(specStart_outside _ _ _).2.1.trans (by simp), (specStart_outside _ _ _).1.trans (by simp), ?_⟩
      generalize hs : ({ s.tick with
        mem := (walkStep s.cfg s.choice s.lp s.mem w).mem
        lp := { (walkStep s.cfg s.choice s.lp s.mem w).lp with
          walks := (walkStep s.cfg s.choice s.lp s.mem w).lp.walks.eraseIdx n } } : State) = s'
      obtain ⟨ws, h⟩ := specStart_registers s' w.la w.acc
      rw [h, ← hs]
      exact ⟨_, _, _, _, _, by simp only; rw [hl]⟩
  · exact ⟨rfl, rfl, _, _, _, _, _, rfl⟩

/-- What any step but a `schedule` does to the control registers, CR2 and the report of an exception. -/
theorem step_registers {s t : State} (hsch : ¬ s.Schedules) (h : step s = .next t) :
    t.others = s.others ∧ t.cfg = s.cfg
      ∧ (Quiet s.lp t.lp
        ∨ (∃ rip cpl rest, s.inputs = .resume rip cpl :: rest ∧ t.lp = s.lp.resume rip cpl)
        ∨ (∃ c la acc p r lp, t.lp = LP.pageFault c la acc p r lp ∧ SameControl s.lp lp)
        ∨ (∃ i s', s.plan = .execute i s' ∧ exec i s' = .next t ∧ s.lp.loading = none ∧ s'.mem = s.mem
            ∧ s'.lp = { s.lp with access := none })
        ∨ ∃ l, s.Loading l ∧ t = s.begun.loadPdpte l) := by
  have same : Quiet s.lp s.lp := ⟨⟨rfl, rfl, rfl, rfl, rfl, rfl, rfl⟩, rfl, rfl, rfl⟩
  have soft : ∀ {s' : State}, s'.lp = s.lp → s'.mem = s.mem → s'.others = s.others → s'.cfg = s.cfg →
      s.plan = s'.software → (∀ l, s.lp.loading = some l → s.SoftwareNext ∧ s.begun = s') → s'.Moves t →
      t.others = s.others ∧ t.cfg = s.cfg
      ∧ (Quiet s.lp t.lp
        ∨ (∃ rip cpl rest, s.inputs = .resume rip cpl :: rest ∧ t.lp = s.lp.resume rip cpl)
        ∨ (∃ c la acc p r lp, t.lp = LP.pageFault c la acc p r lp ∧ SameControl s.lp lp)
        ∨ (∃ i s', s.plan = .execute i s' ∧ exec i s' = .next t ∧ s.lp.loading = none ∧ s'.mem = s.mem
            ∧ s'.lp = { s.lp with access := none })
        ∨ ∃ l, s.Loading l ∧ t = s.begun.loadPdpte l) := fun {s'} e1 e2 e3 e4 hp hb hm => by
    obtain ⟨h1, h2, h3⟩ := software_registers hm
    refine ⟨h1.trans e3, h2.trans e4, ?_⟩
    rcases h3 with h3 | h3 | ⟨i, l, h3, hl, h4⟩ | ⟨l, hl, h4⟩
    · exact .inl (e1 ▸ h3)
    · exact .inr (.inr (.inl (e1 ▸ h3)))
    · exact .inr (.inr (.inr (.inl ⟨i, _, hp.trans h3, h4, e1 ▸ hl, e2, by rw [← e1]; rfl⟩)))
    · have hl : s.lp.loading = some l := e1 ▸ hl
      obtain ⟨h5, h6⟩ := hb l hl
      exact .inr (.inr (.inr (.inr ⟨l, ⟨h5, hl⟩, by rw [h6]; exact h4⟩)))
  rcases step_cases h with ⟨i, rest, hi, hne, -, hh⟩ | ⟨hp, hn, hb, hm⟩ | ⟨rest, hi, hp, hm⟩
  · cases i <;> simp only [State.handle] at hh
    case software => exact absurd rfl hne
    case load => cases hh; split <;> exact ⟨rfl, rfl, .inl ⟨⟨rfl, rfl, rfl, rfl, rfl, rfl, rfl⟩, rfl, rfl, rfl⟩⟩
    case store => cases hh; split <;> exact ⟨rfl, rfl, .inl ⟨⟨rfl, rfl, rfl, rfl, rfl, rfl, rfl⟩, rfl, rfl, rfl⟩⟩
    case fetch => cases hh; split <;> exact ⟨rfl, rfl, .inl ⟨⟨rfl, rfl, rfl, rfl, rfl, rfl, rfl⟩, rfl, rfl, rfl⟩⟩
    case specAccess f la =>
      cases hh
      unfold State.specAccess
      split
      · have h1 := specStart_outside ({ s with inputs := rest } : State) (s.lp.linear la)
          { kind := if f then .fetch else .read, user := s.lp.user, spec := true }
        obtain ⟨ws, h2⟩ := specStart_registers ({ s with inputs := rest } : State) (s.lp.linear la)
          { kind := if f then .fetch else .read, user := s.lp.user, spec := true }
        refine ⟨h1.2.1, h1.1, .inl ?_⟩
        show Quiet s.lp (State.specStart _ _ _).lp
        simp only at h2 ⊢
        rw [h2]
        exact ⟨⟨rfl, rfl, rfl, rfl, rfl, rfl, rfl⟩, rfl, rfl, rfl⟩
      · exact ⟨rfl, rfl, .inl same⟩
    case walkStep n =>
      cases hh
      obtain ⟨h1, h2, _, _, _, _, _, h3⟩ := walkNth_registers { s with inputs := rest } n
      refine ⟨h1, h2, .inl ?_⟩
      rw [h3]
      exact ⟨⟨rfl, rfl, rfl, rfl, rfl, rfl, rfl⟩, rfl, rfl, rfl⟩
    case evict => cases hh; exact ⟨by simp [State.evict], by simp [State.evict],
        .inl ⟨⟨rfl, rfl, rfl, rfl, rfl, rfl, rfl⟩, rfl, rfl, rfl⟩⟩
    case physStore =>
      unfold State.physStore at hh
      split at hh <;> cases hh
      exact ⟨rfl, rfl, .inl same⟩
    case schedule n => exact absurd ⟨_, _, hi⟩ hsch
    case wake => cases hh; exact ⟨rfl, rfl, .inl ⟨⟨rfl, rfl, rfl, rfl, rfl, rfl, rfl⟩, rfl, rfl, rfl⟩⟩
    case resume => cases hh; exact ⟨rfl, rfl, .inr (.inl ⟨_, _, _, hi, rfl⟩)⟩
    case setReg => cases hh; exact ⟨rfl, rfl, .inl ⟨⟨rfl, rfl, rfl, rfl, rfl, rfl, rfl⟩, rfl, rfl, rfl⟩⟩
  · exact soft rfl rfl rfl rfl hp (fun _ _ => ⟨hn, hb⟩) hm
  · exact soft (s' := { s with inputs := rest }) rfl rfl rfl rfl hp
      (fun _ _ => ⟨.inr ⟨_, _, hi, .inl rfl⟩, begun_input hi rfl⟩) hm

/-- What the end of a MOV to a control register does to cached entries, CR2 and the report of an exception. -/
theorem finishMov_removes (w : ControlWrite) (t : Pdptrs) (s : State) :
    s.lp.OnlyRemoves (s.finishMov w t).lp ∧ (s.finishMov w t).lp.cr2 = s.lp.cr2
      ∧ ((s.finishMov w t).lp.exc = s.lp.exc ∨ (s.finishMov w t).lp.exc = some (.generalProtection 0)) := by
  have r := ControlWrite.apply_removes s.cfg s.choice t s.lp w
  have e := ControlWrite.apply_eq s.cfg s.choice t s.lp w
  refine ⟨⟨r.1, r.2.1, r.2.2.1, r.2.2.2⟩, ?_, .inl ?_⟩ <;> simp only [State.finishMov, State.complete_lp, LP.advance_cr2,
    LP.advance_exc] <;> rw [e]

/-- What an instruction does to cached entries, CR2 and the report of an exception. -/
theorem exec_removes {i : Instr} {s t : State} (h : exec i s = .next t) :
    s.lp.OnlyRemoves t.lp ∧ t.lp.cr2 = s.lp.cr2
      ∧ (t.lp.exc = s.lp.exc ∨ t.lp.exc = some (.generalProtection 0)) := by
  rcases exec_next h with rfl | ⟨m, -, -, -, rfl⟩ | ⟨w, -, -, -, -, rfl⟩ | ⟨w, -, -, -, -, rfl⟩ | ⟨rfl, -, -, -, rfl⟩ |
      ⟨g, -, rfl⟩ | ⟨-, -, rfl⟩
  · exact ⟨⟨.refl _, .refl _, .refl _, .refl _⟩, rfl, .inr rfl⟩
  · have e := invlpg_registers s.cfg s.choice (s.lp.effectiveAddress (Instr.invlpg m).length m) s.lp
    have r := invlpg_removes s.cfg s.choice (s.lp.effectiveAddress (Instr.invlpg m).length m) s.lp
    refine ⟨⟨r.1, r.2, r.3, r.4⟩, ?_, .inl ?_⟩ <;> simp <;> rw [e]
  · exact ⟨⟨.refl _, .refl _, .refl _, .refl _⟩, rfl, .inl rfl⟩
  · exact finishMov_removes w s.lp.pdptr s
  · have r := LP.modeChanged_sublist s.cfg s.choice (bit s.lp.edxEax 11 != s.lp.nxe)
      { s.lp with efer := eferWritten s.lp.efer s.lp.edxEax }
    exact ⟨⟨r.1, r.2.1, r.2.2.1, r.2.2.2⟩, by simp [wrmsrEfer], .inl (by simp [wrmsrEfer])⟩
  · exact ⟨⟨.refl _, .refl _, .refl _, .refl _⟩, rfl, .inl rfl⟩
  · exact ⟨⟨.refl _, .refl _, .refl _, .refl _⟩, rfl, .inl rfl⟩

/-- What a read of a PDPTR load does to cached entries, CR2 and the report of an exception. -/
theorem loadPdpte_removes (l : PdptrLoad) (s : State) :
    s.lp.OnlyRemoves (s.loadPdpte l).lp ∧ (s.loadPdpte l).lp.cr2 = s.lp.cr2
      ∧ ((s.loadPdpte l).lp.exc = s.lp.exc ∨ (s.loadPdpte l).lp.exc = some (.generalProtection 0)) := by
  rcases State.loadPdpte_cases l s with ⟨-, e⟩ | ⟨-, e⟩
  · rcases State.endLoad_cases (s.readPdpte l) s with ⟨-, e'⟩ | ⟨-, e'⟩ <;> rw [e, e']
    · exact ⟨by constructor <;> simp, by simp, .inr (by simp)⟩
    · obtain ⟨r, h⟩ := finishMov_removes l.write (s.readPdpte l).entries { s with lp := { s.lp with loading := none } }
      exact ⟨⟨r.1, r.2, r.3, r.4⟩, h⟩
  · rw [e]
    exact ⟨⟨.refl _, .refl _, .refl _, .refl _⟩, rfl, .inl rfl⟩

end Sys2Proof.Machine
end

