-- ==== Sys2Proof/Laws/Address.lean ====
section
/-! SUPPORT. Where the physical addresses of an access lie: inside the page its translation shows, and so below 2^PAW (R9, R65). -/

namespace Sys2Proof.Machine

/-- A run of bytes inside a page of physical memory ends at 2^PAW at the latest. -/
theorem inPage_room {pa b n x len : Nat} (h : pa < 2 ^ n) (hb : b ≤ n) (hx : x % 2 ^ b + len ≤ 2 ^ b) :
    pa / 2 ^ b * 2 ^ b + x % 2 ^ b + len ≤ 2 ^ n := by
  obtain ⟨k, rfl⟩ := Nat.exists_eq_add_of_le hb
  rw [Nat.pow_add] at *
  have h1 : pa / 2 ^ b < 2 ^ k := Nat.div_lt_of_lt_mul h
  calc pa / 2 ^ b * 2 ^ b + x % 2 ^ b + len ≤ pa / 2 ^ b * 2 ^ b + 2 ^ b := by omega
    _ = (pa / 2 ^ b + 1) * 2 ^ b := by ring
    _ ≤ 2 ^ k * 2 ^ b := Nat.mul_le_mul_right _ h1
    _ = 2 ^ b * 2 ^ k := Nat.mul_comm _ _

/-- The byte in a larger page is that in the 4-KByte page, behind the 4-KByte pages before it. -/
theorem mod_page (y k : Nat) : y % 2 ^ (12 + k) = y % 4096 + 4096 * (y / 4096 % 2 ^ k) := by rw [Nat.pow_add, Nat.mod_mul]

/-- What lies in one 4-KByte piece lies in one page of any size. -/
theorem Piece.Fits.page {p : Piece} {b : Nat} (h : p.Fits) (hb : 12 ≤ b) : p.la.toNat % 2 ^ b + p.len ≤ 2 ^ b := by
  unfold Piece.Fits at h
  obtain ⟨k, rfl⟩ := Nat.exists_eq_add_of_le hb
  have h2 : p.la.toNat / 4096 % 2 ^ k < 2 ^ k := Nat.mod_lt _ (by positivity)
  rw [mod_page, show 2 ^ (12 + k) = 4096 * 2 ^ k by rw [Nat.pow_add]]
  omega

/-- The pieces of an access lie in one 4-KByte piece of the linear-address space each. -/
theorem LP.pieces_fit (lp : LP) (fuel : Nat) (la : Word) (off n : Nat) : ∀ p ∈ lp.pieces fuel la off n, p.Fits := by
  induction fuel generalizing la off n with
  | zero => simp [LP.pieces]
  | succ k ih =>
    unfold LP.pieces
    split
    · simp
    · intro p hp
      rcases List.mem_cons.mp hp with rfl | hp
      · unfold Piece.Fits; simp only; omega
      · exact ih _ _ _ p hp

theorem LP.fetchPiece_fits (lp : LP) (off : Nat) : (lp.fetchPiece off).Fits := by
  unfold Piece.Fits LP.fetchPiece; simp only; omega

theorem mem_addrsFrom {pa n x : Nat} (h : x ∈ addrsFrom pa n) : pa ≤ x ∧ x < pa + n := by
  induction n generalizing pa with
  | zero => simp [addrsFrom] at h
  | succ k ih =>
    rcases List.mem_cons.mp h with rfl | h
    · omega
    · have := ih h; omega

/-- With paging off an instruction is fetched from the first 4 GBytes (R132, R60). -/
theorem LP.fetchAddrs_lt (cfg : Config) {lp : LP} (h : lp.pg = false) : ∀ x ∈ lp.fetchAddrs, x < 2 ^ cfg.paw := by
  intro x hx
  obtain ⟨i, -, rfl⟩ := List.mem_map.mp hx
  have hi : lp.inIA32e = false := by simp [LP.inIA32e, LP.mode, h]
  refine lt_of_lt_of_le ?_ (Nat.pow_le_pow_right (by norm_num) (paw_bounds cfg).1)
  have := (BitVec.setWidth 32 (lp.rip + BitVec.ofNat 64 i)).isLt
  simp only [LP.linear, hi, Bool.false_eq_true, if_false, BitVec.toNat_setWidth] at *
  omega

/-- The address a leaf entry gives has the offset of the linear address in the page. -/
theorem leafAddress_aligned (cfg : Config) (pse : Bool) (w : Walk) (e : Word) (h : isLeaf pse w.mode w.level e = true) :
    leafAddress cfg w e % 2 ^ w.pageBits pse e = w.la.toNat % 2 ^ w.pageBits pse e ∧ 12 ≤ w.pageBits pse e := by
  unfold leafAddress Walk.pageBits
  by_cases hp : w.level = .pte
  · simp [hp, isLargePde, pageAddr, cat, field]
  · have : isLargePde pse w.mode w.level e = true := by simpa [isLeaf, hp] using h
    simp only [hp, this, if_false, if_true, largeAddr, cat, field]
    constructor
    · unfold largeBits; split <;> simp
    · unfold largeBits; split <;> omega

/-- A walk that is complete gives an address of its page: one with the offset of the linear address there. -/
theorem walkStep_found_aligned {cfg : Config} {c : Choice} {lp : LP} {mem : Memory} {w : Walk} {pa b : Nat}
    (h : (walkStep cfg c lp mem w).result = .found pa b) : 12 ≤ b ∧ pa % 2 ^ b = w.la.toNat % 2 ^ b := by
  rcases walkStep_cases cfg c lp mem w with ⟨-, h'⟩ | ⟨-, -, h'⟩ | ⟨-, -, hl, h'⟩ | ⟨-, -, -, h'⟩ <;> rw [h'] at h
  · cases h
  · cases h
  · rcases leafStep_cases cfg c lp mem w (w.entryAddr cfg) (mem.readEntry (w.entryAddr cfg) (entryBytes w.mode))
      (w.rights.andEntry lp.nxe w.mode (mem.readEntry (w.entryAddr cfg) (entryBytes w.mode))) with
      ⟨-, h'⟩ | ⟨-, -, h'⟩ | ⟨-, -, -, -, h'⟩ | ⟨-, -, -, h'⟩ <;> rw [h'] at h <;> cases h
    exact (leafAddress_aligned cfg lp.pse w _ hl).symm
  · cases h

/-- A translation that is complete at once gives an address below 2^PAW with the offset of the linear address in the page it shows,
also where that is the large page from which an ordinary TLB entry was derived (R132, R175, R267). -/
theorem translate_found_aligned {cfg : Config} {c : Choice} {lp : LP} {la : Word} {acc : Acc} {pa b : Nat}
    (hi : lp.AddressInv cfg) (h : translate cfg c lp la acc = .found pa b) :
    pa < 2 ^ cfg.paw ∧ b ≤ cfg.paw ∧ 12 ≤ b ∧ pa % 2 ^ b = la.toNat % 2 ^ b := by
  have hpaw := paw_bounds cfg
  rcases translate_found h with ⟨-, rfl, rfl⟩ | ⟨e, he, -, hm, -, -, rfl, rfl⟩
  · exact ⟨lt_of_lt_of_le (BitVec.isLt _) (Nat.pow_le_pow_right (by norm_num) hpaw.1), by omega, le_rfl, by simp⟩
  refine ⟨?_, TlbEntry.pageBits_le _ _ _, ?_, ?_⟩
  · unfold TlbEntry.address
    cases hs : e.size
    · exact pageAddr_lt _ (hi.ordinary e he hs)
    · exact largeAddr_lt _ (hi.large e he hs)
  · unfold TlbEntry.pageBits largeBits; split <;> (try split) <;> omega
  cases hs : e.size
  · simp only [TlbEntry.address, hs, pageAddr, cat]
    rw [show field la 11 0 = la.toNat % 4096 by simp [field]]
    cases hf : e.fromLarge && c.wholePage
    · simp [TlbEntry.pageBits, hs, hf]
    · rw [show e.pageBits c.wholePage = largeBits e.mode by simp [TlbEntry.pageBits, hs, hf]]
      simp only [Bool.and_eq_true] at hf
      have hfr := hi.fractured e he hs hf.1
      simp only [TlbEntry.matches, hs, Bool.and_eq_true, beq_iff_eq] at hm
      obtain ⟨⟨hm1, hm2⟩, -⟩ := hm
      have hk : e.key % 2 ^ (largeBits e.mode - 12) = la.toNat / 4096 % 2 ^ (largeBits e.mode - 12) := by
        rw [hm2, hm1]
        cases lp.pagingMode <;> simp [pageNumber, field, largeBits] <;> omega
      obtain ⟨k, hb⟩ : ∃ k, largeBits e.mode = 12 + k := ⟨largeBits e.mode - 12, by unfold largeBits; split <;> omega⟩
      rw [hb] at hfr hk ⊢
      simp only [Nat.add_sub_cancel_left] at hfr hk
      rw [mod_page, mod_page la.toNat, ← hk, hfr]
      congr 1
      · omega
      · congr 2; omega
  · simp only [TlbEntry.address, hs, TlbEntry.pageBits, largeAddr, cat, field]
    unfold largeBits; split <;> simp

/-- The access once one of its parts is translated to an address of the page shown holds addresses below 2^PAW only. -/
theorem Access.found_inv {cfg : Config} {a : Access} {p : Piece} {pa b : Nat} (h : ∀ q ∈ a.todo, q.Fits)
    (hd : ∀ q ∈ a.done, q.1 + q.2 ≤ 2 ^ cfg.paw) (hp : p.Fits) (h1 : pa < 2 ^ cfg.paw) (h2 : b ≤ cfg.paw) (h3 : 12 ≤ b)
    (h4 : pa % 2 ^ b = p.la.toNat % 2 ^ b) : (a.found p pa b).AddressInv cfg := by
  obtain ⟨n, hn, h2, h3, h4⟩ : ∃ n, a.pageBits b p.la = n ∧ n ≤ cfg.paw ∧ 12 ≤ n ∧ pa % 2 ^ n = p.la.toNat % 2 ^ n := by
    rcases a.pageBits_cases b p.la with h | h
    · exact ⟨b, h, h2, h3, h4⟩
    · refine ⟨12, h, h3.trans h2, le_rfl, ?_⟩
      have hd := pow_dvd_pow 2 h3
      rw [← Nat.mod_mod_of_dvd pa hd, h4, Nat.mod_mod_of_dvd _ hd]
  refine ⟨fun q hq => h q (Access.mem_found_todo.mp hq).1, fun q w hw => (by cases hw), fun q x hx => ?_, hd⟩
  cases hx
  rw [hn]
  constructor
  · have hlen : p.la.toNat % 2 ^ n + (a.extend n p).len ≤ 2 ^ n := by
      unfold Access.extend
      split
      · have : p.la.toNat % 2 ^ n < 2 ^ n := Nat.mod_lt _ (by positivity)
        simp only; omega
      · exact hp.page h3
    have := inPage_room h1 h2 hlen
    rwa [← h4, Nat.div_add_mod'] at this
  · rintro ⟨q, x⟩ hq
    obtain ⟨hq', -, rfl⟩ := Access.mem_found_covered.mp hq
    rw [hn]
    exact inPage_room h1 h2 ((h q hq').page h3)

end Sys2Proof.Machine
end

