-- ==== Sys2Proof/Laws/PerInstr.lean ====
section
/-! SUPPORT. Statements for all instructions, instruction by instruction: an instruction's encoding has the length the step
moves `rip` by. -/

namespace Sys2Proof.Laws.EncodedLength

/-- The encoding of the instruction has the instruction's length (R109). -/
def Statement (i : Instr) : Prop := (encode i).length = i.length

theorem encodeDisp32_length (d : Dword) : (encodeDisp32 d).length = 4 := rfl

theorem disp_length (d : Disp) : d.encode.length = d.length := by cases d <;> rfl

theorem invlpg (m : MemOperand) : Statement (.invlpg m) := by
  cases m <;> simp [Statement, encode, encodeMem, Instr.length, encodeDisp32_length, disp_length] <;> omega

theorem movCr0 (r : Reg) : Statement (.movCr0 r) := rfl

theorem movCr3 (r : Reg) : Statement (.movCr3 r) := rfl

theorem movCr4 (r : Reg) : Statement (.movCr4 r) := rfl

theorem wrmsr : Statement .wrmsr := rfl

theorem cpuid : Statement .cpuid := rfl

theorem hlt : Statement .hlt := rfl

end Sys2Proof.Laws.EncodedLength
end

