-- ==== Sys2Proof/Tests/Slice0.lean ====
section
/-! SUPPORT. Tests of one step each on small states, and for every obligation with hypotheses a state that meets them. Words are
written out from R109; values are those of spec/95_test_vectors.md where one is named, else worked out from the rule named. -/

namespace Sys2Proof.Tests

open Sys2Proof.Machine

/-! ## Well-formedness: each check refuses its ill-formed term -/

theorem test_wf_refuses_base_rsp : (Instr.invlpg (.base .rsp .none)).wf = false := by decide
theorem test_wf_refuses_base_rbp_without_displacement : (Instr.invlpg (.base .rbp .none)).wf = false := by decide
theorem test_wf_refuses_sib_base_rbp_without_displacement :
    (Instr.invlpg (.sib 0 (some .rax) .rbp .none)).wf = false := by decide
theorem test_wf_refuses_index_rsp : (Instr.invlpg (.sib 1 (some .rsp) .rax .none)).wf = false := by decide
theorem test_wf_refuses_scale_without_index : (Instr.invlpg (.sib 1 none .rax .none)).wf = false := by decide
theorem test_wf_refuses_index_rsp_without_base : (Instr.invlpg (.sibDisp 0 (some .rsp) 0)).wf = false := by decide

/-! ## Decoding, from the encodings of R109 -/

/-- 0F 01 /7 with ModRM 00 111 011: the base register RBX. -/
theorem test_decode_invlpg_base :
    decode [0x0F, 0x01, 0b00111011, 0xF4] = .ok (.invlpg (.base .rbx .none), [0xF4]) := by decide
/-- ModRM 01 111 101 and a byte -8: RBP with an 8-bit displacement. -/
theorem test_decode_invlpg_disp8 :
    decode [0x0F, 0x01, 0b01111101, 0xF8] = .ok (.invlpg (.base .rbp (.disp8 0xF8)), []) := by decide
/-- ModRM 00 111 101: four bytes of displacement, least significant first. -/
theorem test_decode_invlpg_disp32 :
    decode [0x0F, 0x01, 0b00111101, 0x78, 0x56, 0x34, 0x12] = .ok (.invlpg (.disp 0x12345678), []) := by decide
/-- ModRM 10 111 100, SIB 11 001 000: RAX + 8 * RCX + 32-bit displacement. -/
theorem test_decode_invlpg_sib :
    decode [0x0F, 0x01, 0b10111100, 0b11001000, 1, 0, 0, 0x80]
      = .ok (.invlpg (.sib 3 (some .rcx) .rax (.disp32 0x80000001)), []) := by decide
/-- ModRM 00 111 100, SIB 00 100 101: no base, no index. -/
theorem test_decode_invlpg_sib_disp :
    decode [0x0F, 0x01, 0b00111100, 0b00100101, 0, 0x10, 0, 0] = .ok (.invlpg (.sibDisp 0 none 0x1000), []) := by decide
theorem test_decode_movCr0 : decode [0x0F, 0x22, 0b11000111] = .ok (.movCr0 .rdi, []) := by decide
/-- The mod field of MOV to CRn is ignored (R109): 00 011 001 names CR3 and RCX. -/
theorem test_decode_movCr3 : decode [0x0F, 0x22, 0b00011001] = .ok (.movCr3 .rcx, []) := by decide
theorem test_decode_movCr4 : decode [0x0F, 0x22, 0b11100010] = .ok (.movCr4 .rdx, []) := by decide
theorem test_decode_wrmsr : decode [0x0F, 0x30] = .ok (.wrmsr, []) := by decide
theorem test_decode_cpuid : decode [0x0F, 0xA2] = .ok (.cpuid, []) := by decide
theorem test_decode_hlt : decode [0xF4] = .ok (.hlt, []) := by decide
theorem test_decode_refuses_invlpg_register_form :
    decode [0x0F, 0x01, 0b11111000] = .error (.invlpgRegisterForm 0xF8) := by decide
theorem test_decode_refuses_other_0F01 : decode [0x0F, 0x01, 0b00110000] = .error (.notInvlpg 0x30) := by decide
theorem test_decode_refuses_cr2 : decode [0x0F, 0x22, 0b11010000] = .error (.otherControlRegister 0xD0) := by decide
theorem test_decode_refuses_nop : decode [0x90] = .error (.notInTable 0x90) := by decide
theorem test_decode_refuses_half : decode [0x0F, 0x22] = .error .truncated := by decide

/-! ## Small states -/

/-- Every feature present, PAW = 52. -/
def cfg : Config where
  pawOver32 := 20
  hasIntel64 := true
  hasXd := true
  hasPse36 := true
  tlbs := [.both]
  hasPml4Cache := true
  hasPdpCache := true
  hasPdeCache := true
  fractureLarge := true
  altInvlpg := false
  otherProcessors := []
  modeChange := .retain
  pdptrLoadWithPagingOff := true
  pdptrCheckNotPresent := true
  readSideEffect := []
  notRam := []
  memoryModel := .sequential

/-- Caches what may be cached, removes nothing more than it must. -/
def cacheAll : Choice := { (default : Choice) with setAccessed := true, cachePsc := true, cacheTlb := some .both }

/-- A state of one logical processor. -/
def st (lp : LP) (mem : Memory) (inputs : List Input) : State where
  cfg := cfg
  mem := mem
  lp := lp
  others := []
  inputs := inputs
  choices := [cacheAll, cacheAll]
  drawn := 0
  sideEffects := []

/-- Entries of 8 bytes. -/
def entries : List (Nat × Nat) → Memory
  | [] => []
  | (pa, v) :: rest => (entries rest).writeLe pa 8 v

/-- ModeIA32e with NXE (the registers of L2.2). -/
def lp64 : LP := { LP.reset with cr0 := 0x80000000, cr3 := 0x100000, cr4 := 0x20, efer := 0xD00 }

/-- ModePAE. -/
def lpPae : LP := { LP.reset with cr0 := 0x80000000, cr3 := 0x1000, cr4 := 0x20, efer := 0x800, pdptr := ⟨0x2001, 0, 0, 0x3001⟩ }

/-- Mode32. -/
def lp32 : LP := { LP.reset with cr0 := 0x80000000, cr3 := 0x10000 }

/-- The page of the tests in ModeIA32e. -/
def la : Word := 0x00007F8040201ABC

/-- A walk for `la` in ModeIA32e. -/
def walk (k : AccessKind) (user : Bool) (l : Level) (base : Nat) : Walk where
  la := la
  acc := ⟨k, user, false⟩
  mode := .modeIA32e
  level := l
  base := base
  rights := ⟨true, true, false⟩
  allA := true

/-- An access that begins at its first piece still to be translated, else at `la`. -/
def acc (k : AccessKind) (todo : List Piece) (ph : Phase) : Access where
  kind := k
  user := false
  instruction := false
  la := (todo.head?.map Piece.la).getD la
  bytes := [0x5A]
  todo := todo
  covered := []
  parts := []
  done := []
  phase := ph

/-- An ordinary TLB entry for `la`. -/
def tlbEntry (global dirty : Bool) : TlbEntry where
  mode := .modeIA32e
  size := .ordinary
  key := 0x7F8040201
  frame := 0x200
  rights := ⟨true, false, true⟩
  dirty := dirty
  global := global
  fromLarge := false
  serves := .both

/-- An ordinary TLB entry for `la`, derived from a 2-MByte page at 400000H. -/
def derived : TlbEntry := { tlbEntry false true with frame := 0x401, fromLarge := true }

/-- What a next state says, false for a stop. -/
def after (o : Host.Outcome State Fault Refusal) (f : State → Bool) : Bool :=
  match o with
  | .next t => f t
  | .fault _ => false
  | .refused _ => false

/-! ## Instructions, one step each -/

/-- R220: the global entry of the page goes too; an entry of another page stays. -/
theorem test_invlpg_removes_global :
    after (exec (.invlpg (.base .rbx .none))
        (st { lp64 with
          gpr := { lp64.gpr with rbx := 0x00007F8040201000 }
          tlb := [tlbEntry true true, { tlbEntry false true with key := 0x7F8040202 }] } [] []))
      (fun t => t.lp.tlb == [{ tlbEntry false true with key := 0x7F8040202 }] && t.lp.rip == 0xFFFFFFF3) = true := by decide
/-- R337. -/
theorem test_invlpg_user_faults :
    after (exec (.invlpg (.base .rbx .none)) (st { lp64 with cpl := 3 } [] []))
      (fun t => t.lp.exc == some (.generalProtection 0) && t.lp.rip == 0xFFFFFFF0) = true := by decide
/-- R222, R223: only the global entry stays. -/
theorem test_movCr3_keeps_global :
    after (exec (.movCr3 .rax) (st { lp64 with gpr := { lp64.gpr with rax := 0x200000 }
                                               tlb := [tlbEntry true true, tlbEntry false true] } [] []))
      (fun t => t.lp.tlb == [tlbEntry true true] && t.lp.cr3 == 0x200000) = true := by decide
/-- L2.13, R299: with PAE = 1 and LMA = 0 the instruction begins to load the four PDPTR registers. -/
theorem test_movCr3_begins_load :
    after (exec (.movCr3 .rax) (st { lpPae with gpr := { lpPae.gpr with rax := 0x101F } } [] []))
      (fun t => t.lp.loading == some ⟨.cr3 0x101F, [0, 1, 2, 3], ⟨0, 0, 0, 0⟩⟩ && t.lp.pdptr == lpPae.pdptr
        && t.lp.cr3 == 0x1000) = true := by decide
/-- L2.13, R299: the last of the four reads, of entry 3 at CR3[31:5] * 32 + 24; the entry another agent has stored since the first
read is not read again, so that a mixed set is loaded. -/
theorem test_movCr3_ends_load :
    after (step (st { lpPae with loading := some ⟨.cr3 0x101F, [3], ⟨0x2001, 0, 0, 0⟩⟩ }
        (entries [(0x1000, 0x5001), (0x1018, 0x3001)]) []))
      (fun t => t.lp.pdptr == ⟨0x2001, 0, 0, 0x3001⟩ && t.lp.cr3 == 0x101F && t.lp.loading == none) = true := by decide
/-- R299, P15: a must-be-zero bit in an entry read raises GP(0), and nothing is loaded. -/
theorem test_load_faults :
    after (step (st { lpPae with loading := some ⟨.cr3 0x101F, [3], ⟨0x2003, 0, 0, 0⟩⟩ } [] []))
      (fun t => t.lp.pdptr == lpPae.pdptr && t.lp.cr3 == 0x1000 && t.lp.exc == some (.generalProtection 0)
        && t.lp.loading == none) = true := by decide
/-- D5: a load of the enclosing instruction set waits for the PDPTR load; a store of another agent does not. -/
theorem test_inputs_beside_load :
    after (step (st { lpPae with loading := some ⟨.cr3 0x1000, [0, 3], ⟨0, 0, 0, 0⟩⟩ } [] [.load 0 1]))
        (fun t => t.inputs == [.load 0 1] && t.lp.loading == some ⟨.cr3 0x1000, [3], ⟨0, 0, 0, 0⟩⟩) = true
      ∧ after (step (st { lpPae with loading := some ⟨.cr3 0x1000, [0, 3], ⟨0, 0, 0, 0⟩⟩ } [] [.physStore 0x1000 [1]]))
        (fun t => t.inputs == [] && t.mem == [(0x1000, 1)] && t.lp.loading.isSome) = true := by decide
/-- R224: a change of PGE empties the TLB, global entries included. -/
theorem test_movCr4_pge_flushes :
    after (exec (.movCr4 .rax) (st { lp64 with gpr := { lp64.gpr with rax := 0xA0 }, tlb := [tlbEntry true true] } [] []))
      (fun t => t.lp.tlb == [] && t.lp.cr4 == 0xA0) = true := by decide
/-- R224: with LMA = 1 a MOV to CR4 that clears PAE raises GP(0). -/
theorem test_movCr4_clearing_pae_faults :
    after (exec (.movCr4 .rax) (st lp64 [] [])) (fun t => t.lp.exc == some (.generalProtection 0) && t.lp.cr4 == 0x20) = true := by
  decide
/-- R305: LMA becomes LME AND PG. -/
theorem test_movCr0_sets_lma :
    after (exec (.movCr0 .rax) (st { LP.reset with cr4 := 0x20, efer := 0x100, gpr := { LP.reset.gpr with rax := 0x80000001 } } [] []))
      (fun t => t.lp.cr0 == 0x80000001 && t.lp.efer == 0x500) = true := by decide
/-- R305: PG set with LME = 1 and PAE = 0. -/
theorem test_movCr0_without_pae_faults :
    after (exec (.movCr0 .rax) (st { LP.reset with efer := 0x100, gpr := { LP.reset.gpr with rax := 0x80000001 } } [] []))
      (fun t => t.lp.exc == some (.generalProtection 0) && t.lp.efer == 0x100) = true := by decide
/-- R331: SCE, LME and NXE from the value. -/
theorem test_wrmsr_writes_efer :
    after (exec .wrmsr (st { LP.reset with gpr := { LP.reset.gpr with rcx := 0xC0000080, rax := 0x901, rdx := 0 } } [] []))
      (fun t => t.lp.efer == 0x901 && t.lp.rip == 0xFFFFFFF2) = true := by decide
/-- R331: a reserved bit (bit 9) raises GP(0). -/
theorem test_wrmsr_reserved_faults :
    after (exec .wrmsr (st { LP.reset with gpr := { LP.reset.gpr with rcx := 0xC0000080, rax := 0x200, rdx := 0 } } [] []))
      (fun t => t.lp.exc == some (.generalProtection 0) && t.lp.efer == 0) = true := by decide
/-- R334: CPUID runs at CPL 3. -/
theorem test_cpuid_at_user_level :
    after (exec .cpuid (st { LP.reset with cpl := 3 } [] [])) (fun t => t.lp.rip == 0xFFFFFFF2 && t.lp.exc == none) = true := by
  decide
/-- R336. -/
theorem test_hlt_halts : after (exec .hlt (st LP.reset [] [])) (fun t => t.lp.halted) = true := by decide
theorem test_hlt_user_faults :
    after (exec .hlt (st { LP.reset with cpl := 3 } [] [])) (fun t => !t.lp.halted && t.lp.exc.isSome) = true := by decide

/-! ## Translation, one step each -/

/-- L2.2: the last step of the walk for `la`; the XD bit denies a fetch. -/
theorem test_leaf_translates :
    (walkStep cfg cacheAll lp64 (entries [(0x103008, 0x8000000000200005)]) (walk .read true .pte 0x103000)).result
      = .found 0x200ABC 12 := by decide
theorem test_leaf_sets_accessed :
    (walkStep cfg cacheAll lp64 (entries [(0x103008, 0x8000000000200005)]) (walk .read true .pte 0x103000)).mem.readLe 0x103008 8
      = 0x8000000000200025 := by decide
theorem test_leaf_denies_fetch :
    (walkStep cfg cacheAll lp64 (entries [(0x103008, 0x8000000000200005)]) (walk .fetch true .pte 0x103000)).result
      = .fault true false 12 := by decide
/-- L2.2: the PML4E of `la` is at 1007F8H and names the structure at 101000H. -/
theorem test_upper_entry_goes_down :
    (walkStep cfg cacheAll lp64 (entries [(0x1007F8, 0x101007)]) (walk .read true .pml4e 0x100000)).result
      = .more { walk .read true .pdpe 0x101000 with rights := ⟨true, true, false⟩ } := by decide
/-- R137: a not-present entry. -/
theorem test_not_present :
    (walkStep cfg cacheAll lp64 [] (walk .read true .pml4e 0x100000)).result = .fault false false 12 := by decide
/-- R104: bit 63 is reserved with NXE = 0. -/
theorem test_reserved_without_nxe :
    (walkStep cfg cacheAll { lp64 with efer := 0x500 } (entries [(0x103008, 0x8000000000200005)])
      (walk .read true .pte 0x103000)).result = .fault true true 12 := by decide
/-- R357. -/
theorem test_vectors : (Exception.pageFault 0 0).vector = 14 ∧ (Exception.generalProtection 0).vector = 13 := by decide
/-- L2.2, R108: a user fetch denied by XD reports 15H. -/
theorem test_error_code : errorCode true ⟨.fetch, true, false⟩ true false = 0x15 := by decide
/-- R131: the two ends of the canonical halves. -/
theorem test_canonical :
    canonical 0x00007FFFFFFFFFFF = true ∧ canonical 0x0000800000000000 = false ∧ canonical 0xFFFF7FFFFFFFFFFF = false
      ∧ canonical 0xFFFF800000000000 = true := by decide
/-- R177: a write through a clean entry walks again from the root. -/
theorem test_clean_entry_walks :
    translate cfg { cacheAll with again := 0 } { lp64 with tlb := [tlbEntry false false] } la ⟨.write, false, false⟩
      = .walk { walk .write false .pml4e 0x100000 with rights := ⟨true, true, false⟩ } := by decide

/-! ## Accesses of several pages -/

/-- The two pieces of an access of two bytes across the 4-KByte boundary at 202000H. -/
def first : Piece := ⟨0x201FFF, 0, 1⟩
def second : Piece := ⟨0x202000, 1, 1⟩

/-- An access of two bytes at 201FFFH. -/
def acc2 (k : AccessKind) (todo : List Piece) (ph : Phase) : Access :=
  { acc k todo ph with la := 0x201FFF, bytes := [0x5A, 0xA5] }

theorem test_pieces : lp64.pieces 2 0x201FFF 0 2 = [first, second] := by decide
/-- R65: in one large page the second piece is translated with the first; in two ordinary pages it is not. -/
theorem test_found_covers_large_page :
    (Access.found (acc2 .read [second] .choosing) first 0x401FFF 21).covered = [(second, 0x402000)]
      ∧ (Access.found (acc2 .read [second] .choosing) first 0x401FFF 21).todo = []
      ∧ (Access.found (acc2 .read [second] .choosing) first 0x401FFF 12).todo = [second] := by decide
/-- R352: the walk for the second piece meets a reserved bit (13) in the PDE of a 2-MByte page that holds both: CR2 is the first
byte of the access in that page. -/
theorem test_fault_in_large_page :
    after (step (st { lp64 with access := some (acc2 .read [first] (.walking second
        { walk .read false .pde 0x102000 with la := 0x202000 })) } (entries [(0x102008, 0x402087)]) []))
      (fun t => t.lp.cr2 == 0x201FFF && t.lp.exc == some (.pageFault 0x201FFF 9)) = true := by decide
/-- R65, R352: in two 4-KByte pages it is the first byte in the second page. -/
theorem test_fault_in_small_page :
    after (step (st { lp64 with access := some (acc2 .read [first] (.walking second
        { walk .read false .pte 0x103000 with la := 0x202000 })) } [] []))
      (fun t => t.lp.cr2 == 0x202000 && t.lp.exc == some (.pageFault 0x202000 0)) = true := by decide
/-- R65: the store goes on with the second piece of the page, without a translation. -/
theorem test_store_goes_on_in_page :
    after (step (st { lp64 with access := some { acc2 .write [] (.translated first 0x401FFF) with covered := [(second, 0x402000)] } }
        [] []))
      (fun t => t.mem == [(0x401FFF, 0x5A)] && t.lp.access == some { acc2 .write [] (.translated second 0x402000) with
        done := [(0x401FFF, 1)] }) = true := by decide

/-- R147, R353: once the first piece has been translated by itself, the same walk reports the second piece, in which no byte has
moved. -/
theorem test_fault_after_part_of_large_page :
    after (step (st { lp64 with access := some { acc2 .read [] (.walking second
        { walk .read false .pde 0x102000 with la := 0x202000 }) with la := 0x201FFF, parts := [0x201FFF] } }
          (entries [(0x102008, 0x402087)]) []))
      (fun t => t.lp.cr2 == 0x202000 && t.lp.exc == some (.pageFault 0x202000 9)) = true := by decide

/-- Memory that maps 200000H to 3FFFFFH by the PDE `e`. -/
def mapped (e : Nat) : Memory := entries [(0x100000, 0x101007), (0x101000, 0x102007), (0x102008, e)]

/-- A large page and 4-KByte pages in memory; and a PDE that is not present. -/
theorem test_maps :
    lp64.maps cfg (mapped 0x400087) 0x201FFF = some .large ∧ lp64.maps cfg (mapped 0x103007) 0x201FFF = some .ordinary
      ∧ lp64.maps cfg (mapped 0x400086) 0x201FFF = none ∧ LP.reset.maps cfg (mapped 0x400087) 0x201FFF = none := by decide

/-- A read of two bytes at 201FFFH begins; the free choice picks the second piece. -/
def begins (lp : LP) (mem : Memory) (whole : Bool) : State :=
  { st { lp with access := some { acc2 .read [first, second] .choosing with la := 0x201FFF } } mem [] with
    choices := [{ cacheAll with page := 1, wholePage := whole }] }

/-- R330, R403: a large page that memory maps has one translation, of its first byte, whole also by a derived TLB entry; an entry
derived for the second piece, here one without rights, is not used. -/
theorem test_large_page_is_translated_once :
    let e : TlbEntry := { derived with key := 0x201, frame := 0x401 }
    let e' : TlbEntry := { derived with key := 0x202, frame := 0x402, rights := ⟨false, false, true⟩ }
    after (step (begins { lp64 with tlb := [e, e'] } (mapped 0x400087) false)) (fun t => t.lp.access == some
      { acc2 .read [] (.translated first 0x401FFF) with la := 0x201FFF, covered := [(second, 0x402000)], parts := [0x201FFF] })
      = true := by decide
/-- R133, R174: where memory now maps 4-KByte pages, either piece can begin, and a stale derived entry translates its own page. -/
theorem test_stale_derived_entry :
    let e : TlbEntry := { derived with key := 0x202, frame := 0x777 }
    after (step (begins { lp64 with tlb := [e] } (mapped 0x103007) true)) (fun t => t.lp.access == some
      { acc2 .read [first] (.translated second 0x777000) with la := 0x201FFF, parts := [0x202000] }) = true := by decide
/-- R65: where memory maps no page, a derived entry translates, for the first byte of the access, either page. -/
theorem test_derived_entry_translates_either_page :
    let e : TlbEntry := { derived with key := 0x201, frame := 0x401 }
    let s (whole : Bool) : State := { begins { lp64 with tlb := [e] } [] whole with
      choices := [{ cacheAll with wholePage := whole }] }
    after (step (s true)) (fun t => t.lp.access == some
        { acc2 .read [] (.translated first 0x401FFF) with la := 0x201FFF, covered := [(second, 0x402000)], parts := [0x201FFF] })
        = true
      ∧ after (step (s false)) (fun t => t.lp.access == some
        { acc2 .read [second] (.translated first 0x401FFF) with la := 0x201FFF, parts := [0x201FFF] }) = true := by decide

/-! ## A step -/

/-- A byte placed in memory is fetched and run (R132). -/
theorem test_step_runs_hlt : after (step ((st LP.reset [] []).withFetchWord 8 0xF4)) (fun t => t.lp.halted) = true := by decide

/-! ## Witnesses: for each obligation with hypotheses, a state and operands that meet them -/

/-- The one byte at `la`. -/
def page : Piece := ⟨la, 0, 1⟩

/-- Software waits for the translation of the page `p`. -/
def choosing (lp : LP) (mem : Memory) (k : AccessKind) (p : Piece) : State :=
  st { lp with access := some (acc k [p] .choosing) } mem []

/-- Software walks for the page at `la`. -/
def walking (mem : Memory) (k : AccessKind) (l : Level) (base : Nat) : State :=
  st { lp64 with access := some (acc k [] (.walking page (walk k false l base))) } mem []

/-- Software has translated its page. -/
def performing (k : AccessKind) (todo : List Piece) : State :=
  st { lp64 with access := some (acc k todo (.translated page 0x200ABC)) } [] []

/-- Software waits for the translation of two pages, and the free choice picks the second. -/
def choosingSecond (lp : LP) (mem : Memory) (k : AccessKind) (q p : Piece) : State :=
  { st { lp with access := some (acc k [q, p] .choosing) } mem [] with choices := [{ cacheAll with page := 1 }] }

theorem choosing_choosing {lp : LP} (h : lp.loading = none) (mem : Memory) (k : AccessKind) (p : Piece) :
    (choosing lp mem k p).Choosing (acc k [p] .choosing) p [] := by
  have hr : (choosing lp mem k p).ready (acc k [p] .choosing) = [p] := by
    simp [State.ready, acc, Access.firstByte, samePage]
  exact ⟨.inl rfl, h, .inl rfl, rfl, by rw [hr]; rfl, by simp [acc]⟩

theorem choosing_second {lp : LP} {mem : Memory} {k : AccessKind} {q p : Piece} (h : lp.loading = none)
    (hr : (choosingSecond lp mem k q p).ready (acc k [q, p] .choosing) = [q, p]) (hne : q ≠ p) :
    (choosingSecond lp mem k q p).Choosing (acc k [q, p] .choosing) p [q] :=
  ⟨.inl rfl, h, .inl rfl, rfl, by rw [hr]; rfl, by simp [acc, hne]⟩

/-- A state in the middle of a PDPTR load, the entry `i` still to be read. -/
def lastRead (lp : LP) (w : ControlWrite) (i : Nat) (q : Pdptrs) (mem : Memory) : State :=
  st { lp with loading := some ⟨w, [i], q⟩ } mem []

theorem lastRead_lastRead (lp : LP) (w : ControlWrite) (i : Nat) (q : Pdptrs) (mem : Memory) :
    (lastRead lp w i q mem).LastRead w (q.set i (mem.readEntry (pdpteAddr (w.root lp) i) 8)) :=
  ⟨_, ⟨.inl rfl, rfl⟩, rfl, i, rfl, by cases w <;> rfl⟩

theorem controlInv_of_noLoad {lp : LP} (h1 : lp.lma = (lp.lme && lp.pg)) (h2 : lp.lma = true → lp.pae = true)
    (h3 : lp.loading = none) : lp.ControlInv := ⟨h1, h2, by simp [h3], by simp [h3]⟩

theorem walking_walking (mem : Memory) (k : AccessKind) (l : Level) (base : Nat) :
    (walking mem k l base).Walking (acc k [] (.walking page (walk k false l base))) page (walk k false l base) :=
  ⟨.inl rfl, rfl, rfl, rfl⟩

theorem performing_performing (k : AccessKind) (todo : List Piece) :
    (performing k todo).Performing (acc k todo (.translated page 0x200ABC)) page 0x200ABC := ⟨.inl rfl, rfl, rfl, rfl, rfl⟩

theorem not_schedules {s : State} (h : s.inputs = []) : ¬ s.Schedules := by simp [State.Schedules, h]

theorem walkInv_of_walks {lp : LP} (h1 : ∀ w ∈ lp.walks, w.acc.spec = true ∧ w.acc.kind ≠ .write) (h2 : lp.pg = true)
    (h3 : ∀ a p w, lp.access = some a → a.phase = .walking p w → w.acc = a.acc) (h4 : lp.loading = none) : lp.WalkInv :=
  ⟨h1, h3, fun h => absurd h (by simp [h2]), fun h => absurd h (by simp [h2]), fun h => absurd h4 h⟩

theorem walkInv_of_idle {lp : LP} (h1 : lp.walks = []) (h2 : lp.access = none) : lp.WalkInv :=
  ⟨by simp [h1], by simp [h2], fun _ => h1, by simp [h2], fun _ => h2⟩

theorem witness_DecodeOfEncode :
    (Instr.invlpg (.sib 3 (some .rdi) .rbp (.disp32 0x80000000))).wf = true ∧ (Instr.invlpg (.sibDisp 0 none 0)).wf = true := by
  decide

theorem witness_DecodedInstructionWellFormed : decode [0xF4, 0xF4] = .ok (.hlt, [0xF4]) := by decide

/-- The code at `rip` with paging off; the code in a translated page, its first byte in the page before. -/
theorem witness_StepRunsDecodedInstruction :
    (let s := st LP.reset [(0xFFFFFFF0, 0x0F), (0xFFFFFFF1, 0xA2)] []
     s.SoftwareNext ∧ s.lp.loading = none ∧ s.lp.access = none ∧ s.lp.halted = false ∧ s.lp.exc = none ∧ s.lp.pg = false
      ∧ decode (s.lp.fetchAddrs.map s.mem.read) = .ok (.cpuid, [0, 0, 0, 0, 0, 0]))
    ∧ (let a : Access := ⟨.fetch, false, true, la, [0x0F], [], [], [], [], .translated ⟨la, 1, 7⟩ 0x200ABC⟩
       let s := st { lp64 with access := some a } [(0x200ABC, 0xA2)] []
       s.SoftwareNext ∧ s.lp.loading = none ∧ s.lp.access = some a ∧ a.instruction = true
        ∧ a.phase = .translated ⟨la, 1, 7⟩ 0x200ABC
        ∧ decode (a.bytes ++ s.mem.readBytes 0x200ABC 7) = .ok (.cpuid, [0, 0, 0, 0, 0, 0])) :=
  ⟨⟨.inl rfl, rfl, rfl, rfl, rfl, by decide, by decide⟩, ⟨.inl rfl, rfl, rfl, rfl, rfl, by decide⟩⟩

/-- A fetch that begins with paging on, and an instruction whose first two bytes end a page. -/
theorem witness_StepRunsDecodedInstruction_paging :
    (let s := st { lp64 with rip := 0x1FFE } [] []
     s.SoftwareNext ∧ s.lp.loading = none ∧ s.lp.access = none ∧ s.lp.halted = false ∧ s.lp.exc = none ∧ s.lp.pg = true
      ∧ after (step s) (fun t => t.lp.access == some { s.lp.fetchAccess with
          todo := [], phase := .walking ⟨0x1FFE, 0, 2⟩
            { walk .fetch false .pml4e 0x100000 with la := 0x1FFE, rights := ⟨true, true, false⟩ } }) = true)
    ∧ (let a : Access := ⟨.fetch, false, true, 0x1FFE, [], [], [], [], [], .translated ⟨0x1FFE, 0, 2⟩ 0x200FFE⟩
       let s := st { lp64 with rip := 0x1FFE, access := some a } [(0x200FFE, 0x0F), (0x200FFF, 0x22)] []
       s.SoftwareNext ∧ s.lp.loading = none ∧ s.lp.access = some a ∧ a.instruction = true
        ∧ decode (a.bytes ++ s.mem.readBytes 0x200FFE 2) = .error .truncated
        ∧ after (step s) (fun t => t.lp.access == some { a with
            bytes := [0x0F, 0x22], phase := .choosing, todo := [⟨0x2000, 2, 6⟩] }) = true) :=
  ⟨⟨.inl rfl, rfl, rfl, rfl, rfl, by decide, by decide⟩, ⟨.inl rfl, rfl, rfl, rfl, by decide, by decide⟩⟩

theorem witness_SoftwareWaits :
    (let s := st { lp64 with halted := true } [] []
     s.SoftwareNext ∧ s.lp.loading = none ∧ s.lp.access = none ∧ s.lp.halted = true)
      ∧ let s := st { lp64 with exc := some (.generalProtection 0) } [] [.software]
        s.SoftwareNext ∧ s.lp.loading = none ∧ s.lp.access = none ∧ s.lp.exc.isSome = true :=
  ⟨⟨.inl rfl, rfl, rfl, rfl⟩, .inr ⟨_, _, rfl, .inl rfl⟩, rfl, rfl, rfl⟩

/-- The first and the last address of the lower canonical half, and one of Mode32. -/
theorem witness_InvlpgInvalidates :
    (lp64.cpl = 0 ∧ lp64.refuses (lp64.effectiveAddress 3 (.base .rax .none)) = false)
      ∧ { lp64 with gpr := { lp64.gpr with rax := 0x00007FFFFFFFFFFF } }.refuses
          ({ lp64 with gpr := { lp64.gpr with rax := 0x00007FFFFFFFFFFF } }.effectiveAddress 3 (.base .rax .none)) = false
      ∧ lp32.refuses (lp32.effectiveAddress 7 (.disp 0xFFFFFFFF)) = false := by decide

/-- Entry 4: sums that wrap at 2^64 and at 2^32; a displacement alone, without a SIB byte, and with one. -/
theorem test_operand_address :
    let lp : LP := { lp64 with gpr := { lp64.gpr with rax := 0xFFFFFFFFFFFFFFF8, rcx := 2 } }
    lp.effectiveAddress 4 (.base .rax (.disp8 0x10)) = 8
      ∧ lp.effectiveAddress 8 (.sib 3 (some .rcx) .rax (.disp32 0xFFFFFFFF)) = 7
      ∧ lp.effectiveAddress 7 (.disp 0xFFFFFFFF) = 0xFFFFFFF6 ∧ lp.effectiveAddress 8 (.sibDisp 1 (some .rcx) 0x1000) = 0x1004
      ∧ { lp with cr4 := 0, efer := 0 }.effectiveAddress 4 (.base .rax (.disp8 0x10)) = 8
      ∧ lp32.effectiveAddress 7 (.disp 0xFFFFFFFF) = 0xFFFFFFFF := by decide

/-- With an entry of another mode and of the same key, which may stay. -/
theorem witness_InvlpgAlternative :
    let c : PscEntry := ⟨.modePAE, 0, 0x103000, ⟨true, true, false⟩⟩
    let s : State := { st { lp64 with pdec := [c] } [] [] with cfg := { cfg with altInvlpg := true } }
    let la := s.lp.effectiveAddress 3 (.base .rbx .none)
    s.lp.cpl = 0 ∧ s.cfg.altInvlpg = true ∧ s.lp.refuses la = false
      ∧ c ∈ s.lp.pdec ∧ c.mode ≠ s.lp.pagingMode ∧ c.key = largePageNumber c.mode la := by decide

/-- Both sides of the equivalence occur: 0000800000000000H is refused, 00007FFFFFFFFFFFH is not. -/
theorem witness_NonCanonicalRefused :
    lp64.cpl = 0 ∧ lp64.mode = some .modeIA32e ∧ lp64.refuses 0x0000800000000000 = true
      ∧ lp64.refuses 0x00007FFFFFFFFFFF = false
      ∧ (choosing lp64 [] .read ⟨0x0000800000000000, 0, 1⟩).Choosing (acc .read [⟨0x0000800000000000, 0, 1⟩] .choosing)
          ⟨0x0000800000000000, 0, 1⟩ []
      ∧ (choosingSecond lp64 [] .read page ⟨0x00007FFFFFFFFFFF, 0, 1⟩).Choosing
          (acc .read [page, ⟨0x00007FFFFFFFFFFF, 0, 1⟩] .choosing) ⟨0x00007FFFFFFFFFFF, 0, 1⟩ [page] :=
  ⟨by decide, by decide, by decide, by decide, choosing_choosing rfl _ _ _, choosing_second rfl (by decide) (by decide)⟩

/-- Without a load of the PDPTR registers, with one that begins, and with the last read of one. -/
theorem witness_MovCr3Completes :
    (lp64.cpl = 0 ∧ cr3Loads cfg lp64 = false) ∧ (lpPae.cpl = 0 ∧ cr3Loads cfg lpPae = true)
      ∧ (lastRead lpPae (.cr3 0x1000) 3 ⟨0x2001, 0, 0, 0⟩ (entries [(0x1018, 0x3001)])).LastRead (.cr3 0x1000)
          ⟨0x2001, 0, 0, 0x3001⟩
      ∧ pdptFaults cfg ⟨0x2001, 0, 0, 0x3001⟩ = false :=
  ⟨by decide, by decide, lastRead_lastRead _ _ _ _ _, by decide⟩

theorem witness_MovCr3GlobalEntriesMayStayOrGo :
    let lp : LP := { lp64 with tlb := [tlbEntry true true, tlbEntry false true] }
    let s := lastRead { lpPae with tlb := [tlbEntry true true] } (.cr3 0x1000) 3 ⟨0x2001, 0, 0, 0⟩ []
    (lp.cpl = 0 ∧ cr3Loads cfg lp = false ∧ [tlbEntry true true].Sublist (lp.tlb.filter fun e => e.global))
      ∧ s.Loading ⟨.cr3 0x1000, [3], ⟨0x2001, 0, 0, 0⟩⟩ ∧ [].Sublist (s.lp.tlb.filter fun e => e.global)
      ∧ pdptFaults s.cfg (Pdptrs.set ⟨0x2001, 0, 0, 0⟩ 3 (s.mem.readEntry (pdpteAddr 0x1000 3) 8)) = false :=
  ⟨⟨by decide, by decide, .refl _⟩, ⟨.inl rfl, rfl⟩, List.nil_sublist _, by decide⟩

/-- In ModeIA32e with PGE toggled; in ModePAE with a load that begins, and with one that ends. -/
theorem witness_MovCr4Completes :
    (let lp : LP := { lp64 with gpr := { lp64.gpr with rax := 0xA0 } }
     lp.cpl = 0 ∧ bit (lp.operand .rax) 5 = true ∧ cr4Loads (lp.operand .rax) lp = false
      ∧ bit (lp.operand .rax) 7 ≠ bit lp.cr4 7)
    ∧ (let lp : LP := { lpPae with gpr := { lpPae.gpr with rax := 0x30 } }
       lp.cpl = 0 ∧ lp.lma = false ∧ cr4Loads (lp.operand .rax) lp = true)
    ∧ (lastRead lpPae (.cr4 0x30) 0 ⟨0, 0, 0, 0x3001⟩ (entries [(0x1000, 0x2001)])).LastRead (.cr4 0x30) ⟨0x2001, 0, 0, 0x3001⟩
    ∧ pdptFaults cfg ⟨0x2001, 0, 0, 0x3001⟩ = false :=
  ⟨by decide, by decide, lastRead_lastRead _ _ _ _ _, by decide⟩

/-- Paging turned on with a load of the PDPTR registers; turned off in ModeIA32e with `Flush`. -/
theorem witness_MovCr0Completes :
    (let lp : LP := { lpPae with cr0 := 0, gpr := { lpPae.gpr with rax := 0x80000000 } }
     lp.cpl = 0 ∧ lp.lme = false ∧ cr0Loads cfg (lp.operand .rax) lp = true)
    ∧ (lastRead { lpPae with cr0 := 0 } (.cr0 0x80000000) 2 ⟨0x2001, 0, 0, 0⟩ []).LastRead (.cr0 0x80000000) ⟨0x2001, 0, 0, 0⟩
    ∧ pdptFaults cfg ⟨0x2001, 0, 0, 0⟩ = false
    ∧ (lp64.cpl = 0 ∧ bit (lp64.operand .rax) 31 = false ∧ cr0Loads cfg (lp64.operand .rax) lp64 = false
      ∧ bit (lp64.operand .rax) 31 ≠ bit lp64.cr0 31 ∧ { cfg with modeChange := .flush }.modeChange = .flush) :=
  ⟨by decide, lastRead_lastRead _ _ _ _ _, by decide, by decide⟩

/-- Each of the conditions holds somewhere; a last read that faults, and one that does not. -/
theorem witness_MovToControlRegisterFaults :
    (lpPae.cpl = 0 ∧ cr3Loads cfg lpPae = true)
      ∧ (lp64.cpl = 0 ∧ lp64.lma = true ∧ bit (lp64.operand .rax) 5 = false)
      ∧ (let lp : LP := { LP.reset with efer := 0x100, gpr := { LP.reset.gpr with rax := 0x80000000 } }
         lp.cpl = 0 ∧ bit (lp.operand .rax) 31 = true ∧ lp.pg = false ∧ lp.lme = true ∧ lp.pae = false)
      ∧ (lastRead lpPae (.cr4 0x30) 0 ⟨0, 0, 0, 0⟩ (entries [(0x1000, 0x2003)])).LastRead (.cr4 0x30) ⟨0x2003, 0, 0, 0⟩
      ∧ pdptFaults cfg ⟨0x2003, 0, 0, 0⟩ = true ∧ pdptFaults cfg ⟨0x2001, 0, 0, 0⟩ = false :=
  ⟨by decide, by decide, by decide, lastRead_lastRead _ _ _ _ _, by decide, by decide⟩

/-- SCE, LME and NXE may be set with paging off; with paging on LME must keep its value. The high halves of the registers do not
count. -/
theorem witness_WrmsrEferCompletes :
    let gpr (rax : Word) : Gprs := { LP.reset.gpr with rcx := 0xFFFFFFFFC0000080, rax := rax, rdx := 0x700000000 }
    let v (g : Gprs) := g.rdx.toNat % 2 ^ 32 * 2 ^ 32 + g.rax.toNat % 2 ^ 32
    (gpr 0).rcx.toNat % 2 ^ 32 = 0xC0000080 ∧ LP.reset.cpl = 0 ∧ lp64.cpl = 0
      ∧ (0x901 : Word).toNat = v (gpr 0x500000901) ∧ (0x100 : Word).toNat = v (gpr 0x100)
      ∧ (∀ w ∈ [(0x901 : Word), 0x100], ∀ i, (12 ≤ i ∧ i ≤ 63) ∨ i = 9 ∨ (1 ≤ i ∧ i ≤ 7) → bit w i = false)
      ∧ cfg.hasXd = true ∧ cfg.hasIntel64 = true ∧ LP.reset.pg = false
      ∧ bit 0x100 8 = bit lp64.efer 8 ∧ bit 0x100 11 ≠ bit lp64.efer 11 :=
  ⟨by decide, by decide, by decide, by decide, by decide,
    fun w hw => eferReserved_eq_false.mp (by rcases List.mem_pair.mp hw with rfl | rfl <;> decide),
    by decide, by decide, by decide, by decide, by decide⟩

/-- A value whose halves differ; bits 1, 7, 9, 12 and 63 are reserved, bits 0, 8, 10 and 11 are not. -/
theorem witness_WrmsrFaults :
    let g : Gprs := { LP.reset.gpr with rax := 0xFFFFFFFF00000200, rdx := 0xA00000001 }
    LP.reset.cpl = 0 ∧ (0x100000200 : Word).toNat = g.rdx.toNat % 2 ^ 32 * 2 ^ 32 + g.rax.toNat % 2 ^ 32
      ∧ eferReserved 0x2 = true ∧ eferReserved 0x80 = true ∧ eferReserved 0x200 = true
      ∧ eferReserved 0x1000 = true ∧ eferReserved 0x8000000000000000 = true ∧ eferReserved 0xD01 = false := by decide

theorem witness_CpuidCompletes :
    (0x80000001 : Word).toNat % 2 ^ 32 = 0x80000001 ∧ (1 : Word).toNat % 2 ^ 32 = 0x1
      ∧ (0xFFFFFFFF80000008 : Word).toNat % 2 ^ 32 = 0x80000008 := by decide

theorem witness_HltCompletes : LP.reset.cpl = 0 := by decide

theorem witness_PrivilegedInstructionsFault : Instr.hlt ≠ .cpuid ∧ { LP.reset with cpl := 1 }.cpl ≠ 0 := by decide

/-- INVLPG ends with a next state that is no GP(0), a walk being in progress; the last read of a PDPTR load; a page fault. -/
theorem witness_WalksInProgressDropped :
    after (exec (.invlpg (.base .rbx .none)) (st { lp64 with walks := [walk .read false .pte 0x103000] } [] []))
        (fun t => t.lp.exc == none && t.lp.loading == none) = true ∧ lp64.loading = none
      ∧ (lastRead lpPae (.cr3 0x1000) 3 ⟨0x2001, 0, 0, 0⟩ []).LastRead (.cr3 0x1000) ⟨0x2001, 0, 0, 0⟩
      ∧ after (step (lastRead lpPae (.cr3 0x1000) 3 ⟨0x2001, 0, 0, 0⟩ [])) (fun t => t.lp.exc == none) = true
      ∧ after (step (walking [] .read .pml4e 0x100000)) (fun t => t.lp.exc == some (.pageFault la 0)) = true :=
  ⟨by decide, rfl, lastRead_lastRead _ _ _ _ _, by decide, by decide⟩

theorem witness_PagingModeOfRegisters : lp64.ControlInv ∧ lpPae.ControlInv ∧ lp32.ControlInv ∧ LP.reset.ControlInv :=
  ⟨controlInv_of_noLoad (by decide) (by decide) rfl, controlInv_of_noLoad (by decide) (by decide) rfl,
    controlInv_of_noLoad (by decide) (by decide) rfl, controlInv_of_noLoad (by decide) (by decide) rfl⟩

theorem witness_PagingOff :
    (choosing LP.reset [] .read page).Choosing (acc .read [page] .choosing) page [] ∧ LP.reset.pg = false
      ∧ LP.reset.WalkInv ∧ ¬ (st LP.reset [] [.walkStep 0]).Schedules
      ∧ after (step (st LP.reset [] [.walkStep 0])) (fun t => t.inputs == []) = true :=
  ⟨choosing_choosing rfl _ _ _, by decide, walkInv_of_idle rfl rfl, by simp [State.Schedules, st], by decide⟩

theorem witness_NotPresentEntryStopsTranslation :
    (walking [] .read .pml4e 0x100000).Walking (acc .read [] (.walking page (walk .read false .pml4e 0x100000))) page
        (walk .read false .pml4e 0x100000)
      ∧ bit ((walk .read false .pml4e 0x100000).entry cfg []) 0 = false
      ∧ (st { lp64 with walks := [walk .read false .pml4e 0x100000] } [] [.walkStep 0]).lp.walks[0]?
          = some (walk .read false .pml4e 0x100000) := ⟨walking_walking _ _ _ _, by decide, rfl⟩

/-- Bit 52 and above up to 62 are free at PAW = 52 in ModeIA32e; a large page's bit 13 is reserved. -/
theorem witness_ReservedBitStopsTranslation :
    (walking (entries [(0x102008, 0x402087)]) .read .pde 0x102000).Walking
        (acc .read [] (.walking page (walk .read false .pde 0x102000))) page (walk .read false .pde 0x102000)
      ∧ bit ((walk .read false .pde 0x102000).entry cfg (entries [(0x102008, 0x402087)])) 0 = true
      ∧ reserved cfg lp64.nxe lp64.pse .modeIA32e .pde ((walk .read false .pde 0x102000).entry cfg (entries [(0x102008, 0x402087)]))
          = true := ⟨walking_walking _ _ _ _, by decide, by decide⟩

/-- The memory of a leaf entry without R/W, for a write at CPL 0 with CR0.WP = 1; a TLB entry with XD for a fetch. -/
theorem witness_DeniedAccessFaults :
    (let w := walk .fetch false .pte 0x103000
     let m := entries [(0x103008, 0x8000000000200005)]
     (walking m .fetch .pte 0x103000).Walking (acc .fetch [] (.walking page w)) page w ∧ bit (w.entry cfg m) 0 = true
      ∧ reserved cfg lp64.nxe lp64.pse w.mode w.level (w.entry cfg m) = false
      ∧ isLeaf lp64.pse w.mode w.level (w.entry cfg m) = true
      ∧ permit lp64 w.acc (w.rights.andEntry lp64.nxe w.mode (w.entry cfg m)) = false)
    ∧ (let lp : LP := { lp64 with tlb := [tlbEntry false true] }
       (choosing lp [] .fetch page).Choosing (acc .fetch [page] .choosing) page [] ∧ lp.pg = true ∧ lp.refuses la = false
        ∧ (choosing lp [] .fetch page).PicksTlb (acc .fetch [page] .choosing) page (tlbEntry false true)
        ∧ permit lp (acc .fetch [page] .choosing).acc (tlbEntry false true).rights = false) :=
  ⟨⟨walking_walking _ _ _ _, by decide, by decide, by decide, by decide⟩,
    choosing_choosing rfl _ _ _, by decide, by decide, by decide, by decide⟩

/-- 40000000H is in the second quarter, whose register is not present; it is the second of two pages to be translated. -/
theorem witness_NotPresentPdptrFaults :
    let p : Piece := ⟨0x40000000, 1, 1⟩
    let q : Piece := ⟨0x3FFFFFFF, 0, 1⟩
    let s := choosingSecond lpPae [] .read q p
    s.Choosing (acc .read [q, p] .choosing) p [q] ∧ lpPae.mode = some .modePAE
      ∧ pick .root (alternatives s.lp .modePAE 0x40000000 .read) s.choice.alternative = .root
      ∧ lpPae.PdptrAbsent 0x40000000 :=
  ⟨choosing_second rfl (by decide) (by decide), by decide, by decide, by decide, by decide⟩

theorem witness_UpperEntryStep :
    let w := walk .read false .pml4e 0x100000
    let m := entries [(0x1007F8, 0x101007)]
    (walking m .read .pml4e 0x100000).Walking (acc .read [] (.walking page w)) page w ∧ bit (w.entry cfg m) 0 = true
      ∧ reserved cfg lp64.nxe lp64.pse w.mode w.level (w.entry cfg m) = false
      ∧ isLeaf lp64.pse w.mode w.level (w.entry cfg m) = false := ⟨walking_walking _ _ _ _, by decide, by decide, by decide⟩

theorem witness_LeafEntryStep :
    let w := walk .write false .pte 0x103000
    let m := entries [(0x103008, 0x200007)]
    (walking m .write .pte 0x103000).Walking (acc .write [] (.walking page w)) page w ∧ bit (w.entry cfg m) 0 = true
      ∧ reserved cfg lp64.nxe lp64.pse w.mode w.level (w.entry cfg m) = false
      ∧ isLeaf lp64.pse w.mode w.level (w.entry cfg m) = true
      ∧ permit lp64 w.acc (w.rights.andEntry lp64.nxe w.mode (w.entry cfg m)) = true ∧ w.allA = true ∧ w.acc.spec = false :=
  ⟨walking_walking _ _ _ _, by decide, by decide, by decide, by decide, by decide, by decide⟩

theorem witness_SkippedAccessedBitRestarts :
    let w : Walk := { walk .read false .pte 0x103000 with allA := false }
    let m := entries [(0x103008, 0x200007)]
    let s := st { lp64 with access := some (acc .read [] (.walking page w)) } m []
    s.Walking (acc .read [] (.walking page w)) page w ∧ bit (w.entry cfg m) 0 = true
      ∧ reserved cfg lp64.nxe lp64.pse w.mode w.level (w.entry cfg m) = false
      ∧ isLeaf lp64.pse w.mode w.level (w.entry cfg m) = true
      ∧ permit lp64 w.acc (w.rights.andEntry lp64.nxe w.mode (w.entry cfg m)) = true ∧ w.allA = false :=
  ⟨⟨.inl rfl, rfl, rfl, rfl⟩, by decide, by decide, by decide, by decide, rfl⟩

theorem witness_AssembledAddresses :
    (walk .read false .pml4e 0).mode ≠ .mode32 ∧ { walk .read false .pde 0 with mode := .mode32 }.mode = .mode32 := by decide

/-- A step that adds an entry; and a 2-MByte page of which an entry and two derived ones can be added. -/
theorem witness_TlbEntryCreation :
    (let out := walkStep cfg cacheAll lp64 (entries [(0x103008, 0x200007)]) (walk .read false .pte 0x103000)
     out.lp.tlb.length = 1 ∧ lp64.tlb = [])
    ∧ let w := walk .write false .pde 0x102000
      let e := w.entry cfg (entries [(0x102008, 0x400087)])
      bit e 0 = true ∧ reserved cfg lp64.nxe lp64.pse w.mode w.level e = false ∧ isLeaf lp64.pse w.mode w.level e = true
        ∧ permit lp64 w.acc (w.rights.andEntry lp64.nxe w.mode e) = true ∧ w.allA = true
        ∧ (w.acc.kind = .write → w.acc.spec = false) ∧ (∀ sv ∈ some Serves.both, sv ∈ cfg.tlbs)
        ∧ ∀ q ∈ [((0 : Nat), Serves.both), (511, .both)],
            q.1 < 2 ^ (largeBits w.mode - 12) ∧ q.2 ∈ cfg.tlbs ∧ cfg.fractureLarge = true ∧ w.level = .pde := by decide

/-- A step that adds an entry, and the conditions under which one can be added. -/
theorem witness_PscEntryCreation :
    let w := walk .read false .pml4e 0x100000
    let m := entries [(0x1007F8, 0x101007)]
    (walkStep cfg cacheAll lp64 m w).lp.pml4c.length = 1 ∧ lp64.pml4c = [] ∧ bit (w.entry cfg m) 0 = true
      ∧ reserved cfg lp64.nxe lp64.pse w.mode w.level (w.entry cfg m) = false
      ∧ isLeaf lp64.pse w.mode w.level (w.entry cfg m) = false ∧ w.allA = true := by decide

/-- A large page; a present and an absent PDPTR register; and, as `test_maps` says, memory that maps a page of either size. -/
theorem witness_NoPdeCacheEntryFromLargePage :
    (walk .read false .pde 0x102000).level = .pde
      ∧ bit ((walk .read false .pde 0x102000).entry cfg (entries [(0x102008, 0x400087)])) 7 = true
      ∧ (walk .read false .pde 0x102000).mode ≠ .mode32
      ∧ lpPae.pg = true ∧ bit (lpPae.pdptr.get 0) 0 = true ∧ bit (lpPae.pdptr.get 1) 0 = false
      ∧ lpPae.maps cfg (entries [(0x2008, 0x87)]) 0x201FFF = some .large
      ∧ lpPae.maps cfg (entries [(0x2008, 0x87)]) 0x40201FFF = none
      ∧ lp32.maps cfg (entries [(0x10000, 0x87)]) 0x201FFF = some .ordinary := by decide

/-- The three modes from the root, ModePAE with a present PDPTR register; a PDE-cache entry. -/
theorem witness_StartingPointsOfATranslation :
    Alternative.tlb (tlbEntry false true) ∈ alternatives { lp64 with tlb := [tlbEntry false true] } .modeIA32e la .read
      ∧ (choosing lp64 [] .read page).Choosing (acc .read [page] .choosing) page [] ∧ lp64.pg = true
      ∧ lp64.refuses la = false ∧ alternatives lp64 .modeIA32e la .read = [.root]
      ∧ alternatives lpPae .modePAE 0x1000 .read = [.root] ∧ ¬ lpPae.PdptrAbsent 0x1000
      ∧ alternatives lp32 .mode32 0x1000 .read = [.root]
      ∧ pick .root (alternatives { lp64 with pdec := [⟨.modeIA32e, 0x3FC0201, 0x103000, ⟨true, true, false⟩⟩] } .modeIA32e la .read) 0
          = .cache .pte ⟨.modeIA32e, 0x3FC0201, 0x103000, ⟨true, true, false⟩⟩ :=
  ⟨by decide, choosing_choosing rfl _ _ _, by decide, by decide, by decide, by decide, fun h => absurd h.2 (by decide), by decide,
    by decide⟩

/-- An ordinary entry of a 4-KByte page, and one derived from a large page where memory maps none; and one where memory maps a
large page, for the first byte of the access in it. -/
theorem witness_TlbEntryTranslates :
    (∀ e ∈ [tlbEntry false true, derived],
      let lp : LP := { lp64 with tlb := [e] }
      let a := acc .write [second, page] .choosing
      let s := choosingSecond lp [] .write second page
      s.Choosing a page [second] ∧ lp.pg = true ∧ lp.refuses la = false ∧ s.PicksTlb a page e
        ∧ permit lp a.acc e.rights = true ∧ e.dirty = true)
    ∧ let e : TlbEntry := { derived with key := 0x201, frame := 0x401 }
      let s := begins { lp64 with tlb := [e] } (mapped 0x400087) false
      let a := acc2 .read [first, second] .choosing
      s.Choosing a first [second] ∧ s.PicksTlb a first e ∧ permit s.lp a.acc e.rights = true
        ∧ s.lp.maps s.cfg s.mem first.la = some .large ∧ a.firstByte 21 first.la = first.la := by
  refine ⟨fun e he => ?_, ⟨.inl rfl, rfl, .inl rfl, rfl, by decide, by decide⟩, by decide, by decide, by decide, by decide⟩
  rcases List.mem_pair.mp he with rfl | rfl <;>
    exact ⟨choosing_second rfl (by decide) (by decide), by decide, by decide, by decide, by decide, rfl⟩

/-- In ModeIA32e, from the root and from a PDE-cache entry; in ModePAE with the PDPTR register of the address present, and with it
not present. -/
theorem witness_CleanTlbEntryWalksAgain :
    (let lp : LP := { lp64 with tlb := [tlbEntry false false] }
     let a := acc .write [page] .choosing
     let s := choosing lp [] .write page
     s.Choosing a page [] ∧ lp.pg = true ∧ lp.refuses la = false ∧ s.PicksTlb a page (tlbEntry false false)
      ∧ permit lp a.acc (tlbEntry false false).rights = true ∧ (tlbEntry false false).dirty = false
      ∧ pick .root (walkAlternatives lp .modeIA32e la) 0 = .root
      ∧ let c : PscEntry := ⟨.modeIA32e, 0x3FC0201, 0x103000, ⟨true, true, false⟩⟩
        walkAlternatives { lp with pdec := [c] } .modeIA32e la = [.cache .pte c, .root])
    ∧ (let e : TlbEntry := { tlbEntry false false with mode := .modePAE, key := 1 }
       let lp : LP := { lpPae with tlb := [e] }
       let p : Piece := ⟨0x1ABC, 0, 1⟩
       let s := choosing lp [] .write p
       s.Choosing (acc .write [p] .choosing) p [] ∧ s.PicksTlb (acc .write [p] .choosing) p e ∧ ¬ lp.PdptrAbsent p.la)
    ∧ let e : TlbEntry := { tlbEntry false false with mode := .modePAE, key := 0x40001 }
      let lp : LP := { lpPae with tlb := [e] }
      let p : Piece := ⟨0x40001ABC, 0, 1⟩
      let s := choosing lp [] .write p
      s.Choosing (acc .write [p] .choosing) p [] ∧ s.PicksTlb (acc .write [p] .choosing) p e ∧ lp.PdptrAbsent p.la
        ∧ after (step s) (fun t => t.lp.exc == some (.pageFault 0x40001ABC 2)) = true := by
  refine ⟨⟨choosing_choosing rfl _ _ _, by decide, by decide, by decide, by decide, rfl, by decide, by decide⟩,
    ⟨choosing_choosing rfl _ _ _, by decide, fun h => absurd h.2 (by decide)⟩,
    ⟨choosing_choosing rfl _ _ _, by decide, ⟨by decide, by decide⟩, ?_⟩⟩
  decide

theorem witness_PageFaultLeavesTheRootAlone :
    ¬ (walking [] .read .pml4e 0x100000).Schedules
      ∧ after (step (walking [] .read .pml4e 0x100000))
          (fun t => t.lp.exc == some (.pageFault la 0) && t.lp.exc != (walking [] .read .pml4e 0x100000).lp.exc) = true :=
  ⟨by simp [State.Schedules, walking, st], by decide⟩

/-- A speculative access that begins a walk, one that a TLB entry translates, one of a PDPTR register with P = 0, and those that do
nothing: paging is off, the address is not canonical. -/
theorem witness_SpeculativeAccessNeverFaults :
    (st lp64 [] [.specAccess true la]).inputs = .specAccess true la :: [] ∧ (st lp64 [] [.specAccess true la]).lp.loading = none
      ∧ lp64.pg = true ∧ lp64.refuses la = false ∧ alternatives lp64 .modeIA32e la .fetch = [.root]
      ∧ pick .root (alternatives { lp64 with tlb := [tlbEntry false true] } .modeIA32e la .read) 0 = .tlb (tlbEntry false true)
      ∧ lpPae.pg = true ∧ lpPae.PdptrAbsent 0x40000000 ∧ LP.reset.pg = false ∧ lp64.refuses 0x0000800000000000 = true :=
  ⟨rfl, rfl, by decide, by decide, by decide, by decide, by decide, ⟨by decide, by decide⟩, by decide, by decide⟩

/-- A speculative walk that meets a faulting condition, and entries at which it goes on, ends and starts again. -/
theorem witness_SpeculativeWalkSetsAccessedBitsOnly :
    (let w : Walk := { walk .read true .pml4e 0x100000 with acc := ⟨.read, true, true⟩ }
     let s := st { lp64 with walks := [w] } [] [.walkStep 0]
     s.inputs = .walkStep 0 :: [] ∧ s.lp.loading = none ∧ s.lp.WalkInv ∧ s.lp.walks[0]? = some w ∧ bit (w.entry cfg []) 0 = false
      ∧ bit (w.entry cfg (entries [(0x1007F8, 0x101007)])) 0 = true
      ∧ reserved cfg lp64.nxe lp64.pse w.mode w.level (w.entry cfg (entries [(0x1007F8, 0x101007)])) = false
      ∧ isLeaf lp64.pse w.mode w.level (w.entry cfg (entries [(0x1007F8, 0x101007)])) = false)
    ∧ ∀ allA, let w : Walk := { walk .read true .pte 0x103000 with acc := ⟨.read, true, true⟩, allA := allA }
      let e := w.entry cfg (entries [(0x103008, 0x200007)])
      bit e 0 = true ∧ reserved cfg lp64.nxe lp64.pse w.mode w.level e = false ∧ isLeaf lp64.pse w.mode w.level e = true
        ∧ permit lp64 w.acc (w.rights.andEntry lp64.nxe w.mode e) = true ∧ w.allA = allA :=
  ⟨⟨rfl, rfl, walkInv_of_walks (by simp [st]) (by decide) (by simp [st, lp64, LP.reset]) rfl, rfl, by decide, by decide, by decide,
    by decide⟩, by decide⟩

theorem witness_EvictionOfAnySubset :
    (st { lp64 with tlb := [tlbEntry true true] } [] [.evict]).inputs = .evict :: []
      ∧ List.Sublist [] (st { lp64 with tlb := [tlbEntry true true] } [] [.evict]).lp.tlb := ⟨rfl, List.nil_sublist _⟩

/-- The last address of physical memory, and the first address beyond it. -/
theorem witness_PhysStoreLeavesCaches :
    (st lp64 [] [.physStore 0xFFFFFFFFFFFFF [1]]).inputs = .physStore 0xFFFFFFFFFFFFF [1] :: []
      ∧ 0xFFFFFFFFFFFFF + 1 ≤ 2 ^ cfg.paw ∧ 2 ^ cfg.paw < 0x10000000000000 + 1 := ⟨rfl, by decide, by decide⟩

/-- A step of the software that is no `schedule`, and one that is. -/
theorem witness_OtherProcessorsUntouched :
    after (step (st LP.reset [(0xFFFFFFF0, 0xF4)] [])) (fun _ => true) = true ∧ ¬ (st LP.reset [(0xFFFFFFF0, 0xF4)] []).Schedules
      ∧ after (step { st lp64 [] [.schedule 0] with others := [{ LP.reset with physical := 1 }] })
          (fun t => t.lp == { LP.reset with physical := 1 } && t.others == [lp64]) = true
      ∧ ([] : List LP)[0]? = none :=
  ⟨by decide, by simp [State.Schedules, st], by decide, rfl⟩

/-- A step that changes CR0 by MOV to CR0, one that changes CR3 with the last read of a load, and one that changes CR2 by a page
fault. -/
theorem witness_ControlRegistersChangeOnlyBy :
    (let s := (st LP.reset [] []).withFetchWord 24 0x0F22C0
     s.lp.ControlInv ∧ ¬ s.Schedules ∧ after (step s) (fun t => t.lp.cr0 != LP.reset.cr0) = true)
      ∧ (let s := lastRead lpPae (.cr3 0x2000) 3 ⟨0x2001, 0, 0, 0⟩ []
         ¬ s.Schedules ∧ after (step s) (fun t => t.lp.cr3 == 0x2000) = true)
      ∧ (let s := walking [] .read .pml4e 0x100000
         s.lp.ControlInv ∧ ¬ s.Schedules ∧ after (step s) (fun t => t.lp.cr2 == la) = true) :=
  ⟨⟨controlInv_of_noLoad (by decide) (by decide) (by decide), not_schedules (by decide), by decide⟩,
    ⟨not_schedules rfl, by decide⟩,
    ⟨controlInv_of_noLoad (by decide) (by decide) rfl, not_schedules rfl, by decide⟩⟩

/-- A MOV to CR3 with PAE = 1 and paging off (P14) begins a load; a load reads one of two entries; the last read loads the registers. -/
theorem witness_PdptrsLoadedOnlyByMovs :
    (let s := (st { LP.reset with cr4 := 0x20, gpr := { LP.reset.gpr with rax := 0x1000 } } [] []).withFetchWord 24 0x0F22D8
     s.lp.ControlInv ∧ ¬ s.Schedules ∧ s.lp.loading = none ∧ after (step s) (fun t => t.lp.loading.isSome) = true)
    ∧ ((st { lpPae with loading := some ⟨.cr3 0x1000, [0, 3], ⟨0, 0, 0, 0⟩⟩ } [] []).Loading ⟨.cr3 0x1000, [0, 3], ⟨0, 0, 0, 0⟩⟩)
    ∧ (let s := lastRead lpPae (.cr3 0x2000) 3 ⟨0x2001, 0, 0, 0⟩ []
       s.lp.ControlInv ∧ ¬ s.Schedules ∧ after (step s) (fun t => t.lp.pdptr == ⟨0x2001, 0, 0, 0⟩) = true) := by
  refine ⟨⟨controlInv_of_noLoad (by decide) (by decide) (by decide), not_schedules (by decide), by decide, by decide⟩,
    ⟨.inl rfl, rfl⟩, ⟨by decide, by decide, ?_, ?_⟩, not_schedules rfl, by decide⟩ <;> intro l hl <;>
    simp only [lastRead, st, Option.some.injEq] at hl <;> subst hl
  · decide
  · simp

theorem witness_PhysicalMemoryIsLittleEndian : 7 < 8 := by decide

/-- Two addresses in one large page and in two 4-KByte pages; in the same large page once the first part has been translated by
itself; and the part that begins in a large page that memory maps. -/
theorem witness_PagesOfAnAccess :
    (12 ≤ 64 ∧ (acc2 .read [] .choosing).la.toNat / 2 ^ 21 = second.la.toNat / 2 ^ 21)
      ∧ (acc2 .read [] .choosing).la.toNat / 2 ^ 12 ≠ second.la.toNat / 2 ^ 12
      ∧ { acc2 .read [second] .choosing with parts := [first.la] }.firstByte 21 second.la = second.la
      ∧ (begins lp64 (mapped 0x400087) false).ready (acc2 .read [first, second] .choosing) = [first]
      ∧ (begins lp64 (mapped 0x103007) false).ready (acc2 .read [first, second] .choosing) = [first, second] := by decide

theorem witness_AccessIsIssued :
    (st lp64 [] [.load la 1]).inputs = .load la 1 :: [] ∧ (st lp64 [] [.fetch la 0]).inputs = .fetch la 0 :: []
      ∧ (st lp64 [] [.store la [1, 2]]).inputs = .store la [1, 2] :: [] ∧ lp64.loading = none
      ∧ lp64.access = none ∧ lp64.halted = false := ⟨rfl, rfl, rfl, rfl, rfl, rfl⟩

/-- With the last page, with one more page to come, and with one more piece of the same page. -/
theorem witness_StoreWritesItsBytes :
    (performing .write []).Performing (acc .write [] (.translated page 0x200ABC)) page 0x200ABC
      ∧ (performing .write [page]).Performing (acc .write [page] (.translated page 0x200ABC)) page 0x200ABC
      ∧ (let a := { acc2 .write [] (.translated first 0x401FFF) with covered := [(second, 0x402000)] }
         (st { lp64 with access := some a } [] []).Performing a first 0x401FFF)
      ∧ page.off + page.len ≤ (acc .write [] (.translated page 0x200ABC)).bytes.length :=
  ⟨performing_performing _ _, performing_performing _ _, ⟨.inl rfl, rfl, rfl, rfl, rfl⟩, by decide⟩

/-- With a region of read side effects that holds the byte, and one that begins behind it. -/
theorem witness_LoadReadsItsBytes :
    (performing .read []).Performing (acc .read [] (.translated page 0x200ABC)) page 0x200ABC
      ∧ (performing .fetch [page]).Performing (acc .fetch [page] (.translated page 0x200ABC)) page 0x200ABC
      ∧ (let a := { acc2 .read [] (.translated first 0x401FFF) with covered := [(second, 0x402000)] }
         (st { lp64 with access := some a } [] []).Performing a first 0x401FFF)
      ∧ page.off + page.len ≤ (acc .read [] (.translated page 0x200ABC)).bytes.length
      ∧ after (step { performing .read [] with cfg := { cfg with readSideEffect := [(0x200ABC, 1)] } })
          (fun t => t.sideEffects == [0x200ABC]) = true
      ∧ after (step { performing .read [] with cfg := { cfg with readSideEffect := [(0x200ABD, 1)] } })
          (fun t => t.sideEffects == []) = true :=
  ⟨performing_performing _ _, performing_performing _ _, ⟨.inl rfl, rfl, rfl, rfl, rfl⟩, by decide, by decide, by decide⟩

theorem witness_ResumeAndWake :
    (st lp64 [] [.resume 0x1000 3]).inputs = .resume 0x1000 3 :: [] ∧ (st lp64 [] [.resume 0x1000 3]).lp.access = none
      ∧ (st lp64 [] [.resume 0x1000 3]).lp.loading = none
      ∧ (st { lp64 with halted := true } [] [.wake]).inputs = .wake :: [] := ⟨rfl, rfl, rfl, rfl⟩

theorem witness_StepKeepsMemoryCanonical :
    (entries [(0x103008, 0x200007)]).wf = true
      ∧ after (step (walking (entries [(0x103008, 0x200007)]) .write .pte 0x103000)) (fun t => t.mem.wf) = true := by decide

/-- The states of the four witnesses below that answer a next state. -/
theorem witness_steps_of_invariants :
    after (step (st lp64 [] [.evict])) (fun _ => true) = true
      ∧ after (step (st { lp64 with cr4 := 0xA0, tlb := [tlbEntry true true] } [] [.evict])) (fun _ => true) = true
      ∧ after (step (walking [] .read .pml4e 0x100000)) (fun _ => true) = true := by decide

theorem witness_StepKeepsControlInvariant : (st lp64 [] [.evict]).Each LP.ControlInv := by
  intro lp h
  simp only [State.processors, st, List.mem_singleton] at h
  subst h
  exact controlInv_of_noLoad (by decide) (by decide) rfl

/-- A global entry with CR4.PGE = 1, and an entry that is not global with CR4.PGE = 0. -/
theorem witness_StepKeepsGlobalInvariant :
    (st { lp64 with cr4 := 0xA0, tlb := [tlbEntry true true] } [] [.evict]).Each LP.GlobalInv
      ∧ (st { lp64 with tlb := [tlbEntry false true] } [] [.evict]).Each LP.GlobalInv := by
  constructor <;> intro lp h <;> simp only [State.processors, st, List.mem_singleton] at h <;> subst h
  · intro h; exact absurd h (by decide)
  · intro _; simp [tlbEntry]

theorem witness_StepKeepsCacheInvariant :
    (st { lp64 with tlb := [tlbEntry false true], pml4c := [⟨.modeIA32e, 0xFF, 0x101000, ⟨true, true, false⟩⟩] } [] [.evict]).Each
      (LP.CacheInv cfg) := by
  intro lp h
  simp only [State.processors, st, List.mem_singleton] at h
  subst h
  exact ⟨by decide, by decide, by decide, by decide, by decide, by decide⟩

theorem witness_StepKeepsWalkInvariant : (walking [] .read .pml4e 0x100000).Each LP.WalkInv := by
  intro lp h
  simp only [State.processors, walking, st, List.mem_singleton] at h
  subst h
  refine walkInv_of_walks (by simp [lp64, LP.reset]) (by decide) ?_ rfl
  intro a p w ha hp
  simp only [Option.some.injEq] at ha
  subst ha
  simp only [acc, Phase.walking.injEq] at hp
  rw [← hp.2]
  rfl

/-- A walk in progress, and an ordinary TLB entry derived from a large page; with an address below 2^PAW in memory and in the reads
recorded. -/
theorem witness_StepKeepsAddressInvariant :
    let s : State := { walking [(0x1007F8, 7)] .read .pml4e 0x100000 with sideEffects := [0x200ABC] }
    ({ s with lp := { s.lp with tlb := [derived] } } : State).AddressInv
      ∧ after (step { s with lp := { s.lp with tlb := [derived] } }) (fun _ => true) = true := by
  refine ⟨⟨by decide, by decide, ?_, ?_⟩, by decide⟩ <;> intro lp h <;>
    simp only [State.processors, walking, st, List.mem_singleton] at h <;> subst h
  · refine ⟨by simp [lp64, LP.reset], by decide, by decide, by decide, by simp [lp64, LP.reset], ?_⟩
    intro a p w ha hp
    simp only [Option.some.injEq] at ha
    subst ha
    simp only [acc, Phase.walking.injEq] at hp
    rw [← hp.2]
    decide
  · intro a ha
    simp only [Option.some.injEq] at ha
    subst ha
    refine ⟨by simp [acc], fun p w hp => ?_, fun p pa hp => (by simp [acc] at hp), by simp [acc]⟩
    simp only [acc, Phase.walking.injEq] at hp
    rw [← hp.1, ← hp.2]
    exact ⟨by unfold Piece.Fits; decide, rfl⟩

end Sys2Proof.Tests
end

section
/-! SUPPORT. The paging mode by the control registers (R6). -/

namespace Sys2Proof.Machine

/-- With CR0.PG = 0 there is no paging mode. -/
theorem LP.mode_off {lp : LP} (hpg : lp.pg = false) : lp.mode = none := by simp [LP.mode, hpg]

/-- With paging on, LMA decides for IA-32e mode. -/
theorem LP.mode_long {lp : LP} (hpg : lp.pg = true) (hlma : lp.lma = true) : lp.mode = some .modeIA32e := by
  simp [LP.mode, LP.pagingMode, hpg, hlma]

/-- With paging on outside IA-32e mode, PAE decides. -/
theorem LP.mode_legacy {lp : LP} (hpg : lp.pg = true) (hlma : lp.lma = false) :
    lp.mode = some (if lp.pae then .modePAE else .mode32) := by
  simp [LP.mode, LP.pagingMode, hpg, hlma]

/-- Settles O21, row by row of the table of R6: the row with LMA = 1 and PAE = 0 is the one that R27 excludes. -/
theorem pagingModeOfRegisters : Obligations.PagingModeOfRegisters := by
  intro lp hi
  change (_ ↔ lp.pg = false) ∧ (_ ↔ lp.pg = true ∧ lp.pae = false) ∧ (_ ↔ lp.pg = true ∧ lp.pae = true ∧ lp.lma = false)
    ∧ (_ ↔ lp.pg = true ∧ lp.lma = true)
  cases hpg : lp.pg with
  | false => simp [LP.mode_off hpg]
  | true =>
    cases hlma : lp.lma with
    | true => simp [LP.mode_long hpg hlma, hi.pae hlma]
    | false => cases hpae : lp.pae <;> simp [LP.mode_legacy hpg hlma, hpae]

end Sys2Proof.Machine
end

section
/-! SUPPORT. The addresses in the caches and the walks of a logical processor stay below 2^PAW (R9, R64): `LP.AddressInv` survives
every primitive change of a logical processor. -/

namespace Sys2Proof.Machine

/-! ## Entries a walk step adds -/

/-- The TLB entry `e` holds a frame below 2^PAW, and one derived from a large page translates a piece of that page to its place
in the large frame (R9, R267). -/
structure TlbEntry.Sound (cfg : Config) (e : TlbEntry) : Prop where
  ordinary : e.size = .ordinary → e.frame < 2 ^ (cfg.paw - 12)
  large : e.size = .large → e.frame < 2 ^ (cfg.paw - largeBits e.mode)
  fractured : e.size = .ordinary → e.fromLarge = true →
    e.key % 2 ^ (largeBits e.mode - 12) = e.frame % 2 ^ (largeBits e.mode - 12)

theorem LP.AddressInv.sound {cfg : Config} {lp : LP} (h : lp.AddressInv cfg) {e : TlbEntry} (he : e ∈ lp.tlb) :
    e.Sound cfg := ⟨h.ordinary e he, h.large e he, h.fractured e he⟩

/-- The low bits of a concatenation are those of its low part. -/
theorem cat_mod (hi width lo : Nat) : cat hi width lo % 2 ^ width = lo % 2 ^ width := by simp [cat]

theorem leafEntry_sound (cfg : Config) (lp : LP) (w : Walk) (e : Word) (r : Rights) (sv : Serves) :
    (leafEntry cfg lp w e r sv).Sound cfg := by
  have hf : frameField cfg w.mode e < 2 ^ (cfg.paw - 12) :=
    (frameField_lt cfg w.mode e).trans_le
      (Nat.pow_le_pow_right two_pos (Nat.sub_le_sub_right (addrWidth_bounds cfg w.mode).2 12))
  have hl := largeFrame_lt cfg w.mode e
  by_cases hpte : w.level = .pte <;> constructor <;> simp [leafEntry, hpte, hf, hl]

theorem fractureEntry_sound (cfg : Config) (lp : LP) (w : Walk) (e : Word) (r : Rights) (piece : Nat) (sv : Serves) :
    (fractureEntry cfg lp w e r piece sv).Sound cfg := by
  refine ⟨fun _ => ?_, nofun, fun _ _ => ?_⟩
  · have hb : 12 ≤ largeBits w.mode := by unfold largeBits; split <;> omega
    have hp := largeBits_le cfg w.mode
    have hc := cat_lt (largeFrame_lt cfg w.mode e)
      (Nat.mod_lt piece (Nat.two_pow_pos (largeBits w.mode - 12)))
    rwa [show cfg.paw - largeBits w.mode + (largeBits w.mode - 12) = cfg.paw - 12 by omega] at hc
  · exact (cat_mod _ _ _).trans (cat_mod _ _ _).symm

/-- Every paging-structure-cache entry after a walk step was there before, or names an aligned structure below 2^PAW (R93, R196). -/
theorem mem_walkStep_psc {cfg : Config} {c : Choice} {lp : LP} {mem : Memory} {w : Walk} {x : PscEntry}
    (h : x ∈ (walkStep cfg c lp mem w).lp.pml4c ∨ x ∈ (walkStep cfg c lp mem w).lp.pdpc
      ∨ x ∈ (walkStep cfg c lp mem w).lp.pdec) :
    (x ∈ lp.pml4c ∨ x ∈ lp.pdpc ∨ x ∈ lp.pdec) ∨ (x.addr < 2 ^ cfg.paw ∧ x.addr % 4096 = 0) := by
  have added : ∀ {y : PscEntry} {l : List PscEntry} (_ : y.addr < 2 ^ cfg.paw ∧ y.addr % 4096 = 0), x ∈ addTo y l →
      x ∈ l ∨ (x.addr < 2 ^ cfg.paw ∧ x.addr % 4096 = 0) := fun hy hx =>
    (mem_addTo.mp hx).elim (fun e => .inr (e ▸ hy)) .inl
  rcases walkStep_psc cfg c lp mem w with ⟨h1, h2, h3⟩ | ⟨-, -, -, -, -, -, hlp⟩
  · rw [h1, h2, h3] at h; exact .inl h
  · rw [hlp] at h
    have hy := nextBase_bounds cfg w.mode (mem.readEntry (w.entryAddr cfg) (entryBytes w.mode))
    rcases LP.cachePsc_cases cfg w.level
      { mode := w.mode, key := pscKey w.mode w.level w.la
        addr := nextBase cfg w.mode (mem.readEntry (w.entryAddr cfg) (entryBytes w.mode))
        rights := w.rights.andEntry lp.nxe w.mode (mem.readEntry (w.entryAddr cfg) (entryBytes w.mode)) } lp with
      e | ⟨-, -, -, e⟩ | ⟨-, -, -, e⟩ | ⟨-, -, e⟩ <;> rw [e] at h
    · exact .inl h
    · rcases h with h | h | h
      · exact (added hy h).imp_left .inl
      · exact .inl (.inr (.inl h))
      · exact .inl (.inr (.inr h))
    · rcases h with h | h | h
      · exact .inl (.inl h)
      · exact (added hy h).imp_left (.inr ∘ .inl)
      · exact .inl (.inr (.inr h))
    · rcases h with h | h | h
      · exact .inl (.inl h)
      · exact .inl (.inr (.inl h))
      · exact (added hy h).imp_left (.inr ∘ .inr)

/-! ## The changes of a logical processor -/

/-- Cached entries and walks may go, and the access may wait for its next page. -/
theorem LP.AddressInv.removes {cfg : Config} {lp lp' : LP} (h : lp.AddressInv cfg) (hr : lp.OnlyRemoves lp')
    (hw : lp'.walks.Sublist lp.walks) (ha : lp'.access = lp.access ∨ ∀ a, lp'.access = some a → a.phase = .choosing) :
    lp'.AddressInv cfg where
  psc x hx := h.psc x (hx.imp hr.pml4c.mem (Or.imp hr.pdpc.mem hr.pdec.mem))
  ordinary e he := h.ordinary e (hr.tlb.mem he)
  large e he := h.large e (hr.tlb.mem he)
  fractured e he := h.fractured e (hr.tlb.mem he)
  walks w hw' := h.walks w (hw.mem hw')
  walking a p w h1 h2 := by
    rcases ha with ha | ha
    · exact h.walking a p w (ha ▸ h1) h2
    · rw [ha a h1] at h2; cases h2

/-- The access goes on as one whose walk, if it is in one, has a sound base. -/
theorem LP.AddressInv.setAccess {cfg : Config} {lp : LP} (h : lp.AddressInv cfg) {a : Access}
    (ha : ∀ p w, a.phase = .walking p w → w.base < 2 ^ cfg.paw ∧ w.base % 4096 = 0) :
    LP.AddressInv cfg { lp with access := some a } :=
  { h with walking := fun _ p w h1 h2 => by cases h1; exact ha p w h2 }

/-- The speculative walks become walks with sound bases. -/
theorem LP.AddressInv.setWalks {cfg : Config} {lp : LP} (h : lp.AddressInv cfg) {ws : List Walk}
    (hw : ∀ w ∈ ws, w ∈ lp.walks ∨ (w.base < 2 ^ cfg.paw ∧ w.base % 4096 = 0)) :
    LP.AddressInv cfg { lp with walks := ws } :=
  { h with walks := fun w hm => (hw w hm).elim (h.walks w) id }

theorem LP.AddressInv.eraseWalk {cfg : Config} {lp : LP} (h : lp.AddressInv cfg) (n : Nat) :
    LP.AddressInv cfg { lp with walks := lp.walks.eraseIdx n } :=
  h.setWalks fun _ hw => .inl (List.mem_of_mem_eraseIdx hw)

/-- The structure a translation begins to walk in lies below 2^PAW: the cache it may be from holds such addresses only. -/
theorem LP.AddressInv.base {cfg : Config} {lp : LP} (h : lp.AddressInv cfg) {w : Walk} (hb : lp.BaseOf cfg w) :
    w.base < 2 ^ cfg.paw ∧ w.base % 4096 = 0 := by
  rcases hb with hb | ⟨e, he, hb⟩
  · exact hb
  · rw [hb]; exact h.psc e he

theorem LP.AddressInv.walkStep {cfg : Config} {lp : LP} (h : lp.AddressInv cfg) (c : Choice) (mem : Memory) (w : Walk) :
    (walkStep cfg c lp mem w).lp.AddressInv cfg := by
  have tlb : ∀ e ∈ (Sys2Proof.Machine.walkStep cfg c lp mem w).lp.tlb, e.Sound cfg := fun e he => by
    rcases mem_walkStep_tlb he with he | ⟨-, -, -, -, -, -, ⟨sv, -, rfl⟩ | ⟨-, -, piece, sv, -, rfl⟩⟩
    · exact h.sound he
    · exact leafEntry_sound _ _ _ _ _ _
    · exact fractureEntry_sound _ _ _ _ _ _ _
  exact
    { psc := fun x hx => (mem_walkStep_psc hx).elim (h.psc x) id
      ordinary := fun e he => (tlb e he).ordinary
      large := fun e he => (tlb e he).large
      fractured := fun e he => (tlb e he).fractured
      walks := fun x hx => h.walks x (by simpa using hx)
      walking := fun a p x ha => h.walking a p x (by simpa using ha) }

/-- A MOV to a control register only removes. -/
theorem LP.AddressInv.controlWrite {cfg : Config} {lp : LP} (h : lp.AddressInv cfg) (c : Choice) (t : Pdptrs)
    (w : ControlWrite) : (w.apply cfg c t lp).AddressInv cfg := by
  obtain ⟨h1, h2, h3, h4⟩ := ControlWrite.apply_removes cfg c t lp w
  have he := ControlWrite.apply_eq cfg c t lp w
  refine h.removes ⟨h1, h2, h3, h4⟩ ?_ (.inl ?_) <;> rw [he]
  exact List.nil_sublist _

/-- WRMSR only removes. -/
theorem LP.AddressInv.wrmsrEfer {cfg : Config} {lp : LP} (h : lp.AddressInv cfg) (c : Choice) (v : Word) :
    (wrmsrEfer cfg c v lp).AddressInv cfg := by
  obtain ⟨h1, h2, h3, h4⟩ :=
    LP.modeChanged_sublist cfg c (bit v 11 != lp.nxe) { lp with efer := eferWritten lp.efer v }
  exact h.removes ⟨h1, h2, h3, h4⟩ (List.nil_sublist _) (.inl (by simp [Sys2Proof.Machine.wrmsrEfer]))

/-- The addresses of a logical processor survive every primitive change of it. -/
theorem addressInv_kept : Kept LP.AddressInv where
  removes h _ _ _ hr hw ha := h.removes hr hw ha.access
  walkStep h := h.walkStep _ _ _
  translated h _ hp := h.setAccess fun p w hw => by rw [hp] at hw; cases hw
  walking h _ _ _ hb hp := h.setAccess fun p w hw => by rw [hp] at hw; cases hw; exact h.base hb
  walkingMore h _ _ _ _ hb _ hp := h.setAccess fun p w hw => by rw [hp] at hw; cases hw; exact hb
  specStart h _ _ _ hb := h.setWalks fun w hw => by
    rcases List.mem_append.mp hw with hw | hw
    · exact .inl hw
    · cases List.mem_singleton.mp hw; exact .inr (h.base hb)
  specMore h _ _ hb := h.setWalks fun w hw => by
    rcases List.mem_or_eq_of_mem_set hw with hw | rfl
    · exact .inl hw
    · exact .inr hb
  specAgain h _ _ _ hb := h.setWalks fun w hw => by
    rcases List.mem_append.mp hw with hw | hw
    · exact .inl (List.mem_of_mem_eraseIdx hw)
    · cases List.mem_singleton.mp hw; exact .inr (h.base hb)
  load h _ _ _ := { h with }
  loadMore h _ _ _ := { h with }
  loadEnd {_ _ _ lp _} h _ := LP.AddressInv.controlWrite (lp := { lp with loading := none }) { h with } _ _ _
  write h _ _ _ := h.controlWrite _ _ _
  wrmsr h _ _ _ := h.wrmsrEfer _ _

end Sys2Proof.Machine
end

section
/-! SUPPORT. The addresses outside the caches: those of memory, of the reads recorded and of the access in progress, over each move
of the software and of the other agents (R9, R32, R65, R67). -/

namespace Sys2Proof.Machine

/-- The addresses listed in memory, those of the reads recorded and those of the acting logical processor's access lie below
2^PAW. -/
structure State.ActingInv (s : State) : Prop where
  mem : ∀ c ∈ s.mem, c.1 < 2 ^ s.cfg.paw
  sideEffects : ∀ x ∈ s.sideEffects, x < 2 ^ s.cfg.paw
  access : ∀ a, s.lp.access = some a → a.AddressInv s.cfg

/-! ## Rules for the operations of the state -/

/-- An access that waits for its next page holds the pieces to come and the places written. -/
theorem Access.choosing_inv {cfg : Config} {a : Access} (hp : a.phase = .choosing) (ht : ∀ p ∈ a.todo, p.Fits)
    (hd : ∀ q ∈ a.done, q.1 + q.2 ≤ 2 ^ cfg.paw) : a.AddressInv cfg :=
  ⟨ht, fun _ _ h => absurd (hp.symm.trans h) nofun, fun _ _ h => absurd (hp.symm.trans h) nofun, hd⟩

theorem State.ActingInv.setAccess {s : State} (h : s.ActingInv) {a : Access} (ha : a.AddressInv s.cfg) :
    (s.setAccess a).ActingInv := ⟨h.mem, h.sideEffects, fun _ hb => by cases hb; exact ha⟩

/-- The free choice is no address. -/
theorem State.ActingInv.tick {s : State} (h : s.ActingInv) : s.tick.ActingInv :=
  ⟨by simpa using h.mem, by simpa using h.sideEffects, by simpa using h.access⟩

/-- The logical processor changes but for its access, which goes on or is over. -/
theorem State.ActingInv.setLp {s : State} (h : s.ActingInv) {lp : LP} (ha : lp.access = s.lp.access ∨ lp.access = none) :
    State.ActingInv { s with lp := lp } := by
  refine ⟨h.mem, h.sideEffects, fun a hl => ?_⟩
  change lp.access = some a at hl
  rcases ha with ha | ha <;> rw [ha] at hl
  · exact h.access a hl
  · cases hl

theorem State.ActingInv.setMem {s : State} (h : s.ActingInv) {mem : Memory} (hm : ∀ c ∈ mem, c.1 < 2 ^ s.cfg.paw) :
    State.ActingInv { s with mem := mem } := ⟨hm, h.sideEffects, h.access⟩

/-- Reads below 2^PAW are recorded. -/
theorem State.ActingInv.noteReads {s : State} (h : s.ActingInv) {l : List Nat} (hl : ∀ x ∈ l, x < 2 ^ s.cfg.paw) :
    (s.noteReads l).ActingInv := by
  refine ⟨h.mem, fun x hx => ?_, h.access⟩
  rcases List.mem_append.mp hx with hx | hx
  · exact hl x (List.mem_filter.mp (List.mem_reverse.mp hx)).1
  · exact h.sideEffects x hx

theorem addrsFrom_lt {pa n m : Nat} (h : pa + n ≤ m) : ∀ x ∈ addrsFrom pa n, x < m := fun x hx => by
  have := (mem_addrsFrom hx).2
  omega

/-- The unspecified bytes of a partly faulting store lie where it had written. -/
theorem State.ActingInv.accessFault {s : State} (h : s.ActingInv) {a : Access}
    (hd : ∀ q ∈ a.done, q.1 + q.2 ≤ 2 ^ s.cfg.paw) (c : Choice) (la : Word) (acc : Acc) (p r : Bool) :
    (s.accessFault c a la acc p r).ActingInv := by
  refine ⟨?_, h.sideEffects, fun b hb => by simp at hb⟩
  rw [State.accessFault_mem, State.accessFault_cfg]
  split
  · exact Memory.lt_scramble _ _ h.mem hd
  · exact h.mem

/-- An access goes on to a piece translated with the last one, to its next page, or it ends. -/
theorem State.ActingInv.nextPiece {s : State} (h : s.ActingInv) {a : Access} (ht : ∀ p ∈ a.todo, p.Fits)
    (hc : ∀ q ∈ a.covered, q.2 + q.1.len ≤ 2 ^ s.cfg.paw) (hd : ∀ q ∈ a.done, q.1 + q.2 ≤ 2 ^ s.cfg.paw) :
    (s.nextPiece a).ActingInv := by
  rcases nextPiece_cases a s with ⟨q, x, rest, hcov, e⟩ | ⟨-, -, e⟩ | ⟨-, -, e⟩ <;> rw [e]
  · rw [hcov] at hc
    refine h.setAccess ⟨ht, nofun, fun p pa hp => ?_, hd⟩
    cases hp
    exact ⟨hc _ List.mem_cons_self, fun q hq => hc q (List.mem_cons_of_mem _ hq)⟩
  · exact h.setLp (.inr rfl)
  · exact h.setAccess (Access.choosing_inv rfl ht hd)

/-! ## The moves of an access -/

/-- The access the software works on, in progress or the fetch that begins, holds addresses below 2^PAW. -/
theorem State.ActingInv.current {s : State} (h : s.ActingInv) {a : Access} (ha : s.Current a) : a.AddressInv s.cfg := by
  rcases ha with ha | ⟨-, -, -, -, rfl⟩
  · exact h.access a ha
  · refine Access.choosing_inv rfl (fun p hp => ?_) nofun
    cases List.mem_singleton.mp hp
    exact s.lp.fetchPiece_fits 0

theorem State.ActingInv.walkPage {s : State} (h : s.ActingInv) {a : Access} {p : Piece} {w : Walk}
    (ha : s.lp.access = some a) (hp : a.phase = .walking p w) : (s.walkPage a p w).ActingInv := by
  obtain ⟨htodo, hwalk, -, hdone⟩ := h.access a ha
  obtain ⟨hfits, hla⟩ := hwalk p w hp
  have hstep : State.ActingInv { s.tick with
      mem := (walkStep s.cfg s.choice s.lp s.mem w).mem, lp := (walkStep s.cfg s.choice s.lp s.mem w).lp } :=
    (h.tick.setMem (by simpa using walkStep_mem_lt s.choice s.lp w h.mem)).setLp
      (lp := (Sys2Proof.Machine.walkStep s.cfg s.choice s.lp s.mem w).lp) (.inl (by simp))
  have hcfg : s.tick.cfg = s.cfg := s.tick_cfg
  have again : Access.AddressInv s.tick.cfg { a with todo := p :: a.todo, phase := .choosing } :=
    Access.choosing_inv rfl (List.forall_mem_cons.mpr ⟨hfits, htodo⟩) (hcfg ▸ hdone)
  unfold State.walkPage
  simp only
  split
  case h_1 w' hr =>
    obtain ⟨hla', -⟩ := walkStep_more hr
    exact hstep.setAccess ⟨htodo, fun q x hq => by cases hq; exact ⟨hfits, hla'.trans hla⟩, nofun, hcfg ▸ hdone⟩
  case h_2 pa b hr =>
    obtain ⟨hpa, hb⟩ := walkStep_found hr
    obtain ⟨hb', hmod⟩ := walkStep_found_aligned hr
    have found : Access.AddressInv s.tick.cfg (a.found p pa b) :=
      hcfg ▸ Access.found_inv htodo hdone hfits hpa hb hb' (hla ▸ hmod)
    exact hstep.setAccess found
  case h_3 => exact hstep.accessFault (hcfg ▸ hdone) _ _ _ _ _
  case h_4 => exact hstep.setAccess again
  case h_5 => exact hstep.setAccess again

theorem State.ActingInv.performPiece {s : State} (h : s.ActingInv) {a : Access} {p : Piece} {pa : Nat}
    (ha : s.lp.access = some a) (hp : a.phase = .translated p pa) : (s.performPiece a p pa).ActingInv := by
  obtain ⟨htodo, -, htrans, hdone⟩ := h.access a ha
  obtain ⟨hroom, hcov⟩ := htrans p pa hp
  unfold State.performPiece
  split
  · have hlen : pa + ((a.bytes.drop p.off).take p.len).length ≤ 2 ^ s.cfg.paw :=
      (Nat.add_le_add_left (List.length_take_le _ _) pa).trans hroom
    exact (h.setMem (Memory.lt_writeBytes _ _ h.mem hlen)).nextPiece htodo hcov
      (List.forall_mem_cons.mpr ⟨hroom, hdone⟩)
  · exact (h.noteReads (addrsFrom_lt hroom)).nextPiece htodo hcov hdone

/-- An instruction ends the access or leaves it alone. -/
theorem exec_access {i : Instr} {s t : State} (h : exec i s = .next t) :
    t.lp.access = s.lp.access ∨ t.lp.access = none := by
  rcases exec_next h with rfl | ⟨m, -, -, -, rfl⟩ | ⟨w, -, -, -, -, rfl⟩ | ⟨w, -, -, -, -, rfl⟩ | ⟨-, -, -, -, rfl⟩ |
    ⟨g, -, rfl⟩ | ⟨-, -, rfl⟩
  · exact .inr rfl
  · rw [State.complete_lp, LP.advance_access, invlpg_registers]; exact .inl rfl
  · exact .inl rfl
  · rw [State.finishMov, State.complete_lp, LP.advance_access, ControlWrite.apply_eq]; exact .inl rfl
  · exact .inl (by simp [wrmsrEfer])
  · exact .inl rfl
  · exact .inl rfl

/-- A read of a PDPTR load ends the access or leaves it alone. -/
theorem loadPdpte_access (l : PdptrLoad) (s : State) :
    (s.loadPdpte l).lp.access = s.lp.access ∨ (s.loadPdpte l).lp.access = none := by
  rcases State.loadPdpte_cases l s with ⟨-, e⟩ | ⟨-, e⟩ <;> rw [e]
  · rcases State.endLoad_cases (s.readPdpte l) s with ⟨-, e'⟩ | ⟨-, e'⟩ <;> rw [e']
    · exact .inr rfl
    · rw [State.finishMov, State.complete_lp, LP.advance_access, ControlWrite.apply_eq]; exact .inl (by simp)
  · exact .inl rfl

/-- A step that touches neither memory nor the record of reads, and ends the access or leaves it alone. -/
theorem State.ActingInv.same {s t : State} (h : s.ActingInv) (hc : t.cfg = s.cfg) (hm : t.mem = s.mem)
    (hr : t.sideEffects = s.sideEffects) (ha : t.lp.access = s.lp.access ∨ t.lp.access = none) : t.ActingInv := by
  obtain ⟨h1, h2, h3⟩ := h.setLp ha
  constructor <;> simp only [hc, hm, hr] <;> assumption

/-- Every move of the software keeps the addresses below 2^PAW. -/
theorem State.ActingInv.moves {s t : State} (h : s.ActingInv) (hlp : s.lp.AddressInv s.cfg) (hm : s.Moves t) :
    t.ActingInv := by
  have hcfg : s.tick.cfg = s.cfg := s.tick_cfg
  rcases hm with ⟨l, -, rfl⟩ | ⟨-, hm⟩
  · obtain ⟨hc, hmem, -, -, hr⟩ := loadPdpte_outside l s
    exact h.same hc hmem hr (loadPdpte_access l s)
  cases hm with
  | idle => exact h
  | finish => exact h.setLp (.inr rfl)
  | found ha _ hin hr ht =>
    obtain ⟨htodo, -, -, hdone⟩ := h.current ha
    obtain ⟨hpa, hb, hb', hmod⟩ := translate_found_aligned hlp ht
    exact h.tick.setAccess
      (hcfg ▸ Access.found_inv (fun q hq => htodo q (hr.mem hq)) hdone (htodo _ hin) hpa hb hb' hmod)
  | walk ha _ hin hr ht =>
    obtain ⟨htodo, -, -, hdone⟩ := h.current ha
    obtain ⟨hla, -⟩ := translate_walk ht
    exact h.tick.setAccess
      ⟨fun q hq => htodo q (hr.mem hq), fun q x hq => by cases hq; exact ⟨htodo _ hin, hla⟩, nofun, hcfg ▸ hdone⟩
  | fault ha => exact h.tick.accessFault (hcfg ▸ (h.current ha).done) _ _ _ _ _
  | walkStep ha hp => exact h.walkPage ha hp
  | perform ha hp => exact h.performPiece ha hp
  | fetchMore ha hp =>
    obtain ⟨-, -, htrans, hdone⟩ := h.access _ ha
    refine (h.noteReads (addrsFrom_lt (htrans _ _ hp).1)).setAccess (Access.choosing_inv rfl (fun p hp => ?_) hdone)
    cases List.mem_singleton.mp hp
    exact s.lp.fetchPiece_fits _
  | @execute i l _ hl _ he =>
    have hreads : ∀ x ∈ l, x < 2 ^ s.cfg.paw := by
      rcases hl with ⟨hpg, hl⟩ | ⟨a, p, pa, n, ha, hp, rfl⟩
      · exact fun x hx => LP.fetchAddrs_lt s.cfg hpg x (hl x hx)
      · have hroom := ((h.access a ha).translated p pa hp).1
        exact addrsFrom_lt (by omega)
    obtain ⟨hc, hmem, -, -, hr⟩ := exec_outside he
    have hbegun := (h.setLp (lp := { s.lp with access := none }) (.inr rfl)).noteReads hreads
    exact hbegun.same hc hmem hr (exec_access he)

/-! ## The other agents -/

/-- A speculative translation that begins records at most the read of an address below 2^PAW (R67). -/
theorem State.ActingInv.specStart {s : State} (h : s.ActingInv) (hlp : s.lp.AddressInv s.cfg) (la : Word) (acc : Acc) :
    (s.specStart la acc).ActingInv := by
  unfold State.specStart
  split
  · rename_i pa b ht
    obtain ⟨hpa, -⟩ := translate_found_aligned hlp ht
    unfold State.specDone
    split
    · exact h.tick.noteReads (by simpa using hpa)
    · exact h.tick
  · exact h.tick
  · exact h.tick.setLp (.inl (by simp))

theorem State.ActingInv.specWalk {s : State} (h : s.ActingInv) (hlp : s.lp.AddressInv s.cfg) (n : Nat) (w : Walk) :
    (s.specWalk n w).ActingInv := by
  have hmem := h.tick.setMem (mem := (walkStep s.cfg s.choice s.lp s.mem w).mem)
    (by simpa using walkStep_mem_lt s.choice s.lp w h.mem)
  have hcfg : s.tick.cfg = s.cfg := s.tick_cfg
  have hstep : State.ActingInv { s.tick with
      mem := (walkStep s.cfg s.choice s.lp s.mem w).mem
      lp := { (walkStep s.cfg s.choice s.lp s.mem w).lp with
        walks := (walkStep s.cfg s.choice s.lp s.mem w).lp.walks.eraseIdx n } } :=
    hmem.setLp (.inl (by simp))
  unfold State.specWalk
  simp only
  split
  case h_1 => exact hmem.setLp (.inl (by simp))
  case h_2 pa b hr =>
    unfold State.specDone
    split
    · exact hstep.noteReads (by simpa [hcfg] using (walkStep_found hr).1)
    · exact hstep
  case h_3 => exact hstep
  case h_4 => exact hstep
  case h_5 =>
    refine hstep.specStart ?_ _ _
    change LP.AddressInv s.tick.cfg _
    rw [hcfg]
    exact (hlp.walkStep s.choice s.mem w).eraseWalk n

/-- An access as it is issued has translated nothing, and its pieces lie in one 4-KByte piece each. -/
theorem State.ActingInv.issue {s : State} (h : s.ActingInv) (k : AccessKind) (la : Word) (bytes : List Byte) :
    (s.issue k la bytes).ActingInv :=
  h.setAccess (Access.choosing_inv rfl (s.lp.pieces_fit _ _ _ _) nofun)

/-- Every input but `schedule` keeps the addresses below 2^PAW. -/
theorem State.ActingInv.handle {s t : State} (h : s.ActingInv) (hlp : s.lp.AddressInv s.cfg) {i : Input}
    (hi : ∀ n, i ≠ .schedule n) (ht : s.handle i = .next t) : t.ActingInv := by
  have issued : ∀ k la bytes, State.ActingInv (if s.lp.halted then s else s.issue k la bytes) := fun k la bytes => by
    split
    · exact h
    · exact h.issue k la bytes
  cases i with
  | software => cases ht; exact h
  | load la n => cases ht; exact issued _ _ _
  | store la bytes => cases ht; exact issued _ _ _
  | fetch la n => cases ht; exact issued _ _ _
  | specAccess f la =>
    cases ht
    unfold State.specAccess
    split
    · exact h.specStart hlp _ _
    · exact h
  | walkStep n =>
    cases ht
    unfold State.walkNth
    split
    · exact h.specWalk hlp _ _
    · exact h
  | evict => cases ht; exact h.tick.setLp (.inl (by simp))
  | physStore pa bytes =>
    simp only [State.handle, State.physStore] at ht
    split at ht <;> cases ht
    exact h.setMem (Memory.lt_writeBytes _ _ h.mem ‹_›)
  | schedule n => exact absurd rfl (hi n)
  | wake => cases ht; exact h.setLp (.inl rfl)
  | resume rip cpl => cases ht; exact h.setLp (.inl rfl)
  | setReg r v => cases ht; exact h.setLp (.inl rfl)

end Sys2Proof.Machine
end

section
/-! SUPPORT. The address invariant over a step (O59). -/

namespace Sys2Proof.Machine

theorem State.AddressInv.acting {s : State} (h : s.AddressInv) : s.ActingInv :=
  ⟨h.mem, h.sideEffects, h.access s.lp List.mem_cons_self⟩

/-- The exchange of logical processors leaves the set of them alone (R13). -/
theorem State.mem_schedule_processors {s : State} {n : Nat} {lp : LP} (h : lp ∈ (s.schedule n).processors) :
    lp ∈ s.processors := by
  unfold State.schedule at h
  split at h
  · rename_i lp' hn
    rcases List.mem_cons.mp h with rfl | h
    · exact List.mem_cons_of_mem _ (List.mem_of_getElem? hn)
    · rcases List.mem_or_eq_of_mem_set h with h | rfl
      · exact List.mem_cons_of_mem _ h
      · exact List.mem_cons_self
  · exact h

/-- The exchange of logical processors touches nothing they share. -/
theorem State.schedule_shared (n : Nat) (s : State) :
    (s.schedule n).cfg = s.cfg ∧ (s.schedule n).mem = s.mem ∧ (s.schedule n).sideEffects = s.sideEffects := by
  unfold State.schedule
  split <;> exact ⟨rfl, rfl, rfl⟩

/-- What the acting logical processor and its agents do keeps the addresses outside the caches below 2^PAW. -/
theorem State.AddressInv.step_acting {s t : State} (h : s.AddressInv) (hsch : ¬ s.Schedules) (hs : step s = .next t) :
    t.ActingInv := by
  have ha := h.acting
  have hlp : s.lp.AddressInv s.cfg := h.caches s.lp List.mem_cons_self
  have taken : ∀ rest, State.ActingInv { s with inputs := rest } := fun _ => ⟨ha.mem, ha.sideEffects, ha.access⟩
  rcases step_cases hs with ⟨i, rest, hi, -, -, hh⟩ | ⟨-, -, -, hm⟩ | ⟨rest, -, -, hm⟩
  · exact (taken rest).handle hlp (fun n hn => hsch ⟨n, rest, hn ▸ hi⟩) hh
  · exact ha.moves hlp hm
  · exact (taken rest).moves hlp hm

/-- Settles O59: the caches and walks by `addressInv_kept`, the rest by the moves of the acting logical processor, of which
`schedule` alone changes who acts. -/
theorem stepKeepsAddressInvariant : Obligations.StepKeepsAddressInvariant := by
  intro s t h hs
  have hcaches : t.Each (LP.AddressInv t.cfg) := addressInv_kept.step h.caches hs
  by_cases hsch : s.Schedules
  · obtain ⟨n, rest, hi⟩ := hsch
    rw [step_input hi nofun rfl] at hs
    cases hs
    obtain ⟨hcfg, hmem, hreads⟩ := State.schedule_shared n { s with inputs := rest }
    refine ⟨?_, ?_, hcaches, fun lp hlp => ?_⟩
    · rw [hmem, hcfg]; exact h.mem
    · rw [hreads, hcfg]; exact h.sideEffects
    · rw [hcfg]; exact h.access lp (State.mem_schedule_processors (s := { s with inputs := rest }) hlp)
  · obtain ⟨hothers, hcfg, -⟩ := step_registers hsch hs
    obtain ⟨hmem, hreads, haccess⟩ := h.step_acting hsch hs
    refine ⟨hmem, hreads, hcaches, fun lp hlp => ?_⟩
    rcases List.mem_cons.mp hlp with rfl | hlp
    · exact haccess
    · rw [hcfg]; exact h.access lp (List.mem_cons_of_mem _ (hothers ▸ hlp))

end Sys2Proof.Machine
end

section
/-! SUPPORT. Memory stays in canonical form over each move of the software and of the other agents (entry 6; O54). -/

namespace Sys2Proof.Machine

/-- An access that goes on to its next piece leaves memory alone. -/
theorem nextPiece_mem (a : Access) (s : State) : (s.nextPiece a).mem = s.mem := by
  obtain ⟨acc, res, h⟩ := nextPiece_eq a s
  rw [h]

theorem accessFault_mem_wf {s : State} (h : s.mem.wf = true) (c : Choice) (a : Access) (la : Word) (acc : Acc)
    (p r : Bool) : (s.accessFault c a la acc p r).mem.wf = true := by
  rw [State.accessFault_mem]
  split
  · exact Memory.wf_scramble _ _ _ h
  · exact h

theorem walkPage_mem_wf {s : State} (h : s.mem.wf = true) (a : Access) (p : Piece) (w : Walk) :
    (s.walkPage a p w).mem.wf = true := by
  have hw := walkStep_mem_wf s.cfg s.choice s.lp s.mem w h
  unfold State.walkPage
  simp only
  split
  case h_3 => exact accessFault_mem_wf (s := { s.tick with mem := _, lp := _ }) hw _ _ _ _ _ _
  all_goals exact hw

theorem performPiece_mem_wf {s : State} (h : s.mem.wf = true) (a : Access) (p : Piece) (pa : Nat) :
    (s.performPiece a p pa).mem.wf = true := by
  unfold State.performPiece
  split <;> rw [nextPiece_mem]
  · exact Memory.wf_writeBytes _ _ _ h
  · exact h

/-- Every move of the software keeps memory in canonical form. -/
theorem State.Moves.mem_wf {s t : State} (hm : s.Moves t) (h : s.mem.wf = true) : t.mem.wf = true := by
  rcases hm with ⟨l, -, rfl⟩ | ⟨-, hm⟩
  · obtain ⟨-, hmem, -⟩ := loadPdpte_outside l s
    rw [hmem]; exact h
  cases hm with
  | idle => exact h
  | finish => exact h
  | found => simpa using h
  | walk => simpa using h
  | fault => exact accessFault_mem_wf (by simpa using h) _ _ _ _ _ _
  | walkStep => exact walkPage_mem_wf h _ _ _
  | perform => exact performPiece_mem_wf h _ _ _
  | fetchMore => exact h
  | execute _ _ he =>
    obtain ⟨-, hmem, -⟩ := exec_outside he
    rw [hmem]; exact h

/-- A step of a speculative walk keeps memory in canonical form: it writes what the walk step writes, also where the translation
starts again. -/
theorem walkNth_mem_wf {s : State} (h : s.mem.wf = true) (n : Nat) : (s.walkNth n).mem.wf = true := by
  unfold State.walkNth
  split
  case h_2 => exact h
  case h_1 w _ =>
    have hw := walkStep_mem_wf s.cfg s.choice s.lp s.mem w h
    unfold State.specWalk
    simp only
    split
    case h_2 => unfold State.specDone; split <;> exact hw
    case h_5 =>
      obtain ⟨-, -, hmem, -⟩ := specStart_outside
        { s.tick with
          mem := (walkStep s.cfg s.choice s.lp s.mem w).mem
          lp := { (walkStep s.cfg s.choice s.lp s.mem w).lp with
            walks := (walkStep s.cfg s.choice s.lp s.mem w).lp.walks.eraseIdx n } } w.la w.acc
      rw [hmem]; exact hw
    all_goals exact hw

/-- Every input keeps memory in canonical form. -/
theorem handle_mem_wf {s t : State} {i : Input} (h : s.mem.wf = true) (ht : s.handle i = .next t) : t.mem.wf = true := by
  cases i with
  | software => cases ht; exact h
  | load => cases ht; split <;> exact h
  | store => cases ht; split <;> exact h
  | fetch => cases ht; split <;> exact h
  | specAccess f la =>
    cases ht
    unfold State.specAccess
    split
    · obtain ⟨-, -, hmem, -⟩ := specStart_outside s (s.lp.linear la)
        { kind := if f then .fetch else .read, user := s.lp.user, spec := true }
      rw [hmem]; exact h
    · exact h
  | walkStep n => cases ht; exact walkNth_mem_wf h n
  | evict => cases ht; simpa [State.evict] using h
  | physStore pa bytes =>
    simp only [State.handle, State.physStore] at ht
    split at ht <;> cases ht
    exact Memory.wf_writeBytes _ _ _ h
  | schedule n =>
    cases ht
    obtain ⟨-, hmem, -⟩ := State.schedule_shared n s
    rw [hmem]; exact h
  | wake => cases ht; exact h
  | resume => cases ht; exact h
  | setReg => cases ht; exact h

/-- Settles O54: a step is the effect of an input or a move of the software, and each writes memory byte by byte. -/
theorem stepKeepsMemoryCanonical : Obligations.StepKeepsMemoryCanonical := by
  intro s t h hs
  rcases step_cases hs with ⟨i, rest, -, -, -, hh⟩ | ⟨-, -, -, hm⟩ | ⟨rest, -, -, hm⟩
  · exact handle_mem_wf (s := { s with inputs := rest }) h hh
  · exact hm.mem_wf h
  · exact hm.mem_wf (s := { s with inputs := rest }) h

end Sys2Proof.Machine
end

section
/-! SUPPORT. The caches hold only what the processor has caches and TLBs for: `LP.CacheInv` survives every primitive change of a
logical processor (O57). -/

namespace Sys2Proof.Machine

/-- Cached entries may go. -/
theorem LP.CacheInv.removes {cfg : Config} {lp lp' : LP} (h : lp.CacheInv cfg) (hr : lp.OnlyRemoves lp') :
    lp'.CacheInv cfg where
  pml4Absent hc := List.sublist_nil.mp (h.pml4Absent hc ▸ hr.pml4c)
  pdpAbsent hc := List.sublist_nil.mp (h.pdpAbsent hc ▸ hr.pdpc)
  pdeAbsent hc := List.sublist_nil.mp (h.pdeAbsent hc ▸ hr.pdec)
  pml4Mode c hc := h.pml4Mode c (hr.pml4c.mem hc)
  pdpMode c hc := h.pdpMode c (hr.pdpc.mem hc)
  tlbServes e he := h.tlbServes e (hr.tlb.mem he)

/-- An entry goes only into a cache that the processor has, and into the PML4 and PDP caches only from ModeIA32e (R195, R196). -/
theorem LP.CacheInv.cachePsc {cfg : Config} {lp : LP} (h : lp.CacheInv cfg) (l : Level) (x : PscEntry) :
    (lp.cachePsc cfg l x).CacheInv cfg := by
  rcases LP.cachePsc_cases cfg l x lp with e | ⟨-, hcache, hmode, e⟩ | ⟨-, hcache, hmode, e⟩ | ⟨-, hcache, e⟩ <;> rw [e]
  · exact h
  · exact { h with
      pml4Absent := fun hc => absurd (hcache.symm.trans hc) nofun
      pml4Mode := fun c hc => (mem_addTo.mp hc).elim (fun hx => hx ▸ hmode) (h.pml4Mode c) }
  · exact { h with
      pdpAbsent := fun hc => absurd (hcache.symm.trans hc) nofun
      pdpMode := fun c hc => (mem_addTo.mp hc).elim (fun hx => hx ▸ hmode) (h.pdpMode c) }
  · exact { h with pdeAbsent := fun hc => absurd (hcache.symm.trans hc) nofun }

/-- A TLB entry that a walk step makes is held by a TLB of the processor (R172). -/
theorem LP.CacheInv.walkStep_tlb {cfg : Config} {lp : LP} (h : lp.CacheInv cfg) {c : Choice} {mem : Memory} {w : Walk} :
    ∀ e ∈ (walkStep cfg c lp mem w).lp.tlb, e.serves ∈ cfg.tlbs := fun e he => by
  rcases mem_walkStep_tlb he with he | ⟨-, -, -, -, -, -, ⟨sv, hsv, rfl⟩ | ⟨-, -, piece, sv, hsv, rfl⟩⟩
  · exact h.tlbServes e he
  · exact hsv
  · exact hsv

theorem LP.CacheInv.walkStep {cfg : Config} {lp : LP} (h : lp.CacheInv cfg) (c : Choice) (mem : Memory) (w : Walk) :
    (walkStep cfg c lp mem w).lp.CacheInv cfg := by
  rcases walkStep_psc cfg c lp mem w with ⟨h1, h2, h3⟩ | ⟨-, -, -, -, -, -, e⟩
  · exact
      { pml4Absent := fun hc => h1.trans (h.pml4Absent hc)
        pdpAbsent := fun hc => h2.trans (h.pdpAbsent hc)
        pdeAbsent := fun hc => h3.trans (h.pdeAbsent hc)
        pml4Mode := h1 ▸ h.pml4Mode
        pdpMode := h2 ▸ h.pdpMode
        tlbServes := h.walkStep_tlb }
  · rw [e]; exact h.cachePsc _ _

/-- A MOV to a control register only removes. -/
theorem LP.CacheInv.controlWrite {cfg : Config} {lp : LP} (h : lp.CacheInv cfg) (c : Choice) (t : Pdptrs)
    (w : ControlWrite) : (w.apply cfg c t lp).CacheInv cfg := by
  obtain ⟨h1, h2, h3, h4⟩ := ControlWrite.apply_removes cfg c t lp w
  exact h.removes ⟨h1, h2, h3, h4⟩

/-- WRMSR only removes. -/
theorem LP.CacheInv.wrmsrEfer {cfg : Config} {lp : LP} (h : lp.CacheInv cfg) (c : Choice) (v : Word) :
    (wrmsrEfer cfg c v lp).CacheInv cfg := by
  obtain ⟨h1, h2, h3, h4⟩ :=
    LP.modeChanged_sublist cfg c (bit v 11 != lp.nxe) { lp with efer := eferWritten lp.efer v }
  exact h.removes ⟨h1, h2, h3, h4⟩

/-- The contents of the caches survive every primitive change of a logical processor: only a walk step adds entries. -/
theorem cacheInv_kept : Kept LP.CacheInv where
  removes h _ _ _ hr _ _ := h.removes hr
  walkStep h := h.walkStep _ _ _
  translated h _ _ := { h with }
  walking h _ _ _ _ _ := { h with }
  walkingMore h _ _ _ _ _ _ _ := { h with }
  specStart h _ _ _ _ := { h with }
  specMore h _ _ _ := { h with }
  specAgain h _ _ _ _ := { h with }
  load h _ _ _ := { h with }
  loadMore h _ _ _ := { h with }
  loadEnd {_ _ _ lp _} h _ := LP.CacheInv.controlWrite (lp := { lp with loading := none }) { h with } _ _ _
  write h _ _ _ := h.controlWrite _ _ _
  wrmsr h _ _ _ := h.wrmsrEfer _ _

/-- Settles O57: by `cacheInv_kept` for the acting logical processor, the others being untouched or exchanged with it. -/
theorem stepKeepsCacheInvariant : Obligations.StepKeepsCacheInvariant := fun _ _ h hs => cacheInv_kept.step h hs

end Sys2Proof.Machine
end

section
/-! SUPPORT. What a step does to the control registers, the PDPTR registers and a PDPTR load in progress (R21 to R28, R298). -/

namespace Sys2Proof.Machine

/-! ## The instructions -/

/-- The logical processor with the control register of a MOV written, and with CR0 also LMA (R222, R224, R305). -/
def ControlWrite.written (lp : LP) : ControlWrite → LP
  | .cr0 v => { lp with cr0 := v, efer := putBit lp.efer 10 (lp.lme && bit v 31) }
  | .cr3 v => { lp with cr3 := v }
  | .cr4 v => { lp with cr4 := v }

theorem SameControl.trans {l l' l'' : LP} (h : SameControl l l') (h' : SameControl l' l'') : SameControl l l'' :=
  ⟨h'.physical.trans h.physical, h'.cr0.trans h.cr0, h'.cr3.trans h.cr3, h'.cr4.trans h.cr4, h'.efer.trans h.efer,
    h'.cpl.trans h.cpl, h'.pdptr.trans h.pdptr⟩

theorem SameControl.setPdptr {l l' : LP} (h : SameControl l l') (q : Pdptrs) :
    SameControl { l with pdptr := q } { l' with pdptr := q } := ⟨h.physical, h.cr0, h.cr3, h.cr4, h.efer, h.cpl, rfl⟩

theorem SameControl.setEfer {l l' : LP} (h : SameControl l l') (v : Word) :
    SameControl { l with efer := v } { l' with efer := v } := ⟨h.physical, h.cr0, h.cr3, h.cr4, rfl, h.cpl, h.pdptr⟩

/-- What a MOV writes is set by the control registers alone. -/
theorem SameControl.written {l l' : LP} (h : SameControl l l') (w : ControlWrite) :
    SameControl (w.written l) (w.written l') := by
  obtain ⟨hphys, h0, h3, h4, he, hcpl, hp⟩ := h
  cases w <;> constructor <;> simp only [ControlWrite.written, LP.lme, hphys, h0, h3, h4, he, hcpl, hp]

/-- What a MOV faults for is said by the control registers alone. -/
theorem SameControl.faults {l l' : LP} (h : SameControl l l') (w : ControlWrite) : w.faults l' = w.faults l := by
  cases w <;> simp only [ControlWrite.faults, cr0Faults, cr4Faults, LP.pg, LP.lme, LP.lma, LP.pae, h.cr0, h.cr4, h.efer]

/-- A MOV to a control register past its faults writes that register, and the PDPTR registers as it is given them. -/
theorem ControlWrite.apply_control (cfg : Config) (c : Choice) (t : Pdptrs) (lp : LP) (w : ControlWrite) :
    SameControl { w.written lp with pdptr := t } (w.apply cfg c t lp) := by
  cases w with
  | cr0 v => constructor <;> simp [ControlWrite.apply, ControlWrite.written, movCr0]
  | cr3 v => exact ⟨rfl, rfl, rfl, rfl, rfl, rfl, rfl⟩
  | cr4 v =>
    simp only [ControlWrite.apply, movCr4]
    split <;> constructor <;> simp [ControlWrite.written]

/-- A MOV to a control register that completes writes that register and the PDPTR registers as it is given them. -/
theorem finishMov_control (w : ControlWrite) (t : Pdptrs) (s : State) :
    SameControl { w.written s.lp with pdptr := t } (s.finishMov w t).lp :=
  (w.apply_control s.cfg s.choice t s.lp).trans ⟨rfl, rfl, rfl, rfl, rfl, rfl, rfl⟩

/-- The instruction that writes a control register is the MOV to it. -/
def ControlWrite.By : ControlWrite → Instr → Prop
  | .cr0 _, i => ∃ r, i = .movCr0 r
  | .cr3 _, i => ∃ r, i = .movCr3 r
  | .cr4 _, i => ∃ r, i = .movCr4 r

theorem ControlWrite.by_of {lp : LP} {i : Instr} {w : ControlWrite} (h : ControlWrite.of lp i = some w) : w.By i := by
  cases i <;> cases h
  case movCr0 r => exact ⟨r, rfl⟩
  case movCr3 r => exact ⟨r, rfl⟩
  case movCr4 r => exact ⟨r, rfl⟩

/-- What an instruction does to the control registers: nothing, or it is WRMSR or a MOV to one of them. -/
theorem exec_control {i : Instr} {s t : State} (h : exec i s = .next t) :
    SameControl s.lp t.lp
      ∨ (i = .wrmsr ∧ SameControl { s.lp with efer := t.lp.efer } t.lp)
      ∨ ∃ w : ControlWrite, w.By i ∧ SameControl { w.written s.lp with pdptr := s.lp.pdptr } t.lp := by
  rcases exec_next h with rfl | ⟨m, -, -, -, rfl⟩ | ⟨w, -, -, -, -, rfl⟩ | ⟨w, hw, -, -, -, rfl⟩ | ⟨hi, -, -, -, rfl⟩ |
    ⟨g, -, rfl⟩ | ⟨-, -, rfl⟩
  · exact .inl ⟨rfl, rfl, rfl, rfl, rfl, rfl, rfl⟩
  · left
    rw [State.complete_lp, invlpg_registers]
    exact ⟨rfl, rfl, rfl, rfl, rfl, rfl, rfl⟩
  · exact .inl ⟨rfl, rfl, rfl, rfl, rfl, rfl, rfl⟩
  · exact .inr (.inr ⟨w, ControlWrite.by_of hw, finishMov_control w s.lp.pdptr s⟩)
  · exact .inr (.inl ⟨hi, by constructor <;> simp [wrmsrEfer]⟩)
  · exact .inl ⟨rfl, rfl, rfl, rfl, rfl, rfl, rfl⟩
  · exact .inl ⟨rfl, rfl, rfl, rfl, rfl, rfl, rfl⟩

/-- A PDPTR load begins with a MOV to a control register only (R298). -/
theorem exec_loading {i : Instr} {s t : State} (h : exec i s = .next t) :
    t.lp.loading = s.lp.loading ∨ t.lp.loading = none ∨ ∃ w : ControlWrite, w.By i := by
  rcases exec_next h with rfl | ⟨m, -, -, -, rfl⟩ | ⟨w, hw, -, -, -, rfl⟩ | ⟨w, hw, -, -, -, rfl⟩ | ⟨-, -, -, -, rfl⟩ |
    ⟨g, -, rfl⟩ | ⟨-, -, rfl⟩
  · exact .inr (.inl rfl)
  · left
    rw [State.complete_lp, LP.advance_loading, invlpg_registers]
  · exact .inr (.inr ⟨w, ControlWrite.by_of hw⟩)
  · exact .inr (.inr ⟨w, ControlWrite.by_of hw⟩)
  · exact .inl (by simp [wrmsrEfer])
  · exact .inl rfl
  · exact .inl rfl

/-! ## The reads of a PDPTR load -/

/-- The entry read next is one not yet read (R299). -/
theorem PdptrLoad.next_mem {l : PdptrLoad} (h : l.todo ≠ []) (c : Choice) : l.next c ∈ l.todo := pick_mem _ _ _ h

/-- A read that leaves no entry to read is the last one (R299). -/
theorem State.Loading.lastRead {s : State} {l : PdptrLoad} (h : s.Loading l) (hne : l.todo ≠ [])
    (hlast : (s.readPdpte l).todo = []) : s.LastRead l.write (s.readPdpte l).entries := by
  have hmem := PdptrLoad.next_mem hne s.choice
  obtain hnil | hone := List.erase_eq_nil_iff.mp hlast
  · exact absurd hnil hne
  · exact ⟨l, h, rfl, l.next s.choice, hone, rfl⟩

/-- What a read of a PDPTR load does to the control registers: nothing, or it is the last one and the MOV completes (R299). -/
theorem loadPdpte_control (l : PdptrLoad) (s : State) :
    SameControl s.lp (s.loadPdpte l).lp
      ∨ ((s.readPdpte l).todo = []
        ∧ SameControl { l.write.written s.lp with pdptr := (s.readPdpte l).entries } (s.loadPdpte l).lp) := by
  rcases State.loadPdpte_cases l s with ⟨hlast, e⟩ | ⟨-, e⟩ <;> rw [e]
  · rcases State.endLoad_cases (s.readPdpte l) s with ⟨-, e'⟩ | ⟨-, e'⟩ <;> rw [e']
    · exact .inl (by constructor <;> simp)
    · refine .inr ⟨hlast, ?_⟩
      have hw : SameControl s.lp { s.lp with loading := none } := ⟨rfl, rfl, rfl, rfl, rfl, rfl, rfl⟩
      exact ((hw.written l.write).setPdptr _).trans
        (finishMov_control l.write (s.readPdpte l).entries { s with lp := { s.lp with loading := none } })
  · exact .inl ⟨rfl, rfl, rfl, rfl, rfl, rfl, rfl⟩

/-! ## A step -/

/-- The next step completes the MOV `w` to a control register, which leaves the PDPTR registers as given: it executes the MOV,
or makes a read of its PDPTR load that leaves no entry to read. -/
inductive State.Completes (s : State) : ControlWrite → Pdptrs → Prop where
  | executes {w : ControlWrite} (h : s.Executes w.By) : State.Completes s w s.lp.pdptr
  | reads {l : PdptrLoad} (h : s.Loading l) (hlast : (s.readPdpte l).todo = []) :
      State.Completes s l.write (s.readPdpte l).entries

/-- The PDPTR registers change with the last of four reads only, if at all. -/
theorem State.Completes.executes_or_lastRead {s : State} {w : ControlWrite} {q : Pdptrs} (h : s.Completes w q)
    (hi : s.lp.ControlInv) : (s.Executes w.By ∧ q = s.lp.pdptr) ∨ s.LastRead w q := by
  cases h with
  | executes h => exact .inl ⟨h, rfl⟩
  | reads h hlast => exact .inr (h.lastRead (hi.todo _ h.loading) hlast)

/-- What a step that is no `schedule` does to the control registers and the PDPTR registers: nothing; `resume` sets CPL; WRMSR
writes IA32_EFER; or a MOV to a control register completes. -/
inductive ControlMove (s t : State) : Prop where
  | same (h : SameControl s.lp t.lp)
  | resume {rip : Word} {cpl : BitVec 2} {rest : List Input} (hi : s.inputs = .resume rip cpl :: rest)
      (h : SameControl { s.lp with cpl := cpl } t.lp)
  | wrmsr (hi : s.Executes fun i => i = .wrmsr) (h : SameControl { s.lp with efer := t.lp.efer } t.lp)
  | mov {w : ControlWrite} {q : Pdptrs} (hi : s.Completes w q) (h : SameControl { w.written s.lp with pdptr := q } t.lp)

theorem step_control {s t : State} (hsch : ¬ s.Schedules) (hs : step s = .next t) : ControlMove s t := by
  obtain ⟨-, -, hr⟩ := step_registers hsch hs
  rcases hr with hq | ⟨rip, cpl, rest, hin, e⟩ | ⟨c, la, acc, p, r, lp, e, hc⟩ | ⟨i, s', hp, he, -, -, hlp⟩ | ⟨l, hl, rfl⟩
  · exact .same hq.control
  · exact .resume hin (by rw [e]; exact ⟨rfl, rfl, rfl, rfl, rfl, rfl, rfl⟩)
  · exact .same (by rw [e]; exact hc.trans ⟨rfl, rfl, rfl, rfl, rfl, rfl, rfl⟩)
  · have hc : SameControl s.lp s'.lp := by rw [hlp]; exact ⟨rfl, rfl, rfl, rfl, rfl, rfl, rfl⟩
    rcases exec_control he with h | ⟨rfl, h⟩ | ⟨w, hw, h⟩
    · exact .same (hc.trans h)
    · exact .wrmsr ⟨_, _, hp, rfl⟩ ((hc.setEfer _).trans h)
    · exact .mov (.executes ⟨_, _, hp, hw⟩) (((hc.written w).setPdptr _).trans (hc.pdptr ▸ h))
  · rcases loadPdpte_control l s.begun with h | ⟨hlast, h⟩
    · exact .same h
    · exact .mov (.reads hl hlast) h

end Sys2Proof.Machine
end

section
/-! SUPPORT. The control registers keep their invariant (R25, R27, R298): `LP.ControlInv` survives every primitive change of a
logical processor (O55). -/

namespace Sys2Proof.Machine

/-- The invariant is about CR0, CR4, IA32_EFER and the PDPTR load in progress only. -/
theorem LP.ControlInv.congr {l l' : LP} (h : l.ControlInv) (h0 : l'.cr0 = l.cr0) (h4 : l'.cr4 = l.cr4)
    (he : l'.efer = l.efer) (hl : l'.loading = none ∨ l'.loading = l.loading) : l'.ControlInv := by
  have hload : ∀ x, l'.loading = some x → l.loading = some x := fun x hx => by
    rcases hl with hl | hl <;> rw [hl] at hx
    · cases hx
    · exact hx
  have hpae : l'.pae = l.pae := congrArg (bit · 5) h4
  refine ⟨?_, ?_, fun x hx => ?_, fun x hx => h.todo x (hload x hx)⟩
  · simpa only [LP.lma, LP.lme, LP.pg, h0, he] using h.lma
  · simpa only [LP.lma, LP.pae, h4, he] using h.pae
  · rw [hpae]; exact h.load x (hload x hx)

/-- A MOV that does not fault keeps LMA = LME AND PG, and PAE = 1 where LMA = 1 (R224, R305). -/
theorem LP.ControlInv.written {lp : LP} (h : lp.ControlInv) (hl : lp.loading = none) {w : ControlWrite}
    (hw : w.faults lp = false) : (w.written lp).ControlInv := by
  have load : ∀ l, (w.written lp).loading ≠ some l := fun l => by cases w <;> simp [ControlWrite.written, hl]
  suffices (w.written lp).lma = ((w.written lp).lme && (w.written lp).pg)
      ∧ ((w.written lp).lma = true → (w.written lp).pae = true) from
    ⟨this.1, this.2, fun l hx => absurd hx (load l), fun l hx => absurd hx (load l)⟩
  have hlma := h.lma
  have hpae := h.pae
  cases w with
  | cr0 v =>
    have h1 : LP.lma (ControlWrite.written lp (.cr0 v)) = (lp.lme && bit v 31) := bit_putBit_same _ _ _ (by norm_num)
    have h2 : LP.lme (ControlWrite.written lp (.cr0 v)) = lp.lme := bit_putBit_other _ _ _ _ (by norm_num)
    have h3 : cr0Faults v lp = false := hw
    refine ⟨by rw [h1, h2]; rfl, fun ht => ?_⟩
    change lp.pae = true
    rw [h1, Bool.and_eq_true] at ht
    obtain ⟨hlme, hv⟩ := ht
    cases hpg : lp.pg with
    | true => exact hpae (by simp [hlma, hlme, hpg])
    | false => simpa [cr0Faults, hlme, hv, hpg] using h3
  | cr3 v => exact ⟨hlma, hpae⟩
  | cr4 v =>
    have h3 : cr4Faults v lp = false := hw
    refine ⟨hlma, fun ht => ?_⟩
    change lp.lma = true at ht
    show bit v 5 = true
    simpa [cr4Faults, ht] using h3

/-- The MOV of a PDPTR load in progress does not fault any more: it leaves PAE = 1 (R298). -/
theorem LP.ControlInv.load_noFault {lp : LP} (h : lp.ControlInv) {l : PdptrLoad} (hl : lp.loading = some l) :
    l.write.faults lp = false := by
  have hpae := h.load l hl
  cases hw : l.write <;> simp only [hw] at hpae
  case cr0 => simp [ControlWrite.faults, cr0Faults, hpae]
  case cr3 => rfl
  case cr4 => simp [ControlWrite.faults, cr4Faults, hpae]

/-- A MOV that completes keeps the invariant. -/
theorem LP.ControlInv.controlWrite {lp : LP} (h : lp.ControlInv) (hl : lp.loading = none) {w : ControlWrite}
    (hw : w.faults lp = false) (cfg : Config) (c : Choice) (t : Pdptrs) : (w.apply cfg c t lp).ControlInv := by
  have hc := w.apply_control cfg c t lp
  refine (h.written hl hw).congr hc.cr0 hc.cr4 hc.efer (.inl ?_)
  rw [ControlWrite.apply_eq]; exact hl

/-- A MOV loads the PDPTR registers only where it leaves PAE = 1 (R298). -/
theorem LP.ControlInv.load_begins {cfg : Config} {lp : LP} (h : lp.ControlInv) {l : PdptrLoad}
    (hw : l.write.loads cfg lp = true) (ht : l.todo ≠ []) : LP.ControlInv { lp with loading := some l } := by
  refine ⟨h.lma, h.pae, fun x hx => ?_, fun x hx => by cases hx; exact ht⟩
  cases hx
  obtain ⟨w, todo, entries⟩ := l
  cases w with
  | cr0 v =>
    simp only [ControlWrite.loads, cr0Loads, Bool.and_eq_true] at hw
    obtain ⟨⟨-, hpae⟩, -⟩ := hw
    exact hpae
  | cr3 v =>
    simp only [ControlWrite.loads, cr3Loads, Bool.and_eq_true] at hw
    obtain ⟨⟨-, hpae⟩, -⟩ := hw
    exact hpae
  | cr4 v =>
    simp only [ControlWrite.loads, cr4Loads, Bool.and_eq_true] at hw
    obtain ⟨⟨⟨hv, -⟩, -⟩, -⟩ := hw
    exact hv

/-- WRMSR that does not fault leaves LMA alone, and LME where paging is on (R331). -/
theorem LP.ControlInv.wrmsrEfer {lp : LP} (h : lp.ControlInv) (hl : lp.loading = none) {cfg : Config} {v : Word}
    (hv : eferFaults cfg v lp = false) (c : Choice) : (wrmsrEfer cfg c v lp).ControlInv := by
  have hlma : (Sys2Proof.Machine.wrmsrEfer cfg c v lp).lma = lp.lma := by
    simp [LP.lma, Sys2Proof.Machine.wrmsrEfer, eferWritten_bit]
  have hlme : (Sys2Proof.Machine.wrmsrEfer cfg c v lp).lme = bit v 8 := by
    simp [LP.lme, Sys2Proof.Machine.wrmsrEfer, eferWritten_bit]
  have hpg : (Sys2Proof.Machine.wrmsrEfer cfg c v lp).pg = lp.pg := by simp [LP.pg, Sys2Proof.Machine.wrmsrEfer]
  have hpae : (Sys2Proof.Machine.wrmsrEfer cfg c v lp).pae = lp.pae := by simp [LP.pae, Sys2Proof.Machine.wrmsrEfer]
  have hload : (Sys2Proof.Machine.wrmsrEfer cfg c v lp).loading = none := by simp [Sys2Proof.Machine.wrmsrEfer, hl]
  have kept : lp.pg = true → bit v 8 = lp.lme := fun hp => by
    obtain ⟨-, hlast⟩ := Bool.or_eq_false_iff.mp hv
    simpa [hp] using hlast
  refine ⟨?_, ?_, by simp [hload], by simp [hload]⟩
  · rw [hlma, hlme, hpg, h.lma]
    cases hp : lp.pg with
    | true => rw [kept hp]
    | false => simp
  · rw [hlma, hpae]; exact h.pae

/-- The invariant of the control registers survives every primitive change of a logical processor. -/
theorem controlInv_kept : Kept fun _ lp => lp.ControlInv where
  removes h h0 h4 he _ _ hr := h.congr h0 h4 he (hr.load.imp id And.left)
  walkStep h := h.congr (by simp) (by simp) (by simp) (.inr (by simp))
  translated h _ _ := h.congr rfl rfl rfl (.inr rfl)
  walking h _ _ _ _ _ := h.congr rfl rfl rfl (.inr rfl)
  walkingMore h _ _ _ _ _ _ _ := h.congr rfl rfl rfl (.inr rfl)
  specStart h _ _ _ _ := h.congr rfl rfl rfl (.inr rfl)
  specMore h _ _ _ := h.congr rfl rfl rfl (.inr rfl)
  specAgain h _ _ _ _ := h.congr rfl rfl rfl (.inr rfl)
  load h _ hw ht := h.load_begins hw ht
  loadMore h hl hw ht :=
    ⟨h.lma, h.pae, fun x hx => by cases hx; exact hw ▸ h.load _ hl, fun x hx => by cases hx; exact ht⟩
  loadEnd {_ _ _ lp l} h hl := by
    have hidle : LP.ControlInv { lp with loading := none } := h.congr rfl rfl rfl (.inl rfl)
    have hsame : SameControl lp { lp with loading := none } := ⟨rfl, rfl, rfl, rfl, rfl, rfl, rfl⟩
    exact hidle.controlWrite rfl ((hsame.faults l.write).trans (h.load_noFault hl)) _ _ _
  write h _ hl hw := h.controlWrite hl hw _ _ _
  wrmsr h _ hl hv := h.wrmsrEfer hl hv _

/-- Settles O55: by `controlInv_kept` for the acting logical processor, the others being untouched or exchanged with it. -/
theorem stepKeepsControlInvariant : Obligations.StepKeepsControlInvariant := fun _ _ h hs => controlInv_kept.step h hs

end Sys2Proof.Machine
end

section
/-! SUPPORT. The logical processors and their registers over a step: which are untouched (O45), what changes a control register
(O46), what changes a PDPTR register (O47). -/

namespace Sys2Proof.Machine

/-! ## Noninterference -/

theorem ControlWrite.written_physical (w : ControlWrite) (lp : LP) : (w.written lp).physical = lp.physical := by
  cases w <;> rfl

/-- No step but `schedule` changes the physical processor of the acting logical processor (R376). -/
theorem step_physical {s t : State} (hsch : ¬ s.Schedules) (hs : step s = .next t) : t.lp.physical = s.lp.physical := by
  cases step_control hsch hs with
  | same h => exact h.physical
  | resume _ h => exact h.physical
  | wrmsr _ h => exact h.physical
  | @mov w _ _ h => exact h.physical.trans (w.written_physical s.lp)

/-- The input `schedule` is taken whatever is in progress (R13). -/
theorem step_schedule {s : State} {n : Nat} {rest : List Input} (h : s.inputs = .schedule n :: rest) :
    step s = .next (State.schedule n { s with inputs := rest }) := step_input h nofun rfl

/-- Settles O45: by what any step but `schedule` leaves alone, and the two things `schedule` can do. -/
theorem otherProcessorsUntouched : Obligations.OtherProcessorsUntouched := by
  refine ⟨fun s t hs => ?_, fun s n rest h => ?_⟩
  · by_cases hsch : s.Schedules
    · obtain ⟨n, rest, h⟩ := hsch
      rw [step_schedule h] at hs
      cases hs
      obtain ⟨hcfg, -⟩ := State.schedule_shared n { s with inputs := rest }
      exact ⟨hcfg, fun hn => absurd ⟨n, rest, h⟩ hn⟩
    · obtain ⟨hothers, hcfg, -⟩ := step_registers hsch hs
      exact ⟨hcfg, fun _ => ⟨hothers, step_physical hsch hs⟩⟩
  · rw [step_schedule h]
    exact ⟨fun lp' hn => by simp only [State.schedule, hn], fun hn => by simp only [State.schedule, hn]⟩

/-! ## Control registers -/

/-- CR2 changes with a page fault only, which reports its new value (R22, R352). -/
theorem step_cr2 {s t : State} (hsch : ¬ s.Schedules) (hs : step s = .next t) :
    t.lp.cr2 = s.lp.cr2 ∨ ∃ ec, t.lp.exc = some (.pageFault t.lp.cr2 ec) := by
  obtain ⟨-, -, hr⟩ := step_registers hsch hs
  rcases hr with hq | ⟨rip, cpl, rest, -, e⟩ | ⟨c, la, acc, p, r, lp, e, -⟩ | ⟨i, s', -, he, -, -, hlp⟩ | ⟨l, -, rfl⟩
  · exact .inl hq.cr2
  · exact .inl (by rw [e]; rfl)
  · exact .inr ⟨_, by rw [e]; rfl⟩
  · obtain ⟨-, hcr2, -⟩ := exec_removes he
    exact .inl (hcr2.trans (by rw [hlp]))
  · obtain ⟨-, hcr2, -⟩ := loadPdpte_removes l s.begun
    exact .inl hcr2

/-- Settles O46: by what a step can do to the control registers, and, where a MOV completes, by the register it names. -/
theorem controlRegistersChangeOnlyBy : Obligations.ControlRegistersChangeOnlyBy := by
  intro s t hi hsch hs
  have hcr2 := step_cr2 hsch hs
  cases step_control hsch hs with
  | same h => exact ⟨.inl h.cr0, .inl h.cr3, .inl h.cr4, .inl h.efer, hcr2, .inl h.cpl⟩
  | resume hin h => exact ⟨.inl h.cr0, .inl h.cr3, .inl h.cr4, .inl h.efer, hcr2, .inr ⟨_, _, _, hin⟩⟩
  | wrmsr hw h => exact ⟨.inl h.cr0, .inl h.cr3, .inl h.cr4, .inr (.inl hw), hcr2, .inl h.cpl⟩
  | @mov w q hw h =>
    have hm : s.Executes w.By ∨ ∃ q, s.LastRead w q := (hw.executes_or_lastRead hi).imp And.left fun h => ⟨q, h⟩
    cases w with
    | cr0 v =>
      have hm : s.Executes (ControlWrite.cr0 v).By ∨ ∃ v q, s.LastRead (.cr0 v) q := hm.imp_right fun h => ⟨v, h⟩
      exact ⟨.inr hm, .inl h.cr3, .inl h.cr4, .inr (.inr hm), hcr2, .inl h.cpl⟩
    | cr3 v => exact ⟨.inl h.cr0, .inr (hm.imp_right fun h => ⟨v, h⟩), .inl h.cr4, .inl h.efer, hcr2, .inl h.cpl⟩
    | cr4 v => exact ⟨.inl h.cr0, .inl h.cr3, .inr (hm.imp_right fun h => ⟨v, h⟩), .inl h.efer, hcr2, .inl h.cpl⟩

/-! ## PDPTR registers -/

theorem ControlWrite.written_pdptr (w : ControlWrite) (lp : LP) : (w.written lp).pdptr = lp.pdptr := by
  cases w <;> rfl

/-- Only the last read of a load changes the PDPTR registers (R28, R299). -/
theorem step_pdptr {s t : State} (hi : s.lp.ControlInv) (hsch : ¬ s.Schedules) (hs : step s = .next t) :
    t.lp.pdptr = s.lp.pdptr ∨ ∃ w, s.LastRead w t.lp.pdptr := by
  cases step_control hsch hs with
  | same h => exact .inl h.pdptr
  | resume _ h => exact .inl h.pdptr
  | wrmsr _ h => exact .inl h.pdptr
  | @mov w q hw h =>
    have hq : t.lp.pdptr = q := h.pdptr
    rcases hw.executes_or_lastRead hi with ⟨-, e⟩ | hl
    · exact .inl (hq.trans e)
    · exact .inr ⟨w, hq ▸ hl⟩

/-- A PDPTR load begins with the execution of a MOV to a control register only (R298). -/
theorem step_begins_load {s t : State} (hsch : ¬ s.Schedules) (hs : step s = .next t) (h0 : s.lp.loading = none)
    (h1 : t.lp.loading ≠ none) : ∃ w : ControlWrite, s.Executes w.By := by
  obtain ⟨-, -, hr⟩ := step_registers hsch hs
  rcases hr with hq | ⟨rip, cpl, rest, -, e⟩ | ⟨c, la, acc, p, r, lp, e, -⟩ | ⟨i, s', hp, he, -, -, hlp⟩ | ⟨l, hl, rfl⟩
  · exact absurd (hq.loading.trans h0) h1
  · exact absurd (by rw [e]; exact h0) h1
  · exact absurd (by rw [e]; rfl) h1
  · rcases exec_loading he with h | h | ⟨w, hw⟩
    · exact absurd (h.trans (by rw [hlp]; exact h0)) h1
    · exact absurd h h1
    · exact ⟨w, i, s', hp, hw⟩
  · exact absurd (hl.loading.symm.trans h0) nofun

theorem State.readPdpte_of_next {s : State} {l : PdptrLoad} {i : Nat} (h : l.next s.choice = i) :
    s.readPdpte l = { l with
      todo := l.todo.erase i, entries := l.entries.set i (s.mem.readEntry (pdpteAddr (l.write.root s.lp) i) 8) } := by
  subst h; rfl

/-- With two entries or more still to read, the step reads one and changes nothing else (R299). -/
theorem step_reads_entry {s : State} {l : PdptrLoad} (h : s.Loading l) (h2 : 2 ≤ l.todo.length) {i : Nat}
    (hi : l.next s.choice = i) (hmem : i ∈ l.todo) :
    step s = .next { s.begun.tick with
      lp := { s.lp with
        loading := some { l with
          todo := l.todo.erase i, entries := l.entries.set i (s.mem.readEntry (pdpteAddr (l.write.root s.lp) i) 8) } } } := by
  have hread := State.readPdpte_of_next (s := s.begun) hi
  rw [step_loading h]
  rcases State.loadPdpte_cases l s.begun with ⟨hnil, -⟩ | ⟨-, e⟩
  · have hnil : l.todo.erase i = [] := by rw [hread] at hnil; exact hnil
    have hlen := List.length_erase_of_mem hmem
    rw [hnil, List.length_nil] at hlen
    omega
  · rw [e, hread]; rfl

/-- Settles O47: by what a step can do to the PDPTR registers and to a load, and by the free choice of the entry read next. -/
theorem pdptrsLoadedOnlyByMovs : Obligations.PdptrsLoadedOnlyByMovs := by
  have unread : ∀ {l : PdptrLoad}, 2 ≤ l.todo.length → l.todo ≠ [] := fun h2 h => by simp [h] at h2
  refine ⟨fun s t hi hsch hs => ⟨step_pdptr hi hsch hs, fun h0 h1 => ?_⟩, fun s l h h2 => ?_, fun s l i h h2 hmem => ?_⟩
  · obtain ⟨w, i, s', hp, hw⟩ := step_begins_load hsch hs h0 h1
    refine ⟨i, s', hp, ?_⟩
    cases w with
    | cr0 v => exact hw.imp fun r => .inl
    | cr3 v => exact hw.imp fun r => .inr ∘ .inl
    | cr4 v => exact hw.imp fun r => .inr ∘ .inr
  · have hmem := PdptrLoad.next_mem (unread h2) s.choice
    exact ⟨_, hmem, step_reads_entry h h2 rfl hmem⟩
  · obtain ⟨n, hn⟩ := exists_pick 0 l.todo i hmem
    have hl : ∀ cs, State.Loading { s with choices := cs } l := fun cs => ⟨h.next, h.loading⟩
    exact ⟨{ s.choice with pdpte := n }, fun cs => ⟨_, step_reads_entry (hl _) h2 hn hmem, rfl⟩⟩

end Sys2Proof.Machine
end

section
/-! SUPPORT. The machine after reset (R37): each logical processor in the reset state, whichever physical processor it belongs to
(O60). -/

namespace Sys2Proof.Machine

/-- A logical processor after reset, in a physical processor (R37, R376). -/
def LP.resetIn (n : Nat) : LP := { LP.reset with physical := n }

theorem State.reset_processors : State.reset.processors = (0 :: State.reset.cfg.otherProcessors).map LP.resetIn := rfl

/-- The logical processors after reset are reset ones. -/
theorem State.reset_each {P : LP → Prop} (h : ∀ n, P (LP.resetIn n)) : State.reset.Each P := fun lp hlp => by
  rw [State.reset_processors] at hlp
  obtain ⟨n, -, rfl⟩ := List.mem_map.mp hlp
  exact h n

/-- Paging is off after reset. -/
theorem resetIn_pg (n : Nat) : (LP.resetIn n).pg = false := show bit 0x60000010 31 = false by decide

/-- IA-32e mode is not active after reset. -/
theorem resetIn_lma (n : Nat) : (LP.resetIn n).lma = false := show bit 0 10 = false by decide

theorem resetIn_cachesEmpty (n : Nat) : (LP.resetIn n).CachesEmpty := ⟨rfl, rfl, rfl, rfl⟩

theorem resetIn_idle (n : Nat) :
    (LP.resetIn n).walks = [] ∧ (LP.resetIn n).access = none ∧ (LP.resetIn n).loading = none := ⟨rfl, rfl, rfl⟩

theorem resetIn_controlInv (n : Nat) : (LP.resetIn n).ControlInv := by
  obtain ⟨-, -, hload⟩ := resetIn_idle n
  exact ⟨by simp [resetIn_lma, resetIn_pg], by simp [resetIn_lma], by simp [hload], by simp [hload]⟩

theorem LP.CachesEmpty.globalInv {lp : LP} (h : lp.CachesEmpty) : lp.GlobalInv := fun _ => by simp [h.tlb]

theorem LP.CachesEmpty.cacheInv {lp : LP} (h : lp.CachesEmpty) (cfg : Config) : lp.CacheInv cfg :=
  ⟨fun _ => h.pml4c, fun _ => h.pdpc, fun _ => h.pdec, by simp [h.pml4c], by simp [h.pdpc], by simp [h.tlb]⟩

theorem resetIn_walkInv (n : Nat) : (LP.resetIn n).WalkInv := by
  obtain ⟨hwalks, haccess, hload⟩ := resetIn_idle n
  exact ⟨by simp [hwalks], by simp [haccess], fun _ => hwalks, by simp [haccess], fun h => absurd hload h⟩

theorem resetIn_addressInv (cfg : Config) (n : Nat) : (LP.resetIn n).AddressInv cfg := by
  obtain ⟨hwalks, haccess, -⟩ := resetIn_idle n
  have hc := resetIn_cachesEmpty n
  exact ⟨by simp [hc.pml4c, hc.pdpc, hc.pdec], by simp [hc.tlb], by simp [hc.tlb], by simp [hc.tlb], by simp [hwalks],
    by simp [haccess]⟩

/-- No address is held after reset: memory, the reads recorded, the caches, the walks and the accesses are empty. -/
theorem State.reset_addressInv : State.reset.AddressInv where
  mem := List.forall_mem_nil _
  sideEffects := List.forall_mem_nil _
  caches := State.reset_each (resetIn_addressInv _)
  access := State.reset_each fun n a ha => by
    obtain ⟨-, haccess, -⟩ := resetIn_idle n
    rw [haccess] at ha; cases ha

/-- Settles O60: each logical processor is a reset one, whose registers are those of R37 and whose caches are empty. -/
theorem resetState : Obligations.ResetState := by
  refine ⟨reset_memory_wf, rfl, State.reset_addressInv, ?_, State.reset_each fun n => ?_⟩
  · rw [State.reset_processors, List.map_map]
    exact List.map_id _
  · obtain ⟨hwalks, haccess, hload⟩ := resetIn_idle n
    have hc := resetIn_cachesEmpty n
    have hcr4 : ∀ i < 8, bit 0 i = false := by decide
    exact ⟨resetIn_pg n, show bit 0x60000010 16 = false by decide, rfl, rfl, hcr4 4 (by decide), hcr4 5 (by decide),
      hcr4 7 (by decide), rfl, rfl, hc, hwalks, haccess, hload, LP.mode_off (resetIn_pg n),
      resetIn_controlInv n, hc.globalInv, hc.cacheInv _, resetIn_walkInv n⟩

end Sys2Proof.Machine
end

section
/-! SUPPORT. Physical memory byte by byte (O48): in a read and in a write of several bytes, byte `i` of the value is the byte at the
`i`-th address (R62, R63). -/

namespace Sys2Proof.Machine

/-- `PhysWrite` writes byte `i` of its value at the `i`-th address: the first write is of byte 0, and the others do not touch it. -/
theorem Memory.read_writeLe (m : Memory) (pa : Nat) {n i : Nat} (v : Nat) (h : i < n) :
    (m.writeLe pa n v).read (pa + i) = BitVec.ofNat 8 (v / 256 ^ i) := by
  induction n generalizing m pa v i with
  | zero => omega
  | succ n ih =>
    rw [Memory.writeLe]
    cases i with
    | zero => rw [Memory.read_writeLe_other _ _ _ _ _ (by omega)]; simp
    | succ i =>
      rw [show pa + (i + 1) = pa + 1 + i by omega, ih _ _ _ (by omega), Nat.div_div_eq_div_mul, Nat.pow_succ']

/-- Byte `i` of what `PhysRead` gives is the byte at the `i`-th address. -/
theorem Memory.readLe_byte (m : Memory) (pa : Nat) {n i : Nat} (h : i < n) :
    m.readLe pa n / 256 ^ i % 256 = (m.read (pa + i)).toNat := by
  induction n generalizing pa i with
  | zero => omega
  | succ n ih =>
    have hbyte := (m.read pa).isLt
    rw [Memory.readLe]
    cases i with
    | zero => simp; omega
    | succ i =>
      have hrest : ((m.read pa).toNat + 256 * m.readLe (pa + 1) n) / 256 = m.readLe (pa + 1) n := by omega
      rw [Nat.pow_succ', ← Nat.div_div_eq_div_mul, hrest, ih (pa + 1) (by omega), show pa + (i + 1) = pa + 1 + i by omega]

/-- Settles O48: each byte of a write and of a read is in its place. -/
theorem physicalMemoryIsLittleEndian : Obligations.PhysicalMemoryIsLittleEndian := fun m pa n v _ hi =>
  ⟨m.read_writeLe pa v hi, m.readLe_byte pa hi, m.readLe_lt pa n⟩

end Sys2Proof.Machine
end

section
/-! SUPPORT. The parts of an access (O49): how its bytes are cut at the 4-KByte boundaries, and the page that a translation makes of
some of them (R65, R330, R12). -/

namespace Sys2Proof.Machine

/-! ## The bytes of the parts -/

/-- Dropping the high bits twice, before and after an addition, drops them once (entry 18). -/
theorem LP.linear_linear_add (lp : LP) (la x : Word) : lp.linear (lp.linear la + x) = lp.linear (la + x) := by
  unfold LP.linear
  split
  · rfl
  · bv_omega

/-- The parts hold the bytes from `off` on in order, none left out and none twice: the first part goes up to the page boundary or
the last byte, and the other parts go on from there. -/
theorem LP.pieces_bytes (lp : LP) {fuel n : Nat} (la : Word) (off : Nat) (h : n ≤ fuel) :
    ((lp.pieces fuel la off n).flatMap fun p => List.range' p.off p.len) = List.range' off n := by
  induction fuel generalizing la off n with
  | zero => rw [Nat.le_zero.mp h]; rfl
  | succ fuel ih =>
    unfold LP.pieces
    split
    · subst n; rfl
    · rw [List.flatMap_cons, ih _ _ (by omega), List.range'_append_1]
      exact congrArg (List.range' off) (Nat.add_sub_cancel' (Nat.min_le_left _ _))

/-- No part is empty. -/
theorem LP.pieces_len_pos (lp : LP) (fuel : Nat) (la : Word) (off n : Nat) : ∀ p ∈ lp.pieces fuel la off n, 0 < p.len := by
  induction fuel generalizing la off n with
  | zero => simp [LP.pieces]
  | succ fuel ih =>
    unfold LP.pieces
    split
    · simp
    · intro p hp
      rcases List.mem_cons.mp hp with rfl | hp
      · exact Nat.lt_min.mpr ⟨by omega, by omega⟩
      · exact ih _ _ _ p hp

/-- Each part lies at the linear address of its first byte, counted from the access's first byte at `la`. -/
theorem LP.pieces_la (lp : LP) (fuel : Nat) (la : Word) (off n : Nat) :
    ∀ p ∈ lp.pieces fuel (lp.linear (la + BitVec.ofNat 64 off)) off n, p.la = lp.linear (la + BitVec.ofNat 64 p.off) := by
  induction fuel generalizing off n with
  | zero => simp [LP.pieces]
  | succ fuel ih =>
    unfold LP.pieces
    split
    · simp
    · intro p hp
      rcases List.mem_cons.mp hp with rfl | hp
      · rfl
      · rw [LP.linear_linear_add, BitVec.add_assoc, ← BitVec.ofNat_add] at hp
        exact ih _ _ p hp

/-! ## The page of a part -/

/-- A fetch of the instruction at `rip` goes up to the end of the page or of the longest instruction (R12; entry 28). -/
theorem Access.extend_instruction {a : Access} (h : a.instruction = true) (b : Nat) (p : Piece) :
    a.extend b p = { p with len := min (8 - p.off) (2 ^ b - p.la.toNat % 2 ^ b) } := by
  simp [Access.extend, h, maxLength]

/-- Where the access begins in the page of `la`, its first byte there is its first byte. -/
theorem Access.firstByte_same {a : Access} {b : Nat} {la : Word}
    (h : a.la.toNat / 2 ^ a.pageBits b la = la.toNat / 2 ^ a.pageBits b la) : a.firstByte b la = a.la := by
  simp [Access.firstByte, samePage_iff.mpr h]

/-- In a page the access comes into from below, its first byte there is the first of the page. -/
theorem Access.firstByte_other {a : Access} {b : Nat} {la : Word}
    (h : a.la.toNat / 2 ^ a.pageBits b la ≠ la.toNat / 2 ^ a.pageBits b la) :
    (a.firstByte b la).toNat = la.toNat / 2 ^ a.pageBits b la * 2 ^ a.pageBits b la := by
  have hlt : la.toNat / 2 ^ a.pageBits b la * 2 ^ a.pageBits b la < 2 ^ 64 := (Nat.div_mul_le_self _ _).trans_lt la.isLt
  simp only [Access.firstByte, samePage_iff, if_neg h, BitVec.toNat_ofNat, Nat.mod_eq_of_lt hlt]

/-- The access goes on with a part still to be translated, of a large page that memory maps with the first only (R65; entry 15). -/
theorem State.mem_ready {s : State} {a : Access} {p : Piece} :
    p ∈ s.ready a ↔ p ∈ a.todo
      ∧ (s.lp.maps s.cfg s.mem p.la = some .large → a.firstByte (largeBits s.lp.pagingMode) p.la = p.la) := by
  simp [State.ready, or_iff_not_imp_left]

/-- Settles O49: by how the bytes are cut, and by what lies in the page that a translation shows. -/
theorem pagesOfAnAccess : Obligations.PagesOfAnAccess := by
  refine ⟨fun lp la n => ⟨?_, fun p hp => ⟨?_, ?_, ?_⟩⟩, fun a p q pa b x => ?_, fun a b la _ => ?_,
    fun _ _ _ => State.mem_ready⟩
  · rw [lp.pieces_bytes _ 0 le_rfl, List.range_eq_range']
  · exact lp.pieces_len_pos _ _ _ _ p hp
  · exact lp.pieces_fit _ _ _ _ p hp
  · have h0 : lp.linear la = lp.linear (la + BitVec.ofNat 64 0) := by simp
    exact lp.pieces_la n la 0 n p (h0 ▸ hp)
  · rw [← a.pageBits_eq b p.la]
    refine ⟨?_, ?_, rfl, fun h => ?_, fun h => ?_⟩
    · rw [Access.mem_found_todo, ne_comm]
    · rw [Access.mem_found_covered, eq_comm (a := p.la.toNat / _)]
    · rw [Access.found_phase, Access.extend_data h]
    · rw [Access.found_phase, Access.extend_instruction h]
  · rw [← a.pageBits_eq b la]
    exact ⟨Access.firstByte_same, Access.firstByte_other⟩

end Sys2Proof.Machine
end

section
/-! SUPPORT. The encodings (O1 to O3): the bytes that R109 and entry 4 give to each instruction, as relations, and that the decoder
answers an instruction exactly on its bytes. -/

namespace Sys2Proof

/-! ## Registers and the fields of ModRM and SIB bytes -/

@[simp] theorem Reg.ofNum_num (r : Reg) : Reg.ofNum r.num = r := by cases r <;> rfl

@[simp] theorem Reg.num_ofNum : ∀ n : BitVec 3, (Reg.ofNum n).num = n := by decide

theorem Reg.num_eq_four {r : Reg} : r.num = 4#3 ↔ r = .rsp := by cases r <;> decide

theorem Reg.num_eq_five {r : Reg} : r.num = 5#3 ↔ r = .rbp := by cases r <;> decide

@[simp] theorem modField_packFields (mod : BitVec 2) (reg rm : BitVec 3) : modField (packFields mod reg rm) = mod :=
  (BitVec.extractLsb'_append_eq_of_le (by decide)).trans BitVec.extractLsb'_append_eq_left

@[simp] theorem regField_packFields (mod : BitVec 2) (reg rm : BitVec 3) : regField (packFields mod reg rm) = reg :=
  (BitVec.extractLsb'_append_eq_of_le (by decide)).trans BitVec.extractLsb'_append_eq_right

@[simp] theorem rmField_packFields (mod : BitVec 2) (reg rm : BitVec 3) : rmField (packFields mod reg rm) = rm :=
  BitVec.extractLsb'_append_eq_right

/-! ## The index of a SIB byte -/

/-- What the decoder reads as index and scale of a SIB byte passes the check on them. -/
theorem indexOk_sib (s : Byte) : indexOk (sibScale s) (sibIndex s) = true := by
  unfold sibScale sibIndex
  split
  · rfl
  · next h => simpa [indexOk, ← Reg.num_eq_four] using h

/-- A SIB byte holds the index and the scale it was written with. -/
theorem sib_packFields {scale : BitVec 2} {index : Option Reg} (rm : BitVec 3) (h : indexOk scale index = true) :
    sibScale (packFields scale (indexField index) rm) = scale ∧ sibIndex (packFields scale (indexField index) rm) = index := by
  cases index with
  | none =>
    obtain rfl : scale = 0 := by simpa [indexOk] using h
    simp [sibScale, sibIndex, indexField]
  | some r =>
    have : r.num ≠ 4#3 := by simpa [indexOk, Reg.num_eq_four] using h
    simp [sibScale, sibIndex, indexField, this]

/-! ## Displacements -/

theorem Disp.mod_ne_three (d : Disp) : d.mod ≠ 3 := by cases d <;> simp [Disp.mod]

/-- The base register that means a displacement instead is 101 with ModRM.mod = 00. -/
theorem Disp.allows_iff {d : Disp} {r : Reg} : d.allows r = true ↔ ¬ (r.num = 5 ∧ d.mod = 0) := by
  cases d <;> simp [Disp.allows, Disp.mod, Reg.num_eq_five]

theorem Disp.encode_length (d : Disp) : d.encode.length = d.length := by cases d <;> rfl

/-- The bytes of a displacement make it up again. -/
theorem append_encodeDisp32 (d : Dword) :
    (d.extractLsb' 24 8 ++ d.extractLsb' 16 8 ++ d.extractLsb' 8 8 ++ d.extractLsb' 0 8 : Dword) = d := by
  rw [BitVec.extractLsb'_append_extractLsb'_eq_extractLsb' (start₂ := 24) (start₁ := 16) rfl,
    BitVec.extractLsb'_append_extractLsb'_eq_extractLsb' (start₂ := 16) (start₁ := 8) rfl,
    BitVec.extractLsb'_append_extractLsb'_eq_extractLsb' (start₂ := 8) (start₁ := 0) rfl]
  exact BitVec.extractLsb'_eq_self

/-- A displacement is written as the bytes it was read from. -/
theorem encodeDisp32_append (b0 b1 b2 b3 : Byte) : encodeDisp32 (b3 ++ b2 ++ b1 ++ b0) = [b0, b1, b2, b3] := by
  have h0 : (b3 ++ b2 ++ b1 ++ b0).extractLsb' 0 8 = b0 := BitVec.extractLsb'_append_eq_right
  have h1 : (b3 ++ b2 ++ b1 ++ b0).extractLsb' 8 8 = b1 :=
    (BitVec.extractLsb'_append_eq_of_le (by decide)).trans BitVec.extractLsb'_append_eq_right
  have h2 : (b3 ++ b2 ++ b1 ++ b0).extractLsb' 16 8 = b2 :=
    (BitVec.extractLsb'_append_eq_of_le (by decide)).trans
      ((BitVec.extractLsb'_append_eq_of_le (by decide)).trans BitVec.extractLsb'_append_eq_right)
  have h3 : (b3 ++ b2 ++ b1 ++ b0).extractLsb' 24 8 = b3 :=
    (BitVec.extractLsb'_append_eq_of_le (by decide)).trans
      ((BitVec.extractLsb'_append_eq_of_le (by decide)).trans BitVec.extractLsb'_append_eq_left)
  exact congrArg₂ _ h0 (congrArg₂ _ h1 (congrArg₂ _ h2 (congrArg₂ _ h3 rfl)))

/-- A 32-bit displacement is read from its bytes, and from no others. -/
theorem takeDisp32_ok_iff {bs rest : List Byte} {d : Dword} :
    takeDisp32 bs = .ok (d, rest) ↔ bs = encodeDisp32 d ++ rest := by
  constructor
  · intro h
    unfold takeDisp32 at h
    split at h
    · next b0 b1 b2 b3 rest =>
      cases h
      rw [encodeDisp32_append]
      rfl
    · cases h
  · rintro rfl
    exact congrArg (fun x => Except.ok (x, rest)) (append_encodeDisp32 d)

/-- The displacement that ModRM.mod calls for is read from its bytes, and from no others. -/
theorem takeDisp_ok_iff {mod : BitVec 2} {bs rest : List Byte} {d : Disp} (hmod : mod ≠ 3) :
    takeDisp mod bs = .ok (d, rest) ↔ d.mod = mod ∧ bs = d.encode ++ rest := by
  constructor
  · intro h
    unfold takeDisp at h
    split at h
    · next h0 => cases h; exact ⟨h0.symm, rfl⟩
    · split at h
      · next h1 =>
        split at h <;> cases h
        exact ⟨h1.symm, rfl⟩
      · next h0 h1 =>
        have h2 : (2 : BitVec 2) = mod := by bv_omega
        split at h
        · next h' => cases h; exact ⟨h2, takeDisp32_ok_iff.mp h'⟩
        · cases h
  · rintro ⟨rfl, rfl⟩
    cases d with
    | none => rfl
    | disp8 d => rfl
    | disp32 d => simp [takeDisp, Disp.mod, takeDisp32_ok_iff.mpr (show Disp.encode (.disp32 d) ++ rest = _ from rfl)]

/-! ## Operands and instructions -/

/-- The bytes behind a ModRM byte that, with its fields mod and rm, name a memory operand (entry 4). -/
inductive MemForm (modrm : Byte) : MemOperand → List Byte → Prop
  | base {r : Reg} {d : Disp} (hrm : rmField modrm = r.num) (hmod : modField modrm = d.mod)
      (hwf : (MemOperand.base r d).wf = true) : MemForm modrm (.base r d) d.encode
  | disp {d : Dword} (hrm : rmField modrm = 5) (hmod : modField modrm = 0) : MemForm modrm (.disp d) (encodeDisp32 d)
  | sib {s : Byte} {r : Reg} {d : Disp} (hrm : rmField modrm = 4) (hmod : modField modrm = d.mod) (hbase : rmField s = r.num)
      (hallows : d.allows r = true) : MemForm modrm (.sib (sibScale s) (sibIndex s) r d) (s :: d.encode)
  | sibDisp {s : Byte} {d : Dword} (hrm : rmField modrm = 4) (hmod : modField modrm = 0) (hbase : rmField s = 5) :
      MemForm modrm (.sibDisp (sibScale s) (sibIndex s) d) (s :: encodeDisp32 d)

/-- The bytes of an instruction: one constructor for each row of the opcode table (R109). -/
inductive InstrForm : Instr → List Byte → Prop
  | invlpg {modrm : Byte} {m : MemOperand} {front : List Byte} (hreg : regField modrm = 7) (hmem : MemForm modrm m front) :
      InstrForm (.invlpg m) (0x0F :: 0x01 :: modrm :: front)
  | movCr0 {modrm : Byte} {r : Reg} (hreg : regField modrm = 0) (hrm : rmField modrm = r.num) :
      InstrForm (.movCr0 r) [0x0F, 0x22, modrm]
  | movCr3 {modrm : Byte} {r : Reg} (hreg : regField modrm = 3) (hrm : rmField modrm = r.num) :
      InstrForm (.movCr3 r) [0x0F, 0x22, modrm]
  | movCr4 {modrm : Byte} {r : Reg} (hreg : regField modrm = 4) (hrm : rmField modrm = r.num) :
      InstrForm (.movCr4 r) [0x0F, 0x22, modrm]
  | wrmsr : InstrForm .wrmsr [0x0F, 0x30]
  | cpuid : InstrForm .cpuid [0x0F, 0xA2]
  | hlt : InstrForm .hlt [0xF4]

theorem MemForm.mod_ne_three {modrm : Byte} {m : MemOperand} {front : List Byte} (h : MemForm modrm m front) :
    modField modrm ≠ 3 := by
  cases h with
  | base _ hmod _ => exact hmod ▸ Disp.mod_ne_three _
  | disp _ hmod => simp [hmod]
  | sib _ hmod _ _ => exact hmod ▸ Disp.mod_ne_three _
  | sibDisp _ hmod _ => simp [hmod]

theorem MemForm.wf {modrm : Byte} {m : MemOperand} {front : List Byte} (h : MemForm modrm m front) : m.wf = true := by
  cases h with
  | base _ _ hwf => exact hwf
  | disp _ _ => rfl
  | sib _ _ _ hallows => simp [MemOperand.wf, indexOk_sib, hallows]
  | sibDisp _ _ _ => exact indexOk_sib _

theorem MemForm.length {modrm : Byte} {m : MemOperand} {front : List Byte} (h : MemForm modrm m front) :
    (Instr.invlpg m).length = 3 + front.length := by
  cases h with
  | base _ _ _ => rw [Disp.encode_length]; rfl
  | disp _ _ => rfl
  | sib _ _ _ _ => simp [Instr.length, Disp.encode_length]; omega
  | sibDisp _ _ _ => rfl

theorem InstrForm.wf {i : Instr} {front : List Byte} (h : InstrForm i front) : i.wf = true := by
  cases h with
  | invlpg _ hmem => exact hmem.wf
  | _ => rfl

theorem InstrForm.length {i : Instr} {front : List Byte} (h : InstrForm i front) : front.length = i.length := by
  cases h with
  | invlpg _ hmem => rw [hmem.length, Nat.add_comm]; rfl
  | _ => rfl

/-- The encoder writes one of the forms of a well-formed operand. -/
theorem encodeMem_form (reg : BitVec 3) {m : MemOperand} (h : m.wf = true) :
    ∃ modrm front, encodeMem reg m = modrm :: front ∧ regField modrm = reg ∧ MemForm modrm m front := by
  cases m with
  | base r d => exact ⟨_, _, rfl, by simp, .base (by simp) (by simp) h⟩
  | disp d => exact ⟨_, _, rfl, by simp, .disp (by simp) (by simp)⟩
  | sib scale index r d =>
    obtain ⟨hix, hallows⟩ := Bool.and_eq_true_iff.mp h
    obtain ⟨hs, hi⟩ := sib_packFields r.num hix
    have hform := MemForm.sib (modrm := packFields d.mod reg 4) (s := packFields scale (indexField index) r.num) (r := r) (d := d)
      (by simp) (by simp) (by simp) hallows
    rw [hs, hi] at hform
    exact ⟨_, _, rfl, by simp, hform⟩
  | sibDisp scale index d =>
    obtain ⟨hs, hi⟩ := sib_packFields 5 h
    have hform := MemForm.sibDisp (modrm := packFields 0 reg 4) (s := packFields scale (indexField index) 5) (d := d)
      (by simp) (by simp) (by simp)
    rw [hs, hi] at hform
    exact ⟨_, _, rfl, by simp, hform⟩

/-- The encoder writes one of the forms of a well-formed instruction. -/
theorem encode_form {i : Instr} (h : i.wf = true) : InstrForm i (encode i) := by
  cases i with
  | invlpg m =>
    obtain ⟨modrm, front, he, hreg, hmem⟩ := encodeMem_form 7 h
    rw [encode, he]
    exact .invlpg hreg hmem
  | movCr0 r => exact .movCr0 (by simp) (by simp)
  | movCr3 r => exact .movCr3 (by simp) (by simp)
  | movCr4 r => exact .movCr4 (by simp) (by simp)
  | wrmsr => exact .wrmsr
  | cpuid => exact .cpuid
  | hlt => exact .hlt

/-! ## The decoder -/

/-- The decoder reads an operand from the bytes of one of its forms, and from no others. -/
theorem decodeMem_ok_iff {modrm : Byte} {bs rest : List Byte} {m : MemOperand} (hmod : modField modrm ≠ 3) :
    decodeMem modrm bs = .ok (m, rest) ↔ ∃ front, MemForm modrm m front ∧ bs = front ++ rest := by
  constructor
  · intro h
    unfold decodeMem at h
    split at h
    · next hrm =>
      split at h
      · cases h
      · next s bs' =>
        split at h
        · next hs =>
          obtain ⟨hbase, h0⟩ := hs
          split at h
          · next hd =>
            cases h
            exact ⟨_, .sibDisp hrm h0 hbase, congrArg _ (takeDisp32_ok_iff.mp hd)⟩
          · cases h
        · next hs =>
          split at h
          · next hd =>
            cases h
            obtain ⟨hdm, rfl⟩ := (takeDisp_ok_iff hmod).mp hd
            exact ⟨_, .sib hrm hdm.symm (Reg.num_ofNum _).symm (Disp.allows_iff.mpr (by rwa [Reg.num_ofNum, hdm])), rfl⟩
          · cases h
    · next hrm =>
      split at h
      · next hs =>
        obtain ⟨h5, h0⟩ := hs
        split at h
        · next hd =>
          cases h
          exact ⟨_, .disp h5 h0, takeDisp32_ok_iff.mp hd⟩
        · cases h
      · next hs =>
        split at h
        · next d _ hd =>
          cases h
          obtain ⟨hdm, rfl⟩ := (takeDisp_ok_iff hmod).mp hd
          have hallows : d.allows (Reg.ofNum (rmField modrm)) = true :=
            Disp.allows_iff.mpr (by rwa [Reg.num_ofNum, hdm])
          have hrsp : Reg.ofNum (rmField modrm) ≠ .rsp := fun hr => hrm (by simpa using Reg.num_eq_four.mpr hr)
          exact ⟨_, .base (Reg.num_ofNum _).symm hdm.symm (by simp [MemOperand.wf, hallows, hrsp]), rfl⟩
        · cases h
  · rintro ⟨front, hf, rfl⟩
    cases hf with
    | @base r d hrm hm hwf =>
      obtain ⟨hrsp, hallows⟩ := Bool.and_eq_true_iff.mp hwf
      have h4 : r.num ≠ 4#3 := by simpa [Reg.num_eq_four] using hrsp
      have hd := (takeDisp_ok_iff hmod (rest := rest)).mpr ⟨hm.symm, rfl⟩
      unfold decodeMem
      rw [if_neg (hrm ▸ h4), if_neg (hrm ▸ hm ▸ Disp.allows_iff.mp hallows), hd, hrm, Reg.ofNum_num]
    | disp hrm hm =>
      simp [decodeMem, hrm, hm, takeDisp32_ok_iff.mpr rfl]
    | sib hrm hm hbase hallows =>
      have hd := (takeDisp_ok_iff hmod (rest := rest)).mpr ⟨hm.symm, rfl⟩
      unfold decodeMem
      rw [if_pos hrm, List.cons_append]
      simp only
      rw [if_neg (hbase ▸ hm ▸ Disp.allows_iff.mp hallows), hd, hbase, Reg.ofNum_num]
    | sibDisp hrm hm hbase =>
      simp [decodeMem, hrm, hm, hbase, takeDisp32_ok_iff.mpr rfl]

/-- The rows behind 0F 01. -/
theorem decodeInvlpg_ok_iff {modrm : Byte} {bs rest : List Byte} {i : Instr} :
    decodeInvlpg modrm bs = .ok (i, rest) ↔ ∃ front, InstrForm i (0x0F :: 0x01 :: modrm :: front) ∧ bs = front ++ rest := by
  constructor
  · intro h
    unfold decodeInvlpg at h
    split at h
    · cases h
    · next hreg =>
      split at h
      · cases h
      · next hmod =>
        split at h
        · next hd =>
          cases h
          obtain ⟨front, hf, rfl⟩ := (decodeMem_ok_iff hmod).mp hd
          exact ⟨front, .invlpg (not_not.mp hreg) hf, rfl⟩
        · cases h
  · rintro ⟨front, hf, rfl⟩
    cases hf with
    | invlpg hreg hmem =>
      have hd := (decodeMem_ok_iff hmem.mod_ne_three (rest := rest)).mpr ⟨_, hmem, rfl⟩
      rw [decodeInvlpg, if_neg (not_not.mpr hreg), if_neg hmem.mod_ne_three, hd]

/-- The rows behind 0F 22: the three control registers. -/
theorem decodeMovCr_ok_iff {modrm : Byte} {bs rest : List Byte} {i : Instr} :
    decodeMovCr modrm bs = .ok (i, rest) ↔ InstrForm i [0x0F, 0x22, modrm] ∧ bs = rest := by
  have hr : rmField modrm = (Reg.ofNum (rmField modrm)).num := (Reg.num_ofNum _).symm
  constructor
  · intro h
    unfold decodeMovCr at h
    split at h
    · next hreg => cases h; exact ⟨.movCr0 hreg hr, rfl⟩
    · split at h
      · next hreg => cases h; exact ⟨.movCr3 hreg hr, rfl⟩
      · split at h
        · next hreg => cases h; exact ⟨.movCr4 hreg hr, rfl⟩
        · cases h
  · rintro ⟨hf, rfl⟩
    cases hf with
    | movCr0 hreg hrm => simp [decodeMovCr, hreg, hrm]
    | movCr3 hreg hrm => simp [decodeMovCr, hreg, hrm]
    | movCr4 hreg hrm => simp [decodeMovCr, hreg, hrm]

/-- The rows whose first byte is 0F. -/
theorem decodeTwoByte_ok_iff {op : Byte} {bs rest : List Byte} {i : Instr} :
    decodeTwoByte op bs = .ok (i, rest) ↔ ∃ front, InstrForm i (0x0F :: op :: front) ∧ bs = front ++ rest := by
  constructor
  · intro h
    unfold decodeTwoByte at h
    split at h
    · next hop => cases h; exact ⟨[], hop ▸ .wrmsr, rfl⟩
    · split at h
      · next hop => cases h; exact ⟨[], hop ▸ .cpuid, rfl⟩
      · split at h
        · next hop =>
          split at h
          · next modrm _ =>
            obtain ⟨front, hf, rfl⟩ := decodeInvlpg_ok_iff.mp h
            exact ⟨modrm :: front, hop ▸ hf, rfl⟩
          · cases h
        · split at h
          · next hop =>
            split at h
            · next modrm _ =>
              obtain ⟨hf, rfl⟩ := decodeMovCr_ok_iff.mp h
              exact ⟨[modrm], hop ▸ hf, rfl⟩
            · cases h
          · cases h
  · rintro ⟨front, hf, rfl⟩
    have hform := hf
    cases hf with
    | invlpg _ _ => exact decodeInvlpg_ok_iff.mpr ⟨_, hform, rfl⟩
    | movCr0 _ _ | movCr3 _ _ | movCr4 _ _ => exact decodeMovCr_ok_iff.mpr ⟨hform, rfl⟩
    | wrmsr | cpuid => rfl

/-- The decoder reads an instruction from the bytes of one of its forms, and from no others. -/
theorem decode_ok_iff {bs rest : List Byte} {i : Instr} :
    decode bs = .ok (i, rest) ↔ ∃ front, InstrForm i front ∧ bs = front ++ rest := by
  constructor
  · intro h
    unfold decode at h
    split at h
    · cases h
    · split at h
      · next hop => cases h; exact ⟨_, .hlt, hop ▸ rfl⟩
      · split at h
        · next hop =>
          split at h
          · cases h
          · obtain ⟨front, hf, rfl⟩ := decodeTwoByte_ok_iff.mp h
            exact ⟨_, hf, hop ▸ rfl⟩
        · cases h
  · rintro ⟨front, hf, rfl⟩
    have hform := hf
    cases hf with
    | hlt => rfl
    | _ => exact decodeTwoByte_ok_iff.mpr ⟨_, hform, rfl⟩

/-! ## The statements -/

/-- Settles O1: the encoder writes one of the instruction's forms, and from each of them the decoder reads it. -/
theorem decodeOfEncode : Obligations.DecodeOfEncode := fun _ _ h => decode_ok_iff.mpr ⟨_, encode_form h, rfl⟩

/-- Settles O2: the bytes that the decoder takes are one of the instruction's forms, each of which has its length. -/
theorem decodedInstructionWellFormed : Obligations.DecodedInstructionWellFormed := by
  intro bs i rest h
  obtain ⟨front, hf, rfl⟩ := decode_ok_iff.mp h
  have htake : (front ++ rest).take i.length = front := by rw [← hf.length, List.take_left]
  rw [htake]
  exact ⟨hf.wf, rfl, by rw [List.length_append, hf.length], fun other => decode_ok_iff.mpr ⟨front, hf, rfl⟩⟩

/-- Settles O3, by running the decoder on each word. -/
theorem tableWordsDecode : Obligations.TableWordsDecode :=
  ⟨by decide, by decide, by decide, by decide, by decide, by decide, by decide⟩

end Sys2Proof
end

section
/-! SUPPORT. The fields of entries and of error codes: which bits `Rsvd` checks (O25), the addresses that are assembled (O33), the
error code bit by bit (O29). -/

namespace Sys2Proof.Machine

/-! ## Reserved bits -/

/-- The reserved bits that ModePAE and ModeIA32e check: those from PAW up to `hi`, XD while it is not enabled, and the low bits of a
large page's frame (R104). -/
theorem reservedLong_iff {cfg : Config} {nxe large : Bool} {hi : Nat} {e : Word} :
    (anyBit e hi cfg.paw || (!nxe && bit e 63) || (large && anyBit e 20 13)) = true
      ↔ ∃ i, bit e i = true ∧
          ((cfg.paw ≤ i ∧ i ≤ hi) ∨ (nxe = false ∧ i = 63) ∨ (large = true ∧ 13 ≤ i ∧ i ≤ 20)) := by
  simp only [Bool.or_eq_true, Bool.and_eq_true, Bool.not_eq_true', anyBit_true]
  constructor
  · rintro ((⟨i, hlo, hhi, hb⟩ | ⟨hx, hb⟩) | ⟨hl, i, hlo, hhi, hb⟩)
    · exact ⟨i, hb, .inl ⟨hlo, hhi⟩⟩
    · exact ⟨63, hb, .inr (.inl ⟨hx, rfl⟩)⟩
    · exact ⟨i, hb, .inr (.inr ⟨hl, hlo, hhi⟩)⟩
  · rintro ⟨i, hb, ⟨hlo, hhi⟩ | ⟨hx, rfl⟩ | ⟨hl, hlo, hhi⟩⟩
    · exact .inl (.inl ⟨i, hlo, hhi, hb⟩)
    · exact .inl (.inr ⟨hx, hb⟩)
    · exact .inr ⟨hl, i, hlo, hhi, hb⟩

/-- A PDE with PS = 1 maps a large page, in Mode32 with CR4.PSE only (R260, R311). -/
theorem isLargePde_iff {pse : Bool} {m : PagingMode} {l : Level} {e : Word} :
    isLargePde pse m l e = true ↔ l = .pde ∧ bit e 7 = true ∧ (m = .mode32 → pse = true) := by
  cases m <;> simp [isLargePde, and_assoc]

theorem reservedPdptr_iff {cfg : Config} {x : Word} :
    reservedPdptr cfg x = true ↔ ∃ i, bit x i = true ∧ ((cfg.paw ≤ i ∧ i ≤ 63) ∨ (5 ≤ i ∧ i ≤ 8) ∨ (1 ≤ i ∧ i ≤ 2)) := by
  simp only [reservedPdptr, Bool.or_eq_true, anyBit_true, ← and_assoc, and_comm (a := bit x _ = true), or_and_right, exists_or,
    or_assoc]

/-- Settles O25, mode by mode. -/
theorem reservedBits : Obligations.ReservedBits := by
  refine ⟨fun cfg nxe pse m l e => ?_, fun cfg x => reservedPdptr_iff⟩
  cases m with
  | mode32 => simp [reserved, isLargePde_iff]; tauto
  | modePAE => exact reservedLong_iff.trans (by simp [isLargePde_iff, and_assoc])
  | modeIA32e => exact reservedLong_iff.trans (by simp [isLargePde_iff, and_assoc])

/-! ## Assembled addresses -/

theorem field_eq (v : Word) (hi lo : Nat) : field v hi lo = v.toNat / 2 ^ lo % 2 ^ (hi + 1 - lo) := by
  rw [field, Nat.shiftRight_eq_div_pow]

@[simp] theorem addrWidth_mode32 (cfg : Config) : addrWidth cfg .mode32 = 32 := rfl

theorem addrWidth_long (cfg : Config) {m : PagingMode} (h : m ≠ .mode32) : addrWidth cfg m = cfg.paw := if_neg h

/-- The entry of an index in the structure at `base` (R106). -/
theorem entryAddr_eq (cfg : Config) (m : PagingMode) (base idx : Nat) :
    entryAddr cfg m base idx = base / 4096 % 2 ^ (addrWidth cfg m - 12) * 4096 + entryBytes m * idx := by
  rw [entryAddr, cat, Nat.shiftRight_eq_div_pow, Nat.mul_comm idx]
  rfl

theorem frameField_eq (cfg : Config) (m : PagingMode) (e : Word) :
    frameField cfg m e = e.toNat / 4096 % 2 ^ ((if m = .mode32 then 32 else cfg.paw) - 12) := by
  have := (addrWidth_bounds cfg m).1
  rw [frameField, field_eq, show addrWidth cfg m - 1 + 1 - 12 = addrWidth cfg m - 12 by omega]
  rfl

theorem nextBase_eq (cfg : Config) (m : PagingMode) (e : Word) :
    nextBase cfg m e = e.toNat / 4096 % 2 ^ ((if m = .mode32 then 32 else cfg.paw) - 12) * 4096 := by
  rw [nextBase, cat, frameField_eq, Nat.add_zero]
  rfl

theorem largeFrame_long (cfg : Config) {m : PagingMode} (h : m ≠ .mode32) (e : Word) :
    largeFrame cfg m e = e.toNat / 2 ^ 21 % 2 ^ (cfg.paw - 21) := by
  have := paw_bounds cfg
  rw [largeFrame, if_neg h, field_eq, show cfg.paw - 1 + 1 - 21 = cfg.paw - 21 by omega]

theorem largeFrame_mode32 (cfg : Config) (e : Word) :
    largeFrame cfg .mode32 e
      = (if cfg.hasPse36 = true ∧ 36 ≤ cfg.paw then e.toNat / 2 ^ 13 % 16 * 1024 else 0) + e.toNat / 2 ^ 22 % 1024 := by
  by_cases h : cfg.hasPse36 = true ∧ 36 ≤ cfg.paw <;> simp [largeFrame, Config.pse36, h, cat, field_eq]

/-- An index of 9 bits of the linear address: entries of 8 bytes are 512 in a structure (R91). -/
theorem indexOf_long_lt {m : PagingMode} (h : m ≠ .mode32) (l : Level) (la : Word) : indexOf m l la < 512 := by
  have := indexOf_lt m l la
  rw [entryBytes, if_neg h] at this
  omega

theorem leafAddress_pte (cfg : Config) {w : Walk} (h : w.level = .pte) (e : Word) :
    leafAddress cfg w e = frameField cfg w.mode e * 4096 + w.la.toNat % 4096 := by
  simp [leafAddress, h, pageAddr, cat, field_eq]

theorem leafAddress_pde (cfg : Config) {w : Walk} (h : w.level = .pde) (e : Word) :
    leafAddress cfg w e
      = largeFrame cfg w.mode e * 2 ^ largeBits w.mode + w.la.toNat % 2 ^ largeBits w.mode := by
  have hb : largeBits w.mode - 1 + 1 - 0 = largeBits w.mode := by unfold largeBits; split <;> rfl
  rw [leafAddress, h, if_neg (by decide), largeAddr, cat, field_eq, hb, pow_zero, Nat.div_one]

/-- Settles O33: each address is a frame or base above an offset. -/
theorem assembledAddresses : Obligations.AssembledAddresses := by
  refine ⟨fun cfg w hm => ⟨indexOf w.mode w.level w.la, indexOf_long_lt hm _ _, ?_, ?_, ?_, ?_, ?_⟩,
    fun cfg w hm hl => ?_, fun cfg w e hl => ?_, fun cfg w e hl hm => ?_, fun cfg w e hl hm => ?_,
    fun cfg m e => ⟨nextBase_eq cfg m e, nextBase_eq cfg m e, nextBase_eq cfg .modePAE e, frameField_eq cfg m e, ?_⟩⟩
  · rw [Walk.entryAddr, entryAddr_eq, addrWidth_long cfg hm, entryBytes, if_neg hm]
  · rintro ⟨_, hl⟩; simp [hl, indexOf, field_eq]
  · rintro ⟨_, hl⟩; simp [hl, indexOf, field_eq]
  · intro hl; simp [hl, indexOf, hm, field_eq]
  · intro hl; simp [hl, indexOf, hm, field_eq]
  · rw [Walk.entryAddr, entryAddr_eq, hm]
    rcases hl with hl | hl <;> simp [hl, indexOf, entryBytes, field_eq]
  · rw [leafAddress_pte cfg hl, frameField_eq]
  · rw [leafAddress_pde cfg hl, largeFrame_long cfg hm, largeBits, if_neg hm]
  · rw [leafAddress_pde cfg hl, hm, largeFrame_mode32]; rfl
  · by_cases hm : m = .mode32
    · rw [if_pos hm, hm, largeFrame_mode32]
    · rw [if_neg hm, largeFrame_long cfg hm]

/-! ## The error code -/

/-- The error code, bit after bit from P up (R351). -/
theorem errorCode_eq (nxe : Bool) (acc : Acc) (p rsvd : Bool) :
    errorCode nxe acc p rsvd = BitVec.ofNat 32 (Nat.bit p (Nat.bit (acc.kind == .write) (Nat.bit acc.user
      (Nat.bit rsvd (Nat.bit (acc.kind == .fetch && nxe) 0))))) := by
  simp only [errorCode, Nat.bit_val]
  congr 1
  omega

theorem errorCode_bit (nxe : Bool) (acc : Acc) (p rsvd : Bool) (i : Nat) :
    (errorCode nxe acc p rsvd).getLsbD i
      = if i = 0 then p
        else if i = 1 then acc.kind == .write
        else if i = 2 then acc.user
        else if i = 3 then rsvd
        else if i = 4 then acc.kind == .fetch && nxe
        else false := by
  rw [errorCode_eq, BitVec.getLsbD_ofNat]
  generalize (acc.kind == .write) = write
  generalize (acc.kind == .fetch && nxe) = fetch
  match i with
  | 0 | 1 | 2 | 3 | 4 => simp [Nat.testBit_bit_succ]
  | i + 5 => simp [Nat.testBit_bit_succ]

/-- Settles O29: the error code by `errorCode_bit`, the vectors by the kind of exception. -/
theorem errorCodeBits : Obligations.ErrorCodeBits := by
  refine ⟨errorCode_bit, fun e => ?_⟩
  cases e <;> rfl

end Sys2Proof.Machine
end

section
/-! SUPPORT. Walks in progress (O58): `LP.WalkInv` survives every primitive change of a logical processor. -/

namespace Sys2Proof.Machine

/-- Walks may go, and the operation in progress may end or wait for its next page. -/
theorem LP.WalkInv.removes {lp lp' : LP} (h : lp.WalkInv) (h0 : lp'.cr0 = lp.cr0) (hw : lp'.walks.Sublist lp.walks)
    (hr : lp.Rests lp') : lp'.WalkInv := by
  have hpg : lp'.pg = lp.pg := congrArg (bit · 31) h0
  refine ⟨fun w hm => h.spec w (hw.mem hm), fun a p w ha hp => ?_, fun hoff => ?_, fun hoff a p w ha hp => ?_, fun hl => ?_⟩
  · rcases hr.access with e | e
    · exact h.soft a p w (e ▸ ha) hp
    · exact absurd ((e a ha).symm.trans hp) nofun
  · exact List.sublist_nil.mp (h.offSpec (hpg ▸ hoff) ▸ hw)
  · rcases hr.access with e | e
    · exact h.offSoft (hpg ▸ hoff) a p w (e ▸ ha) hp
    · exact absurd ((e a ha).symm.trans hp) nofun
  · rcases hr.load with e | ⟨e, e'⟩
    · exact absurd e hl
    · exact e'.trans (h.load (e ▸ hl))

/-- The access goes on; a walk it is in is its own, and paging is on. -/
theorem LP.WalkInv.setAccess {lp : LP} (h : lp.WalkInv) (hl : lp.loading = none) {a : Access}
    (ha : ∀ p w, a.phase = .walking p w → w.acc = a.acc ∧ lp.pg = true) : LP.WalkInv { lp with access := some a } where
  spec := h.spec
  soft _ p w e hp := by cases e; exact (ha p w hp).1
  offSpec := h.offSpec
  offSoft hoff _ p w e hp := by cases e; exact absurd ((ha p w hp).2.symm.trans hoff) nofun
  load hne := absurd hl hne

/-- The speculative walks become others that are speculative and do not write, with paging on. -/
theorem LP.WalkInv.setWalks {lp : LP} (h : lp.WalkInv) (hpg : lp.pg = true) {ws : List Walk}
    (hw : ∀ w ∈ ws, w ∈ lp.walks ∨ (w.acc.spec = true ∧ w.acc.kind ≠ .write)) : LP.WalkInv { lp with walks := ws } where
  spec w hm := (hw w hm).elim (h.spec w) id
  soft := h.soft
  offSpec hoff := absurd (hpg.symm.trans hoff) nofun
  offSoft := h.offSoft
  load := h.load

/-- A speculative walk is in progress with paging on only (R132, R150). -/
theorem LP.WalkInv.pg_of_walk {lp : LP} (h : lp.WalkInv) {w : Walk} (hw : w ∈ lp.walks) : lp.pg = true := by
  by_contra hoff
  rw [h.offSpec (Bool.not_eq_true _ ▸ hoff)] at hw
  cases hw

/-- With no operation in progress and no speculative walk the invariant holds in every mode. -/
theorem LP.walkInv_of_idle {lp : LP} (hw : lp.walks = []) (ha : lp.access = none) : lp.WalkInv :=
  ⟨by simp [hw], by simp [ha], fun _ => hw, by simp [ha], fun _ => ha⟩

/-- A MOV to a control register without an access in progress drops the walks (R233). -/
theorem ControlWrite.apply_walkInv (cfg : Config) (c : Choice) (t : Pdptrs) {lp : LP} (w : ControlWrite)
    (ha : lp.access = none) : (w.apply cfg c t lp).WalkInv := by
  refine LP.walkInv_of_idle ?_ ?_ <;> rw [ControlWrite.apply_eq]
  exact ha

/-- The walks in progress survive every primitive change of a logical processor: where paging may be switched off, the walks are
dropped and no access is in progress. -/
theorem walkInv_kept : Kept fun _ lp => lp.WalkInv where
  removes h h0 _ _ _ hw hr := h.removes h0 hw hr
  walkStep h := h.removes (by simp) (by simp) (.same (by simp) (by simp))
  translated h hl hp := h.setAccess hl fun _ _ hw => absurd (hp.symm.trans hw) nofun
  walking h hl hpg hacc _ hp := h.setAccess hl fun _ _ hw => by cases hp.symm.trans hw; exact ⟨hacc, hpg⟩
  walkingMore {_ lp _ _ a _ _} h hl ha hp hacc _ hacc' hp' := by
    have hpg : lp.pg = true := by
      by_contra hoff
      exact h.offSoft (Bool.not_eq_true _ ▸ hoff) a _ _ ha hp
    refine h.setAccess hl fun _ _ hw => ?_
    cases hp'.symm.trans hw
    exact ⟨(hacc.trans (h.soft a _ _ ha hp)).trans hacc'.symm, hpg⟩
  specStart h hpg hs hk _ := h.setWalks hpg fun w hw => by
    rcases List.mem_append.mp hw with hw | hw
    · exact .inl hw
    · cases List.mem_singleton.mp hw; exact .inr ⟨hs, hk⟩
  specMore h hw hacc _ := by
    have hmem := List.mem_of_getElem? hw
    refine h.setWalks (h.pg_of_walk hmem) fun x hx => ?_
    rcases List.mem_or_eq_of_mem_set hx with hx | rfl
    · exact .inl hx
    · exact .inr (hacc ▸ h.spec _ hmem)
  specAgain h hw hacc hpg _ := h.setWalks hpg fun x hx => by
    rcases List.mem_append.mp hx with hx | hx
    · exact .inl (List.mem_of_mem_eraseIdx hx)
    · cases List.mem_singleton.mp hx; exact .inr (hacc ▸ h.spec _ (List.mem_of_getElem? hw))
  load h ha _ _ := { h with load := fun _ => ha }
  loadMore h hl _ _ := { h with load := fun _ => h.load (by simp [hl]) }
  loadEnd {_ _ _ _ l} h hl := l.write.apply_walkInv _ _ _ (h.load (by simp [hl]))
  write _ ha _ _ := ControlWrite.apply_walkInv _ _ _ _ ha
  wrmsr _ ha _ _ := LP.walkInv_of_idle rfl (by simp [wrmsrEfer, ha])

/-- Settles O58: by `walkInv_kept` for the acting logical processor, the others being untouched or exchanged with it. -/
theorem stepKeepsWalkInvariant : Obligations.StepKeepsWalkInvariant := fun _ _ h hs => walkInv_kept.step h hs

end Sys2Proof.Machine
end

section
/-! SUPPORT. Where a translation is refused (O8), the access rights (O26), where it stops with a page fault (O23, O24, O27), and
paging off (O22). -/

namespace Sys2Proof.Machine

/-! ## Non-canonical addresses -/

/-- A translation is refused at a non-canonical address, and else it goes on to a next state (R131). -/
theorem beginPage_refused_iff {s : State} {a : Access} {p : Piece} {rest : List Piece} :
    s.beginPage a p rest = .refused (.nonCanonical p.la) ↔ s.lp.refuses p.la = true := by
  unfold State.beginPage
  split
  · exact iff_of_true rfl ‹_›
  · refine iff_of_false ?_ ‹_›
    split <;> exact nofun

/-- INVLPG at CPL 0 is refused at a non-canonical address, and else it completes (R131, R220). -/
theorem execInvlpg_refused_iff {m : MemOperand} {s : State} (h : s.lp.cpl = 0) :
    let la := s.lp.effectiveAddress (Instr.invlpg m).length m
    exec (.invlpg m) s = .refused (.nonCanonical la) ↔ s.lp.refuses la = true := by
  simp only [exec, execInvlpg, privileged_zero h]
  split
  · exact iff_of_true rfl ‹_›
  · exact iff_of_false nofun ‹_›

/-- Settles O8: INVLPG and the beginning of a translation are refused exactly where `LP.refuses` says. -/
theorem nonCanonicalRefused : Obligations.NonCanonicalRefused := by
  refine ⟨fun m s h => (execInvlpg_refused_iff h).trans (refuses_iff _ _), fun s a p rest h => ?_⟩
  rw [step_choosing h]
  exact beginPage_refused_iff.trans (refuses_iff _ _)

/-! ## Access rights -/

/-- Settles O26, clause by clause. -/
theorem permitIsTheAccessRightCheck : Obligations.PermitIsTheAccessRightCheck := by
  intro lp acc r
  simp only [permit, LP.wp, Bool.and_eq_true, Bool.or_eq_true, Bool.not_eq_true', bne_iff_ne, and_assoc, or_assoc]

/-! ## Page faults in a walk -/

/-- A walk step of an access that meets a faulting condition takes the page fault, at the first byte of the access in the page
(R147, R352). -/
theorem step_walking_fault {s : State} {a : Access} {p : Piece} {w : Walk} {pf rsvd : Bool} {b : Nat} (h : s.Walking a p w)
    (hw : walkStep s.cfg s.choice s.lp s.mem w = ⟨s.mem, s.lp, .fault pf rsvd b⟩) :
    ∃ t, step s = .next t ∧ s.PageFaults t a (a.firstByte b w.la) w.acc pf rsvd :=
  ⟨_, (step_walking h).trans (congrArg _ (walkPage_fault hw)), accessFault_pageFaults _⟩

/-- Settles O23: both walks meet the not-present entry. -/
theorem notPresentEntryStopsTranslation : Obligations.NotPresentEntryStopsTranslation :=
  ⟨fun _ _ _ _ h hp => step_walking_fault h (walkStep_notPresent hp),
    fun _ _ _ _ hi hl hw hp => specWalk_fault hi hl hw (walkStep_notPresent hp)⟩

/-- Settles O24: both walks meet the entry with the reserved bit. -/
theorem reservedBitStopsTranslation : Obligations.ReservedBitStopsTranslation :=
  ⟨fun _ _ _ _ h hp hr => step_walking_fault h (walkStep_reserved hp hr),
    fun _ _ _ _ hi hl hw hp hr => specWalk_fault hi hl hw (walkStep_reserved hp hr)⟩

/-- A leaf entry that the access may not use (R140, R147). -/
theorem walkStep_denied {cfg : Config} {c : Choice} {lp : LP} {mem : Memory} {w : Walk}
    (hp : bit (w.entry cfg mem) 0 = true) (hr : reserved cfg lp.nxe lp.pse w.mode w.level (w.entry cfg mem) = false)
    (hl : isLeaf lp.pse w.mode w.level (w.entry cfg mem) = true)
    (hd : permit lp w.acc (w.rights.andEntry lp.nxe w.mode (w.entry cfg mem)) = false) :
    walkStep cfg c lp mem w = ⟨mem, lp, .fault true false (w.pageBits lp.pse (w.entry cfg mem))⟩ := by
  simp [walkStep_leaf hp hr hl, leafStep, hd]

/-- A TLB entry that the access may not use faults the translation, for a page of the entry's size (R175). -/
theorem translate_denied {cfg : Config} {c : Choice} {lp : LP} {la : Word} {acc : Acc} {e : TlbEntry} (hpg : lp.pg = true)
    (hp : pick .root (alternatives lp lp.pagingMode la acc.kind) c.alternative = .tlb e)
    (hd : permit lp acc e.rights = false) : translate cfg c lp la acc = .fault true false (e.pageBits false) := by
  have hu : useTlb lp e la acc = .denied := by simp [useTlb, hd]
  rw [translate_tlb hpg hp, hu]

/-- The page that a denied TLB entry shows: a large one for a large-page entry only (entry 15). -/
theorem TlbEntry.pageBits_false (e : TlbEntry) :
    e.pageBits false = if e.size = .ordinary then 12 else if e.mode = .mode32 then 22 else 21 := by
  cases h : e.size <;> simp [TlbEntry.pageBits, largeBits, h]

/-- Settles O27: at the leaf entry of a walk, and at the TLB entry a translation begins with. -/
theorem deniedAccessFaults : Obligations.DeniedAccessFaults := by
  refine ⟨fun _ _ _ _ h hp hr hl hd => step_walking_fault h (walkStep_denied hp hr hl hd),
    fun s a p rest e h hpg hcanon hpick hd => ⟨_, ?_, accessFault_pageFaults s.choice⟩⟩
  rw [step_choosing h, ← e.pageBits_false]
  exact beginPage_fault hcanon (translate_denied hpg hpick hd)

/-! ## Paging off -/

/-- With paging off no address is refused. -/
theorem LP.refuses_off {lp : LP} (h : lp.pg = false) (la : Word) : lp.refuses la = false := by
  simp [LP.refuses, LP.inIA32e, LP.mode_off h]

/-- What no step does with paging off: no entry is cached, CR2 keeps its value and no page fault is reported anew (R132). -/
structure LP.Untranslated (lp lp' : LP) : Prop where
  removes : lp.OnlyRemoves lp'
  cr2 : lp'.cr2 = lp.cr2
  exc : ∀ la ec, lp'.exc = some (.pageFault la ec) → lp.exc = some (.pageFault la ec)

/-- Neither the caches nor CR2 nor the report changes. -/
theorem LP.Untranslated.of_eq {lp lp' : LP} (ht : lp'.tlb = lp.tlb) (hm : lp'.pml4c = lp.pml4c) (hp : lp'.pdpc = lp.pdpc)
    (hd : lp'.pdec = lp.pdec) (h2 : lp'.cr2 = lp.cr2) (he : lp'.exc = lp.exc) : lp.Untranslated lp' :=
  ⟨⟨by rw [ht], by rw [hm], by rw [hp], by rw [hd]⟩, h2, fun _ _ h => he ▸ h⟩

/-- A MOV to a control register, an instruction or a read of a PDPTR load: cached entries may go, and GP(0) may be reported. -/
theorem LP.Untranslated.of_removes {lp lp' : LP}
    (h : lp.OnlyRemoves lp' ∧ lp'.cr2 = lp.cr2 ∧ (lp'.exc = lp.exc ∨ lp'.exc = some (.generalProtection 0))) :
    lp.Untranslated lp' := by
  obtain ⟨hr, h2, he⟩ := h
  refine ⟨hr, h2, fun la ec h => ?_⟩
  rcases he with he | he <;> rw [he] at h
  · exact h
  · cases h

theorem nextPiece_untranslated (a : Access) (s : State) : s.lp.Untranslated (s.nextPiece a).lp := by
  obtain ⟨acc, res, e⟩ := nextPiece_eq a s
  rw [e]
  exact .of_eq rfl rfl rfl rfl rfl rfl

/-- With paging off no move of the software translates: a translation is complete at once, and no walk is in progress. -/
theorem State.Moves.untranslated {s t : State} (hm : s.Moves t) (hpg : s.lp.pg = false) (hi : s.lp.WalkInv) :
    s.lp.Untranslated t.lp := by
  have off {a p} : translate s.cfg (s.choiceFor a p) s.lp p.la a.acc = .found (p.la.setWidth 32).toNat 12 :=
    translate_off _ _ _ _ _ hpg
  rcases hm with ⟨l, -, rfl⟩ | ⟨-, hm⟩
  · exact .of_removes (loadPdpte_removes l s)
  cases hm with
  | idle => exact .of_eq rfl rfl rfl rfl rfl rfl
  | finish => exact .of_eq rfl rfl rfl rfl rfl rfl
  | found => apply LP.Untranslated.of_eq <;> simp
  | walk _ _ _ _ ht => exact absurd (off.symm.trans ht) nofun
  | fault _ ht => exact absurd (off.symm.trans ht) nofun
  | walkStep ha hp => exact absurd hp (hi.offSoft hpg _ _ _ ha)
  | @perform a p pa =>
    unfold State.performPiece
    split
    · exact nextPiece_untranslated _ { s with mem := s.mem.writeBytes pa ((a.bytes.drop p.off).take p.len) }
    · exact nextPiece_untranslated _ (s.noteReads (addrsFrom pa p.len))
  | fetchMore => exact .of_eq rfl rfl rfl rfl rfl rfl
  | execute _ _ he =>
    obtain ⟨hr, hrest⟩ := exec_removes he
    exact .of_removes ⟨⟨hr.tlb, hr.pml4c, hr.pdpc, hr.pdec⟩, hrest⟩

/-- With paging off there is no speculative walk to advance. -/
theorem walkNth_off {s : State} (hpg : s.lp.pg = false) (hi : s.lp.WalkInv) (n : Nat) : s.walkNth n = s := by
  simp [State.walkNth, hi.offSpec hpg]

/-- With paging off no speculative access begins (R150). -/
theorem specAccess_off {s : State} (hpg : s.lp.pg = false) (f : Bool) (la : Word) : s.specAccess f la = s := by
  simp [State.specAccess, hpg]

/-- With paging off no input but `schedule` translates. -/
theorem handle_untranslated {s t : State} {i : Input} (hpg : s.lp.pg = false) (hi : s.lp.WalkInv)
    (hn : ∀ n, i ≠ .schedule n) (h : s.handle i = .next t) : s.lp.Untranslated t.lp := by
  have same : s.lp.Untranslated s.lp := .of_eq rfl rfl rfl rfl rfl rfl
  have issued : ∀ k la bs, s.lp.Untranslated (if s.lp.halted then s else s.issue k la bs).lp := fun k la bs => by
    split
    · exact same
    · exact .of_eq rfl rfl rfl rfl rfl rfl
  cases i with
  | software => cases h; exact same
  | load => cases h; exact issued _ _ _
  | store => cases h; exact issued _ _ _
  | fetch => cases h; exact issued _ _ _
  | specAccess => cases h; rw [specAccess_off hpg]; exact same
  | walkStep => cases h; rw [walkNth_off hpg hi]; exact same
  | evict =>
    cases h
    exact .of_removes ⟨⟨thin_sublist _ _, thin_sublist _ _, thin_sublist _ _, thin_sublist _ _⟩, rfl, .inl rfl⟩
  | physStore =>
    simp only [State.handle, State.physStore] at h
    split at h <;> cases h
    exact same
  | schedule n => exact absurd rfl (hn n)
  | wake => cases h; exact .of_eq rfl rfl rfl rfl rfl rfl
  | resume => cases h; exact ⟨⟨.refl _, .refl _, .refl _, .refl _⟩, rfl, nofun⟩
  | setReg => cases h; exact .of_eq rfl rfl rfl rfl rfl rfl

/-- A step of a walk, with paging off: there is none, or it waits for the PDPTR load in progress, which reads memory only. -/
theorem step_walkStep_off {s t : State} {n : Nat} {rest : List Input} (hin : s.inputs = .walkStep n :: rest)
    (hpg : s.lp.pg = false) (hi : s.lp.WalkInv) (hs : step s = .next t) : t.mem = s.mem := by
  cases hl : s.lp.loading with
  | none =>
    rw [step_input hin nofun (delays_idle hl (.inl rfl))] at hs
    cases hs
    rw [walkNth_off (s := { s with inputs := rest }) hpg hi]
  | some l =>
    have hd : s.lp.delays (.walkStep n) = true := by simp [LP.delays, Input.waitsForLoad, hl]
    rw [step_loading ⟨.inr ⟨_, _, hin, .inr hd⟩, hl⟩] at hs
    cases hs
    obtain ⟨-, hmem, -⟩ := loadPdpte_outside l s.begun
    exact hmem

/-- Settles O22: a translation is complete where it begins, and no step translates otherwise. -/
theorem pagingOff : Obligations.PagingOff := by
  refine ⟨fun s a p rest h hpg => ?_, fun s t hpg hi hsch hs => ?_⟩
  · rw [step_choosing h]
    simp [State.beginPage, LP.refuses_off (lp := s.begun.lp) hpg, translate_off (lp := s.begun.lp) (h := hpg)]
  · suffices h : s.lp.Untranslated t.lp from
      ⟨h.removes, h.cr2, h.exc, fun n rest hin => step_walkStep_off hin hpg hi hs⟩
    rcases step_cases hs with ⟨i, rest, hin, -, -, hh⟩ | ⟨-, -, -, hm⟩ | ⟨rest, -, -, hm⟩
    · exact handle_untranslated (s := { s with inputs := rest }) hpg hi (fun n hn => hsch ⟨n, rest, hn ▸ hin⟩) hh
    · exact hm.untranslated hpg hi
    · exact hm.untranslated (s := { s with inputs := rest }) hpg hi

end Sys2Proof.Machine
end

section
/-! SUPPORT. What a step of a walk does by the entry it meets, and with it the walk of a software access: an upper entry (O30),
a leaf entry (O31), a leaf entry behind a skipped accessed bit (O32). -/

namespace Sys2Proof.Machine

/-! ## The entry a walk meets -/

/-- The entry the walk reads next is present, breaks no reserved bit and is no leaf: the walk goes on below it (R136). -/
structure Walk.MeetsUpper (cfg : Config) (lp : LP) (mem : Memory) (w : Walk) : Prop where
  present : bit (w.entry cfg mem) 0 = true
  sound : reserved cfg lp.nxe lp.pse w.mode w.level (w.entry cfg mem) = false
  upper : isLeaf lp.pse w.mode w.level (w.entry cfg mem) = false

/-- The entry the walk reads next is a leaf, present and without a reserved bit, that the access may use (R136, R140). -/
structure Walk.MeetsLeaf (cfg : Config) (lp : LP) (mem : Memory) (w : Walk) : Prop where
  present : bit (w.entry cfg mem) 0 = true
  sound : reserved cfg lp.nxe lp.pse w.mode w.level (w.entry cfg mem) = false
  leaf : isLeaf lp.pse w.mode w.level (w.entry cfg mem) = true
  allowed : permit lp w.acc (w.rights.andEntry lp.nxe w.mode (w.entry cfg mem)) = true

section
variable {cfg : Config} {c : Choice} {lp : LP} {mem : Memory} {w : Walk}

/-- At an upper entry the walk goes on one level below. -/
theorem Walk.MeetsUpper.result (h : w.MeetsUpper cfg lp mem) :
    (walkStep cfg c lp mem w).result
      = .more (w.down cfg lp.nxe (bit (w.entry cfg mem) 5 || c.setAccessed) (w.entry cfg mem)) := by
  rw [walkStep_upper h.present h.sound h.upper]
  simp only [upperStep, Walk.down, Rights.andEntry, accessed, Bool.and_assoc]

/-- At an upper entry the accessed bit is set, or skipped where the choice is R136 (ii) and it is 0. -/
theorem Walk.MeetsUpper.entry (h : w.MeetsUpper cfg lp mem) :
    w.entry cfg (walkStep cfg c lp mem w).mem
      = if bit (w.entry cfg mem) 5 || c.setAccessed then w.entry cfg mem ||| 0x20 else w.entry cfg mem := by
  have hm : (walkStep cfg c lp mem w).mem
      = if bit (w.entry cfg mem) 5 || c.setAccessed then mem.setBits (w.entryAddr cfg) (entryBytes w.mode) accessedMask
        else mem := by
    rw [walkStep_upper h.present h.sound h.upper]; rfl
  rw [hm]
  split
  · exact Memory.readEntry_setAccessed _ _ _
  · rfl

/-- At an upper entry no TLB entry comes or goes. -/
theorem Walk.MeetsUpper.tlb (h : w.MeetsUpper cfg lp mem) : (walkStep cfg c lp mem w).lp.tlb = lp.tlb := by
  rw [walkStep_upper h.present h.sound h.upper]
  simp only [upperStep]
  split
  · rw [LP.cachePsc_eq]
  · rfl

/-- A walk that skipped no accessed bit ends at the leaf entry; only a speculative write would stop before it (R136, R150). -/
theorem Walk.MeetsLeaf.walkStep_found (h : w.MeetsLeaf cfg lp mem) (ha : w.allA = true)
    (hw : w.acc.kind = .write → w.acc.spec = false) :
    walkStep cfg c lp mem w
      = ⟨mem.setBits (w.entryAddr cfg) (entryBytes w.mode) (leafMask w.acc.kind),
          lp.cacheLeaf cfg c w (w.entry cfg mem) (w.rights.andEntry lp.nxe w.mode (w.entry cfg mem)),
          .found (leafAddress cfg w (w.entry cfg mem)) (w.pageBits lp.pse (w.entry cfg mem))⟩ := by
  have hs : (w.acc.kind == .write && w.acc.spec) = false := by
    by_cases hk : w.acc.kind = .write <;> simp [hk, hw]
  simp [walkStep_leaf h.present h.sound h.leaf, leafStep, h.allowed, ha, hs]

/-- A walk that skipped an accessed bit starts again at the leaf entry, with nothing written (R144). -/
theorem Walk.MeetsLeaf.walkStep_restart (h : w.MeetsLeaf cfg lp mem) (ha : w.allA = false) :
    walkStep cfg c lp mem w = ⟨mem, lp, .restart⟩ := by
  simp [walkStep_leaf h.present h.sound h.leaf, leafStep, h.allowed, ha]

end

/-! ## The walk of a software access -/

/-- Only the supply of free choices changes where memory and the logical processor are as before. -/
theorem State.tick_unchanged (s : State) : ({ s.tick with mem := s.mem, lp := s.lp } : State) = s.tick := by
  unfold State.tick
  split <;> rfl

section
variable {s : State} {a : Access} {p : Piece} {w : Walk}

theorem walkPage_more {w' : Walk} (h : (walkStep s.cfg s.choice s.lp s.mem w).result = .more w') :
    s.walkPage a p w = State.setAccess { a with phase := .walking p w' }
      { s.tick with
        mem := (walkStep s.cfg s.choice s.lp s.mem w).mem, lp := (walkStep s.cfg s.choice s.lp s.mem w).lp } := by
  simp only [State.walkPage, h]

theorem walkPage_found {pa b : Nat} (h : (walkStep s.cfg s.choice s.lp s.mem w).result = .found pa b) :
    s.walkPage a p w = State.setAccess (a.found p pa b)
      { s.tick with
        mem := (walkStep s.cfg s.choice s.lp s.mem w).mem, lp := (walkStep s.cfg s.choice s.lp s.mem w).lp } := by
  simp only [State.walkPage, h]

theorem walkPage_restart (h : walkStep s.cfg s.choice s.lp s.mem w = ⟨s.mem, s.lp, .restart⟩) :
    s.walkPage a p w = s.tick.setAccess { a with todo := p :: a.todo, phase := .choosing } := by
  simp only [State.walkPage, h, State.tick_unchanged]

end

/-- Settles O30: the walk one level below is `Walk.down`, and the rest is the frame of a walk step. -/
theorem upperEntryStep : Obligations.UpperEntryStep := by
  intro s a p w h hp hr hu e marked
  have hm : w.MeetsUpper s.cfg s.lp s.mem := ⟨hp, hr, hu⟩
  have hlp := walkStep_lp s.cfg s.choice s.lp s.mem w
  have hadds := walkStep_adds s.cfg s.choice s.lp s.mem w
  refine ⟨_, (step_walking h).trans (congrArg _ (walkPage_more (s := s.begun) hm.result)), rfl, hm.entry,
    walkStep_read_other s.cfg s.choice s.lp s.mem w, ?_, ⟨hadds.tlb, hadds.pml4c, hadds.pdpc, hadds.pdec⟩, ?_⟩
  · rw [hm.tlb] at hlp
    exact congrArg
      (fun lp : LP => { lp with access := some { a with phase := .walking p (w.down s.cfg s.lp.nxe marked e) } }) hlp
  · exact s.begun.tick_others

/-- Settles O31: the walk is complete, and the step writes the leaf entry only. -/
theorem leafEntryStep : Obligations.LeafEntryStep := by
  intro s a p w h hp hr hl hd ha hs
  have hw : walkStep s.begun.cfg s.begun.choice s.begun.lp s.begun.mem w = _ :=
    Walk.MeetsLeaf.walkStep_found ⟨hp, hr, hl, hd⟩ ha fun _ => hs
  have hadds := walkStep_adds s.begun.cfg s.begun.choice s.begun.lp s.begun.mem w
  have hother := walkStep_read_other s.begun.cfg s.begun.choice s.begun.lp s.begun.mem w
  refine ⟨_, (step_walking h).trans (congrArg _ (walkPage_found (by rw [hw]))), ?_⟩
  rw [hw] at hadds hother ⊢
  refine ⟨?_, ⟨hadds.tlb, hadds.pml4c, hadds.pdpc, hadds.pdec⟩, Memory.readEntry_setLeaf _ _ _ _, hother,
    s.begun.tick_others⟩
  exact congrArg
    (fun lp : LP => { lp with
      access := some
        (a.found p (leafAddress s.cfg w (w.entry s.cfg s.mem)) (w.pageBits s.lp.pse (w.entry s.cfg s.mem))) })
    (LP.cacheLeaf_eq _ _ _ _ _ _)

/-- Settles O32: nothing is written, and the part is to be translated again. -/
theorem skippedAccessedBitRestarts : Obligations.SkippedAccessedBitRestarts := by
  intro s a p w h hp hr hl hd ha
  exact (step_walking h).trans
    (congrArg _ (walkPage_restart (s := s.begun) (Walk.MeetsLeaf.walkStep_restart ⟨hp, hr, hl, hd⟩ ha)))

end Sys2Proof.Machine
end

section
/-! SUPPORT. What a translation can begin with, and the walk that each start gives (O37). -/

namespace Sys2Proof.Machine

/-! ## The alternatives -/

/-- A TLB entry is used for the addresses of its page, in its mode, and for the accesses that its TLB serves (R174, R265). -/
theorem TlbEntry.matches_iff {m : PagingMode} {la : Word} {k : AccessKind} {e : TlbEntry} :
    e.matches m la k = true ↔ e.mode = m
      ∧ (if e.size = .ordinary then e.key = pageNumber m la else e.key = largePageNumber m la)
      ∧ (if k = .fetch then e.serves ≠ .data else e.serves ≠ .fetch) := by
  have hserves : Serves.allows e.serves k = true ↔ if k = .fetch then e.serves ≠ .data else e.serves ≠ .fetch := by
    cases k <;> cases e.serves <;> decide
  rw [← hserves]
  cases h : e.size <;> simp [TlbEntry.matches, h, and_assoc]

/-- A paging-structure-cache entry is used for the addresses of its key, in its mode (R134). -/
theorem PscEntry.matches_iff {m : PagingMode} {l : Level} {la : Word} {x : PscEntry} :
    x.matches m l la = true ↔ x.mode = m ∧ x.key = pscKey m l la := by simp [PscEntry.matches]

/-- The entries of a cache that are used for an address, as alternatives of a translation. -/
theorem mem_map_filter {α : Type} {l : List α} {u : α → Bool} {f : α → Alternative} {alt : Alternative} :
    alt ∈ (l.filter u).map f ↔ ∃ x ∈ l, alt = f x ∧ u x = true := by
  simp only [List.mem_map, List.mem_filter]
  exact exists_congr fun x => by rw [eq_comm (a := alt), and_assoc, and_comm (b := f x = alt)]

/-- What a translation can begin with: the root, and the entries of the four caches that are used for the address (R133). -/
theorem mem_alternatives {lp : LP} {m : PagingMode} {la : Word} {k : AccessKind} {alt : Alternative} :
    alt ∈ alternatives lp m la k
      ↔ alt = .root ∨ (∃ e ∈ lp.tlb, alt = .tlb e ∧ e.matches m la k = true)
        ∨ (∃ x ∈ lp.pdec, alt = .cache .pte x ∧ x.matches m .pde la = true)
        ∨ (∃ x ∈ lp.pdpc, alt = .cache .pde x ∧ x.matches m .pdpe la = true)
        ∨ (∃ x ∈ lp.pml4c, alt = .cache .pdpe x ∧ x.matches m .pml4e la = true) := by
  simp only [alternatives, walkAlternatives, List.mem_append, mem_map_filter, List.mem_singleton]
  rw [← or_assoc, or_comm, or_assoc]

/-- The alternative that the free choice picks is one of them. -/
theorem pick_alternatives_mem (lp : LP) (m : PagingMode) (la : Word) (k : AccessKind) (n : Nat) :
    pick .root (alternatives lp m la k) n ∈ alternatives lp m la k :=
  pick_mem _ _ _ (by simp [alternatives, walkAlternatives])

/-- A paging-structure-cache entry that a translation begins with is of its mode. -/
theorem mode_of_picked_cache {lp : LP} {m : PagingMode} {la : Word} {k : AccessKind} {n : Nat} {l : Level} {x : PscEntry}
    (h : pick .root (alternatives lp m la k) n = .cache l x) : x.mode = m := by
  have hmem := pick_alternatives_mem lp m la k n
  rw [h, alternatives, List.mem_append] at hmem
  obtain hmem | hmem := hmem
  · simp at hmem
  · exact (mem_walkAlternatives_cache hmem).1

/-! ## The walk of a start -/

/-- A translation from the root has no structure to begin with where its PDPTR register has P = 0 (R293). -/
theorem startFromRoot_absent {cfg : Config} {lp : LP} {la : Word} {acc : Acc} (h : lp.PdptrAbsent la) :
    startFromRoot cfg lp lp.pagingMode la acc = .fault false false 12 := by
  obtain ⟨hm, hp⟩ := h
  have hf : field la 31 30 = la.toNat / 2 ^ 30 % 4 := field_eq _ _ _
  simp only [hm, startFromRoot, present, hf, hp, Bool.false_eq_true, if_false]

/-- A translation from the root begins with the walk `LP.rootWalk` (R135, R293, R307). -/
theorem startFromRoot_present {cfg : Config} {lp : LP} {la : Word} {acc : Acc} (h : ¬ lp.PdptrAbsent la) :
    startFromRoot cfg lp lp.pagingMode la acc = .walk (lp.rootWalk cfg la acc) := by
  unfold LP.rootWalk
  cases hm : lp.pagingMode with
  | modeIA32e => simp [startFromRoot, rootBase, nextBase_eq, Rights.all]
  | mode32 => simp [startFromRoot, rootBase, nextBase_eq, Rights.all]
  | modePAE =>
    have hp : bit (lp.pdptr.get (la.toNat / 2 ^ 30 % 4)) 0 = true := by
      by_contra hp
      exact h ⟨hm, Bool.not_eq_true _ ▸ hp⟩
    have hf : field la 31 30 = la.toNat / 2 ^ 30 % 4 := field_eq _ _ _
    simp only [startFromRoot, present, hf, hp, if_true, pdptrBase, nextBase_eq, Rights.all]
    rfl

section
variable {cfg : Config} {c : Choice} {lp : LP} {la : Word} {acc : Acc}

/-- A translation that begins at the root. -/
theorem translate_root (hpg : lp.pg = true)
    (hp : pick .root (alternatives lp lp.pagingMode la acc.kind) c.alternative = .root) :
    translate cfg c lp la acc = startFromRoot cfg lp lp.pagingMode la acc := by
  simp only [translate, LP.mode, hpg, if_true, hp, startWalk]

/-- A translation that begins with a paging-structure-cache entry walks one level below it, in the structure and with the rights
it holds (R134). -/
theorem translate_cache {l : Level} {x : PscEntry} (hpg : lp.pg = true)
    (hp : pick .root (alternatives lp lp.pagingMode la acc.kind) c.alternative = .cache l x) :
    translate cfg c lp la acc
      = .walk { lp.rootWalk cfg la acc with level := l, base := x.addr, rights := x.rights } := by
  simp only [translate, LP.mode, hpg, if_true, hp, startWalk, mode_of_picked_cache hp, LP.rootWalk]

end

/-- A translation that begins to walk. -/
theorem beginPage_walk {s : State} {a : Access} {p : Piece} {rest : List Piece} {w : Walk} (hr : s.lp.refuses p.la = false)
    (ht : translate s.cfg (s.choiceFor a p) s.lp p.la a.acc = .walk w) :
    s.beginPage a p rest = .next (s.tick.setAccess { a with todo := rest, phase := .walking p w }) := by
  simp only [State.beginPage, hr, ht, Bool.false_eq_true, if_false]

/-! ## The keys -/

theorem pageNumber_eq (m : PagingMode) (la : Word) :
    pageNumber m la = if m = .modeIA32e then la.toNat / 2 ^ 12 % 2 ^ 36 else la.toNat / 2 ^ 12 % 2 ^ 20 := by
  rw [pageNumber, field_eq, field_eq]

theorem largePageNumber_eq (m : PagingMode) (la : Word) :
    largePageNumber m la = match m with
      | .modeIA32e => la.toNat / 2 ^ 21 % 2 ^ 27
      | .modePAE => la.toNat / 2 ^ 21 % 2 ^ 11
      | .mode32 => la.toNat / 2 ^ 22 % 2 ^ 10 := by
  cases m <;> exact field_eq _ _ _

theorem largeOfKey_eq (m : PagingMode) (key : Nat) :
    largeOfKey m key = key / (if m = .mode32 then 2 ^ 10 else 2 ^ 9) := by
  rw [largeOfKey, Nat.shiftRight_eq_div_pow, largeBits]
  split <;> rfl

/-- Settles O37: by what the alternatives are, the walk each of them gives, and the fields of a linear address. -/
theorem startingPointsOfATranslation : Obligations.StartingPointsOfATranslation := by
  refine ⟨fun lp m la k alt => ⟨?_, exists_pick _ _ _⟩, fun s a p rest h hpg hcanon => ⟨fun hroot hpresent => ?_, ?_⟩,
    fun m la key => ⟨pageNumber_eq m la, largePageNumber_eq m la, largeOfKey_eq m key⟩⟩
  · simp only [mem_alternatives, TlbEntry.matches_iff, PscEntry.matches_iff, pscKey]
  · exact (step_choosing h).trans
      (beginPage_walk hcanon ((translate_root hpg hroot).trans (startFromRoot_present hpresent)))
  · exact fun l x hx => (step_choosing h).trans (beginPage_walk hcanon (translate_cache hpg hx))

end Sys2Proof.Machine
end

section
/-! SUPPORT. Speculative accesses (R150): how a speculative translation begins (O41), and what a step of its walk does (O42). -/

namespace Sys2Proof.Machine

/-! ## The beginning of a speculative translation -/

@[simp] theorem State.specDone_lp (c : Choice) (pa : Nat) (s : State) : (s.specDone c pa).lp = s.lp := by
  unfold State.specDone; split <;> rfl

@[simp] theorem State.specDone_mem (c : Choice) (pa : Nat) (s : State) : (s.specDone c pa).mem = s.mem := by
  unfold State.specDone; split <;> rfl

@[simp] theorem State.specDone_others (c : Choice) (pa : Nat) (s : State) : (s.specDone c pa).others = s.others := by
  unfold State.specDone; split <;> rfl

/-- The read that may follow a speculative translation shows where reads have side effects (R67; entry 24). -/
theorem State.specDone_sideEffects (c : Choice) (pa : Nat) (s : State) :
    (s.specDone c pa).sideEffects
      = if c.specRead = true ∧ s.cfg.hasReadSideEffect pa = true then pa :: s.sideEffects else s.sideEffects := by
  unfold State.specDone
  by_cases h1 : c.specRead = true
  · by_cases h2 : s.cfg.hasReadSideEffect pa = true <;> simp [h1, h2, State.noteReads]
  · simp [h1]

section
variable {s : State} {la : Word} {acc : Acc}

theorem specStart_found {pa b : Nat} (h : translate s.cfg s.choice s.lp la acc = .found pa b) :
    s.specStart la acc = s.tick.specDone s.choice pa := by simp only [State.specStart, h]

theorem specStart_fault {pf rsvd : Bool} {b : Nat} (h : translate s.cfg s.choice s.lp la acc = .fault pf rsvd b) :
    s.specStart la acc = s.tick := by simp only [State.specStart, h]

theorem specStart_walk {w : Walk} (h : translate s.cfg s.choice s.lp la acc = .walk w) :
    s.specStart la acc = { s.tick with lp := { s.lp with walks := s.lp.walks ++ [w] } } := by
  simp only [State.specStart, h]

/-- A speculative translation leaves the walks as they are, or begins one more, its own. -/
theorem specStart_walks (s : State) (la : Word) (acc : Acc) :
    (s.specStart la acc).lp.walks = s.lp.walks
      ∨ ∃ w, (s.specStart la acc).lp.walks = s.lp.walks ++ [w] ∧ w.la = la ∧ w.acc = acc := by
  cases ht : translate s.cfg s.choice s.lp la acc with
  | found => left; simp [specStart_found ht]
  | fault => left; simp [specStart_fault ht]
  | walk w =>
    obtain ⟨hla, hacc, -⟩ := translate_walk ht
    exact .inr ⟨w, by rw [specStart_walk ht], hla, hacc⟩

end

/-- A TLB entry completes a translation that is no write exactly where it has the rights (R175). -/
theorem translate_tlb_read {cfg : Config} {c : Choice} {lp : LP} {la : Word} {acc : Acc} {e : TlbEntry} (hpg : lp.pg = true)
    (hk : acc.kind ≠ .write) (hp : pick .root (alternatives lp lp.pagingMode la acc.kind) c.alternative = .tlb e) :
    translate cfg c lp la acc
      = if permit lp acc e.rights then .found (e.address la) (e.pageBits c.wholePage)
        else .fault true false (e.pageBits false) := by
  rw [translate_tlb hpg hp]
  cases hd : permit lp acc e.rights <;> simp [useTlb, hd, hk]

/-- A speculative translation begins as `State.SpecBegins` says, whatever has become of memory, the walks and the free choices
(R150): by the alternative that the free choice picks. -/
theorem specStart_begins {s s' : State} {walks : List Walk} {la : Word} {acc : Acc} (hcfg : s'.cfg = s.cfg)
    (hlp : s'.lp = { s.lp with walks := walks }) (hreads : s'.sideEffects = s.sideEffects) (hpg : s.lp.pg = true)
    (hk : acc.kind ≠ .write) : s.SpecBegins (s'.specStart la acc) s'.choice walks la acc := by
  have ht : translate s'.cfg s'.choice s'.lp la acc = translate s.cfg s'.choice s.lp la acc := by rw [hcfg, hlp]; rfl
  have hwalks : s'.lp.walks = walks := by rw [hlp]
  have begins : ∀ {w}, translate s'.cfg s'.choice s'.lp la acc = .walk w →
      (s'.specStart la acc).lp.walks = walks ++ [w] ∧ (s'.specStart la acc).sideEffects = s.sideEffects := fun h => by
    rw [specStart_walk h]
    exact ⟨congrArg (· ++ _) hwalks, s'.tick_sideEffects.trans hreads⟩
  have ends : ∀ {pf rsvd b}, translate s'.cfg s'.choice s'.lp la acc = .fault pf rsvd b →
      (s'.specStart la acc).lp.walks = walks ∧ (s'.specStart la acc).sideEffects = s.sideEffects := fun h => by
    rw [specStart_fault h]
    exact ⟨by rw [s'.tick_lp, hwalks], s'.tick_sideEffects.trans hreads⟩
  refine ⟨fun e he => ?_, fun l x hx => begins (ht.trans (translate_cache hpg hx)), fun hroot => ?_⟩
  · have ht := ht.trans (translate_tlb_read hpg hk he)
    by_cases hd : permit s.lp acc e.rights = true
    · rw [if_pos hd] at ht
      rw [specStart_found ht, State.specDone_lp, State.specDone_sideEffects, s'.tick_lp, s'.tick_cfg, s'.tick_sideEffects,
        hcfg, hreads]
      exact ⟨hwalks, by simp only [hd, true_and]⟩
    · rw [if_neg hd] at ht
      rw [if_neg fun h => hd h.1]
      exact ends ht
  · have ht := ht.trans (translate_root hpg hroot)
    by_cases hp : s.lp.PdptrAbsent la
    · obtain ⟨h1, h2⟩ := ends (ht.trans (startFromRoot_absent hp))
      exact ⟨fun hn => absurd hp hn, fun _ => h1, h2⟩
    · obtain ⟨h1, h2⟩ := begins (ht.trans (startFromRoot_present hp))
      exact ⟨fun _ => h1, fun hn => absurd hn hp, h2⟩

/-- A speculative access is available with paging on, for an address that is not refused (R131, R150; entry 25). -/
theorem specAccess_available {s : State} (hpg : s.lp.pg = true) {la : Word} (hr : s.lp.refuses la = false) (fetch : Bool) :
    s.specAccess fetch la = s.specStart (s.lp.linear la)
      { kind := if fetch then .fetch else .read, user := s.lp.user, spec := true } := by
  simp [State.specAccess, hpg, hr]

/-- Else it does nothing. -/
theorem specAccess_unavailable {s : State} {la : Word} (h : s.lp.pg = false ∨ s.lp.refuses la = true) (fetch : Bool) :
    s.specAccess fetch la = s := by
  rcases h with h | h <;> simp [State.specAccess, h]

/-- Settles O41: a speculative access that is not available does nothing, and else its translation begins. -/
theorem speculativeAccessNeverFaults : Obligations.SpeculativeAccessNeverFaults := by
  intro s fetch la rest hin hl
  refine ⟨_, step_input hin nofun (delays_idle hl (.inl rfl)), ?_⟩
  by_cases h : s.lp.pg = false ∨ s.lp.refuses la = true
  · rw [specAccess_unavailable (s := { s with inputs := rest }) h]
    refine ⟨rfl, rfl, rfl, .inl rfl, fun hpg hr => ?_, fun _ => ⟨rfl, rfl⟩⟩
    rcases h with h | h
    · exact absurd (hpg.symm.trans h) nofun
    · exact absurd (hr.symm.trans h) nofun
  · obtain ⟨hpg, hr⟩ : s.lp.pg = true ∧ s.lp.refuses la = false := by simpa using h
    rw [specAccess_available (s := { s with inputs := rest }) hpg hr]
    obtain ⟨-, hothers, hmem, -⟩ := specStart_outside { s with inputs := rest } (s.lp.linear la)
      { kind := if fetch then .fetch else .read, user := s.lp.user, spec := true }
    obtain ⟨ws, hlp⟩ := specStart_registers { s with inputs := rest } (s.lp.linear la)
      { kind := if fetch then .fetch else .read, user := s.lp.user, spec := true }
    refine ⟨hmem, hothers, ?_, specStart_walks _ _ _, fun _ _ => ?_, fun h' => absurd h' h⟩
    · exact hlp.trans (by rw [hlp])
    · exact specStart_begins (s' := { s with inputs := rest }) rfl rfl rfl hpg (by cases fetch <;> simp)

/-! ## A step of a speculative walk -/

/-- The step is the advance of the walk. -/
theorem step_specWalk {s : State} {n : Nat} {w : Walk} {rest : List Input} (hin : s.inputs = .walkStep n :: rest)
    (hl : s.lp.loading = none) (hw : s.lp.walks[n]? = some w) : step s = .next (s.begun.specWalk n w) := by
  have hd : s.lp.delays (.walkStep n) = false := delays_idle hl (.inl rfl)
  have hw' : s.begun.lp.walks[n]? = some w := hw
  rw [step_input hin nofun hd, ← begun_input hin hd]
  simp only [State.handle, State.walkNth, hw']

/-- A step of a speculative walk leaves memory and the logical processor as the walk step does, but for the walks. -/
theorem specWalk_frame (n : Nat) (w : Walk) (s : State) :
    (s.specWalk n w).mem = (walkStep s.cfg s.choice s.lp s.mem w).mem ∧ (s.specWalk n w).others = s.others
      ∧ ∃ ws, (s.specWalk n w).lp = { (walkStep s.cfg s.choice s.lp s.mem w).lp with walks := ws } := by
  unfold State.specWalk
  simp only
  split
  case h_1 => exact ⟨rfl, s.tick_others, _, rfl⟩
  case h_2 => exact ⟨State.specDone_mem _ _ _, (State.specDone_others _ _ _).trans s.tick_others, _, State.specDone_lp _ _ _⟩
  case h_5 =>
    generalize hs' : ({ s.tick with
      mem := (walkStep s.cfg s.choice s.lp s.mem w).mem
      lp := { (walkStep s.cfg s.choice s.lp s.mem w).lp with
        walks := (walkStep s.cfg s.choice s.lp s.mem w).lp.walks.eraseIdx n } } : State) = s'
    obtain ⟨-, hothers, hmem, -⟩ := specStart_outside s' w.la w.acc
    obtain ⟨ws, hlp⟩ := specStart_registers s' w.la w.acc
    rw [hothers, hmem, hlp, ← hs']
    exact ⟨rfl, s.tick_others, ws, rfl⟩
  all_goals exact ⟨rfl, s.tick_others, _, rfl⟩

section
variable {s : State} {n : Nat} {w : Walk}

/-- A speculative walk that goes on does so in its place. -/
theorem specWalk_more {w' : Walk} (h : (walkStep s.cfg s.choice s.lp s.mem w).result = .more w') :
    (s.specWalk n w).lp.walks = s.lp.walks.set n w' ∧ (s.specWalk n w).sideEffects = s.sideEffects := by
  simp only [State.specWalk, h]
  exact ⟨by rw [walkStep_walks], s.tick_sideEffects⟩

/-- A speculative walk that is complete ends, and it may read at the address it gives. -/
theorem specWalk_found {pa b : Nat} (h : (walkStep s.cfg s.choice s.lp s.mem w).result = .found pa b) :
    (s.specWalk n w).lp.walks = s.lp.walks.eraseIdx n
      ∧ (s.specWalk n w).sideEffects
        = if s.choice.specRead = true ∧ s.cfg.hasReadSideEffect pa = true then pa :: s.sideEffects else s.sideEffects := by
  simp only [State.specWalk, h]
  exact ⟨by simp, by simp [State.specDone_sideEffects]⟩

/-- A speculative walk that meets a faulting condition ends without effect (R150). -/
theorem specWalk_ends {pf rsvd : Bool} {b : Nat} (h : walkStep s.cfg s.choice s.lp s.mem w = ⟨s.mem, s.lp, .fault pf rsvd b⟩) :
    (s.specWalk n w).lp.walks = s.lp.walks.eraseIdx n ∧ (s.specWalk n w).mem = s.mem
      ∧ (s.specWalk n w).sideEffects = s.sideEffects := by
  simp [State.specWalk, h]

/-- A speculative walk that skipped an accessed bit ends with nothing written, and its translation begins again (R144). -/
theorem specWalk_restart (hpg : s.lp.pg = true) (hk : w.acc.kind ≠ .write)
    (h : walkStep s.cfg s.choice s.lp s.mem w = ⟨s.mem, s.lp, .restart⟩) :
    (s.begun.specWalk n w).mem = s.mem
      ∧ s.SpecBegins (s.begun.specWalk n w) s.begun.tick.choice (s.lp.walks.eraseIdx n) w.la w.acc := by
  have h : walkStep s.begun.cfg s.begun.choice s.begun.lp s.begun.mem w = ⟨s.mem, s.lp, .restart⟩ := h
  obtain ⟨hmem, -⟩ := specWalk_frame n w s.begun
  refine ⟨hmem.trans (by rw [h]), ?_⟩
  simp only [State.specWalk, h]
  exact specStart_begins (s' := { s.begun.tick with mem := s.mem, lp := { s.lp with walks := s.lp.walks.eraseIdx n } })
    s.begun.tick_cfg rfl s.begun.tick_sideEffects hpg hk

end

/-- The faulting conditions of a walk step: an entry that is not present or breaks a reserved bit, or a leaf entry that the
access may not use (R137, R138, R140). -/
theorem walkStep_faults {cfg : Config} {c : Choice} {lp : LP} {mem : Memory} {w : Walk}
    (h : ¬ (bit (w.entry cfg mem) 0 = true ∧ reserved cfg lp.nxe lp.pse w.mode w.level (w.entry cfg mem) = false)
      ∨ (isLeaf lp.pse w.mode w.level (w.entry cfg mem) = true
        ∧ ¬ permit lp w.acc (w.rights.andEntry lp.nxe w.mode (w.entry cfg mem)) = true)) :
    ∃ pf rsvd b, walkStep cfg c lp mem w = ⟨mem, lp, .fault pf rsvd b⟩ := by
  cases hp : bit (w.entry cfg mem) 0 with
  | false => exact ⟨_, _, _, walkStep_notPresent hp⟩
  | true =>
    cases hr : reserved cfg lp.nxe lp.pse w.mode w.level (w.entry cfg mem) with
    | true => exact ⟨_, _, _, walkStep_reserved hp hr⟩
    | false =>
      obtain ⟨hleaf, hdenied⟩ := h.resolve_left (not_not_intro ⟨hp, hr⟩)
      exact ⟨_, _, _, walkStep_denied hp hr hleaf (Bool.not_eq_true _ ▸ hdenied)⟩

/-- A walk step that is no write sets at most the accessed bit of the entry it reads (R136, R150). -/
theorem walkStep_entry {cfg : Config} {c : Choice} {lp : LP} {mem : Memory} {w : Walk} (hk : w.acc.kind ≠ .write) :
    w.entry cfg (walkStep cfg c lp mem w).mem = w.entry cfg mem
      ∨ w.entry cfg (walkStep cfg c lp mem w).mem = w.entry cfg mem ||| 0x20 := by
  rcases walkStep_cases cfg c lp mem w with ⟨-, h⟩ | ⟨-, -, h⟩ | ⟨hp, hr, hl, h⟩ | ⟨hp, hr, hu, -⟩
  · exact .inl (by rw [h])
  · exact .inl (by rw [h])
  · rcases leafStep_cases cfg c lp mem w (w.entryAddr cfg) (w.entry cfg mem)
      (w.rights.andEntry lp.nxe w.mode (w.entry cfg mem)) with ⟨-, h'⟩ | ⟨-, -, h'⟩ | ⟨-, -, -, -, h'⟩ | ⟨-, -, -, h'⟩
    · exact .inl (by rw [h.trans h'])
    · exact .inl (by rw [h.trans h'])
    · exact .inl (by rw [h.trans h'])
    · refine .inr ?_
      rw [h.trans h']
      exact (Memory.readEntry_setLeaf _ _ _ _).trans (by rw [if_neg hk]; rfl)
  · rw [Walk.MeetsUpper.entry ⟨hp, hr, hu⟩]
    split
    · exact .inr rfl
    · exact .inl rfl

/-- Settles O42: the frame is that of the walk step, and the fate of the walk is said by the entry it meets. -/
theorem speculativeWalkSetsAccessedBitsOnly : Obligations.SpeculativeWalkSetsAccessedBitsOnly := by
  intro s n w rest hin hl hi hw
  have hmem := List.mem_of_getElem? hw
  obtain ⟨-, hk⟩ := hi.spec w hmem
  have hpg := hi.pg_of_walk hmem
  obtain ⟨hm, hothers, ws, hlp⟩ := specWalk_frame n w s.begun
  have hadds := walkStep_adds s.begun.cfg s.begun.choice s.begun.lp s.begun.mem w
  refine ⟨_, step_specWalk hin hl hw, ?_, ?_, hothers, ?_, fun x hx => ?_, fun hfault => ?_, fun hsound hupper => ?_,
    fun hsound hleaf hallowed hall => ?_, fun hsound hleaf hallowed hall => ?_⟩
  · rw [hlp, walkStep_lp]; rfl
  · rw [hlp]; exact ⟨hadds.tlb, hadds.pml4c, hadds.pdpc, hadds.pdec⟩
  · rw [hm]; exact walkStep_entry hk
  · rw [hm]; exact walkStep_read_other _ _ _ _ _ x hx
  · obtain ⟨pf, rsvd, b, h⟩ := walkStep_faults hfault
    exact specWalk_ends (s := s.begun) h
  · obtain ⟨hp, hr⟩ := hsound
    have hmeets : w.MeetsUpper s.begun.cfg s.begun.lp s.begun.mem := ⟨hp, hr, Bool.not_eq_true _ ▸ hupper⟩
    obtain ⟨hwalks, hreads⟩ := specWalk_more (n := n) (s := s.begun) hmeets.result
    exact ⟨hwalks, hm ▸ hmeets.entry, hreads⟩
  · obtain ⟨hp, hr⟩ := hsound
    have hfound := Walk.MeetsLeaf.walkStep_found (c := s.begun.choice) ⟨hp, hr, hleaf, hallowed⟩ hall fun h => absurd h hk
    obtain ⟨hwalks, hreads⟩ := specWalk_found (n := n) (s := s.begun) (congrArg WalkOut.result hfound)
    refine ⟨hwalks, ?_, hreads⟩
    rw [hm, show walkStep s.begun.cfg s.begun.choice s.begun.lp s.begun.mem w = _ from hfound]
    exact (Memory.readEntry_setLeaf _ _ _ _).trans (by rw [if_neg hk]; rfl)
  · obtain ⟨hp, hr⟩ := hsound
    exact specWalk_restart hpg hk (Walk.MeetsLeaf.walkStep_restart ⟨hp, hr, hleaf, hallowed⟩ hall)

end Sys2Proof.Machine
end

section
/-! SUPPORT. The fetch of the instruction at `rip` (O4): the bytes that are decoded, how a fetch begins with paging on, and how
it goes on behind a page. -/

namespace Sys2Proof.Machine

/-- The software goes on with the access in progress. -/
theorem step_access {s : State} {a : Access} (hn : s.SoftwareNext) (hl : s.lp.loading = none) (ha : s.lp.access = some a) :
    step s = (s.begun.advanceAccess a).run := by
  rw [step_software hn, software_current (s := s.begun) hl (.inl ha)]

/-- The bytes of a fetch that are translated decide how it goes on (R77, R330). -/
theorem step_fetched {s : State} {a : Access} {p : Piece} {pa : Nat} (hn : s.SoftwareNext) (hl : s.lp.loading = none)
    (ha : s.lp.access = some a) (hi : a.instruction = true) (hp : a.phase = .translated p pa) :
    step s = (s.begun.fetchedPiece a p pa).run := by
  rw [step_access hn hl ha]
  simp only [State.advanceAccess, hp, hi, if_true]

/-- The fetched bytes decode: the instruction is executed, the reads of its bytes recorded (R67). -/
theorem fetchedPiece_ok {s : State} {a : Access} {p : Piece} {pa : Nat} {i : Instr} {rest : List Byte}
    (h : decode (a.bytes ++ s.mem.readBytes pa p.len) = .ok (i, rest)) :
    s.fetchedPiece a p pa = .execute i
      (({ s with lp := { s.lp with access := none } } : State).noteReads (addrsFrom pa (p.len - rest.length))) := by
  simp only [State.fetchedPiece, h]

/-- The fetched bytes are only the beginning of an instruction: the fetch goes on behind them (entry 28). -/
theorem fetchedPiece_truncated {s : State} {a : Access} {p : Piece} {pa : Nat} {bs : List Byte}
    (hbs : bs = a.bytes ++ s.mem.readBytes pa p.len) (h : decode bs = .error .truncated) (hlen : bs.length < maxLength) :
    s.fetchedPiece a p pa = .done (.next
      (State.setAccess { a with bytes := bs, todo := [s.lp.fetchPiece bs.length], phase := .choosing }
        (s.noteReads (addrsFrom pa p.len)))) := by
  subst hbs
  simp only [State.fetchedPiece, h, if_pos hlen]

/-- The bytes of an instruction are those the decoder takes from the front (O2). -/
theorem decode_taken {bs rest : List Byte} {i : Instr} (h : decode bs = .ok (i, rest)) :
    i.wf = true ∧ bs.length - rest.length = i.length := by
  obtain ⟨hwf, -, hlen, -⟩ := decodedInstructionWellFormed bs i rest h
  exact ⟨hwf, by omega⟩

/-- With paging off the bytes at the linear addresses are decoded in one step with the execution (R132). -/
theorem fetchUntranslated_ok {s : State} {i : Instr} {rest : List Byte}
    (h : decode (s.lp.fetchAddrs.map s.mem.read) = .ok (i, rest)) :
    s.fetchUntranslated = .execute i (s.noteReads (s.lp.fetchAddrs.take i.length)) := by
  obtain ⟨-, hlen⟩ := decode_taken h
  have hmax : (s.lp.fetchAddrs.map s.mem.read).length = maxLength := by simp [LP.fetchAddrs]
  rw [hmax] at hlen
  simp only [State.fetchUntranslated, h, hlen]

/-- With paging off and no operation in progress the software fetches without translation. -/
theorem software_untranslated {s : State} (hl : s.lp.loading = none) (ha : s.lp.access = none) (hh : s.lp.halted = false)
    (he : s.lp.exc = none) (hpg : s.lp.pg = false) : s.software = s.fetchUntranslated := by
  simp [State.software, hl, ha, hh, he, hpg]

/-- A fetch that begins has one part, with which it goes on. -/
theorem advanceAccess_fetch (s : State) :
    s.advanceAccess s.lp.fetchAccess = .done (s.beginPage s.lp.fetchAccess (s.lp.fetchPiece 0) []) := by
  have hmem : pick (s.lp.fetchPiece 0) (s.ready s.lp.fetchAccess) s.choice.page ∈ [s.lp.fetchPiece 0] :=
    s.mem_of_ready (a := s.lp.fetchAccess) List.mem_cons_self _
  have hphase : s.lp.fetchAccess.phase = .choosing := rfl
  have htodo : s.lp.fetchAccess.todo = [s.lp.fetchPiece 0] := rfl
  simp only [State.advanceAccess, hphase, htodo, List.mem_singleton.mp hmem, List.erase_cons_head]

/-- Settles O4: the fetch with paging off, the end of a translated fetch, its beginning, and its going on in the next page. -/
theorem stepRunsDecodedInstruction : Obligations.StepRunsDecodedInstruction := by
  refine ⟨fun s i rest hn hl ha hh he hpg hd => ?_, fun s a p pa i rest hn hl ha hi hp hd => ?_,
    fun s hn hl ha hh he hpg => ?_, fun s a p pa hn hl ha hi hp => ?_⟩
  · obtain ⟨hwf, -⟩ := decode_taken hd
    refine ⟨hwf, ?_⟩
    rw [step_software hn, software_untranslated (s := s.begun) hl ha hh he hpg, fetchUntranslated_ok (s := s.begun) hd]
    rfl
  · obtain ⟨hwf, -⟩ := decode_taken hd
    refine ⟨hwf, ?_⟩
    rw [step_fetched hn hl ha hi hp, fetchedPiece_ok (s := s.begun) hd]
    rfl
  · have huser : s.lp.fetchAccess.user = true ↔ s.lp.cpl = 3 := beq_iff_eq
    have hla : (s.lp.fetchPiece 0).la = s.lp.linear s.lp.rip := by simp [LP.fetchPiece]
    refine ⟨s.lp.fetchAccess, s.lp.fetchPiece 0, ?_, rfl, huser, rfl, rfl, rfl, rfl, hla, rfl, rfl⟩
    rw [step_software hn, software_current (s := s.begun) hl (.inr ⟨ha, hh, he, hpg, rfl⟩), advanceAccess_fetch]
    rfl
  · intro bs la hd hlen
    rw [step_fetched hn hl ha hi hp, fetchedPiece_truncated (s := s.begun) rfl hd hlen]
    rfl

end Sys2Proof.Machine
end

section
/-! SUPPORT. TLB entries: which of them the last step of a walk creates (O34), and what a translation does that begins with one:
it is complete (O38), or it walks again for a write to a clean page (O39). -/

namespace Sys2Proof.Machine

/-! ## What the entries of a leaf hold -/

/-- The large page of an ordinary key, or frame, that is put together from a large page's and a piece of it (R267). -/
theorem largeOfKey_cat (m : PagingMode) (hi lo : Nat) :
    largeOfKey m (cat hi (largeBits m - 12) (lo % 2 ^ (largeBits m - 12))) = hi := by
  rw [largeOfKey, cat, Nat.shiftRight_eq_div_pow, Nat.mul_comm hi, Nat.mul_add_div (Nat.two_pow_pos _),
    Nat.div_eq_of_lt (Nat.mod_lt _ (Nat.two_pow_pos _)), Nat.add_zero]

/-- A walk ends at a PTE or at a PDE (R136, R261). -/
theorem level_of_isLeaf {pse : Bool} {m : PagingMode} {l : Level} {e : Word} (h : isLeaf pse m l e = true) :
    l = .pte ∨ l = .pde := by
  simp only [isLeaf, Bool.or_eq_true, beq_iff_eq, isLargePde_iff] at h
  exact h.imp_right And.left

/-- Where the entry of the page that a leaf entry maps is found in the TLB, and the frame it holds (R172, R264). -/
theorem leafEntry_page (cfg : Config) (lp : LP) {w : Walk} {e : Word} (r : Rights) (sv : Serves)
    (h : isLeaf lp.pse w.mode w.level e = true) :
    let x := leafEntry cfg lp w e r sv
    (w.level = .pte ∧ x.size = .ordinary ∧ x.key = pageNumber w.mode w.la ∧ x.frame = frameField cfg w.mode e)
      ∨ (w.level = .pde ∧ x.size = .large ∧ x.key = largePageNumber w.mode w.la ∧ x.frame = largeFrame cfg w.mode e) := by
  rcases level_of_isLeaf h with hl | hl <;> simp [leafEntry, hl]

/-- A piece of a large page has its number in the low bits of its key and of its frame (R267). -/
theorem fractureEntry_piece (cfg : Config) (lp : LP) (w : Walk) (e : Word) (r : Rights) (piece : Nat) (sv : Serves) :
    let x := fractureEntry cfg lp w e r piece sv
    largeOfKey w.mode x.key = largePageNumber w.mode w.la ∧ largeOfKey w.mode x.frame = largeFrame cfg w.mode e
      ∧ x.key % 2 ^ (largeBits w.mode - 12) = x.frame % 2 ^ (largeBits w.mode - 12) :=
  ⟨largeOfKey_cat _ _ _, largeOfKey_cat _ _ _, (cat_mod _ _ _).trans (cat_mod _ _ _).symm⟩

/-- The entry of a piece of a large page, which its number names (R267). -/
theorem fractureEntry_of_lt (cfg : Config) (lp : LP) {w : Walk} (e : Word) (r : Rights) {piece : Nat} (sv : Serves)
    (h : piece < 2 ^ (largeBits w.mode - 12)) :
    fractureEntry cfg lp w e r piece sv =
      { mode := w.mode, size := .ordinary, key := largePageNumber w.mode w.la * 2 ^ (largeBits w.mode - 12) + piece
        frame := largeFrame cfg w.mode e * 2 ^ (largeBits w.mode - 12) + piece, rights := r
        dirty := bit e 6 || w.acc.kind == .write, global := lp.pge && bit e 8, fromLarge := true, serves := sv } := by
  simp only [fractureEntry, cat, Nat.mod_eq_of_lt h, dirtyBit, globalBit]

/-! ## The TLB after a walk step -/

section
variable {cfg : Config} {c : Choice} {lp : LP} {mem : Memory} {w : Walk} {x : TlbEntry}

/-- A speculative write stops before the leaf entry is written, and nothing is cached (R150). -/
theorem Walk.MeetsLeaf.walkStep_aborted (h : w.MeetsLeaf cfg lp mem) (ha : w.allA = true) (hk : w.acc.kind = .write)
    (hs : w.acc.spec = true) : walkStep cfg c lp mem w = ⟨mem, lp, .aborted⟩ := by
  simp [walkStep_leaf h.present h.sound h.leaf, leafStep, h.allowed, ha, hk, hs]

/-- A TLB entry is created only by the last step of a walk, at a leaf entry that the access may use (R172). -/
theorem meetsLeaf_of_tlb_added (hx : x ∈ (walkStep cfg c lp mem w).lp.tlb) (hn : x ∉ lp.tlb) :
    w.MeetsLeaf cfg lp mem ∧ w.allA = true ∧ (w.acc.kind = .write → w.acc.spec = false) := by
  obtain ⟨hp, hr, hl, hd, ha, -⟩ := (mem_walkStep_tlb hx).resolve_left hn
  have hm : w.MeetsLeaf cfg lp mem := ⟨hp, hr, hl, hd⟩
  refine ⟨hm, ha, fun hk => ?_⟩
  by_contra hs
  rw [hm.walkStep_aborted ha hk (Bool.not_eq_false _ ▸ hs)] at hx
  exact hn hx

/-- The TLB after the last step of a walk (R172, R264, R267). -/
theorem Walk.MeetsLeaf.mem_tlb (h : w.MeetsLeaf cfg lp mem) (ha : w.allA = true)
    (hw : w.acc.kind = .write → w.acc.spec = false) :
    let e := w.entry cfg mem
    let r := w.rights.andEntry lp.nxe w.mode e
    x ∈ (walkStep cfg c lp mem w).lp.tlb
      ↔ x ∈ lp.tlb ∨ (∃ sv ∈ c.cacheTlb, sv ∈ cfg.tlbs ∧ x = leafEntry cfg lp w e r sv)
        ∨ (cfg.fractureLarge = true ∧ w.level = .pde
            ∧ ∃ q ∈ c.fractures, q.2 ∈ cfg.tlbs ∧ x = fractureEntry cfg lp w e r q.1 q.2) := by
  rw [h.walkStep_found ha hw]
  exact LP.mem_cacheLeaf

/-- The dirty bit of the leaf entry as the last step of a walk leaves it: set by a write (R136, R145). -/
theorem Walk.MeetsLeaf.dirty (h : w.MeetsLeaf cfg lp mem) (ha : w.allA = true)
    (hw : w.acc.kind = .write → w.acc.spec = false) :
    bit (w.entry cfg (walkStep cfg c lp mem w).mem) 6 = (bit (w.entry cfg mem) 6 || w.acc.kind == .write) := by
  have he : w.entry cfg (walkStep cfg c lp mem w).mem
      = w.entry cfg mem ||| (if w.acc.kind = .write then 0x60 else 0x20) := by
    rw [h.walkStep_found ha hw]
    exact Memory.readEntry_setLeaf _ _ _ _
  rw [he, bit, BitVec.getLsbD_or]
  cases w.acc.kind <;> rfl

end

/-- Settles O34: a step that adds an entry is the last of a walk at a leaf entry, where the entry is one of those that the choice
makes from it; and the choice can name any of them. -/
theorem tlbEntryCreation : Obligations.TlbEntryCreation := by
  refine ⟨fun cfg c lp mem w x hx hn => ?_, fun cfg c lp mem w => (walkStep_adds cfg c lp mem w).tlb, ?_⟩
  · obtain ⟨hm, ha, hw⟩ := meetsLeaf_of_tlb_added hx hn
    refine ⟨hm.present, hm.sound, hm.leaf, hm.allowed, ha, hw, by rw [hm.walkStep_found ha hw], ?_⟩
    rw [hm.dirty ha hw]
    rcases ((hm.mem_tlb ha hw).mp hx).resolve_left hn with ⟨sv, -, hsv, rfl⟩ | ⟨hf, hpde, q, -, hsv, rfl⟩
    · refine ⟨rfl, rfl, hsv, rfl, rfl, ?_⟩
      rcases leafEntry_page cfg lp _ sv hm.leaf with ⟨hpte, hsize, hplace⟩ | ⟨hpde, hsize, hplace⟩
      · exact .inl ⟨hpte, hsize, rfl, hplace⟩
      · exact .inr (.inl ⟨hpde, hsize, rfl, hplace⟩)
    · exact ⟨rfl, rfl, hsv, rfl, rfl, .inr (.inr ⟨hpde, hf, rfl, rfl, fractureEntry_piece cfg lp w _ _ q.1 q.2⟩)⟩
  · intro cfg lp mem w page pieces e r n hp hr hl hd ha hw hpage hpieces
    have hm : w.MeetsLeaf cfg lp mem := ⟨hp, hr, hl, hd⟩
    refine ⟨{ (default : Choice) with cacheTlb := page, fractures := pieces }, fun x => ?_⟩
    refine (hm.mem_tlb ha hw).trans (or_congr_right (or_congr ?_ ?_))
    · exact exists_congr fun sv => and_congr_right fun hsv => and_iff_right (hpage sv hsv)
    · constructor
      · rintro ⟨-, -, q, hq, -, rfl⟩
        obtain ⟨hlt, -⟩ := hpieces q hq
        exact ⟨q, hq, fractureEntry_of_lt cfg lp e r q.2 hlt⟩
      · rintro ⟨q, hq, rfl⟩
        obtain ⟨hlt, hsv, hf, hpde⟩ := hpieces q hq
        exact ⟨hf, hpde, q, hq, hsv, (fractureEntry_of_lt cfg lp e r q.2 hlt).symm⟩

/-! ## A translation that begins with a TLB entry -/

section
variable {e : TlbEntry} (la : Word)

/-- The address an ordinary TLB entry gives is its frame and the offset in a 4-KByte page (R175). -/
theorem TlbEntry.address_ordinary (h : e.size = .ordinary) : e.address la = e.frame * 4096 + la.toNat % 4096 := by
  simp [TlbEntry.address, h, pageAddr, cat, field_eq]

/-- The address a large-page TLB entry gives is its frame and the offset in the large page (R265). -/
theorem TlbEntry.address_large (h : e.size = .large) :
    e.address la = e.frame * 2 ^ largeBits e.mode + la.toNat % 2 ^ largeBits e.mode := by
  have hb : largeBits e.mode - 1 + 1 - 0 = largeBits e.mode := by unfold largeBits; split <;> rfl
  simp only [TlbEntry.address, h, largeAddr, cat, field_eq, hb, pow_zero, Nat.div_one]

end

/-- The page a TLB entry translates: a large one for a large-page entry, and for a derived entry that translates it whole (R29,
R267; entry 15). -/
theorem TlbEntry.pageBits_eq (whole : Bool) (e : TlbEntry) :
    e.pageBits whole
      = if e.size = .large ∨ (e.fromLarge = true ∧ whole = true) then if e.mode = .mode32 then 22 else 21 else 12 := by
  simp only [TlbEntry.pageBits, largeBits, Bool.or_eq_true, Bool.and_eq_true, decide_eq_true_eq]

/-- A derived entry translates the large page whole for the first byte of the access in it, where memory maps that page or, by the
free choice, no page (R65, R267, R403; entry 15). -/
theorem choiceFor_wholePage {s : State} {a : Access} {p : Piece} :
    (s.choiceFor a p).wholePage = true ↔ a.firstByte (largeBits s.lp.pagingMode) p.la = p.la
      ∧ (s.lp.maps s.cfg s.mem p.la = some .large
        ∨ (s.lp.maps s.cfg s.mem p.la = none ∧ s.choice.wholePage = true)) := by
  simp only [State.choiceFor, Bool.and_eq_true, beq_iff_eq]
  rw [and_comm]
  refine and_congr_right fun _ => ?_
  rcases s.lp.maps s.cfg s.mem p.la with _ | _ | _ <;> simp

/-- A translation is complete at a TLB entry that has the rights and, for a write, is dirty (R175). -/
theorem translate_dirty {cfg : Config} {c : Choice} {lp : LP} {la : Word} {acc : Acc} {e : TlbEntry} (hpg : lp.pg = true)
    (hp : pick .root (alternatives lp lp.pagingMode la acc.kind) c.alternative = .tlb e) (hd : permit lp acc e.rights = true)
    (hw : acc.kind = .write → e.dirty = true) :
    translate cfg c lp la acc = .found (e.address la) (e.pageBits c.wholePage) := by
  have hu : useTlb lp e la acc = .found (e.address la) := by
    by_cases hk : acc.kind = .write <;> simp [useTlb, hd, hk, hw]
  rw [translate_tlb hpg hp, hu]

/-- A translation that is complete at once. -/
theorem beginPage_found {s : State} {a : Access} {p : Piece} {rest : List Piece} {pa b : Nat} (hr : s.lp.refuses p.la = false)
    (ht : translate s.cfg (s.choiceFor a p) s.lp p.la a.acc = .found pa b) :
    s.beginPage a p rest = .next (s.tick.setAccess (Access.found { a with todo := rest } p pa b)) := by
  simp only [State.beginPage, hr, ht, Bool.false_eq_true, if_false]

/-- Settles O38: the translation is complete, with the address and the page of the entry. -/
theorem tlbEntryTranslates : Obligations.TlbEntryTranslates := by
  intro s a p rest e h hpg hcanon hpick hd hw
  have hfound := (step_choosing h).trans
    (beginPage_found (s := s.begun) hcanon (translate_dirty (c := s.choiceFor a p) hpg hpick hd hw))
  have hbits : e.pageBits (s.choiceFor a p).wholePage
      = if e.size = .large ∨ (e.fromLarge = true ∧ a.firstByte (largeBits s.lp.pagingMode) p.la = p.la
            ∧ (s.lp.maps s.cfg s.mem p.la = some .large
              ∨ (s.lp.maps s.cfg s.mem p.la = none ∧ s.choice.wholePage = true))) then
          if e.mode = .mode32 then 22 else 21
        else 12 := by
    simp only [e.pageBits_eq, choiceFor_wholePage]
  rw [hbits] at hfound
  cases hs : e.size with
  | ordinary => rw [TlbEntry.address_ordinary _ hs, hs] at hfound; exact hfound
  | large => rw [TlbEntry.address_large _ hs, hs] at hfound; exact hfound

/-! ## A write to a clean page -/

/-- What a walk can begin with: the root, and the entries of the paging-structure caches that are used for the address (R134,
R135). -/
theorem mem_walkAlternatives {lp : LP} {m : PagingMode} {la : Word} {alt : Alternative} :
    alt ∈ walkAlternatives lp m la
      ↔ alt = .root ∨ (∃ x ∈ lp.pdec, alt = .cache .pte x ∧ x.matches m .pde la = true)
        ∨ (∃ x ∈ lp.pdpc, alt = .cache .pde x ∧ x.matches m .pdpe la = true)
        ∨ (∃ x ∈ lp.pml4c, alt = .cache .pdpe x ∧ x.matches m .pml4e la = true) := by
  simp only [walkAlternatives, List.mem_append, mem_map_filter, List.mem_singleton]
  rw [or_comm, or_assoc]

/-- A walk from a paging-structure-cache entry that is used for the address starts one level below it, in the structure and with
the rights it holds (R134). -/
theorem startWalk_cache {cfg : Config} {lp : LP} {la : Word} {acc : Acc} {l : Level} {x : PscEntry}
    (h : .cache l x ∈ walkAlternatives lp lp.pagingMode la) :
    startWalk cfg lp lp.pagingMode la acc (.cache l x)
      = .walk { lp.rootWalk cfg la acc with level := l, base := x.addr, rights := x.rights } := by
  obtain ⟨hmode, -⟩ := mem_walkAlternatives_cache h
  simp only [startWalk, hmode, LP.rootWalk]

/-- A write at a TLB entry that has the rights but is clean begins to walk, with the start that the free choice picks (R177). -/
theorem translate_clean {cfg : Config} {c : Choice} {lp : LP} {la : Word} {acc : Acc} {e : TlbEntry} (hpg : lp.pg = true)
    (hp : pick .root (alternatives lp lp.pagingMode la acc.kind) c.alternative = .tlb e) (hd : permit lp acc e.rights = true)
    (hk : acc.kind = .write) (hclean : e.dirty = false) :
    translate cfg c lp la acc
      = startWalk cfg lp lp.pagingMode la acc (pick .root (walkAlternatives lp lp.pagingMode la) c.again) := by
  have hu : useTlb lp e la acc = .cannotComplete := by simp [useTlb, hd, hk, hclean]
  rw [translate_tlb hpg hp, hu]

/-- Settles O39: the starts are the alternatives C and R, and the translation is what the picked one gives. -/
theorem cleanTlbEntryWalksAgain : Obligations.CleanTlbEntryWalksAgain := by
  refine ⟨fun lp m la alt => ⟨?_, exists_pick _ _ _⟩, ?_⟩
  · simp only [mem_walkAlternatives, PscEntry.matches_iff, pscKey]
  · intro s a p rest e h hpg hcanon hpick hd hk hclean alt root walks
    have ht : translate s.cfg (s.choiceFor a p) s.lp p.la a.acc = startWalk s.cfg s.lp s.lp.pagingMode p.la a.acc alt :=
      translate_clean hpg hpick hd hk hclean
    have hmem : alt ∈ walkAlternatives s.lp s.lp.pagingMode p.la := pick_mem _ _ _ (by simp [walkAlternatives])
    have begins : ∀ {w}, startWalk s.cfg s.lp s.lp.pagingMode p.la a.acc alt = .walk w → walks w := fun hw =>
      (step_choosing h).trans (beginPage_walk (s := s.begun) hcanon (ht.trans hw))
    refine ⟨fun hroot hpresent => begins ?_, fun l x hx => begins ?_,
      fun hroot habsent => ⟨_, ?_, accessFault_pageFaults s.choice⟩⟩
    · exact hroot ▸ startFromRoot_present hpresent
    · exact hx ▸ startWalk_cache (hx ▸ hmem)
    · exact (step_choosing h).trans (beginPage_fault hcanon (ht.trans (hroot ▸ startFromRoot_absent habsent)))

end Sys2Proof.Machine
end

section
/-! SUPPORT. Paging-structure-cache entries: which of them a step of a walk creates (O35). -/

namespace Sys2Proof.Machine

/-- What the paging-structure caches hold after an entry was added to the cache of a level (R195, R196 conditions 4 and 5). -/
theorem LP.mem_cachePsc {cfg : Config} {l : Level} {y x : PscEntry} {lp : LP} :
    (x ∈ (lp.cachePsc cfg l y).pml4c
        ↔ x ∈ lp.pml4c ∨ (l = .pml4e ∧ cfg.hasPml4Cache = true ∧ y.mode = .modeIA32e ∧ x = y))
      ∧ (x ∈ (lp.cachePsc cfg l y).pdpc
        ↔ x ∈ lp.pdpc ∨ (l = .pdpe ∧ cfg.hasPdpCache = true ∧ y.mode = .modeIA32e ∧ x = y))
      ∧ (x ∈ (lp.cachePsc cfg l y).pdec ↔ x ∈ lp.pdec ∨ (l = .pde ∧ cfg.hasPdeCache = true ∧ x = y)) := by
  cases l with
  | pml4e =>
    simp only [LP.cachePsc, Bool.and_eq_true, beq_iff_eq]
    split
    · next h => simp [h, mem_addTo, or_comm]
    · next h => simpa using fun hc hm _ => absurd ⟨hc, hm⟩ h
  | pdpe =>
    simp only [LP.cachePsc, Bool.and_eq_true, beq_iff_eq]
    split
    · next h => simp [h, mem_addTo, or_comm]
    · next h => simpa using fun hc hm _ => absurd ⟨hc, hm⟩ h
  | pde =>
    simp only [LP.cachePsc]
    split
    · next h => simp [h, mem_addTo, or_comm]
    · next h => simp [h]
  | pte => simp [LP.cachePsc]

/-! ## The paging-structure caches after a walk step -/

/-- The paging-structure-cache entry made from the upper entry that a walk reads next (R195). -/
def Walk.pscEntry (cfg : Config) (lp : LP) (mem : Memory) (w : Walk) (key : Nat) : PscEntry where
  mode := w.mode
  key := key
  addr := nextBase cfg w.mode (w.entry cfg mem)
  rights := w.rights.andEntry lp.nxe w.mode (w.entry cfg mem)

/-- The paging-structure caches of `lp'` hold what those of `lp` hold and, if `adds`, the entry that the walk makes, in the cache
of its level, where the processor and the mode have it. -/
structure Walk.PscAfter (cfg : Config) (lp : LP) (mem : Memory) (w : Walk) (adds : Bool) (lp' : LP) : Prop where
  pml4c : ∀ x, x ∈ lp'.pml4c ↔ x ∈ lp.pml4c
    ∨ (adds = true ∧ w.level = .pml4e ∧ cfg.hasPml4Cache = true ∧ w.mode = .modeIA32e
      ∧ x = w.pscEntry cfg lp mem (field w.la 47 39))
  pdpc : ∀ x, x ∈ lp'.pdpc ↔ x ∈ lp.pdpc
    ∨ (adds = true ∧ w.level = .pdpe ∧ cfg.hasPdpCache = true ∧ w.mode = .modeIA32e
      ∧ x = w.pscEntry cfg lp mem (field w.la 47 30))
  pdec : ∀ x, x ∈ lp'.pdec ↔ x ∈ lp.pdec
    ∨ (adds = true ∧ w.level = .pde ∧ cfg.hasPdeCache = true ∧ x = w.pscEntry cfg lp mem (largePageNumber w.mode w.la))

section
variable {cfg : Config} {c : Choice} {lp lp' : LP} {mem : Memory} {w : Walk} {x : PscEntry} {adds : Bool}

/-- `LP.cachePsc` adds the entry that the walk makes: at each level `pscKey` is the key of that level's cache (R91). -/
theorem Walk.pscAfter_cachePsc (cfg : Config) (lp : LP) (mem : Memory) (w : Walk) :
    w.PscAfter cfg lp mem true (lp.cachePsc cfg w.level (w.pscEntry cfg lp mem (pscKey w.mode w.level w.la))) := by
  refine ⟨fun x => LP.mem_cachePsc.1.trans (or_congr_right ?_), fun x => LP.mem_cachePsc.2.1.trans (or_congr_right ?_),
    fun x => LP.mem_cachePsc.2.2.trans (or_congr_right ?_)⟩
  all_goals
    rw [and_iff_right rfl]
    exact and_congr_right fun hl => by rw [hl]; rfl

/-- At an upper entry the caches get the entry if no accessed bit was skipped, this one included, and the processor chooses to
cache (R196). -/
theorem Walk.MeetsUpper.pscAfter (h : w.MeetsUpper cfg lp mem) :
    w.PscAfter cfg lp mem (w.allA && (bit (w.entry cfg mem) 5 || c.setAccessed) && c.cachePsc)
      (walkStep cfg c lp mem w).lp := by
  have hlp : (walkStep cfg c lp mem w).lp
      = if w.allA && (bit (w.entry cfg mem) 5 || c.setAccessed) && c.cachePsc then
          lp.cachePsc cfg w.level (w.pscEntry cfg lp mem (pscKey w.mode w.level w.la))
        else lp := by
    rw [walkStep_upper h.present h.sound h.upper]; rfl
  rw [hlp]
  cases w.allA && (bit (w.entry cfg mem) 5 || c.setAccessed) && c.cachePsc with
  | true => exact w.pscAfter_cachePsc cfg lp mem
  | false => constructor <;> simp

/-- A new entry is the one that the walk makes, in the cache of its level. -/
theorem Walk.PscAfter.of_added (h : w.PscAfter cfg lp mem adds lp')
    (hx : (x ∈ lp'.pml4c ∧ x ∉ lp.pml4c) ∨ (x ∈ lp'.pdpc ∧ x ∉ lp.pdpc) ∨ (x ∈ lp'.pdec ∧ x ∉ lp.pdec)) :
    adds = true ∧ ∃ key, x = w.pscEntry cfg lp mem key
      ∧ ((w.level = .pml4e ∧ cfg.hasPml4Cache = true ∧ w.mode = .modeIA32e ∧ key = field w.la 47 39 ∧ x ∈ lp'.pml4c)
        ∨ (w.level = .pdpe ∧ cfg.hasPdpCache = true ∧ w.mode = .modeIA32e ∧ key = field w.la 47 30 ∧ x ∈ lp'.pdpc)
        ∨ (w.level = .pde ∧ cfg.hasPdeCache = true ∧ key = largePageNumber w.mode w.la ∧ x ∈ lp'.pdec)) := by
  rcases hx with ⟨hx, hn⟩ | ⟨hx, hn⟩ | ⟨hx, hn⟩
  · obtain ⟨ha, hl, hc, hm, he⟩ := ((h.pml4c x).mp hx).resolve_left hn
    exact ⟨ha, _, he, .inl ⟨hl, hc, hm, rfl, hx⟩⟩
  · obtain ⟨ha, hl, hc, hm, he⟩ := ((h.pdpc x).mp hx).resolve_left hn
    exact ⟨ha, _, he, .inr (.inl ⟨hl, hc, hm, rfl, hx⟩)⟩
  · obtain ⟨ha, hl, hc, he⟩ := ((h.pdec x).mp hx).resolve_left hn
    exact ⟨ha, _, he, .inr (.inr ⟨hl, hc, rfl, hx⟩)⟩

/-- A walk step creates a paging-structure-cache entry only at an upper entry (R196). -/
theorem meetsUpper_of_psc_added
    (hx : (x ∈ (walkStep cfg c lp mem w).lp.pml4c ∧ x ∉ lp.pml4c) ∨ (x ∈ (walkStep cfg c lp mem w).lp.pdpc ∧ x ∉ lp.pdpc)
      ∨ (x ∈ (walkStep cfg c lp mem w).lp.pdec ∧ x ∉ lp.pdec)) : w.MeetsUpper cfg lp mem := by
  rcases walkStep_psc cfg c lp mem w with ⟨h1, h2, h3⟩ | ⟨hp, hr, hu, -⟩
  · simp [h1, h2, h3] at hx
  · exact ⟨hp, hr, hu⟩

/-- The accessed bit of an upper entry as a step that does not skip it leaves it (R136). -/
theorem Walk.MeetsUpper.accessed (h : w.MeetsUpper cfg lp mem) (hm : (bit (w.entry cfg mem) 5 || c.setAccessed) = true) :
    bit (w.entry cfg (walkStep cfg c lp mem w).mem) 5 = true := by
  rw [h.entry, if_pos hm, bit, BitVec.getLsbD_or]
  exact Bool.or_true _

end

/-- Settles O35: a step that adds an entry meets an upper entry, where the choice decides whether the entry the walk makes is
added. -/
theorem pscEntryCreation : Obligations.PscEntryCreation := by
  refine ⟨?_, walkStep_adds, ?_⟩
  · intro cfg c lp mem w x e out hx
    have hm : w.MeetsUpper cfg lp mem := meetsUpper_of_psc_added hx
    obtain ⟨hadds, key, rfl, hplace⟩ := hm.pscAfter.of_added hx
    simp only [Bool.and_eq_true] at hadds
    obtain ⟨⟨hall, hmarked⟩, -⟩ := hadds
    exact ⟨hm.present, hm.accessed hmarked, hm.sound, hm.upper, hall, rfl, rfl, rfl, hplace⟩
  · intro cfg lp mem w add e new hp hr hu ha
    have hm : w.MeetsUpper cfg lp mem := ⟨hp, hr, hu⟩
    have h := hm.pscAfter (c := { (default : Choice) with setAccessed := true, cachePsc := add })
    rw [ha, Bool.or_true, Bool.and_true, Bool.true_and] at h
    exact ⟨_, h.pml4c, h.pdpc, h.pdec⟩

end Sys2Proof.Machine
end

section
/-! SUPPORT. The MOVs to control registers: when they raise GP(0) (O13), and what MOV to CR3 (O9, O10) and MOV to CR4 (O11) do as they
complete, at once or with the last read of a PDPTR load. -/

namespace Sys2Proof.Machine

/-! ## How a MOV to a control register executes -/

section
variable {i : Instr} {s : State} {w : ControlWrite}

/-- A MOV to a control register at CPL 0 (R222, R224, R305). -/
theorem exec_mov (hw : ControlWrite.of s.lp i = some w) (h0 : s.lp.cpl = 0) :
    exec i s = .next (s.controlWrite (w.faults s.lp) (w.loads s.cfg s.lp) w) := by
  cases i <;> cases hw <;> exact privileged_zero h0 _

/-- Where it raises no GP(0) and loads no PDPTR register, it completes and they stay. -/
theorem exec_mov_completes (hw : ControlWrite.of s.lp i = some w) (h0 : s.lp.cpl = 0) (hf : w.faults s.lp = false)
    (hl : w.loads s.cfg s.lp = false) : exec i s = .next (s.finishMov w s.lp.pdptr) := by
  simp [exec_mov hw h0, State.controlWrite, hf, hl]

/-- Where it raises no GP(0) and loads the PDPTR registers, it begins to read the four entries (R298, R299). -/
theorem exec_mov_loads (hw : ControlWrite.of s.lp i = some w) (h0 : s.lp.cpl = 0) (hf : w.faults s.lp = false)
    (hl : w.loads s.cfg s.lp = true) :
    exec i s = .next { s with lp := { s.lp with loading := some ⟨w, [0, 1, 2, 3], ⟨0, 0, 0, 0⟩⟩ } } := by
  simp [exec_mov hw h0, State.controlWrite, hf, hl]

end

/-! ## The last read of a load -/

/-- The state as the load of the PDPTR registers has just ended. -/
def State.loaded (s : State) : State := { s with lp := { s.lp with loading := none } }

/-- GP(0) ends the operation in progress, a load of the PDPTR registers too (R299, R356). -/
theorem loaded_generalProtection (s : State) : s.loaded.tick.generalProtection = s.tick.reportsGp := by
  unfold State.tick
  cases h : s.choices <;>
    simp only [State.loaded, h, State.generalProtection, State.reportsGp, LP.takeException]

/-- Outside the logical processor the end of a load changes nothing. -/
theorem State.SameOutside.of_loaded {s t : State} (h : s.loaded.SameOutside t) : s.SameOutside t :=
  ⟨h.cfg, h.mem, h.others, h.inputs, h.sideEffects⟩

/-- The last read of a load ends it with GP(0), or the MOV completes (R299). -/
theorem step_lastRead {s : State} {w : ControlWrite} {q : Pdptrs} (h : s.LastRead w q) :
    step s = .next (if pdptFaults s.cfg q then s.begun.tick.reportsGp else s.begun.loaded.finishMov w q) := by
  obtain ⟨l, hl, rfl, i, htodo, rfl⟩ := h
  have hnext : l.next s.begun.choice = i := by
    simpa [htodo] using PdptrLoad.next_mem (l := l) (by simp [htodo]) s.begun.choice
  have hread := State.readPdpte_of_next hnext
  rw [step_loading hl]
  rcases State.loadPdpte_cases l s.begun with ⟨-, e⟩ | ⟨hmore, -⟩
  · rw [e, State.endLoad, hread, ← loaded_generalProtection]
    rfl
  · simp [hread, htodo] at hmore

/-- With the last read the MOV completes, if no entry read breaks a reserved bit. -/
theorem step_lastRead_completes {s : State} {w : ControlWrite} {q : Pdptrs} (h : s.LastRead w q)
    (hq : pdptFaults s.cfg q = false) : step s = .next (s.begun.loaded.finishMov w q) := by
  rw [step_lastRead h, hq]
  rfl

/-! ## What a MOV that completes leaves alone -/

/-- Adding 3 changes an address, in 64 bits and in 32. -/
theorem LP.linear_add_three_ne (lp : LP) (x : Word) : lp.linear (x + 3) ≠ x := by
  unfold LP.linear
  split <;> bv_omega

/-- A MOV that completes leaves everything outside the logical processor alone. -/
theorem finishMov_outside (w : ControlWrite) (q : Pdptrs) (s : State) : s.SameOutside (s.finishMov w q) := by
  constructor <;> simp [State.finishMov]

theorem finishMov_lp (w : ControlWrite) (q : Pdptrs) (s : State) :
    (s.finishMov w q).lp = (w.apply s.cfg s.choice q s.lp).advance 3 := rfl

@[simp] theorem ControlWrite.apply_loading (cfg : Config) (c : Choice) (q : Pdptrs) (lp : LP) (w : ControlWrite) :
    (w.apply cfg c q lp).loading = lp.loading := by rw [w.apply_eq]

@[simp] theorem ControlWrite.apply_rip (cfg : Config) (c : Choice) (q : Pdptrs) (lp : LP) (w : ControlWrite) :
    (w.apply cfg c q lp).rip = lp.rip := by rw [w.apply_eq]

theorem finishMov_loading (w : ControlWrite) (q : Pdptrs) (s : State) : (s.finishMov w q).lp.loading = s.lp.loading :=
  w.apply_loading s.cfg s.choice q s.lp

/-- A MOV that completes moves `rip`. -/
theorem finishMov_rip_ne (w : ControlWrite) (q : Pdptrs) (s : State) : (s.finishMov w q).lp.rip ≠ s.lp.rip := by
  have h := LP.linear_add_three_ne (w.apply s.cfg s.choice q s.lp) s.lp.rip
  rwa [← w.apply_rip s.cfg s.choice q s.lp] at h ⊢

/-! ## When they raise GP(0) -/

/-- At CPL 0 a MOV to a control register raises GP(0) exactly where its rule says (R224, R305). -/
theorem exec_mov_faults_iff {i : Instr} {s : State} {w : ControlWrite} (hw : ControlWrite.of s.lp i = some w)
    (h0 : s.lp.cpl = 0) : exec i s = .next s.reportsGp ↔ w.faults s.lp = true := by
  rw [exec_mov hw h0, Host.Outcome.next.injEq]
  rcases controlWrite_cases (w.faults s.lp) (w.loads s.cfg s.lp) w s with ⟨hf, e⟩ | ⟨hf, -, e⟩ | ⟨hf, -, e⟩ <;> rw [e, hf]
  · exact iff_of_true rfl rfl
  · exact iff_of_false (fun h => nomatch congrArg (fun t : State => t.lp.loading) h) nofun
  · exact iff_of_false (fun h => finishMov_rip_ne w _ s (by rw [h]; rfl)) nofun

/-- The bits 31:0 of the operand are those of the register (entry 3). -/
theorem LP.bit_operand (lp : LP) (r : Reg) {n : Nat} (h : n < 32) : bit (lp.operand r) n = bit (lp.gpr.get r) n := by
  unfold LP.operand LP.reg32 bit
  split
  · rfl
  · simp [show n < 64 by omega, h]

/-- Settles O13: at once by the rule of each MOV, and with the last read by the four entries. -/
theorem movToControlRegisterFaults : Obligations.MovToControlRegisterFaults := by
  refine ⟨fun r s h0 => ?_, fun r s h0 => ?_, fun r s h0 => ?_, fun s w q h => ?_⟩
  · exact fun h => Bool.false_ne_true ((exec_mov_faults_iff (w := .cr3 _) rfl h0).mp h)
  · rw [exec_mov_faults_iff (w := .cr4 _) rfl h0]
    simp [ControlWrite.faults, cr4Faults, LP.bit_operand]
  · rw [exec_mov_faults_iff (w := .cr0 _) rfl h0]
    simp [ControlWrite.faults, cr0Faults, LP.bit_operand, and_assoc]
  · rw [step_lastRead h, Host.Outcome.next.injEq]
    cases hq : pdptFaults s.cfg q with
    | true => simp
    | false =>
      have hrip := finishMov_rip_ne w q s.begun.loaded
      refine iff_of_false (fun h => hrip ?_) nofun
      rw [if_neg nofun] at h
      rw [h]
      simp [State.reportsGp, State.loaded]

/-! ## What MOV to CR3 and MOV to CR4 do as they complete -/

section
variable {s : State} {lp : LP} {ld : Option PdptrLoad}

/-- A MOV to CR3 or to CR4 leaves the width of linear addresses alone: it writes neither PG nor LMA. -/
theorem ControlWrite.apply_linear {w : ControlWrite} (h : (w.written lp).cr0 = lp.cr0) (he : (w.written lp).efer = lp.efer)
    (cfg : Config) (c : Choice) (q : Pdptrs) (x : Word) : (w.apply cfg c q lp).linear x = lp.linear x := by
  have hc := w.apply_control cfg c q lp
  exact linear_congr (inIA32e_congr (hc.cr0.trans h) (by simp only [LP.lma, hc.efer.trans he])) x

/-- MOV to CR3 does at its end what R222 and R223 say, also where a load of the PDPTR registers has just ended. -/
theorem finishMov_movedCr3 (h : s.lp = { lp with loading := ld }) (v : Word) (q : Pdptrs) :
    lp.MovedCr3 (s.finishMov (.cr3 v) q).lp v q := by
  rw [finishMov_lp, h]
  exact ⟨rfl, (thin_sublist _ _).trans List.filter_sublist, fun e he => (List.mem_filter.mp (mem_of_mem_thin he)).2⟩

/-- MOV to CR4 writes CR4 and the PDPTR registers, and no other register. -/
theorem movCr4_registers (cfg : Config) (c : Choice) (v : Word) (q : Pdptrs) (lp : LP) :
    movCr4 cfg c v q lp = { lp with
      cr4 := v, pdptr := q, walks := []
      tlb := (movCr4 cfg c v q lp).tlb, pml4c := (movCr4 cfg c v q lp).pml4c
      pdpc := (movCr4 cfg c v q lp).pdpc, pdec := (movCr4 cfg c v q lp).pdec } := by
  unfold movCr4
  simp only
  split
  · rfl
  · rw [LP.modeChanged_eq]
    rfl

/-- A change of PGE empties the caches, and so does a change of PAE or PSE with `Flush` (R224, R313). -/
theorem movCr4_flushes {cfg : Config} {v : Word}
    (h : bit v 7 ≠ lp.pge ∨ (cfg.modeChange = .flush ∧ (bit v 5 ≠ lp.pae ∨ bit v 4 ≠ lp.pse))) (c : Choice) (q : Pdptrs) :
    (movCr4 cfg c v q lp).CachesEmpty := by
  have hflush : ∀ l : LP, l.flush.dropWalks.CachesEmpty := fun _ => ⟨rfl, rfl, rfl, rfl⟩
  unfold movCr4
  simp only
  split
  · exact hflush _
  · rename_i hpge
    obtain ⟨hf, hmode⟩ := h.resolve_left (by simpa using hpge)
    have hchanged : (bit v 5 != lp.pae || bit v 4 != lp.pse) = true := by simpa using hmode
    rw [hchanged, LP.modeChanged_flush hf]
    exact hflush _

theorem LP.CachesEmpty.advance (h : lp.CachesEmpty) (n : Nat) : (lp.advance n).CachesEmpty := ⟨h.tlb, h.pml4c, h.pdpc, h.pdec⟩

/-- MOV to CR4 does at its end what R224 and R313 say, also where a load of the PDPTR registers has just ended. -/
theorem finishMov_movedCr4 (h : s.lp = { lp with loading := ld }) (v : Word) (q : Pdptrs) :
    lp.MovedCr4 s.cfg (s.finishMov (.cr4 v) q).lp v q := by
  rw [finishMov_lp, h]
  have hlinear := ControlWrite.apply_linear (lp := { lp with loading := ld }) (w := .cr4 v) rfl rfl s.cfg s.choice q
  obtain ⟨htlb, hpml4c, hpdpc, hpdec⟩ := ControlWrite.apply_removes s.cfg s.choice q { lp with loading := ld } (.cr4 v)
  have hempty := movCr4_flushes (lp := { lp with loading := ld }) (cfg := s.cfg) (v := v)
  refine ⟨?_, ⟨htlb, hpml4c, hpdpc, hpdec⟩, fun hpge => (hempty (.inl hpge) s.choice q).advance 3,
    fun hf hmode => (hempty (.inr ⟨hf, hmode⟩) s.choice q).advance 3⟩
  rw [LP.advance, hlinear, ControlWrite.apply, movCr4_registers]
  rfl

end

/-- When MOV to CR3 loads the PDPTR registers (R298 item 1, P14). -/
theorem cr3Loads_iff {cfg : Config} {lp : LP} : cr3Loads cfg lp = true
    ↔ lp.lma = false ∧ lp.pae = true ∧ (lp.pg = true ∨ cfg.pdptrLoadWithPagingOff = true) := by
  simp [cr3Loads, and_assoc]

/-- When MOV to CR4 loads the PDPTR registers (R298 item 2). -/
theorem cr4Loads_iff {v : Word} {lp : LP} : cr4Loads v lp = true ↔ bit v 5 = true ∧ lp.lma = false ∧ lp.pg = true
    ∧ (bit v 5 ≠ bit lp.cr4 5 ∨ bit v 7 ≠ bit lp.cr4 7 ∨ bit v 4 ≠ bit lp.cr4 4) := by
  simp [cr4Loads, LP.pae, LP.pge, LP.pse, and_assoc, or_assoc]

/-- Settles O9: MOV to CR3 at CPL 0 begins a load or completes, and completes with the last read of a load. -/
theorem movCr3Completes : Obligations.MovCr3Completes := by
  refine ⟨fun r s h0 => ?_, fun s v q h hq => ?_⟩
  · simp only [← operand_eq, ← cr3Loads_iff]
    have hw : ControlWrite.of s.lp (.movCr3 r) = some (.cr3 (s.lp.operand r)) := rfl
    exact ⟨fun hl => ⟨_, exec_mov_completes hw h0 rfl (Bool.not_eq_true _ ▸ hl), finishMov_outside _ _ s,
      finishMov_movedCr3 rfl _ _, finishMov_loading _ _ s⟩, exec_mov_loads hw h0 rfl⟩
  · exact ⟨_, step_lastRead_completes h hq, (finishMov_outside _ _ s.begun.loaded).of_loaded,
      finishMov_movedCr3 (s := s.begun.loaded) (ld := none) rfl v q, finishMov_loading _ q s.begun.loaded⟩

/-- Settles O11: MOV to CR4 at CPL 0 that keeps R27 begins a load or completes, and completes with the last read of a load. -/
theorem movCr4Completes : Obligations.MovCr4Completes := by
  refine ⟨fun r s h0 => ?_, fun s v q h hq => ?_⟩
  · simp only [← operand_eq, ← cr4Loads_iff]
    intro hpae
    have hw : ControlWrite.of s.lp (.movCr4 r) = some (.cr4 (s.lp.operand r)) := rfl
    have hf : ControlWrite.faults s.lp (.cr4 (s.lp.operand r)) = false := by
      simpa [ControlWrite.faults, cr4Faults] using hpae
    exact ⟨fun hl => ⟨_, exec_mov_completes hw h0 hf (Bool.not_eq_true _ ▸ hl), finishMov_outside _ _ s,
      finishMov_movedCr4 rfl _ _, finishMov_loading _ _ s⟩, exec_mov_loads hw h0 hf⟩
  · exact ⟨_, step_lastRead_completes h hq, (finishMov_outside _ _ s.begun.loaded).of_loaded,
      finishMov_movedCr4 (s := s.begun.loaded) (ld := none) rfl v q, finishMov_loading _ q s.begun.loaded⟩

/-- Settles O10: `thin` leaves any sublist of the global entries. -/
theorem movCr3GlobalEntriesMayStayOrGo : Obligations.MovCr3GlobalEntriesMayStayOrGo := by
  refine ⟨fun r s kept h0 hl hk => ?_, fun s l v i kept h hw htodo hq hk => ?_⟩ <;> obtain ⟨mask, rfl⟩ := exists_thin hk
  · have hexec := fun cs => exec_mov_completes (i := .movCr3 r)
      (s := { s with choices := { s.choice with dropTlb := mask } :: cs }) rfl h0 rfl hl
    exact ⟨_, fun cs => ⟨_, hexec cs, rfl⟩⟩
  · have hread : ∀ cs, State.LastRead { s with choices := cs } (.cr3 v)
        (l.entries.set i (s.mem.readEntry (pdpteAddr v i) 8)) := fun cs => ⟨l, ⟨h.next, h.loading⟩, hw, i, htodo, rfl⟩
    exact ⟨{ s.choice with dropTlb := mask }, fun cs => ⟨_, step_lastRead_completes (hread _) hq, rfl⟩⟩

end Sys2Proof.Machine
end

section
/-! SUPPORT. INVLPG: what it removes, the address of its operand (O6), and the alternative behaviour (O7). -/

namespace Sys2Proof.Machine

/-! ## What INVLPG removes -/

section
variable (cfg : Config) (c : Choice) (la : Word) (lp : LP)

/-- The TLB entries INVLPG leaves are of other pages (R220, R268). -/
theorem invlpg_tlb : (invlpg cfg c la lp).tlb
    = thin c.dropTlb (lp.tlb.filter fun e => !TlbEntry.forPage lp.pagingMode la e) := by
  unfold invlpg
  simp only
  split <;> rfl

/-- Without the alternative behaviour INVLPG empties the paging-structure caches (R220). -/
theorem invlpg_flushPsc (h : cfg.altInvlpg = false) :
    (invlpg cfg c la lp).pml4c = [] ∧ (invlpg cfg c la lp).pdpc = [] ∧ (invlpg cfg c la lp).pdec = [] := by
  unfold invlpg
  simp [h]

/-- With it, the entries of the mode that are used for the address must go (R245). -/
theorem invlpg_removePscFor (h : cfg.altInvlpg = true) :
    (invlpg cfg c la lp).pml4c = thin c.dropPml4 (lp.pml4c.filter fun x => !x.matches lp.pagingMode .pml4e la)
      ∧ (invlpg cfg c la lp).pdpc = thin c.dropPdp (lp.pdpc.filter fun x => !x.matches lp.pagingMode .pdpe la)
      ∧ (invlpg cfg c la lp).pdec = thin c.dropPde (lp.pdec.filter fun x => !x.matches lp.pagingMode .pde la) := by
  unfold invlpg
  simp [h]

end

/-- The entries of a paging-structure cache that stay are those that are not used for the address (R134). -/
theorem PscEntry.mem_filter {m : PagingMode} {l : Level} {la : Word} {xs : List PscEntry} {x : PscEntry} :
    (x ∈ xs.filter fun y => !y.matches m l la) ↔ x ∈ xs ∧ (x.mode = m → x.key ≠ pscKey m l la) := by
  rw [List.mem_filter, Bool.not_eq_true', ← Bool.not_eq_true, PscEntry.matches_iff, not_and]

/-- None that is used for the address is left. -/
theorem PscEntry.key_ne_of_mem {m : PagingMode} {l : Level} {la : Word} {xs ys : List PscEntry} {mask : Nat}
    (h : ys = thin mask (xs.filter fun y => !y.matches m l la)) {x : PscEntry} (hx : x ∈ ys) :
    x.mode = m → x.key ≠ pscKey m l la :=
  (PscEntry.mem_filter.mp (mem_of_mem_thin (h ▸ hx))).2

/-- Every other entry stays, where the choice names none that goes. -/
theorem PscEntry.mem_of_key_ne {m : PagingMode} {l : Level} {la : Word} {xs ys : List PscEntry}
    (h : ys = thin 0 (xs.filter fun y => !y.matches m l la)) {x : PscEntry} (hx : x ∈ xs)
    (hk : x.mode ≠ m ∨ x.key ≠ pscKey m l la) : x ∈ ys := by
  rw [h, thin_zero]
  exact PscEntry.mem_filter.mpr ⟨hx, imp_iff_not_or.mpr hk⟩

/-- INVLPG of an address that is not refused, at CPL 0 (R220, R221). -/
theorem exec_invlpg {m : MemOperand} {s : State} (h0 : s.lp.cpl = 0)
    (hr : s.lp.refuses (s.lp.effectiveAddress (Instr.invlpg m).length m) = false) :
    exec (.invlpg m) s = .next (s.tick.complete (Instr.invlpg m).length
      (invlpg s.cfg s.choice (s.lp.effectiveAddress (Instr.invlpg m).length m) s.lp)) := by
  simp only [exec, execInvlpg, privileged_zero h0, hr, Bool.false_eq_true, if_false]

/-- An entry that INVLPG may leave is not the ordinary or large-page entry of the page, and not derived from the large page that
holds it: an entry of the page derived from a large page is of that large page (R220, R268). -/
theorem TlbEntry.not_forPage {la : Word} {e : TlbEntry} (h : TlbEntry.forPage e.mode la e = false) :
    (e.size = .ordinary → e.key ≠ pageNumber e.mode la) ∧ (e.size = .large → e.key ≠ largePageNumber e.mode la)
      ∧ (e.size = .ordinary → e.fromLarge = true → largeOfKey e.mode e.key ≠ largePageNumber e.mode la) := by
  cases hs : e.size with
  | large => simpa [TlbEntry.forPage, hs] using h
  | ordinary =>
    cases hf : e.fromLarge with
    | false => simpa [TlbEntry.forPage, hs, hf] using h
    | true =>
      have hkey : largeOfKey e.mode e.key ≠ largePageNumber e.mode la := by simpa [TlbEntry.forPage, hs, hf] using h
      exact ⟨fun _ hk => hkey (hk ▸ largeOfKey_pageNumber e.mode la), nofun, fun _ _ => hkey⟩

/-! ## The address of a memory operand -/

/-- A linear address has 64 bits in ModeIA32e, else 32 (R60). -/
theorem LP.linear_toNat (lp : LP) {x : Word} {y : Int} (h : x = BitVec.ofInt 64 y) :
    ((lp.linear x).toNat : Int) = y % 2 ^ (if lp.mode = some .modeIA32e then 64 else 32) := by
  subst h
  have h64 : ((BitVec.ofInt 64 y).toNat : Int) = y % 2 ^ 64 := by
    rw [BitVec.toNat_ofInt, Int.toNat_of_nonneg (Int.emod_nonneg _ (by norm_num))]
    norm_num
  by_cases hm : lp.mode = some .modeIA32e
  · simpa [LP.linear, LP.inIA32e, hm] using h64
  · simp [LP.linear, LP.inIA32e, hm]
    omega

/-- A scaled index is the register times the scale, in 64 bits (entry 4). -/
theorem ofInt_scaled (x : Word) (n : Nat) : BitVec.ofInt 64 (x.toNat * 2 ^ n) = x <<< n := by
  apply BitVec.eq_of_toNat_eq
  rw [BitVec.toNat_shiftLeft, Nat.shiftLeft_eq]
  norm_cast

/-- Settles O6: by the fields INVLPG leaves, and by the address of its operand form by form, as a sum of integers. -/
theorem invlpgInvalidates : Obligations.InvlpgInvalidates := by
  refine ⟨fun m s h0 hr => ?_, fun lp len m => ?_, fun g => ⟨rfl, rfl, rfl, rfl, rfl, rfl, rfl, rfl⟩⟩
  · have hexec := exec_invlpg h0 hr
    obtain ⟨hremoves, -⟩ := exec_removes hexec
    refine ⟨_, hexec, by constructor <;> simp, hremoves, ?_, fun e he hmode => ?_, invlpg_flushPsc _ _ _ _⟩
    · rw [State.complete_lp, LP.advance, invlpg_registers]
      rfl
    · rw [State.complete_lp, LP.advance_tlb, invlpg_tlb] at he
      have hkept := (List.mem_filter.mp (mem_of_mem_thin he)).2
      exact TlbEntry.not_forPage (by simpa [hmode] using hkept)
  · intro index disp
    have hindex : ∀ scale i, BitVec.ofInt 64 (index scale i) = lp.scaledIndex scale i := fun scale i => by
      cases i with
      | none => rfl
      | some r => exact ofInt_scaled _ _
    have hdisp : ∀ d, BitVec.ofInt 64 (disp d) = Disp.value d := fun d => by cases d <;> rfl
    refine lp.linear_toNat ?_
    cases m with
    | base r d => simp only [BitVec.ofInt_add, BitVec.ofInt_natCast, BitVec.ofNat_toNat, BitVec.setWidth_eq, hdisp]
    | disp d =>
      have hnext : BitVec.ofInt 64 ((lp.rip.toNat + len : Nat) : Int) = lp.rip + BitVec.ofNat 64 len := by
        rw [BitVec.ofInt_natCast, BitVec.ofNat_add, BitVec.ofNat_toNat, BitVec.setWidth_eq]
      rw [BitVec.ofInt_add, apply_ite (BitVec.ofInt 64), hnext]
      simp only [LP.inIA32e, beq_iff_eq]
      rfl
    | sib scale i r d => simp only [BitVec.ofInt_add, BitVec.ofInt_natCast, BitVec.ofNat_toNat, BitVec.setWidth_eq, hindex, hdisp]
    | sibDisp scale i d =>
      rw [BitVec.ofInt_add, hindex]
      rfl

/-- Settles O7: the entries that must go are those used for the address, and no other goes where the choice names none. -/
theorem invlpgAlternative : Obligations.InvlpgAlternative := by
  intro m s h0 halt hr la
  refine ⟨⟨_, exec_invlpg h0 hr, ?_⟩, { s.choice with dropPml4 := 0, dropPdp := 0, dropPde := 0 }, fun cs =>
    ⟨_, exec_invlpg (s := { s with choices := _ :: cs }) h0 hr, ?_⟩⟩
  · obtain ⟨h4, hp, hd⟩ := invlpg_removePscFor s.cfg s.choice la s.lp halt
    exact ⟨fun x => PscEntry.key_ne_of_mem h4, fun x => PscEntry.key_ne_of_mem hp,
      fun x hx hm => hm ▸ PscEntry.key_ne_of_mem hd hx hm⟩
  · obtain ⟨h4, hp, hd⟩ :=
      invlpg_removePscFor s.cfg { s.choice with dropPml4 := 0, dropPdp := 0, dropPde := 0 } la s.lp halt
    refine ⟨fun x => PscEntry.mem_of_key_ne h4, fun x => PscEntry.mem_of_key_ne hp, fun x hx hk => ?_⟩
    by_cases hm : x.mode = s.lp.pagingMode
    · exact PscEntry.mem_of_key_ne hd hx (hm ▸ hk)
    · exact PscEntry.mem_of_key_ne hd hx (.inl hm)

end Sys2Proof.Machine
end

section
/-! SUPPORT. What the eviction agent can remove (O43), what a page fault leaves (O40), and which operations drop the walks in progress
(O20). -/

namespace Sys2Proof.Machine

/-! ## Eviction -/

/-- The eviction agent acts at any time (R230). -/
theorem step_evict {s : State} {rest : List Input} (h : s.inputs = .evict :: rest) :
    step s = .next (State.evict { s with inputs := rest }) := step_input h nofun rfl

/-- Settles O43: `thin` leaves any sublist, and only sublists. -/
theorem evictionOfAnySubset : Obligations.EvictionOfAnySubset := by
  refine ⟨fun s rest tlb pml4c pdpc pdec walks h ht h4 hp hd hw => ?_, fun s rest h => ?_⟩
  · obtain ⟨mt, rfl⟩ := exists_thin ht
    obtain ⟨m4, rfl⟩ := exists_thin h4
    obtain ⟨mp, rfl⟩ := exists_thin hp
    obtain ⟨md, rfl⟩ := exists_thin hd
    obtain ⟨mw, rfl⟩ := exists_thin hw
    exact ⟨{ s.choice with dropTlb := mt, dropPml4 := m4, dropPdp := mp, dropPde := md, dropWalks := mw },
      fun cs => step_evict (s := { s with choices := _ }) h⟩
  · refine ⟨_, step_evict h, ⟨thin_sublist _ _, thin_sublist _ _, thin_sublist _ _, thin_sublist _ _⟩, thin_sublist _ _, ?_⟩
    unfold State.evict State.tick
    split <;> rfl

/-! ## Page faults -/

/-- A step that reports a page fault anew is one that takes that page fault (R226, R352). -/
theorem step_pageFault {s t : State} {la : Word} {ec : Dword} (hsch : ¬ s.Schedules) (hs : step s = .next t)
    (hne : s.lp.exc ≠ t.lp.exc) (he : t.lp.exc = some (.pageFault la ec)) :
    ∃ c acc p r lp, t.lp = LP.pageFault c la acc p r lp := by
  have old : t.lp.exc ≠ s.lp.exc := hne.symm
  obtain ⟨-, -, hr⟩ := step_registers hsch hs
  rcases hr with hq | ⟨rip, cpl, rest, -, e⟩ | ⟨c, la', acc, p, r, lp, e, -⟩ | ⟨i, s', -, hx, -, -, hlp⟩ | ⟨l, -, rfl⟩
  · exact absurd hq.exc old
  · rw [e] at he
    cases he
  · obtain rfl : la' = la := by
      rw [e] at he
      cases he
      rfl
    exact ⟨c, acc, p, r, lp, e⟩
  · obtain ⟨-, -, hsame | hgp⟩ := exec_removes hx
    · exact absurd (hsame.trans (by rw [hlp])) old
    · rw [hgp] at he
      cases he
  · obtain ⟨-, -, hsame | hgp⟩ := loadPdpte_removes l s.begun
    · exact absurd hsame old
    · rw [hgp] at he
      cases he

/-- Settles O40: the step takes the page fault, whose invalidation leaves no entry that a translation of the address would use. -/
theorem pageFaultLeavesTheRootAlone : Obligations.PageFaultLeavesTheRootAlone := by
  intro s t la ec hsch hs hne he
  obtain ⟨c, acc, p, r, lp, e⟩ := step_pageFault hsch hs hne he
  have facts := pageFault_facts c la acc p r lp
  rw [← e] at facts
  obtain ⟨hcr2, haccess, hwalks, -⟩ := facts .read
  refine ⟨hcr2, haccess, hwalks, fun k => ?_⟩
  obtain ⟨-, -, -, halt, -⟩ := facts k
  exact halt

/-! ## Walks in progress -/

/-- A MOV to a control register that completes drops the walks (R233). -/
theorem finishMov_walks (w : ControlWrite) (q : Pdptrs) (s : State) : (s.finishMov w q).lp.walks = [] := by
  rw [finishMov_lp, LP.advance_walks, w.apply_eq]

/-- An instruction other than CPUID and HLT that neither faults nor begins a load drops the walks (R233). -/
theorem exec_walks {i : Instr} {s t : State} (hc : i ≠ .cpuid) (hh : i ≠ .hlt) (h : exec i s = .next t)
    (hgp : t ≠ s.reportsGp) (hl : t.lp.loading = none) : t.lp.walks = [] := by
  rcases exec_next h with rfl | ⟨m, -, -, -, rfl⟩ | ⟨w, -, -, -, -, rfl⟩ | ⟨w, -, -, -, -, rfl⟩ | ⟨-, -, -, -, rfl⟩ |
    ⟨g, hi, -⟩ | ⟨hi, -⟩
  · exact absurd rfl hgp
  · rw [State.complete_lp, LP.advance_walks, invlpg_registers]
  · cases hl
  · exact finishMov_walks w s.lp.pdptr s
  · rfl
  · exact absurd hi hc
  · exact absurd hi hh

/-- Settles O20: for the instructions, for the last read of a PDPTR load, and for page faults. -/
theorem walksInProgressDropped : Obligations.WalksInProgressDropped := by
  refine ⟨fun i s t hc hh _ hexec hgp hl => ?_, fun s t w q h hs hgp => ?_, fun s t la ec hsch hs hne he => ?_⟩
  · obtain ⟨-, -, hothers, -⟩ := exec_outside hexec
    exact ⟨exec_walks hc hh hexec hgp hl, hothers⟩
  · rw [step_lastRead h] at hs
    cases hs
    split at hgp
    · exact absurd rfl hgp
    · rename_i hq
      rw [if_neg hq]
      exact ⟨finishMov_walks w q s.begun.loaded, (finishMov_outside w q s.begun.loaded).others⟩
  · obtain ⟨c, acc, p, r, lp, e⟩ := step_pageFault hsch hs hne he
    obtain ⟨hothers, -⟩ := step_registers hsch hs
    exact ⟨by rw [e]; rfl, hothers⟩

end Sys2Proof.Machine
end

section
/-! SUPPORT. No global TLB entry while CR4.PGE = 0 (R273): `LP.GlobalInv` survives every primitive change of a logical processor
(O56). -/

namespace Sys2Proof.Machine

/-- Entries may go from the TLB while PGE stays. -/
theorem LP.GlobalInv.removes {lp lp' : LP} (h : lp.GlobalInv) (hg : lp'.pge = lp.pge) (ht : lp'.tlb.Sublist lp.tlb) :
    lp'.GlobalInv := fun hpge e he => h (hg ▸ hpge) e (ht.mem he)

/-- A TLB entry that a walk step makes is global only with PGE = 1 (R272, R273). -/
theorem LP.GlobalInv.walkStep {lp : LP} (h : lp.GlobalInv) (cfg : Config) (c : Choice) (mem : Memory) (w : Walk) :
    (walkStep cfg c lp mem w).lp.GlobalInv := fun hpge e he => by
  have hoff : lp.pge = false := by rwa [LP.pge, walkStep_cr4] at hpge
  rcases mem_walkStep_tlb he with he | ⟨-, -, -, -, -, -, ⟨sv, -, rfl⟩ | ⟨-, -, piece, sv, -, rfl⟩⟩
  · exact h hoff e he
  · simp [leafEntry, hoff]
  · simp [fractureEntry, hoff]

/-- Of the MOVs to control registers only MOV to CR4 can clear PGE, and a change of PGE empties the TLB (R224, R273). -/
theorem LP.GlobalInv.controlWrite {lp : LP} (h : lp.GlobalInv) (cfg : Config) (c : Choice) (t : Pdptrs) (w : ControlWrite) :
    (w.apply cfg c t lp).GlobalInv := by
  obtain ⟨htlb, -⟩ := ControlWrite.apply_removes cfg c t lp w
  have hcr4 := (w.apply_control cfg c t lp).cr4
  cases w with
  | cr0 v => exact h.removes (congrArg (bit · 7) hcr4) htlb
  | cr3 v => exact h.removes (congrArg (bit · 7) hcr4) htlb
  | cr4 v =>
    by_cases hv : bit v 7 = lp.pge
    · exact h.removes ((congrArg (bit · 7) hcr4).trans hv) htlb
    · have hempty : (ControlWrite.apply cfg c t lp (.cr4 v)).tlb = [] := (movCr4_flushes (.inl hv) c t).tlb
      exact fun _ e he => absurd (hempty ▸ he) List.not_mem_nil

/-- WRMSR leaves CR4 alone and only removes. -/
theorem LP.GlobalInv.wrmsrEfer {lp : LP} (h : lp.GlobalInv) (cfg : Config) (c : Choice) (v : Word) :
    (wrmsrEfer cfg c v lp).GlobalInv := by
  obtain ⟨htlb, -⟩ := LP.modeChanged_sublist cfg c (bit v 11 != lp.nxe) { lp with efer := eferWritten lp.efer v }
  refine h.removes ?_ htlb
  simp [LP.pge, Sys2Proof.Machine.wrmsrEfer]

/-- A global entry comes only with PGE = 1, and none stays when PGE is cleared: so through every primitive change of a logical
processor. -/
theorem globalInv_kept : Kept fun _ => LP.GlobalInv where
  removes h _ h4 _ hr _ _ := h.removes (congrArg (bit · 7) h4) hr.tlb
  walkStep h := h.walkStep _ _ _ _
  translated h _ _ := h
  walking h _ _ _ _ _ := h
  walkingMore h _ _ _ _ _ _ _ := h
  specStart h _ _ _ _ := h
  specMore h _ _ _ := h
  specAgain h _ _ _ _ := h
  load h _ _ _ := h
  loadMore h _ _ _ := h
  loadEnd {_ _ _ lp _} h _ := LP.GlobalInv.controlWrite (lp := { lp with loading := none }) h _ _ _ _
  write h _ _ _ := h.controlWrite _ _ _ _
  wrmsr h _ _ _ := h.wrmsrEfer _ _ _

/-- Settles O56: by `globalInv_kept` for the acting logical processor, the others being untouched or exchanged with it. -/
theorem stepKeepsGlobalInvariant : Obligations.StepKeepsGlobalInvariant := fun _ _ h hs => globalInv_kept.step h hs

end Sys2Proof.Machine
end

section
/-! SUPPORT. Large pages (O36): which entries end a walk, the size of the page an entry shows, the PDE cache at a leaf entry, and
the size of the page that memory maps, level by level (entry 15). -/

namespace Sys2Proof.Machine

/-! ## Leaf entries -/

/-- A walk ends at a PTE or at the PDE of a large page (R136, R260, R261, R311). -/
theorem isLeaf_iff {pse : Bool} {m : PagingMode} {l : Level} {e : Word} :
    isLeaf pse m l e = true ↔ l = .pte ∨ (l = .pde ∧ bit e 7 = true ∧ (m = .mode32 → pse = true)) := by
  simp only [isLeaf, Bool.or_eq_true, beq_iff_eq, isLargePde_iff]

/-- A PDE that maps a large page shows its size (R9, R260, R311). -/
theorem Walk.pageBits_large {pse : Bool} {w : Walk} {e : Word} (h : isLargePde pse w.mode w.level e = true) :
    w.pageBits pse e = if w.mode = .mode32 then 22 else 21 := if_pos h

/-- Every other entry counts as one of a 4-KByte page (entry 15). -/
theorem Walk.pageBits_ordinary {pse : Bool} {w : Walk} {e : Word} (h : ¬ isLargePde pse w.mode w.level e = true) :
    w.pageBits pse e = 12 := if_neg h

/-- At a leaf entry no paging-structure-cache entry comes or goes (R196, R263). -/
theorem walkStep_psc_of_isLeaf {cfg : Config} {lp : LP} {mem : Memory} {w : Walk}
    (h : isLeaf lp.pse w.mode w.level (w.entry cfg mem) = true) (c : Choice) :
    let out := walkStep cfg c lp mem w
    out.lp.pml4c = lp.pml4c ∧ out.lp.pdpc = lp.pdpc ∧ out.lp.pdec = lp.pdec := by
  rcases walkStep_psc cfg c lp mem w with hsame | ⟨-, -, hupper, -⟩
  · exact hsame
  · exact absurd (h.symm.trans hupper) nofun

/-! ## The size of the page that memory maps -/

section
variable {cfg : Config} {lp : LP} {mem : Memory} {w : Walk}

/-- What the entry where a walk stands says of the page that memory maps there, level by level (R260, R311; entry 15). -/
theorem Walk.maps_succ (cfg : Config) (lp : LP) (mem : Memory) (w : Walk) (n : Nat) :
    w.maps cfg lp mem (n + 1)
      = if bit (w.entry cfg mem) 0 = false then none
        else if isLargePde lp.pse w.mode w.level (w.entry cfg mem) = true then some .large
        else if w.level = .pde ∨ w.level = .pte then some .ordinary
        else if reserved cfg lp.nxe lp.pse w.mode w.level (w.entry cfg mem) = true then none
        else ({ w with level := w.level.below, base := nextBase cfg w.mode (w.entry cfg mem) } : Walk).maps cfg lp mem n := by
  simp only [Walk.maps, Walk.entry, present, Bool.not_eq_true', Bool.or_eq_true, decide_eq_true_eq]
  congr

/-- An entry that is not present maps no page. -/
theorem Walk.maps_absent (hp : bit (w.entry cfg mem) 0 = false) (n : Nat) : w.maps cfg lp mem (n + 1) = none := by
  rw [Walk.maps_succ, if_pos hp]

/-- The PDE of a large page maps that page. -/
theorem Walk.maps_large (hp : bit (w.entry cfg mem) 0 = true)
    (hl : isLargePde lp.pse w.mode w.level (w.entry cfg mem) = true) (n : Nat) :
    w.maps cfg lp mem (n + 1) = some .large := by
  rw [Walk.maps_succ, if_neg (ne_false_of_eq_true hp), if_pos hl]

/-- Below any other PDE lie 4-KByte pages. -/
theorem Walk.maps_pde (hp : bit (w.entry cfg mem) 0 = true)
    (hl : ¬ isLargePde lp.pse w.mode w.level (w.entry cfg mem) = true) (hw : w.level = .pde) (n : Nat) :
    w.maps cfg lp mem (n + 1) = some .ordinary := by
  rw [Walk.maps_succ, if_neg (ne_false_of_eq_true hp), if_neg hl, if_pos (.inl hw)]

/-- At a PML4E or PDPTE without a reserved bit the structure it names decides. -/
theorem Walk.maps_upper (hp : bit (w.entry cfg mem) 0 = true) (hw : w.level = .pml4e ∨ w.level = .pdpe) (n : Nat) :
    w.maps cfg lp mem (n + 1)
      = if reserved cfg lp.nxe lp.pse w.mode w.level (w.entry cfg mem) = true then none
        else ({ w with level := w.level.below, base := nextBase cfg w.mode (w.entry cfg mem) } : Walk).maps cfg lp mem n := by
  have hlow : ¬ (w.level = .pde ∨ w.level = .pte) := by rcases hw with hw | hw <;> simp [hw]
  have hl : ¬ isLargePde lp.pse w.mode w.level (w.entry cfg mem) = true := fun h => hlow (.inl (isLargePde_iff.mp h).1)
  rw [Walk.maps_succ, if_neg (ne_false_of_eq_true hp), if_neg hl, if_neg hlow]

/-- With paging off, and where the PDPTR register is not present, memory maps no page (R132, R293). -/
theorem LP.maps_none {la : Word} (h : lp.pg = false ∨ lp.PdptrAbsent la) : lp.maps cfg mem la = none := by
  cases hpg : lp.pg with
  | false => simp [LP.maps, LP.mode, hpg]
  | true =>
    have habsent := h.resolve_left (by simp [hpg])
    simp [LP.maps, LP.mode, hpg, startFromRoot_absent habsent]

/-- Otherwise the entries are followed from the root, three levels deep at most. -/
theorem LP.maps_root {la : Word} (hpg : lp.pg = true) (h : ¬ lp.PdptrAbsent la) :
    lp.maps cfg mem la = (lp.rootWalk cfg la ⟨.read, false, true⟩).maps cfg lp mem 3 := by
  simp only [LP.maps, LP.mode, hpg, if_true, startFromRoot_present h]

end

/-- Settles O36: by what `isLargePde` says of an entry; a step at such an entry meets a leaf, and the search for the page that
memory maps follows the entries level by level. -/
theorem noPdeCacheEntryFromLargePage : Obligations.NoPdeCacheEntryFromLargePage := by
  refine ⟨?_, ?_, ?_, fun _ _ _ _ => ⟨LP.maps_none, LP.maps_root⟩⟩
  · intro cfg c lp mem w hpde hps hpse
    obtain ⟨-, -, hpdec⟩ := walkStep_psc_of_isLeaf (isLeaf_iff.mpr (.inr ⟨hpde, hps, hpse⟩)) c
    exact hpdec
  · intro pse w e large
    exact ⟨isLeaf_iff, fun h => Walk.pageBits_large (isLargePde_iff.mpr h),
      fun h => Walk.pageBits_ordinary (mt isLargePde_iff.mp h)⟩
  · intro cfg lp mem w n e large
    exact ⟨fun hp => Walk.maps_absent hp n, fun hp h => Walk.maps_large hp (isLargePde_iff.mpr h) n,
      fun hp h hpde => Walk.maps_pde hp (mt isLargePde_iff.mp h) hpde n, fun hp hw => Walk.maps_upper hp hw n⟩

end Sys2Proof.Machine
end

section
/-! SUPPORT. The other paging modes: what MOV to CR0 does as it completes, at once or with the last read of a PDPTR load (O12), when
that load faults (O14), and the page fault of a quarter whose PDPTR register is not present (O28). -/

namespace Sys2Proof.Machine

/-! ## The load of the PDPTR registers -/

/-- The load faults by an entry that breaks a must-be-zero bit and is checked (R299, P15). -/
theorem pdptrFaults_iff {cfg : Config} {x : Word} : pdptrFaults cfg x = true
    ↔ (cfg.pdptrCheckNotPresent = true ∨ bit x 0 = true)
      ∧ ∃ j, bit x j = true ∧ ((cfg.paw ≤ j ∧ j ≤ 63) ∨ (5 ≤ j ∧ j ≤ 8) ∨ (1 ≤ j ∧ j ≤ 2)) := by
  rw [pdptrFaults, Bool.and_eq_true, Bool.or_eq_true, reservedPdptr_iff]

/-- The load of four entries faults by one of them (R299). -/
theorem pdptFaults_iff {cfg : Config} {q : Pdptrs} :
    pdptFaults cfg q = true ↔ ∃ i, i < 4 ∧ pdptrFaults cfg (q.get i) = true := by
  simp only [pdptFaults, Bool.or_eq_true]
  constructor
  · rintro (((h | h) | h) | h)
    exacts [⟨0, by decide, h⟩, ⟨1, by decide, h⟩, ⟨2, by decide, h⟩, ⟨3, by decide, h⟩]
  · rintro ⟨i, hi, h⟩
    match i, hi, h with
    | 0, _, h => exact .inl (.inl (.inl h))
    | 1, _, h => exact .inl (.inl (.inr h))
    | 2, _, h => exact .inl (.inr h)
    | 3, _, h => exact .inr h

/-- The table that CR3 names is aligned on 32 bytes (R106). -/
theorem pdptBase_eq (c : Word) : pdptBase c = c.toNat / 32 % 2 ^ 27 * 32 := by
  simp [pdptBase, cat, field_eq]

/-- Settles O14: by the reserved bits of one entry. -/
theorem pdptFaultCondition : Obligations.PdptFaultCondition := by
  refine ⟨fun cfg q => ?_, fun c i => ?_⟩
  · simp only [pdptFaults_iff, pdptrFaults_iff]
  · rw [pdpteAddr, pdptBase_eq]

/-! ## A PDPTR register that is not present -/

/-- Settles O28: a translation that begins at the root, where no structure is. -/
theorem notPresentPdptrFaults : Obligations.NotPresentPdptrFaults := by
  intro s a p rest h hmode hroot habsent
  have hpg : s.lp.pg = true := by
    by_contra hpg
    simp [LP.mode_off (Bool.not_eq_true _ ▸ hpg)] at hmode
  have hcanon : s.lp.refuses p.la = false := by simp [LP.refuses, LP.inIA32e, hmode]
  rw [← habsent.1] at hroot
  have ht : translate s.cfg (s.choiceFor a p) s.lp p.la a.acc = .fault false false 12 :=
    (translate_root hpg hroot).trans (startFromRoot_absent habsent)
  exact ⟨_, (step_choosing h).trans (beginPage_fault hcanon ht), accessFault_pageFaults s.choice⟩

/-! ## MOV to CR0 -/

/-- When MOV to CR0 loads the PDPTR registers (R298 item 3, R305). -/
theorem cr0Loads_iff {cfg : Config} {v : Word} {lp : LP} : cr0Loads cfg v lp = true
    ↔ bit v 31 ≠ bit lp.cr0 31 ∧ lp.lma = false ∧ lp.pae = true
      ∧ ((bit v 31 = true ∧ lp.lme = false) ∨ (bit v 31 = false ∧ cfg.pdptrLoadWithPagingOff = true)) := by
  simp [cr0Loads, LP.pg, and_assoc]

/-- When MOV to CR0 raises GP(0) before any load (R305, R27). -/
theorem cr0Faults_iff {v : Word} {lp : LP} : cr0Faults v lp = true
    ↔ bit v 31 = true ∧ lp.pg = false ∧ lp.lme = true ∧ lp.pae = false := by
  simp [cr0Faults, and_assoc]

/-- A linear address has 64 bits in ModeIA32e and 32 bits else (R60). -/
theorem LP.linear_eq (lp : LP) (x : Word) :
    lp.linear x = if lp.mode = some .modeIA32e then x else (x.setWidth 32).setWidth 64 := by
  simp [LP.linear, LP.inIA32e]

/-- MOV to CR0 writes CR0, IA32_EFER and the PDPTR registers, and no other register. -/
theorem movCr0_registers (cfg : Config) (c : Choice) (v : Word) (q : Pdptrs) (lp : LP) :
    movCr0 cfg c v q lp = { lp with
      cr0 := v, efer := (movCr0 cfg c v q lp).efer, pdptr := q, walks := []
      tlb := (movCr0 cfg c v q lp).tlb, pml4c := (movCr0 cfg c v q lp).pml4c
      pdpc := (movCr0 cfg c v q lp).pdpc, pdec := (movCr0 cfg c v q lp).pdec } := by
  rw [movCr0, LP.modeChanged_eq]
  rfl

/-- With `Flush` a change of PG empties the caches (R305, R313). -/
theorem movCr0_flushes {cfg : Config} {v : Word} {lp : LP} (hf : cfg.modeChange = .flush) (hpg : bit v 31 ≠ lp.pg)
    (c : Choice) (q : Pdptrs) : (movCr0 cfg c v q lp).CachesEmpty := by
  have hchanged : (bit v 31 != lp.pg) = true := by simpa using hpg
  rw [movCr0, hchanged, LP.modeChanged_flush hf]
  exact ⟨rfl, rfl, rfl, rfl⟩

/-- MOV to CR0 does at its end what R305 and R313 say, also where a load of the PDPTR registers has just ended. -/
theorem finishMov_movedCr0 {s : State} {lp : LP} {ld : Option PdptrLoad} (h : s.lp = { lp with loading := ld }) (v : Word)
    (q : Pdptrs) : lp.MovedCr0 s.cfg (s.finishMov (.cr0 v) q).lp v q := by
  rw [finishMov_lp, h]
  obtain ⟨htlb, hpml4c, hpdpc, hpdec⟩ := ControlWrite.apply_removes s.cfg s.choice q { lp with loading := ld } (.cr0 v)
  have hefer := (ControlWrite.apply_control s.cfg s.choice q { lp with loading := ld } (.cr0 v)).efer
  refine ⟨?_, ?_, fun i hi => ?_, ⟨htlb, hpml4c, hpdpc, hpdec⟩,
    fun hf hpg => (movCr0_flushes (lp := { lp with loading := ld }) hf hpg s.choice q).advance 3⟩
  · rw [← LP.linear_eq, LP.advance, ControlWrite.apply, movCr0_registers]
    rfl
  · rw [LP.lma, LP.advance_efer, hefer]
    exact bit_putBit_same _ _ _ (by decide)
  · rw [LP.advance_efer, hefer]
    exact bit_putBit_other _ _ _ _ hi

/-- Settles O12: MOV to CR0 at CPL 0 that keeps R27 begins a load or completes, and completes with the last read of a load. -/
theorem movCr0Completes : Obligations.MovCr0Completes := by
  refine ⟨fun r s h0 => ?_, fun s v q h hq => ?_⟩
  · simp only [← operand_eq, ← cr0Loads_iff, ← cr0Faults_iff]
    intro hf
    have hw : ControlWrite.of s.lp (.movCr0 r) = some (.cr0 (s.lp.operand r)) := rfl
    replace hf : ControlWrite.faults s.lp (.cr0 (s.lp.operand r)) = false := Bool.not_eq_true _ ▸ hf
    exact ⟨fun hl => ⟨_, exec_mov_completes hw h0 hf (Bool.not_eq_true _ ▸ hl), finishMov_outside _ _ s,
      finishMov_movedCr0 rfl _ _, finishMov_loading _ _ s⟩, exec_mov_loads hw h0 hf⟩
  · exact ⟨_, step_lastRead_completes h hq, (finishMov_outside _ _ s.begun.loaded).of_loaded,
      finishMov_movedCr0 (s := s.begun.loaded) (ld := none) rfl v q, finishMov_loading _ q s.begun.loaded⟩

end Sys2Proof.Machine
end

section
/-! SUPPORT. WRMSR (O15, O16), CPUID (O17) and HLT (O18): when they raise GP(0), what they write and what they leave alone; and the
privilege that every instruction but CPUID needs (O19). -/

namespace Sys2Proof.Machine

/-! ## Every instruction -/

/-- Every instruction but CPUID needs CPL = 0 (R337). -/
theorem exec_unprivileged {i : Instr} {s : State} (hi : i ≠ .cpuid) (h : s.lp.cpl ≠ 0) : exec i s = .next s.reportsGp := by
  have hgp : ∀ k, s.privileged k = .next s.reportsGp := fun _ => if_neg h
  cases i with
  | cpuid => exact absurd rfl hi
  | _ => exact hgp _

/-- Settles O19: by the privilege check in front of each instruction but CPUID. -/
theorem privilegedInstructionsFault : Obligations.PrivilegedInstructionsFault := fun _ _ => exec_unprivileged

/-- An instruction leaves everything outside the acting logical processor alone. -/
theorem exec_sameOutside {i : Instr} {s t : State} (h : exec i s = .next t) : s.SameOutside t := by
  obtain ⟨hcfg, hmem, hothers, hinputs, hreads⟩ := exec_outside h
  exact ⟨hcfg, fun _ => by rw [hmem], hothers, hinputs, hreads⟩

/-! ## HLT -/

/-- HLT at CPL 0 (R336). -/
theorem exec_hlt {s : State} (h0 : s.lp.cpl = 0) : exec .hlt s = .next (s.complete 1 { s.lp with halted := true }) :=
  privileged_zero h0 _

/-- Settles O18: the halted state does not enter the width of `rip`. -/
theorem hltCompletes : Obligations.HltCompletes := fun _ h0 => ⟨_, exec_hlt h0, exec_sameOutside (exec_hlt h0), rfl⟩

/-! ## CPUID -/

/-- The low half of a register, as a number. -/
theorem LP.reg32_eq_iff {lp : LP} {r : Reg} {f : Dword} : lp.reg32 r = f ↔ (lp.gpr.get r).toNat % 2 ^ 32 = f.toNat := by
  rw [← BitVec.toNat_inj, LP.reg32, BitVec.toNat_setWidth]

/-- Function 80000001H enumerates XD and Intel 64 in EDX bits 20 and 29 (R334). -/
theorem cpuidResult_extendedFeatures (cfg : Config) :
    bit ((cpuidResult cfg 0x80000001 .edx).setWidth 64) 20 = cfg.hasXd
      ∧ bit ((cpuidResult cfg 0x80000001 .edx).setWidth 64) 29 = cfg.hasIntel64 := by
  cases hx : cfg.hasXd <;> cases hi : cfg.hasIntel64 <;> simp [cpuidResult, bit, hx, hi]

/-- Function 1 enumerates PSE-36 in EDX bit 17 (R334). -/
theorem cpuidResult_features (cfg : Config) : bit ((cpuidResult cfg 0x1 .edx).setWidth 64) 17 = cfg.pse36 := by
  cases hp : cfg.pse36 <;> simp [cpuidResult, bit, hp]

/-- Function 80000008H enumerates the physical-address width in EAX bits 7:0 (R334). -/
theorem cpuidResult_addressWidth (cfg : Config) :
    ((cpuidResult cfg 0x80000008 .eax).setWidth 64).toNat % 256 = cfg.paw := by
  have hpaw := paw_bounds cfg
  have hlow : (cpuidResult cfg 0x80000008 .eax).setWidth 8 = BitVec.ofNat 8 cfg.paw := by
    simp [cpuidResult, BitVec.setWidth_or, BitVec.setWidth_and]
  have h := congrArg BitVec.toNat hlow
  simp only [BitVec.toNat_setWidth, BitVec.toNat_ofNat] at h ⊢
  omega

/-- Settles O17: the result registers by function, and nothing else is written but `rip`. -/
theorem cpuidCompletes : Obligations.CpuidCompletes := by
  intro s
  have hf : ∀ f : Dword, s.lp.gpr.rax.toNat % 2 ^ 32 = f.toNat → s.lp.reg32 .rax = f := fun _ =>
    (LP.reg32_eq_iff (lp := s.lp) (r := .rax)).mpr
  refine ⟨_, rfl, exec_sameOutside (i := .cpuid) rfl, rfl, fun h => ?_, fun h => ?_, fun h => ?_⟩
  · simpa [hf 0x80000001 h] using cpuidResult_extendedFeatures s.cfg
  · simpa [hf 0x1 h] using cpuidResult_features s.cfg
  · simpa [hf 0x80000008 h] using cpuidResult_addressWidth s.cfg

/-! ## WRMSR -/

/-- The value WRMSR writes, as a number (R109). -/
theorem LP.eq_edxEax {lp : LP} {v : Word}
    (h : v.toNat = lp.gpr.rdx.toNat % 2 ^ 32 * 2 ^ 32 + lp.gpr.rax.toNat % 2 ^ 32) : v = lp.edxEax :=
  BitVec.eq_of_toNat_eq (h.trans lp.edxEax_toNat.symm)

/-- When a write of IA32_EFER raises GP(0) at CPL 0 (R331). -/
theorem eferFaults_iff {cfg : Config} {v : Word} {lp : LP} : eferFaults cfg v lp = true
    ↔ (cfg.hasXd = false ∧ cfg.hasIntel64 = false)
      ∨ (∃ i, bit v i = true ∧ ((12 ≤ i ∧ i ≤ 63) ∨ i = 9 ∨ (1 ≤ i ∧ i ≤ 7)))
      ∨ (bit v 11 = true ∧ cfg.hasXd = false) ∨ (bit v 8 = true ∧ cfg.hasIntel64 = false)
      ∨ (bit v 8 ≠ bit lp.efer 8 ∧ lp.pg = true) := by
  have hreserved : eferReserved v = true ↔ ∃ i, bit v i = true ∧ ((12 ≤ i ∧ i ≤ 63) ∨ i = 9 ∨ (1 ≤ i ∧ i ≤ 7)) := by
    rw [← Bool.not_eq_false, eferReserved_eq_false]
    push Not
    simp [and_comm]
  simp only [eferFaults, Bool.or_eq_true, hreserved, or_assoc]
  simp [LP.lme]

/-- WRMSR at CPL 0 (R331; another MSR: entry 11). -/
theorem exec_wrmsr {s : State} (h0 : s.lp.cpl = 0) : exec .wrmsr s =
    if s.lp.gpr.rcx.toNat % 2 ^ 32 ≠ 0xC0000080 ∨ eferFaults s.cfg s.lp.edxEax s.lp = true then .next s.reportsGp
    else .next (s.tick.complete 2 (wrmsrEfer s.cfg s.choice s.lp.edxEax s.lp)) := by
  have hmsr : s.lp.reg32 .rcx = eferAddress ↔ s.lp.gpr.rcx.toNat % 2 ^ 32 = 0xC0000080 := LP.reg32_eq_iff
  refine (privileged_zero h0 _).trans ?_
  simp only [Bool.or_eq_true, decide_eq_true_eq, ne_eq, hmsr]
  rfl

/-- WRMSR of IA32_EFER writes that register, and no other (R331). -/
theorem wrmsrEfer_registers (cfg : Config) (c : Choice) (v : Word) (lp : LP) :
    wrmsrEfer cfg c v lp = { lp with
      efer := eferWritten lp.efer v, walks := []
      tlb := (wrmsrEfer cfg c v lp).tlb, pml4c := (wrmsrEfer cfg c v lp).pml4c
      pdpc := (wrmsrEfer cfg c v lp).pdpc, pdec := (wrmsrEfer cfg c v lp).pdec } := by
  rw [wrmsrEfer, LP.modeChanged_eq]
  rfl

/-- With `Flush` a change of NXE empties the caches (R331, R313). -/
theorem wrmsrEfer_flushes {cfg : Config} {v : Word} {lp : LP} (hf : cfg.modeChange = .flush) (hn : bit v 11 ≠ lp.nxe)
    (c : Choice) : (wrmsrEfer cfg c v lp).CachesEmpty := by
  have hchanged : (bit v 11 != lp.nxe) = true := by simpa using hn
  rw [wrmsrEfer, hchanged, LP.modeChanged_flush hf]
  exact ⟨rfl, rfl, rfl, rfl⟩

/-- WRMSR of IA32_EFER leaves the width of linear addresses alone: it writes neither PG nor LMA. -/
theorem wrmsrEfer_linear (cfg : Config) (c : Choice) (v : Word) (lp : LP) (x : Word) :
    (wrmsrEfer cfg c v lp).linear x = lp.linear x := by
  have hcr0 : (wrmsrEfer cfg c v lp).cr0 = lp.cr0 := by simp [wrmsrEfer]
  have hlma : (wrmsrEfer cfg c v lp).lma = lp.lma := by simp [LP.lma, wrmsrEfer, eferWritten_bit]
  exact linear_congr (inIA32e_congr hcr0 hlma) x

/-- Settles O15: no case of R331 holds, and LMA is kept, so that `rip` goes on in the same mode. -/
theorem wrmsrEferCompletes : Obligations.WrmsrEferCompletes := by
  intro s v h0 hmsr hv hefer hreserved hxd hlm hpg
  obtain rfl := LP.eq_edxEax hv
  have hok : ¬ eferFaults s.cfg s.lp.edxEax s.lp = true := by
    rw [eferFaults_iff]
    rintro (⟨h1, h2⟩ | ⟨i, h1, h2⟩ | ⟨h1, h2⟩ | ⟨h1, h2⟩ | ⟨h1, h2⟩)
    · simp [h1, h2] at hefer
    · simp [hreserved i h2] at h1
    · simp [hxd h1] at h2
    · simp [hlm h1] at h2
    · simp [hpg h1] at h2
  have hexec := (exec_wrmsr h0).trans (if_neg (not_or.mpr ⟨not_not.mpr hmsr, hok⟩))
  obtain ⟨hremoves, -⟩ := exec_removes hexec
  refine ⟨_, hexec, exec_sameOutside hexec, hremoves, ?_, fun i => ?_,
    fun hf hn => (wrmsrEfer_flushes hf hn s.choice).advance 2⟩
  · rw [State.complete_lp, LP.advance, wrmsrEfer_linear, wrmsrEfer_registers]
    rfl
  · rw [State.complete_lp, LP.advance_efer, wrmsrEfer_registers]
    exact eferWritten_bit s.lp.efer s.lp.edxEax i

/-- Settles O16: a write that does not fault takes a free choice from the supply, and so is no GP(0). -/
theorem wrmsrFaults : Obligations.WrmsrFaults := by
  intro s v h0 hv
  obtain rfl := LP.eq_edxEax hv
  rw [exec_wrmsr h0, ← eferFaults_iff]
  split
  · exact iff_of_true ‹_› rfl
  · exact iff_of_false ‹_› fun h => complete_ne s s _ _ rfl rfl (Host.Outcome.next.inj h)

end Sys2Proof.Machine
end

section
/-! SUPPORT. The inputs of the other agents and of the enclosing model (O44, O50, O53), software that waits (O5), and how the bytes
of a part of an access move (O51, O52). -/

namespace Sys2Proof.Machine

/-! ## Software that waits -/

/-- Halted, or with an exception in the hands of the enclosing model, software issues nothing (R336, R358). -/
theorem software_waits {s : State} (hl : s.lp.loading = none) (ha : s.lp.access = none)
    (h : s.lp.halted = true ∨ s.lp.exc.isSome = true) : s.software = .done (.next s) := by
  simp [State.software, hl, ha, h]

/-- Settles O5: the input of the step is taken, and nothing else happens. -/
theorem softwareWaits : Obligations.SoftwareWaits := by
  intro s hn hl ha h
  rw [step_software hn, software_waits (s := s.begun) hl ha h]
  rfl

/-! ## The enclosing model -/

/-- Settles O53: `resume` waits for an operation in progress only, and `wake` for none. -/
theorem resumeAndWake : Obligations.ResumeAndWake := by
  refine ⟨fun s rip cpl rest h ha hl => ?_, fun s rest h => ?_⟩
  · exact step_input h nofun (delays_idle hl (.inr ha))
  · exact step_input h nofun rfl

/-! ## Another agent's store -/

/-- A store of another agent is made at any time; at an address that does not exist it stops (R333, R32). -/
theorem step_physStore {s : State} {pa : Nat} {bytes : List Byte} {rest : List Input}
    (h : s.inputs = .physStore pa bytes :: rest) : step s =
      if pa + bytes.length ≤ 2 ^ s.cfg.paw then .next { s with inputs := rest, mem := s.mem.writeBytes pa bytes }
      else .fault (.physicalAddressAbsent (pa + bytes.length - 1)) :=
  step_input h nofun rfl

/-- Settles O44: the store writes memory and nothing else. -/
theorem physStoreLeavesCaches : Obligations.PhysStoreLeavesCaches := by
  intro s pa bytes rest h
  rw [step_physStore h]
  refine ⟨fun hroom => ?_, fun habsent => if_neg (by omega)⟩
  exact ⟨_, if_pos hroom, rfl, rfl, s.mem.read_writeBytes pa bytes, fun x => s.mem.read_writeBytes_other pa x bytes⟩

/-! ## The beginning of an access -/

/-- A `Load`, a `Store` or a `Fetch` that waits for nothing begins an access: of the bytes to write, or of as many places for those
to be read (R330). -/
theorem step_issue {s : State} {i : Input} {k : AccessKind} {la : Word} {bytes : List Byte} {rest : List Input}
    (h : s.inputs = i :: rest)
    (hi : (k = .read ∧ i = .load la bytes.length) ∨ (k = .fetch ∧ i = .fetch la bytes.length)
      ∨ (k = .write ∧ i = .store la bytes))
    (hl : s.lp.loading = none) (ha : s.lp.access = none) (hh : s.lp.halted = false) :
    ∃ bs, step s = .next (State.issue k la bs { s with inputs := rest })
      ∧ bs.length = bytes.length ∧ (k = .write → bs = bytes) := by
  have hd : s.lp.delays i = false := delays_idle hl (.inr ha)
  rcases hi with ⟨rfl, rfl⟩ | ⟨rfl, rfl⟩ | ⟨rfl, rfl⟩
  · exact ⟨List.replicate bytes.length 0, by simp [step_input h nofun hd, State.handle, hh], List.length_replicate, nofun⟩
  · exact ⟨List.replicate bytes.length 0, by simp [step_input h nofun hd, State.handle, hh], List.length_replicate, nofun⟩
  · exact ⟨bytes, by simp [step_input h nofun hd, State.handle, hh], rfl, fun _ => rfl⟩

/-- Settles O50: the access that is begun holds CPL's privilege and all the parts. -/
theorem accessIsIssued : Obligations.AccessIsIssued := by
  intro s i k la bytes rest h hi hl ha hh
  obtain ⟨bs, hstep, hlen, hwrite⟩ := step_issue h hi hl ha hh
  have huser : s.lp.user = true ↔ s.lp.cpl = 3 := beq_iff_eq
  exact ⟨_, hstep, rfl, huser, rfl, rfl, hlen, hwrite, rfl, by rw [← hlen], rfl, rfl, rfl⟩

/-! ## How an access goes on after a part -/

section
variable {a : Access} (s : State)

/-- The next part of the same page follows (R330). -/
theorem nextPiece_covered {q : Piece} {x : Nat} {cs : List (Piece × Nat)} (h : a.covered = (q, x) :: cs) :
    s.nextPiece a = s.setAccess { a with covered := cs, phase := .translated q x } := by
  simp only [State.nextPiece, h]

/-- Another page is chosen (R330). -/
theorem nextPiece_choosing (h : a.covered = []) (ht : a.todo ≠ []) :
    s.nextPiece a = s.setAccess { a with phase := .choosing } := by
  simp [State.nextPiece, h, ht]

/-- The access is over (R330). -/
theorem nextPiece_finish (h : a.covered = []) (ht : a.todo = []) : s.nextPiece a = s.finishAccess a := by
  simp [State.nextPiece, h, ht]

end

/-- Nothing but the access changes as a write goes on: it has no result. -/
theorem nextPiece_write {a : Access} (h : a.kind = .write) (s : State) :
    ∃ acc, s.nextPiece a = { s with lp := { s.lp with access := acc } } := by
  rcases nextPiece_cases a s with ⟨_, _, _, -, e⟩ | ⟨-, -, e⟩ | ⟨-, -, e⟩ <;> rw [e]
  · exact ⟨_, rfl⟩
  · exact ⟨none, by simp [State.finishAccess, h]⟩
  · exact ⟨_, rfl⟩

/-! ## The bytes of a part -/

/-- A write of a part (R330, R62). -/
theorem performPiece_write {a : Access} (h : a.kind = .write) (p : Piece) (pa : Nat) (s : State) :
    s.performPiece a p pa = State.nextPiece { a with done := (pa, p.len) :: a.done }
      { s with mem := s.mem.writeBytes pa ((a.bytes.drop p.off).take p.len) } := if_pos h

/-- A read of a part (R330, R62). -/
theorem performPiece_read {a : Access} (h : a.kind ≠ .write) (p : Piece) (pa : Nat) (s : State) :
    s.performPiece a p pa = State.nextPiece { a with bytes := patch a.bytes p.off (s.mem.readBytes pa p.len) }
      (s.noteReads (addrsFrom pa p.len)) := if_neg h

/-- Settles O51: the bytes of the part go to memory, and each way to go on changes nothing but the access. -/
theorem storeWritesItsBytes : Obligations.StoreWritesItsBytes := by
  intro s a p pa h hk hlen a'
  have hpart : ((a.bytes.drop p.off).take p.len).length = p.len := by
    rw [List.length_take, List.length_drop]
    omega
  have hstep := step_performing h
  rw [performPiece_write hk] at hstep
  obtain ⟨acc, e⟩ := nextPiece_write (a := a') hk
    { s.begun with mem := s.mem.writeBytes pa ((a.bytes.drop p.off).take p.len) }
  have hacc := congrArg (fun t : State => t.lp.access) e
  refine ⟨_, hstep.trans (congrArg _ e), fun i hi hi' => ?_, fun x hx => ?_, rfl, rfl, rfl,
    fun hc ht => hacc.symm.trans ?_, fun hc ht => hacc.symm.trans ?_, fun q x cs hc => hacc.symm.trans ?_⟩
  · have hread := s.mem.read_writeBytes pa _ i (hpart.symm ▸ hi)
    rwa [List.getElem_take, List.getElem_drop] at hread
  · exact s.mem.read_writeBytes_other pa x _ (hpart.symm ▸ hx)
  · rw [nextPiece_finish (a := a') _ hc ht]
    rfl
  · rw [nextPiece_choosing (a := a') _ hc ht]
    rfl
  · rw [nextPiece_covered (a := a') _ hc]
    rfl

/-! ## Bytes put in their place, and the reads recorded -/

theorem patch_length {bytes new : List Byte} {off : Nat} (h : off + new.length ≤ bytes.length) :
    (patch bytes off new).length = bytes.length := by
  simp [patch]; omega

/-- The bytes from `off` on are the new ones, the others the old. -/
theorem patch_getElem {bytes new : List Byte} {off i : Nat} (h : off + new.length ≤ bytes.length)
    (hi : i < (patch bytes off new).length) (hi' : i < bytes.length) :
    (patch bytes off new)[i] = if hn : off ≤ i ∧ i < off + new.length then new[i - off] else bytes[i] := by
  have htake : (bytes.take off).length = off := by
    rw [List.length_take]
    omega
  simp only [patch, List.append_assoc, List.getElem_append, htake]
  rcases Nat.lt_or_ge i off with hlo | hlo
  · simp [hlo, Nat.not_le.mpr hlo]
  · rcases Nat.lt_or_ge i (off + new.length) with hhi | hhi
    · simp [hlo, hhi, Nat.not_lt.mpr hlo, show i - off < new.length by omega]
    · have hrest : off + new.length + (i - off - new.length) = i := by omega
      simp [hlo, Nat.not_lt.mpr hlo, Nat.not_lt.mpr hhi, show ¬ i - off < new.length by omega, hrest]

theorem mem_addrsFrom_iff {pa n x : Nat} : x ∈ addrsFrom pa n ↔ pa ≤ x ∧ x < pa + n := by
  refine ⟨mem_addrsFrom, fun h => ?_⟩
  induction n generalizing pa with
  | zero => omega
  | succ n ih =>
    rcases h.1.eq_or_lt with rfl | hlt
    · exact List.mem_cons_self
    · exact List.mem_cons_of_mem _ (ih ⟨hlt, by omega⟩)

/-- Where reads have side effects (R67, R70). -/
theorem hasReadSideEffect_iff {cfg : Config} {pa : Nat} :
    cfg.hasReadSideEffect pa = true ↔ ∃ r ∈ cfg.readSideEffect, r.1 ≤ pa ∧ pa < r.1 + r.2 := by
  simp [Config.hasReadSideEffect, inRegions]

/-- The reads recorded are those made where reads have side effects (R67; entry 24). -/
theorem State.mem_sideEffects_noteReads {s : State} {l : List Nat} {x : Nat} :
    x ∈ (s.noteReads l).sideEffects ↔ x ∈ s.sideEffects ∨ (x ∈ l ∧ s.cfg.hasReadSideEffect x = true) := by
  simp [State.noteReads, or_comm]

/-- Settles O52: the bytes of the part take their place in the access, and each way to go on changes the logical processor only. -/
theorem loadReadsItsBytes : Obligations.LoadReadsItsBytes := by
  intro s a p pa h hk hlen
  have hroom : p.off + (s.mem.readBytes pa p.len).length ≤ a.bytes.length := by rwa [Memory.readBytes_length]
  have hstep := step_performing h
  rw [performPiece_read hk] at hstep
  let a' : Access := { a with bytes := patch a.bytes p.off (s.mem.readBytes pa p.len) }
  obtain ⟨acc, res, e⟩ := nextPiece_eq a' (s.begun.noteReads (addrsFrom pa p.len))
  have hlp := congrArg State.lp e
  refine ⟨_, _, hstep.trans (congrArg _ e), patch_length hroom, fun i hi hi' => ?_, rfl, rfl, fun x => ?_,
    fun hc ht => hlp.symm.trans ?_, fun hc ht => hlp.symm.trans ?_, fun q x cs hc => hlp.symm.trans ?_⟩
  · rw [patch_getElem hroom hi hi']
    simp only [Memory.readBytes_length, Memory.readBytes_getElem, dite_eq_ite]
  · refine State.mem_sideEffects_noteReads.trans ?_
    rw [mem_addrsFrom_iff, hasReadSideEffect_iff, and_assoc]
    rfl
  · rw [nextPiece_finish (a := a') _ hc ht, State.finishAccess_lp, if_neg hk]
    rfl
  · rw [nextPiece_choosing (a := a') _ hc ht]
    rfl
  · rw [nextPiece_covered (a := a') _ hc]
    rfl

end Sys2Proof.Machine
end
